-- ==== Sys2Proof/Word.lean ====
section
/-! DEFINITION. The word types of the DT64: memory words, addresses, channel numbers and millisecond moments. -/

namespace Sys2Proof

/-- A memory word: 16 bits (00_scope.md, Addresses and words). -/
abbrev Word := BitVec 16

/-- A word address: 20 bits, from 00000h to FFFFFh (00_scope.md, Addresses and words). -/
abbrev Addr := BitVec 20

/-- A microphone channel, 0 to 63 (00_scope.md, Channels). -/
abbrev Chan := Fin 64

/-- A value of the running count of millisecond ticks: 32 bits, wrapping (R184). -/
abbrev Millis := BitVec 32

end Sys2Proof
end

