-- ==== Sys2Proof/Syntax.lean ====
section
/-! DEFINITION. The commands of the block: one constructor of `Instr` for each row of spec/opcode_table.json, with the
operands its rule needs. -/

namespace Sys2Proof

/-- An access of the chamber processor at the processor port (R120). -/
inductive Access where
  | read (addr : Addr)
  | write (addr : Addr) (data : Word)
  deriving DecidableEq, Repr

/-- The word address an access names. -/
def Access.addr : Access → Addr
  | .read a => a
  | .write a _ => a

/-- The three lamps of the chair's desk (10_lamps_and_the_alert_line.md). -/
inductive Lamp where
  | battery
  | signal
  | mute
  deriving DecidableEq, Repr

/-- The two sources of power reset (R162). -/
inductive PowerSource where
  /-- the line PWRRST_N -/
  | pin
  /-- the internal supply detector -/
  | supply
  deriving DecidableEq, Repr

/-- The levels of the straps, a high level read as `true` (R122, R183). -/
structure Straps where
  sbase1 : Bool
  sbase0 : Bool
  observe : Bool
  deriving DecidableEq, Repr

/-- The three words of a telemetry record that fill a staging field: W0, W1, W2 (R5). -/
inductive FrameWord where
  | link
  | battery
  | switch
  deriving DecidableEq, Repr

/-- The offset of a word in a telemetry record (R3). -/
def FrameWord.offset : FrameWord → Nat
  | .link => 0
  | .battery => 1
  | .switch => 2

/-- An access to the alert window that HALT overtakes while it is answered (R119), and what its answer has read by then: the view,
before HALT empties it; the alert list unit, before HALT clears it. What it has not read it reads after. -/
structure Overtaken where
  access : Access
  viewRead : Bool
  listRead : Bool
  deriving DecidableEq, Repr

/-- The commands, in the order of spec/opcode_table.json. A command that presents an access at the processor port
carries what the access carries; a step by which one block takes what another has sent carries nothing, since it
takes the message that waits first on its path (log 4). -/
inductive Instr where
  | powerResetAssert (source : PowerSource)
  | powerResetRelease (source : PowerSource) (straps : Straps)
  | settleTimerExpiry
  | busrstAssert
  | busrstRelease
  | forward (a : Access)
  | heldAccess (a : Access)
  | memoryAccessEnd
  | setupCopyWrite (word : Fin 36) (data : Word)
  | start (low : BitVec 8)
  | apply (low : BitVec 8)
  /-- with `answering`, an access to the alert window that arrived before HALT and whose answer is not complete when HALT is taken
  (R119, log 33) -/
  | halt (low : BitVec 8) (answering : Option Overtaken := none)
  | mute (channel : BitVec 8)
  | unmute (channel : BitVec 8)
  | ackAll (low : BitVec 8)
  | unknownCode (code : BitVec 8) (low : BitVec 8)
  | stagingFill (c : Chan) (word : FrameWord) (data : Word)
  | commit (c : Chan) (data : Word)
  | frameEvaluation (c : Chan)
  | dropoutTimerExpiry (c : Chan)
  | freshnessTimerExpiry (c : Chan)
  | dropoutWindowExpiry (c : Chan)
  | openIdleExpiry (c : Chan)
  | chairRequest
  | takenFloorChange
  | silenceChange
  | captureRelease (c : Chan)
  | membershipChange
  | channelTableReset
  | causeChangeNotice
  | enrolmentChange
  | setupChange
  | writeFilter (c : Chan) (data : Word)
  | cedeAssert
  | cedeFall
  | claimTimerExpiry
  | burstWriteEnd
  | loadRequest
  /-- with `filterFirst`, a gain write held during the load is filtered before the enforced channels are queued (R153, log 24) -/
  | loadReadEnd (filterFirst : Bool := false)
  | enforcementHalt
  | restoreDoneReport
  | stallReport
  | stallEndReport
  | claimStalledActive
  | claimStalledInactive
  | conditionRaise
  | conditionKindChange
  | conditionClear
  | removal
  | alertListClearing
  | snapshot
  | readMark (entry : Fin 32)
  | acknowledgementWrite (entry : Fin 32) (value : Word)
  | discardedWrite (offset : Fin 512) (data : Word)
  | periodBoundary (lamp : Lamp)
  | patternsPending
  | floorLineChange (asserted : Bool)
  | debounceExpiry
  | secondsStep
  | onTimeEnd (lamp : Lamp)
  deriving DecidableEq, Repr

end Sys2Proof
end

