-- ==== Sys2Proof/Config.lean ====
section
/-! DEFINITION. What the part fixes (fixed figures of the spec) and the one free value the spec leaves open. -/

namespace Sys2Proof.Config

/-- REFCLK periods in one millisecond tick (R183, R184). -/
def refclkPerTick : Nat := 4096

/-- Ticks in one step of the seconds count (R183, R184). -/
def ticksPerSecond : Nat := 1000

/-- The settle interval after the release of power reset, in ms (R163). -/
def settleMillis : Nat := 4

/-- The debounce time of the floor line, in ms (R180). -/
def debounceMillis : Nat := 10

/-- The claim timeout, in ms (R143). -/
def claimMillis : Nat := 5

/-- The recovery margin of a fade, in levels (R20). -/
def recoveryMargin : Nat := 3

/-- The most writes one claim cycle makes (R149). -/
def burstLimit : Nat := 64

/-- The capacity of the alert list (R77, R79). -/
def listCapacity : Nat := 32

/-- The length of one pattern unit, in ms (R177). -/
def patternUnitMillis : Nat := 50

/-- The signature of a setup block (R165). -/
def signature : Word := 0xD764#16

/-- What a word of the static memory reads as while nothing has been stored in it.
DESIGN CHOICE, unsafe: the spec gives the memory no contents at power-up (log 2). -/
def memoryDefault : Word := 0x0000#16

/-- How often the ranking rule's two steps may be tried in one event (R93). DESIGN CHOICE, safe: with at
most 32 entries no event needs more than 96 of them (log 31). -/
def rankingTries : Nat := 128

/-- FREE VALUE. Whether the `n`-th memory write that a power reset withdraws has reached memory: R132 says that the
word "holds either its old word or the written word". Nothing constrains it (log 17). -/
opaque withdrawnWriteStored : Nat → Bool

end Sys2Proof.Config
end

