-- ==== Sys2Proof/Machine/State.lean ====
section
/-! DEFINITION. The state of the DT64, block by block as the spec gives it, with the messages the blocks have sent each
other, the static memory, the lines and the queue of commands; its value at reset; the reasons a step can stop. -/

namespace Sys2Proof.Machine

/-! ## Timers -/

/-- A timer (R15): stopped, running with an expiry moment, or `due`: the tick has reached the expiry moment, the timer
has stopped, and its expiry has been delivered but not yet taken (log 10). -/
inductive Timer where
  | stopped
  | running (expiry : Millis)
  | due
  deriving DecidableEq, Repr

/-! ## Channel records (R1, R2, R10) -/

/-- A channel's role (R1). -/
inductive Role where
  | chair
  | delegate
  deriving DecidableEq, Repr

/-- The six link states (02_signal_supervision.md, Link States). -/
inductive LinkState where
  | absent
  | locked
  | weak
  | dropout
  | lost
  | silent
  deriving DecidableEq, Repr

/-- The five battery states (03_battery_supervision.md). -/
inductive BatteryState where
  | unknown
  | good
  | notice
  | low
  | critical
  deriving DecidableEq, Repr

/-- A battery's chemistry. -/
inductive Chemistry where
  | primary
  | rechargeable
  deriving DecidableEq, Repr

/-- A record of the dropout capture (R35): ending RETURNED always has a duration in milliseconds, ending LIMIT always
has duration SATURATED. -/
inductive CaptureRecord where
  | returned (millis : Nat)
  | limit
  deriving DecidableEq, Repr

/-- The active condition set (R2): each of the nine conditions is in the set or not. -/
structure ConditionSet where
  notice : Bool
  low : Bool
  critical : Bool
  weak : Bool
  dropouts : Bool
  lost : Bool
  noReport : Bool
  openIdle : Bool
  mutedSpeech : Bool
  deriving DecidableEq, Repr

/-- The empty active condition set. -/
def ConditionSet.empty : ConditionSet :=
  { notice := false, low := false, critical := false, weak := false, dropouts := false, lost := false,
    noReport := false, openIdle := false, mutedSpeech := false }

/-- One record of the channel table (01_channel_records_and_telemetry_intake.md, The Channel Table). -/
structure ChannelRecord where
  enrolled : Bool
  role : Role
  squelchEnabled : Bool
  link : LinkState
  lastRf : BitVec 7
  fadeRun : Nat
  dropoutTimer : Timer
  dropoutStamp : Millis
  freshTimer : Timer
  dropoutCount : Nat
  windowTimer : Timer
  dropoutsRaised : Bool
  capture : Option CaptureRecord
  captureHeld : Bool
  captureMissed : Nat
  battery : BatteryState
  batteryLevel : Option (BitVec 7)
  chemistry : Option Chemistry
  selfMuted : Bool
  chairCause : Bool
  floorCause : Bool
  squelchCause : Bool
  lastAudio : Option (BitVec 6)
  speechCount : Nat
  mutedSpeechRaised : Bool
  idleTimer : Timer
  openIdleRaised : Bool
  active : ConditionSet
  deriving DecidableEq, Repr

/-- The values of a record after power reset and HALT (R10). -/
def ChannelRecord.powerReset : ChannelRecord :=
  { enrolled := false, role := .delegate, squelchEnabled := false,
    link := .absent, lastRf := 0, fadeRun := 0, dropoutTimer := .stopped, dropoutStamp := 0, freshTimer := .stopped,
    dropoutCount := 0, windowTimer := .stopped, dropoutsRaised := false,
    capture := none, captureHeld := false, captureMissed := 0,
    battery := .unknown, batteryLevel := none, chemistry := none,
    selfMuted := false, chairCause := false, floorCause := false, squelchCause := false, lastAudio := none,
    speechCount := 0, mutedSpeechRaised := false, idleTimer := .stopped, openIdleRaised := false,
    active := .empty }

/-! ## Staging records and frames (R5, R7) -/

/-- The contents of a link word (R3). -/
structure LinkWord where
  rf : BitVec 7
  lock : Bool
  tag : BitVec 4
  deriving DecidableEq, Repr

/-- The contents of a battery word (R3). -/
structure BatteryWord where
  level : BitVec 7
  chemistry : Chemistry
  deriving DecidableEq, Repr

/-- The contents of a switch word (R3). -/
structure SwitchWord where
  talkOn : Bool
  audio : BitVec 6
  deriving DecidableEq, Repr

/-- A staging record: three optional fields (R5). -/
structure Staging where
  link : Option LinkWord
  battery : Option BatteryWord
  switch : Option SwitchWord
  deriving DecidableEq, Repr

/-- A staging record with all three fields empty (R13). -/
def Staging.empty : Staging := { link := none, battery := none, switch := none }

/-- The frame a valid commit hands to the evaluator (R7). The frame tag is not kept beyond the commit (R3). -/
structure Frame where
  rf : BitVec 7
  lock : Bool
  battery : Option BatteryWord
  switch : Option SwitchWord
  deriving DecidableEq, Repr

/-! ## The alert list unit (R76 to R106) -/

/-- The channel of an alert entry: a microphone, or 255 for the part itself. -/
inductive AlertChannel where
  | mic (c : Chan)
  | part
  deriving DecidableEq, Repr

/-- The families of conditions and alerts. -/
inductive Family where
  | battery
  | signal
  | mute
  | part
  deriving DecidableEq, Repr

/-- The kinds of alert entries: the nine conditions and CLAIM_STALLED (R76). -/
inductive Kind where
  | notice
  | low
  | critical
  | weak
  | dropouts
  | lost
  | noReport
  | openIdle
  | mutedSpeech
  | claimStalled
  deriving DecidableEq, Repr

/-- How far the console has dealt with an entry (R80). -/
inductive EntryState where
  | new
  | seen
  | acked
  | cleared
  deriving DecidableEq, Repr

/-- An alert entry (R76). Its severity follows its kind at all times and is `Kind.severity` of it (log 23). -/
structure AlertEntry where
  channel : AlertChannel
  family : Family
  kind : Kind
  state : EntryState
  seq : Word
  stamp : Word
  deriving DecidableEq, Repr

/-- A member of the unlisted set: a channel pair with its current kind (R81). -/
structure UnlistedPair where
  channel : Chan
  family : Family
  kind : Kind
  deriving DecidableEq, Repr

/-- The latest raise record (R103); its severity is that of its kind. -/
structure RaiseRecord where
  channel : AlertChannel
  family : Family
  kind : Kind
  seq : Word
  stamp : Word
  deriving DecidableEq, Repr

/-- The results of an acknowledgement write (R98, R99). -/
inductive AckResult where
  | noEntry
  | accepted
  | already
  | gone
  | mismatch
  deriving DecidableEq, Repr

/-- The six pieces of state of the alert list unit. The unlisted set is kept in ascending channel number, then in the
order BATTERY, SIGNAL, MUTE, without repeats, so that equal sets are equal data. -/
structure AlertUnit where
  list : List AlertEntry
  unlisted : List UnlistedPair
  nextSeq : Word
  gen : Word
  latest : Option RaiseRecord
  ackResult : AckResult
  ackValue : Word
  deriving DecidableEq, Repr

/-- The alert list unit after power reset, START and HALT (R106). -/
def AlertUnit.cleared : AlertUnit :=
  { list := [], unlisted := [], nextSeq := 1, gen := 0, latest := none, ackResult := .noEntry, ackValue := 0 }

/-- The alert view (R108). -/
structure View where
  gen : Word
  count : Nat
  entries : Vector (Option AlertEntry) 32
  deriving DecidableEq, Repr

/-- The emptied view (R108). -/
def View.emptied : View := { gen := 0, count := 0, entries := Vector.replicate 32 none }

/-! ## The setup and command unit (R161 to R175) -/

/-- Words 0 to 35 of a setup block. -/
abbrev SetupWords := Vector Word 36

/-- Thirty-six words of zeros: the setup copy after power reset (R164), and what a setting reads as while there is no
working setup (log 12). -/
def SetupWords.zero : SetupWords := Vector.replicate 36 0

/-- The part state (R161). -/
inductive PartState where
  | settling
  | passive
  | loading
  | active
  | releasing
  deriving DecidableEq, Repr

/-- The freeze level (R167). -/
inductive Freeze where
  | none
  | session
  | permanent
  deriving DecidableEq, Repr

/-- The effective mode (R166). -/
inductive Mode where
  | enforce
  | observe
  deriving DecidableEq, Repr

/-- The reasons of a rejected setup, in the order they are checked (R165). -/
inductive Reason where
  | incomplete
  | signature
  | check
  | range
  | order
  | overlap
  | windowsFixed
  deriving DecidableEq, Repr

/-- The result field of the command status, with the reason of a rejection (R168). -/
inductive CommandResult where
  | idle
  | inProgress
  | done
  | refusedState
  | refusedChannel
  | refusedFrozen
  | refusedCode
  | rejected (reason : Reason)
  deriving DecidableEq, Repr

/-- The state of the setup and command unit. -/
structure SetupUnit where
  copy : SetupWords
  marks : Vector Bool 36
  working : Option SetupWords
  part : PartState
  settle : Timer
  freeze : Freeze
  result : CommandResult
  lastCode : BitVec 8
  stalledFlag : Bool
  busyFlag : Bool
  deriving DecidableEq, Repr

/-- The setup and command unit after power reset (09_setup_commands_and_part_states.md, opening table). -/
def SetupUnit.powerReset : SetupUnit :=
  { copy := .zero, marks := Vector.replicate 36 false, working := none, part := .settling, settle := .stopped,
    freeze := .none, result := .idle, lastCode := 0, stalledFlag := false, busyFlag := false }

/-! ## The enforcement unit (R133 to R160) -/

/-- The claim state (R142). -/
inductive ClaimState where
  | idle
  | claiming
  | ceded
  | releasingBus
  deriving DecidableEq, Repr

/-- The purpose of a claim (R142). -/
inductive Purpose where
  | burst
  | load
  deriving DecidableEq, Repr

/-- The state of the enforcement unit. -/
structure EnforcementUnit where
  intended : Vector Word 64
  queue : List Chan
  claim : ClaimState
  purpose : Option Purpose
  stalled : Bool
  claimTimer : Timer
  burstCount : Nat
  loadPosition : Option Chan
  /-- CEDE_N has fallen in CEDED and the own access has not yet ended (R145) -/
  broken : Bool
  /-- the own access in progress belongs to a claim that a bus reset dropped (R158, log 15) -/
  orphan : Bool
  deriving DecidableEq, Repr

/-- The enforcement unit after power reset (R159). That no purpose is held in IDLE, here and after each claim, is the model's choice
(log 35): R142 names burst and load, and gives the purpose no value while no claim stands. -/
def EnforcementUnit.powerReset : EnforcementUnit :=
  { intended := Vector.replicate 64 0, queue := [], claim := .idle, purpose := none, stalled := false,
    claimTimer := .stopped, burstCount := 0, loadPosition := none, broken := false, orphan := false }

/-! ## The memory path (R120 to R132) -/

/-- The decoded window bases (R123). -/
structure Bases where
  telemetry : Addr
  gain : Addr
  alert : Addr
  deriving DecidableEq, Repr

/-- An access served at the memory port, by its source (R121). -/
inductive PortAccess where
  /-- a processor access, with the word that goes to memory -/
  | processor (a : Access)
  /-- a read of the load -/
  | loadRead (c : Chan) (addr : Addr)
  /-- a write of a burst -/
  | burstWrite (c : Chan) (addr : Addr) (word : Word)
  deriving DecidableEq, Repr

/-- The processor access in progress: as presented; whether its READY waits for the enforcement unit's taking of HALT
(log 13); whether memory has ended it; the word memory returned. -/
structure InProgress where
  access : Access
  awaitsHalt : Bool
  ended : Bool
  data : Option Word
  deriving DecidableEq, Repr

/-- What the processor port returned with READY: the access, and for a read its word (R120). -/
structure Completion where
  access : Access
  data : Option Word
  deriving DecidableEq, Repr

/-- An access to the alert window that arrived in ACTIVE and whose answer HALT has overtaken (R119, log 33): the access, and the
view and the alert list unit as its answer has read them, if it has read them before HALT. -/
structure Answering where
  access : Access
  view : Option View
  list : Option AlertUnit
  deriving DecidableEq, Repr

/-- The levels of the memory port's outputs (R183): address, data, direction (M_WRITE) and request (M_REQ). -/
structure PortLines where
  addr : Addr
  data : Word
  write : Bool
  req : Bool
  deriving DecidableEq, Repr

/-- The state of the memory path and of the two ports. -/
structure PathUnit where
  straps : Straps
  bases : Option Bases
  port : Option PortAccess
  waiting : Option PortAccess
  processor : Option InProgress
  held : Option Access
  presented : Option Access
  answering : Option Answering
  completion : Option Completion
  lines : PortLines
  deriving DecidableEq, Repr

/-- The memory path at power-up. The straps are latched at the release of power reset (R122); before the first release
they are low (DESIGN CHOICE, log 3). The lines of the memory port are low (DESIGN CHOICE, log 26). -/
def PathUnit.powerUp : PathUnit :=
  { straps := { sbase1 := false, sbase0 := false, observe := false }, bases := none, port := none, waiting := none,
    processor := none, held := none, presented := none, answering := none, completion := none,
    lines := { addr := 0, data := 0, write := false, req := false } }

/-! ## The lamp driver (R176 to R180) -/

/-- A lamp's mode (R176). -/
inductive LampMode where
  | off
  | steady
  | slow
  | fast
  deriving DecidableEq, Repr

/-- A pattern: period and on-time, in units of 50 ms. -/
structure Pattern where
  period : Nat
  onTime : Nat
  deriving DecidableEq, Repr

/-- A slow and a fast pattern. -/
structure Patterns where
  slow : Pattern
  fast : Pattern
  deriving DecidableEq, Repr

/-- One lamp: mode, patterns in use and pending, phase, and the level of its line. -/
structure LampState where
  mode : LampMode
  inUse : Option Patterns
  pending : Option Patterns
  phase : Nat
  lit : Bool
  deriving DecidableEq, Repr

/-- A lamp after power reset (10_lamps_and_the_alert_line.md, opening table; R183). -/
def LampState.powerReset : LampState := { mode := .off, inUse := none, pending := none, phase := 0, lit := false }

/-- The enables of the alert line (R179). -/
structure Enables where
  battery : Bool
  signal : Bool
  mute : Bool
  part : Bool
  deriving DecidableEq, Repr

/-- The state of the lamp driver. -/
structure LampUnit where
  battery : LampState
  signal : LampState
  mute : LampState
  enables : Enables
  debounced : Bool
  debounce : Timer
  deriving DecidableEq, Repr

/-- The lamp driver after power reset. -/
def LampUnit.powerReset : LampUnit :=
  { battery := .powerReset, signal := .powerReset, mute := .powerReset,
    enables := { battery := false, signal := false, mute := false, part := false },
    debounced := false, debounce := .stopped }

/-! ## The timebase (R184) and the lines -/

/-- The four counters of the timebase (R184). -/
structure Timebase where
  divider : Nat
  ticks : Millis
  seconds : Word
  phase : Nat
  deriving DecidableEq, Repr

/-- The timebase at power reset: all four are 0 (R184). -/
def Timebase.powerReset : Timebase := { divider := 0, ticks := 0, seconds := 0, phase := 0 }

/-- The input lines, `true` when asserted, and the supply detector (`true` while the supply stands below 2.90 V). -/
structure InputLines where
  powerPin : Bool
  supplyLow : Bool
  busrst : Bool
  cede : Bool
  floor : Bool
  deriving DecidableEq, Repr

/-! ## Messages in flight between the blocks (log 4) -/

/-- Setup and command unit to channel evaluator: a chair request (R56), a membership change (R11, R12) and the reset of the
table at START (R10), the last two with the channel they have come to (log 11). HALT resets the table within its own step
(R171, log 32). -/
inductive ToEvaluator where
  | chair (c : Chan) (set : Bool)
  | membership (words : SetupWords) (next : Chan)
  | tableReset (next : Chan)
  deriving DecidableEq, Repr

/-- Lamp driver to channel evaluator: a taken floor change, with the channel it has come to (R57). -/
structure FloorChange where
  asserted : Bool
  next : Chan
  deriving DecidableEq, Repr

/-- Channel evaluator to alert list unit: a condition event (R9). -/
inductive ConditionEvent where
  | raised (c : Chan) (family : Family) (kind : Kind)
  | changed (c : Chan) (family : Family) (kind : Kind)
  | cleared (c : Chan) (family : Family)
  deriving DecidableEq, Repr

/-- Setup and command unit to alert list unit: a removal of de-enrolled channels (R105), the clearing of START
(R106). HALT clears the list within its own step (R171, log 32). -/
inductive ToList where
  | removal (channels : List Chan)
  | clearing
  deriving DecidableEq, Repr

/-- Channel evaluator to enforcement unit: a cause-change notice (R72), an enrolment change (R11). -/
inductive Notice where
  | causeChange (c : Chan)
  | enrolment (c : Chan)
  deriving DecidableEq, Repr

/-- Setup and command unit to enforcement unit: a setup change (R139), a load request (R152), HALT (R155). -/
inductive ToEnforcement where
  | setupChange (old new : SetupWords)
  | loadRequest
  | halt
  deriving DecidableEq, Repr

/-- Enforcement unit to setup and command unit: a stall report, a stall-end report (R174), a restore-done report (R156). -/
inductive ToSetup where
  | stall
  | stallEnd
  | restoreDone
  deriving DecidableEq, Repr

/-- What the blocks have sent each other and the receivers have not yet taken: one first-in first-out list for each
sender and receiver. -/
structure Mail where
  frames : List (Chan × Frame)
  toEvaluator : List ToEvaluator
  floor : List FloorChange
  silence : List Chan
  conditions : List ConditionEvent
  /-- CLAIM_STALLED becoming active (`true`) or inactive (`false`), from the enforcement unit (R96) -/
  stalls : List Bool
  toList : List ToList
  notices : List Notice
  toEnforcement : List ToEnforcement
  toSetup : List ToSetup
  /-- the working setup of an APPLY, for the lamp driver (R170) -/
  toLamps : List SetupWords
  deriving DecidableEq, Repr

/-- No message in flight. -/
def Mail.empty : Mail :=
  { frames := [], toEvaluator := [], floor := [], silence := [], conditions := [], stalls := [], toList := [],
    notices := [], toEnforcement := [], toSetup := [], toLamps := [] }

/-! ## The static memory -/

/-- The static memory: its listed words, addresses strictly rising, no word listed that equals what an unlisted address
reads as (`Memory.wf` of Machine/Ops.lean). -/
abbrev Memory := List (Nat × Word)

/-! ## The state -/

/-- The state of the DT64, of the memory behind it, of its lines, and the queue of commands that wait. -/
structure State where
  memory : Memory
  path : PathUnit
  staging : Vector Staging 64
  channels : Vector ChannelRecord 64
  alert : AlertUnit
  view : View
  enf : EnforcementUnit
  setup : SetupUnit
  lamps : LampUnit
  time : Timebase
  lines : InputLines
  mail : Mail
  /-- the model's own: how many free values have been drawn (log 17) -/
  draws : Nat
  /-- the commands that wait, first in, first out -/
  pending : List Instr
  deriving DecidableEq, Repr

/-- The machine right after reset: at power-up, with power reset asserted by the supply detector and not yet released, every
block at its power-reset values (R162; DESIGN CHOICE for the lines, log 1), the memory with nothing listed (log 2), the
queue empty. -/
def State.reset : State :=
  { memory := [], path := .powerUp, staging := Vector.replicate 64 .empty,
    channels := Vector.replicate 64 .powerReset, alert := .cleared, view := .emptied, enf := .powerReset,
    setup := .powerReset, lamps := .powerReset, time := .powerReset,
    lines := { powerPin := false, supplyLow := true, busrst := false, cede := false, floor := false },
    mail := .empty, draws := 0, pending := [] }

/-! ## Stops -/

/-- The faults of the part: none. Every address of the 20-bit space exists and the spec names no event that stops the
part, so no command raises one. Safe: an empty type forbids no behaviour of the part. -/
inductive Fault where
  deriving DecidableEq, Repr

/-- The refusals of the model. -/
inductive Refusal where
  /-- Raised by `exec` for a command that has no meaning yet. No command raises it now. Safe: the model stops where the
  part goes on. -/
  | notModelled (mnemonic : String)
  deriving DecidableEq, Repr

end Sys2Proof.Machine
end

