-- ==== Sys2Proof/Machine/Operands.lean ====
section
/-! DEFINITION. The written formats (R181): the fields of telemetry words, gain words, setup words and command words, and the
addresses of the windows (R122, R123). -/

namespace Sys2Proof.Machine

/-! ## Telemetry words (R3, R181) -/

/-- The fields of W0: RF level in bits 6 to 0, pilot lock in bit 7, frame tag in bits 11 to 8. -/
def linkWordOf (w : Word) : LinkWord :=
  { rf := w.extractLsb' 0 7, lock := w.getLsbD 7, tag := w.extractLsb' 8 4 }

/-- The fields of W1: level in bits 6 to 0, chemistry in bit 7. -/
def batteryWordOf (w : Word) : BatteryWord :=
  { level := w.extractLsb' 0 7, chemistry := if w.getLsbD 7 then .rechargeable else .primary }

/-- The fields of W2: audio level in bits 5 to 0, talk switch in bit 7. -/
def switchWordOf (w : Word) : SwitchWord :=
  { talkOn := w.getLsbD 7, audio := w.extractLsb' 0 6 }

/-- The field of W3: the frame tag in bits 3 to 0. -/
def commitTagOf (w : Word) : BitVec 4 := w.extractLsb' 0 4

/-! ## Gain words (R133, R181) -/

/-- The gain code: bits 7 to 0. -/
def gainCode (w : Word) : BitVec 8 := w.extractLsb' 0 8

/-- The route: bits 15 to 8. -/
def gainRoute (w : Word) : BitVec 8 := w.extractLsb' 8 8

/-- A gain word with its gain code replaced and its route kept (R134). -/
def withGainCode (w : Word) (code : BitVec 8) : Word := gainRoute w ++ code

/-! ## Command words (R168, R181) -/

/-- The command code: bits 15 to 8. -/
def commandCode (w : Word) : BitVec 8 := w.extractLsb' 8 8

/-- The channel number: bits 7 to 0. -/
def commandChannel (w : Word) : BitVec 8 := w.extractLsb' 0 8

/-! ## Setup words (R181) -/

/-- Bits 7 to 0 of a setup word. -/
def lowByte (w : Word) : Nat := (w.extractLsb' 0 8).toNat

/-- Bits 15 to 8 of a setup word. -/
def highByte (w : Word) : Nat := (w.extractLsb' 8 8).toNat

def SetupWords.telemetryBlock (w : SetupWords) : Nat := w[1].toNat
def SetupWords.gainBlock (w : SetupWords) : Nat := w[2].toNat
def SetupWords.alertBlock (w : SetupWords) : Nat := w[3].toNat

/-- Word 4, bits 1 to 0. -/
def SetupWords.modeRequest (w : SetupWords) : Nat := (w[4].extractLsb' 0 2).toNat

/-- Word 4, bits 5 to 4. -/
def SetupWords.freezeField (w : SetupWords) : Nat := (w[4].extractLsb' 4 2).toNat

/-- The mark of channel `c` in the enrolment mask, words 5 to 8. -/
def SetupWords.enrols (w : SetupWords) (c : Chan) : Bool :=
  (w[5 + c.val / 16]'(by omega)).getLsbD (c.val % 16)

/-- The mark of channel `c` in the chair role mask, words 9 to 12. -/
def SetupWords.isChair (w : SetupWords) (c : Chan) : Bool :=
  (w[9 + c.val / 16]'(by omega)).getLsbD (c.val % 16)

/-- The mark of channel `c` in the squelch mask, words 13 to 16. -/
def SetupWords.squelches (w : SetupWords) (c : Chan) : Bool :=
  (w[13 + c.val / 16]'(by omega)).getLsbD (c.val % 16)

/-- The role the masks give channel `c` (R1). -/
def SetupWords.roleOf (w : SetupWords) (c : Chan) : Role := if w.isChair c then .chair else .delegate

def SetupWords.fadeLevel (w : SetupWords) : Nat := lowByte w[17]

/-- Word 17, bits 11 to 8. -/
def SetupWords.fadeConfirm (w : SetupWords) : Nat := (w[17].extractLsb' 8 4).toNat

def SetupWords.dropoutLimit (w : SetupWords) : Nat := w[18].toNat
def SetupWords.freshnessLimit (w : SetupWords) : Nat := w[19].toNat
def SetupWords.dropoutWindow (w : SetupWords) : Nat := lowByte w[20]
def SetupWords.dropoutCountLimit (w : SetupWords) : Nat := highByte w[20]

/-- The NOTICE threshold of a chemistry, word 21 or 24. -/
def SetupWords.noticeThreshold (w : SetupWords) : Chemistry → Nat
  | .primary => w[21].toNat
  | .rechargeable => w[24].toNat

/-- The LOW threshold of a chemistry, word 22 or 25. -/
def SetupWords.lowThreshold (w : SetupWords) : Chemistry → Nat
  | .primary => w[22].toNat
  | .rechargeable => w[25].toNat

/-- The CRITICAL threshold of a chemistry, word 23 or 26. -/
def SetupWords.criticalThreshold (w : SetupWords) : Chemistry → Nat
  | .primary => w[23].toNat
  | .rechargeable => w[26].toNat

def SetupWords.hysteresis (w : SetupWords) : Nat := w[27].toNat
def SetupWords.speechLevel (w : SetupWords) : Nat := lowByte w[28]
def SetupWords.speechThreshold (w : SetupWords) : Nat := highByte w[28]
def SetupWords.idleLevel (w : SetupWords) : Nat := w[29].toNat
def SetupWords.idleLimit (w : SetupWords) : Nat := w[30].toNat

/-- Word 31; a valid setup holds 0 to 255. -/
def SetupWords.muteCode (w : SetupWords) : Nat := w[31].toNat

/-- The pattern in word 32 or 33: period in bits 15 to 8, on-time in bits 7 to 0. -/
def patternOf (w : Word) : Pattern := { period := highByte w, onTime := lowByte w }

def SetupWords.patterns (w : SetupWords) : Patterns := { slow := patternOf w[32], fast := patternOf w[33] }

/-- Word 34, bits 0 to 3. -/
def SetupWords.enables (w : SetupWords) : Enables :=
  { battery := w[34].getLsbD 0, signal := w[34].getLsbD 1, mute := w[34].getLsbD 2, part := w[34].getLsbD 3 }

/-- The freeze level the field names; 3 names none and validation refuses it. -/
def SetupWords.freezeLevel (w : SetupWords) : Freeze :=
  if w.freezeField = 1 then .session else if w.freezeField = 2 then .permanent else .none

/-- The effective mode formed from the latched OBSERVE strap and the mode request (R166). -/
def SetupWords.effectiveMode (straps : Straps) (w : SetupWords) : Mode :=
  if straps.observe || decide (w.modeRequest = 1) then .observe else .enforce

/-! ## Addresses (R122, R123) -/

/-- The setup base that the latched SBASE pair selects (R122). -/
def setupBase (straps : Straps) : Addr :=
  match straps.sbase1, straps.sbase0 with
  | false, false => 0x00040#20
  | false, true => 0x04000#20
  | true, false => 0x7FFC0#20
  | true, true => 0xFFF80#20

/-- The window bases of a setup (R123). -/
def SetupWords.bases (w : SetupWords) : Bases :=
  { telemetry := BitVec.ofNat 20 (w.telemetryBlock * 256), gain := BitVec.ofNat 20 (w.gainBlock * 64),
    alert := BitVec.ofNat 20 (w.alertBlock * 512) }

/-- The address `n` words past a base. -/
def pastBase (base : Addr) (n : Nat) : Addr := base + BitVec.ofNat 20 n

/-- The place of an address in the window of `len` words at `base`, if it lies in it. -/
def inWindow (base : Addr) (len : Nat) (a : Addr) : Option Nat :=
  if base.toNat ≤ a.toNat ∧ a.toNat < base.toNat + len then some (a.toNat - base.toNat) else none

/-- Every channel, in ascending channel number. -/
def allChannels : List Chan := List.finRange 64

end Sys2Proof.Machine
end

