-- ==== Sys2Proof/Machine/Flags.lean ====
section
/-! DEFINITION. What is derived and never stored: severities, family summaries, the enforced and silent judgements, and the
answered formats (R182) that show state as words. -/

namespace Sys2Proof.Machine

/-! ## Severity and family summary (R2, R76) -/

/-- The severity of a kind (R76). -/
def Kind.severity : Kind → Nat
  | .notice | .weak | .openIdle => 1
  | .low | .dropouts | .mutedSpeech => 2
  | .critical | .lost | .noReport | .claimStalled => 3

/-- The severity of an entry follows its kind (R76). -/
def AlertEntry.severity (e : AlertEntry) : Nat := e.kind.severity

/-- The BATTERY summary: the most severe battery condition in the set (R2). -/
def ConditionSet.batterySummary (a : ConditionSet) : Option Kind :=
  if a.critical then some .critical else if a.low then some .low else if a.notice then some .notice else none

/-- The SIGNAL summary (R2, R37). -/
def ConditionSet.signalSummary (a : ConditionSet) : Option Kind :=
  if a.lost then some .lost else if a.noReport then some .noReport
  else if a.dropouts then some .dropouts else if a.weak then some .weak else none

/-- The MUTE summary (R2, R71). -/
def ConditionSet.muteSummary (a : ConditionSet) : Option Kind :=
  if a.mutedSpeech then some .mutedSpeech else if a.openIdle then some .openIdle else none

/-! ## Enforced and silent (R60, R61) -/

/-- Enforced: enrolled and holding at least one cause (R60). -/
def ChannelRecord.enforced (r : ChannelRecord) : Bool :=
  r.enrolled && (r.chairCause || r.floorCause || r.squelchCause)

/-- Gain silence: the intended gain code is at or below the mute code (R61). -/
def gainSilent (muteCode : Nat) (intended : Word) : Bool := decide ((gainCode intended).toNat ≤ muteCode)

/-- Silent: enrolled, and self-muted or enforced or gain silent (R61). -/
def ChannelRecord.silent (muteCode : Nat) (intended : Word) (r : ChannelRecord) : Bool :=
  r.enrolled && (r.selfMuted || r.enforced || gainSilent muteCode intended)

/-! ## Codes of the answered formats (R182) -/

def CommandResult.code : CommandResult → BitVec 3
  | .idle => 0
  | .inProgress => 1
  | .done => 2
  | .refusedState => 3
  | .refusedChannel => 4
  | .refusedFrozen => 5
  | .refusedCode => 6
  | .rejected _ => 7

def Reason.code : Reason → BitVec 3
  | .incomplete => 1
  | .signature => 2
  | .check => 3
  | .range => 4
  | .order => 5
  | .overlap => 6
  | .windowsFixed => 7

/-- The reason field: 0 with every result but REJECTED. -/
def CommandResult.reasonCode : CommandResult → BitVec 3
  | .rejected r => r.code
  | .idle | .inProgress | .done | .refusedState | .refusedChannel | .refusedFrozen | .refusedCode => 0

def PartState.code : PartState → BitVec 3
  | .settling => 0
  | .passive => 1
  | .loading => 2
  | .active => 3
  | .releasing => 4

def Mode.bit : Mode → Bool
  | .enforce => false
  | .observe => true

def Freeze.code : Freeze → BitVec 2
  | .none => 0
  | .session => 1
  | .permanent => 2

/-- The kind codes of offset 5 and of view entry word 0. -/
def Kind.code : Kind → BitVec 4
  | .notice => 1
  | .low => 2
  | .critical => 3
  | .weak => 4
  | .dropouts => 5
  | .lost => 6
  | .noReport => 7
  | .openIdle => 8
  | .mutedSpeech => 9
  | .claimStalled => 10

/-- The family field of a view entry. -/
def Family.code : Family → BitVec 2
  | .battery => 0
  | .signal => 1
  | .mute => 2
  | .part => 3

/-- The family field of offset 4: one more than that of a view entry, 0 standing for none. -/
def Family.raiseCode : Family → BitVec 3
  | .battery => 1
  | .signal => 2
  | .mute => 3
  | .part => 4

/-- A channel number, 255 for the part. -/
def AlertChannel.code : AlertChannel → BitVec 8
  | .mic c => BitVec.ofNat 8 c.val
  | .part => 255

def EntryState.code : EntryState → BitVec 3
  | .new => 1
  | .seen => 2
  | .acked => 3
  | .cleared => 4

def AckResult.code : AckResult → BitVec 3
  | .noEntry => 0
  | .accepted => 1
  | .already => 2
  | .gone => 3
  | .mismatch => 4

def LinkState.code : LinkState → BitVec 3
  | .absent => 0
  | .locked => 1
  | .weak => 2
  | .dropout => 3
  | .lost => 4
  | .silent => 5

def BatteryState.code : BatteryState → BitVec 3
  | .unknown => 0
  | .good => 1
  | .notice => 2
  | .low => 3
  | .critical => 4

def Role.bit : Role → Bool
  | .chair => true
  | .delegate => false

/-- The severity as a 2-bit field. -/
def severityCode (severity : Nat) : BitVec 2 := BitVec.ofNat 2 severity

/-! ## Command status (R168, R182) -/

/-- The command status word: last code, refused-while-busy flag, stalled flag, reason, result. -/
def SetupUnit.statusWord (u : SetupUnit) : Word :=
  u.lastCode ++ BitVec.ofBool u.busyFlag ++ BitVec.ofBool u.stalledFlag ++ u.result.reasonCode ++ u.result.code

/-! ## Live summaries of the alert list (R104) -/

/-- Whether a listed entry of a family is NEW (R104). -/
def AlertUnit.hasNew (u : AlertUnit) (f : Family) : Bool :=
  u.list.any fun e => decide (e.family = f) && decide (e.state = .new)

/-- The highest severity among listed entries in state NEW, SEEN or ACKED; 0 when there is none (R104). -/
def AlertUnit.highestSeverity (u : AlertUnit) : Nat :=
  (u.list.filter fun e => decide (e.state ≠ .cleared)).foldl (fun m e => max m e.severity) 0

/-! ## Header words of the alert window (R111, R182) -/

/-- Offset 1: view entry count in bits 7 to 0, unlisted count in bits 15 to 8. -/
def countsWord (v : View) (u : AlertUnit) : Word :=
  BitVec.ofNat 8 u.unlisted.length ++ BitVec.ofNat 8 v.count

/-- Offset 2: part state, effective mode, freeze level. -/
def stateWord (u : SetupUnit) (mode : Mode) : Word :=
  (0 : BitVec 6) ++ u.freeze.code ++ (0 : BitVec 3) ++ BitVec.ofBool mode.bit ++ (0 : BitVec 1) ++ u.part.code

/-- Offset 3: families with NEW entries, highest severity. -/
def familiesWord (u : AlertUnit) : Word :=
  (0 : BitVec 6) ++ severityCode u.highestSeverity ++ (0 : BitVec 4) ++ BitVec.ofBool (u.hasNew .part) ++
    BitVec.ofBool (u.hasNew .mute) ++ BitVec.ofBool (u.hasNew .signal) ++ BitVec.ofBool (u.hasNew .battery)

/-- Offset 4: family and channel of the latest raise record; 0 when it is empty. -/
def raiseChannelWord : Option RaiseRecord → Word
  | none => 0
  | some r => (0 : BitVec 5) ++ r.family.raiseCode ++ r.channel.code

/-- Offset 5: severity and kind of the latest raise record. -/
def raiseKindWord : Option RaiseRecord → Word
  | none => 0
  | some r => (0 : BitVec 6) ++ severityCode r.kind.severity ++ (0 : BitVec 4) ++ r.kind.code

/-- Offset 6: sequence of the latest raise record. -/
def raiseSeqWord : Option RaiseRecord → Word
  | none => 0
  | some r => r.seq

/-- Offset 7: raise stamp of the latest raise record. -/
def raiseStampWord : Option RaiseRecord → Word
  | none => 0
  | some r => r.stamp

/-- Offset 8: the last acknowledgement result and the low 13 bits of the value written (R182). -/
def ackWord (u : AlertUnit) : Word := u.ackResult.code ++ u.ackValue.extractLsb' 0 13

/-! ## View entries (R112, R113, R182) -/

/-- Word 0 of a view entry: severity, kind, family, channel. -/
def entryWord0 : Option AlertEntry → Word
  | none => 0
  | some e => severityCode e.severity ++ e.kind.code ++ e.family.code ++ e.channel.code

/-- Word 1: the state at the snapshot. -/
def entryWord1 : Option AlertEntry → Word
  | none => 0
  | some e => (0 : BitVec 13) ++ e.state.code

/-- Word 2: the raise stamp. -/
def entryWord2 : Option AlertEntry → Word
  | none => 0
  | some e => e.stamp

/-- Word 3: the sequence. -/
def entryWord3 : Option AlertEntry → Word
  | none => 0
  | some e => e.seq

/-! ## Channel detail (R114, R115, R182) -/

/-- Word 0: enrolled, role, link state, battery state, self-muted and the three causes. -/
def detailWord0 (r : ChannelRecord) : Word :=
  (0 : BitVec 4) ++ BitVec.ofBool r.squelchCause ++ BitVec.ofBool r.floorCause ++ BitVec.ofBool r.chairCause ++
    BitVec.ofBool r.selfMuted ++ r.battery.code ++ r.link.code ++ BitVec.ofBool r.role.bit ++ BitVec.ofBool r.enrolled

/-- The battery level field: 127 when there is none. -/
def levelField : Option (BitVec 7) → BitVec 7
  | none => 127
  | some l => l

/-- The chemistry field: 0 none, 1 PRIMARY, 2 RECHARGEABLE. -/
def chemistryField : Option Chemistry → BitVec 2
  | none => 0
  | some .primary => 1
  | some .rechargeable => 2

/-- Word 1: last RF level, chemistry, battery level. -/
def detailWord1 (r : ChannelRecord) : Word := r.lastRf ++ chemistryField r.chemistry ++ levelField r.batteryLevel

/-- The audio field, 7 bits: 127 when there is none. -/
def audioField : Option (BitVec 6) → BitVec 7
  | none => 127
  | some a => (0 : BitVec 1) ++ a

/-- The BATTERY conditions field. -/
def batteryConditionsField (a : ConditionSet) : BitVec 2 :=
  if a.critical then 3 else if a.low then 2 else if a.notice then 1 else 0

/-- The field of WEAK, LOST and NO_REPORT. -/
def linkConditionsField (a : ConditionSet) : BitVec 2 :=
  if a.noReport then 3 else if a.lost then 2 else if a.weak then 1 else 0

/-- Word 2: speech count (3 for three or more), last audio level, the nine active condition flags (R182). -/
def detailWord2 (r : ChannelRecord) : Word :=
  BitVec.ofNat 2 (min r.speechCount 3) ++ audioField r.lastAudio ++ BitVec.ofBool r.active.mutedSpeech ++
    BitVec.ofBool r.active.openIdle ++ BitVec.ofBool r.active.dropouts ++ linkConditionsField r.active ++
    batteryConditionsField r.active

/-- The capture record code: 0 empty, duration + 1 for RETURNED, 2047 for LIMIT. -/
def captureCode : Option CaptureRecord → BitVec 11
  | none => 0
  | some (.returned ms) => BitVec.ofNat 11 (ms + 1)
  | some .limit => 2047

/-- Word 3: missed count, held, capture record code (R115). -/
def detailWord3 (r : ChannelRecord) : Word :=
  BitVec.ofNat 4 r.captureMissed ++ BitVec.ofBool r.captureHeld ++ captureCode r.capture

end Sys2Proof.Machine
end

