-- ==== Sys2Proof/Machine/Ops.lean ====
section
/-! DEFINITION. The named operations over the state: one update for each block, the static memory, the settings in force,
the derived lines, and the sending of messages between blocks. -/

namespace Sys2Proof.Machine

/-! ## Updates of one block of the state -/

/-- The state with `memory` replaced. -/
def State.setMemory (s : State) (v : Memory) : State := { s with memory := v }

/-- The state with `path` replaced. -/
def State.setPath (s : State) (v : PathUnit) : State := { s with path := v }

/-- The state with `staging` replaced. -/
def State.setStaging (s : State) (v : Vector Staging 64) : State := { s with staging := v }

/-- The state with `channels` replaced. -/
def State.setChannels (s : State) (v : Vector ChannelRecord 64) : State := { s with channels := v }

/-- The state with `alert` replaced. -/
def State.setAlert (s : State) (v : AlertUnit) : State := { s with alert := v }

/-- The state with `view` replaced. -/
def State.setView (s : State) (v : View) : State := { s with view := v }

/-- The state with `enf` replaced. -/
def State.setEnf (s : State) (v : EnforcementUnit) : State := { s with enf := v }

/-- The state with `setup` replaced. -/
def State.setSetup (s : State) (v : SetupUnit) : State := { s with setup := v }

/-- The state with `lamps` replaced. -/
def State.setLamps (s : State) (v : LampUnit) : State := { s with lamps := v }

/-- The state with `time` replaced. -/
def State.setTime (s : State) (v : Timebase) : State := { s with time := v }

/-- The state with `lines` replaced. -/
def State.setLines (s : State) (v : InputLines) : State := { s with lines := v }

/-- The state with `mail` replaced. -/
def State.setMail (s : State) (v : Mail) : State := { s with mail := v }

/-- The state with `draws` replaced. -/
def State.setDraws (s : State) (v : Nat) : State := { s with draws := v }

/-- The state with `pending` replaced. -/
def State.setPending (s : State) (v : List Instr) : State := { s with pending := v }

/-! ## The static memory -/

/-- What the word at address `a` reads as (R121): the listed word, or what an unlisted word reads as. -/
def Memory.read : Memory → Nat → Word
  | [], _ => Config.memoryDefault
  | (k, v) :: rest, a => if k = a then v else Memory.read rest a

/-- Storing `w` at address `a`, keeping addresses rising and listing nothing that equals the default. -/
def Memory.write : Memory → Nat → Word → Memory
  | [], a, w => if w = Config.memoryDefault then [] else [(a, w)]
  | (k, v) :: rest, a, w =>
    if a < k then (if w = Config.memoryDefault then (k, v) :: rest else (a, w) :: (k, v) :: rest)
    else if a = k then (if w = Config.memoryDefault then rest else (a, w) :: rest)
    else (k, v) :: Memory.write rest a w

/-- The canonical form: addresses strictly rising, no entry equal to the default. -/
def Memory.wf : Memory → Bool
  | [] => true
  | (k, v) :: rest => decide (v ≠ Config.memoryDefault) && rest.all (fun p => decide (k < p.1)) && Memory.wf rest

/-! ## Settings in force (R166) -/

/-- The words of the working setup in force; zeros while there is none, when no channel is enrolled and no window
decoded, so that nothing reads them (log 12). -/
def State.settings (s : State) : SetupWords := s.setup.working.getD .zero

/-- The effective mode in force (R166). -/
def State.mode (s : State) : Mode := s.settings.effectiveMode s.path.straps

/-- Whether the working setup in force enrols channel `c`; no while there is none (R84, R168). -/
def State.workingEnrols (s : State) (c : Chan) : Bool :=
  match s.setup.working with
  | none => false
  | some w => w.enrols c

/-! ## Lines -/

/-- Power reset is asserted while either source asserts it (R162). -/
def State.powerReset (s : State) : Bool := s.lines.powerPin || s.lines.supplyLow

/-- CLAIM_N asserted: in CLAIMING and CEDED (R142). -/
def State.claimLine (s : State) : Bool :=
  match s.enf.claim with
  | .claiming | .ceded => true
  | .idle | .releasingBus => false

/-- Whether a family is enabled for the alert line (R179). -/
def Enables.allows (e : Enables) : Family → Bool
  | .battery => e.battery
  | .signal => e.signal
  | .mute => e.mute
  | .part => e.part

/-- ALERT_N asserted: exactly when the part state is ACTIVE and the live list holds a NEW entry of an enabled family
(R179). -/
def State.alertLine (s : State) : Bool :=
  decide (s.setup.part = .active) &&
    s.alert.list.any fun e => decide (e.state = .new) && s.lamps.enables.allows e.family

/-! ## Sending messages between blocks (log 4) -/

def State.sendFrame (s : State) (c : Chan) (f : Frame) : State :=
  s.setMail { s.mail with frames := s.mail.frames ++ [(c, f)] }

def State.sendToEvaluator (s : State) (m : ToEvaluator) : State :=
  s.setMail { s.mail with toEvaluator := s.mail.toEvaluator ++ [m] }

def State.sendFloorChange (s : State) (asserted : Bool) : State :=
  s.setMail { s.mail with floor := s.mail.floor ++ [{ asserted := asserted, next := 0 }] }

def State.sendSilence (s : State) (cs : List Chan) : State :=
  s.setMail { s.mail with silence := s.mail.silence ++ cs }

def State.sendStall (s : State) (active : Bool) : State :=
  s.setMail { s.mail with stalls := s.mail.stalls ++ [active] }

def State.sendToList (s : State) (m : ToList) : State :=
  s.setMail { s.mail with toList := s.mail.toList ++ [m] }

def State.sendToEnforcement (s : State) (m : ToEnforcement) : State :=
  s.setMail { s.mail with toEnforcement := s.mail.toEnforcement ++ [m] }

def State.sendToSetup (s : State) (m : ToSetup) : State :=
  s.setMail { s.mail with toSetup := s.mail.toSetup ++ [m] }

def State.sendToLamps (s : State) (w : SetupWords) : State :=
  s.setMail { s.mail with toLamps := s.mail.toLamps ++ [w] }

/-- The next channel in ascending order, if there is one. -/
def nextChannel (c : Chan) : Option Chan :=
  if h : c.val + 1 < 64 then some ⟨c.val + 1, h⟩ else none

end Sys2Proof.Machine
end

