-- ==== Sys2Proof/Machine/Timers.lean ====
section
/-! DEFINITION. The timers (R15) and the timebase (R184): starting a timer, the millisecond tick, a REFCLK period, and the
seconds step. -/

namespace Sys2Proof.Machine

/-- A timer started or restarted now with a limit in ms: its expiry moment is the present millisecond plus the limit; an
old expiry moment, or an expiry not yet taken, is discarded (R15). -/
def Timer.start (now : Millis) (limit : Nat) : Timer := .running (now + BitVec.ofNat 32 limit)

/-- A timer started only if it is stopped: one that runs keeps its expiry moment, and one whose expiry waits to be taken
keeps it waiting (R24, R34, R68, R69). -/
def Timer.startIfStopped (now : Millis) (limit : Nat) : Timer → Timer
  | .stopped => Timer.start now limit
  | .running e => .running e
  | .due => .due

/-- The tick reaches `now`: a timer whose expiry moment that is stops, and its expiry is delivered (R15). -/
def Timer.tick (now : Millis) : Timer → Timer
  | .stopped => .stopped
  | .running e => if e = now then .due else .running e
  | .due => .due

/-- The four timers of a channel record at a tick. -/
def ChannelRecord.tick (now : Millis) (r : ChannelRecord) : ChannelRecord :=
  { r with
    dropoutTimer := r.dropoutTimer.tick now
    freshTimer := r.freshTimer.tick now
    windowTimer := r.windowTimer.tick now
    idleTimer := r.idleTimer.tick now }

/-- The pattern a lamp in SLOW or FAST runs on; none in OFF and STEADY, and none while the patterns in use are none
(R176, R177). -/
def LampState.running (l : LampState) : Option Pattern :=
  match l.mode, l.inUse with
  | .slow, some p => some p.slow
  | .fast, some p => some p.fast
  | .slow, none | .fast, none | .off, _ | .steady, _ => none

/-- In SLOW and FAST the phase rises by 1 at each tick (R177). -/
def LampState.tick (l : LampState) : LampState :=
  match l.running with
  | some _ => { l with phase := l.phase + 1 }
  | none => l

/-- The lamp driver at a tick. -/
def LampUnit.tick (now : Millis) (u : LampUnit) : LampUnit :=
  { u with battery := u.battery.tick, signal := u.signal.tick, mute := u.mute.tick, debounce := u.debounce.tick now }

/-- The timebase at a tick: the running count rises by 1, and so does the seconds phase from the first START on, which is
when there is a working setup (R166, R184). -/
def Timebase.tick (sessionSeen : Bool) (t : Timebase) : Timebase :=
  { t with divider := 0, ticks := t.ticks + 1, phase := if sessionSeen then t.phase + 1 else t.phase }

/-- A millisecond tick (R184): the counts rise and every timer whose expiry moment is reached expires. -/
def millisecondTick (s : State) : State :=
  let time := s.time.tick s.setup.working.isSome
  (((((s.setTime time).setChannels (s.channels.map (ChannelRecord.tick time.ticks))).setSetup
    { s.setup with settle := s.setup.settle.tick time.ticks }).setEnf
    { s.enf with claimTimer := s.enf.claimTimer.tick time.ticks }).setLamps
    (s.lamps.tick time.ticks))

/-- One REFCLK period (R184): from the release of power reset, every 4096th gives a tick. -/
def refclkPeriod (s : State) : State :=
  if s.powerReset then s
  else if s.time.divider + 1 < Config.refclkPerTick then s.setTime { s.time with divider := s.time.divider + 1 }
  else millisecondTick s

/-- SECONDS_STEP (R184): when the seconds phase has reached 1000 it returns to 0 and the seconds count rises by 1,
wrapping from 65535 to 0. -/
def execSecondsStep (s : State) : Host.Outcome State Fault Refusal :=
  if Config.ticksPerSecond ≤ s.time.phase then
    .next (s.setTime { s.time with phase := 0, seconds := s.time.seconds + 1 })
  else .next s

end Sys2Proof.Machine
end

