-- ==== Sys2Proof/Machine/Evaluator.lean ====
section
/-! DEFINITION. The telemetry intake and the channel evaluator (R1 to R75): staging and commits, the link, battery and mute
stages, the link and open-idle timers, chair requests, floor changes, silence changes, capture releases, membership changes
and the resets of the channel table, and what one event of a channel reports (R9). -/

namespace Sys2Proof.Machine

/-! ## The telemetry intake (R4 to R7) -/

/-- The staging record after a W0, W1 or W2 write (R5). -/
def Staging.fill (word : FrameWord) (data : Word) (g : Staging) : Staging :=
  match word with
  | .link => { g with link := some (linkWordOf data) }
  | .battery => { g with battery := some (batteryWordOf data) }
  | .switch => { g with switch := some (switchWordOf data) }

/-- The frame a commit hands on, if it is valid: the link field is present and its tag equals the commit word's (R6, R7). -/
def Staging.frameAt (tag : BitVec 4) (g : Staging) : Option Frame :=
  match g.link with
  | none => none
  | some l => if l.tag = tag then some { rf := l.rf, lock := l.lock, battery := g.battery, switch := g.switch } else none

/-- The intake takes the copy of a W0, W1 or W2 write; for a channel not enrolled the copy is discarded (R4, R5). -/
def takeStagingWrite (c : Chan) (word : FrameWord) (data : Word) (s : State) : State :=
  if s.workingEnrols c then s.setStaging (s.staging.set c (s.staging[c].fill word data)) else s

/-- The intake takes the copy of a W3 write: a valid commit hands its frame to the evaluator, and either way the staging
record is cleared; for a channel not enrolled it is no commit (R4, R6, R7). -/
def takeCommit (c : Chan) (data : Word) (s : State) : State :=
  if s.workingEnrols c then
    match s.staging[c].frameAt (commitTagOf data) with
    | some f => (s.setStaging (s.staging.set c .empty)).sendFrame c f
    | none => s.setStaging (s.staging.set c .empty)
  else s

/-! ## The dropout capture (R35) -/

/-- A record offered to the capture (R35). -/
def ChannelRecord.offer (rec : CaptureRecord) (r : ChannelRecord) : ChannelRecord :=
  if r.captureHeld then { r with captureMissed := min 15 (r.captureMissed + 1) }
  else { r with capture := some rec, captureHeld := true }

/-! ## The link stage (R17 to R32) -/

/-- A dropout counted (R24). -/
def ChannelRecord.countDropout (w : SetupWords) (now : Millis) (r : ChannelRecord) : ChannelRecord :=
  let n := min 15 (r.dropoutCount + 1)
  let raise := decide (w.dropoutCountLimit ≤ n) && !r.dropoutsRaised
  { r with
    dropoutCount := n
    windowTimer := r.windowTimer.startIfStopped now (w.dropoutWindow * 1000)
    dropoutsRaised := r.dropoutsRaised || raise
    active := { r.active with dropouts := r.active.dropouts || raise } }

/-- Direct placement by the frame's RF level (R21). -/
def ChannelRecord.place (w : SetupWords) (rf : BitVec 7) (r : ChannelRecord) : ChannelRecord :=
  if rf.toNat < w.fadeLevel then { r with link := .weak, fadeRun := 0, active := { r.active with weak := true } }
  else { r with link := .locked, fadeRun := 0 }

/-- A frame with lock in LOCKED counts towards a fade (R19). -/
def ChannelRecord.countFade (w : SetupWords) (rf : BitVec 7) (r : ChannelRecord) : ChannelRecord :=
  if rf.toNat < w.fadeLevel then
    if w.fadeConfirm ≤ r.fadeRun + 1 then
      { r with link := .weak, fadeRun := 0, active := { r.active with weak := true } }
    else { r with fadeRun := r.fadeRun + 1 }
  else { r with fadeRun := 0 }

/-- A frame with lock in WEAK counts towards recovery (R20). -/
def ChannelRecord.countRecovery (w : SetupWords) (rf : BitVec 7) (r : ChannelRecord) : ChannelRecord :=
  if w.fadeLevel + Config.recoveryMargin ≤ rf.toNat then
    if w.fadeConfirm ≤ r.fadeRun + 1 then
      { r with link := .locked, fadeRun := 0, active := { r.active with weak := false } }
    else { r with fadeRun := r.fadeRun + 1 }
  else { r with fadeRun := 0 }

/-- Entry to DROPOUT (R22), the freshness timer apart. -/
def ChannelRecord.enterDropout (w : SetupWords) (now : Millis) (r : ChannelRecord) : ChannelRecord :=
  { r with
    link := .dropout
    dropoutStamp := now
    dropoutTimer := Timer.start now w.dropoutLimit
    fadeRun := 0
    active := { r.active with weak := false } }

/-- A dropout ended by a frame with lock (R25), the freshness timer apart. The duration is counted modulo 4294967296
(R16, R184). -/
def ChannelRecord.endDropout (w : SetupWords) (now : Millis) (rf : BitVec 7) (r : ChannelRecord) : ChannelRecord :=
  ((({ r with dropoutTimer := .stopped }).offer (.returned (now - r.dropoutStamp).toNat)).countDropout w now).place w rf

/-- A frame with pilot lock yes, by the link state (R18 to R21, R25, R28, R32). -/
def ChannelRecord.linkLocked (w : SetupWords) (now : Millis) (rf : BitVec 7) (r : ChannelRecord) : ChannelRecord :=
  match r.link with
  | .absent => r.place w rf
  | .locked => r.countFade w rf
  | .weak => r.countRecovery w rf
  | .dropout => r.endDropout w now rf
  | .lost => ({ r with squelchCause := false, active := { r.active with lost := false } }).place w rf
  | .silent => ({ r with squelchCause := false, active := { r.active with noReport := false } }).place w rf

/-- A frame with pilot lock no, by the link state (R18, R22, R23, R28, R32). -/
def ChannelRecord.linkUnlocked (w : SetupWords) (now : Millis) (r : ChannelRecord) : ChannelRecord :=
  match r.link with
  | .absent => r
  | .locked | .weak => r.enterDropout w now
  | .dropout | .lost => r
  | .silent => { r with link := .lost, active := { r.active with noReport := false, lost := true } }

/-- The link stage: the RF level is recorded, the freshness timer restarted except by a frame without lock in ABSENT, and
the frame acts by the link state (R17). -/
def ChannelRecord.linkStage (w : SetupWords) (now : Millis) (f : Frame) (r : ChannelRecord) : ChannelRecord :=
  let r := { r with lastRf := f.rf }
  if f.lock then ({ r with freshTimer := Timer.start now w.freshnessLimit }).linkLocked w now f.rf
  else
    match r.link with
    | .absent => r
    | .locked | .weak | .dropout | .lost | .silent =>
      ({ r with freshTimer := Timer.start now w.freshnessLimit }).linkUnlocked w now

/-! ## The link timers (R26, R30, R33) -/

/-- The dropout timer's expiry of a channel in DROPOUT (R26). -/
def ChannelRecord.dropoutExpiry (w : SetupWords) (now : Millis) (r : ChannelRecord) : ChannelRecord :=
  let r := { r with dropoutTimer := .stopped }
  match r.link with
  | .dropout =>
    let r := { r with link := .lost, active := { r.active with lost := true } }
    let r := (r.offer .limit).countDropout w now
    { r with squelchCause := r.squelchCause || r.squelchEnabled }
  | .absent | .locked | .weak | .lost | .silent => r

/-- The freshness timer's expiry (R30). -/
def ChannelRecord.freshnessExpiry (r : ChannelRecord) : ChannelRecord :=
  let r := { r with freshTimer := .stopped }
  match r.link with
  | .locked | .weak | .dropout | .lost =>
    { r with
      link := .silent
      dropoutTimer := .stopped
      fadeRun := 0
      squelchCause := r.squelchCause || r.squelchEnabled
      active := { r.active with weak := false, lost := false, noReport := true } }
  | .absent | .silent => r

/-- The dropout window timer's expiry (R33). -/
def ChannelRecord.windowExpiry (w : SetupWords) (now : Millis) (r : ChannelRecord) : ChannelRecord :=
  if w.dropoutCountLimit ≤ r.dropoutCount then
    { r with
      dropoutsRaised := true, dropoutCount := 0, windowTimer := Timer.start now (w.dropoutWindow * 1000)
      active := { r.active with dropouts := true } }
  else
    { r with
      dropoutsRaised := false, dropoutCount := 0, windowTimer := .stopped
      active := { r.active with dropouts := false } }

/-! ## The battery stage (R42 to R51) -/

/-- The rank of a battery state, from best to worst. -/
def BatteryState.rank : BatteryState → Nat
  | .unknown => 0
  | .good => 1
  | .notice => 2
  | .low => 3
  | .critical => 4

/-- The placement of a level under the thresholds of a chemistry (R43). -/
def batteryPlacement (w : SetupWords) (ch : Chemistry) (level : Nat) : BatteryState :=
  if w.noticeThreshold ch < level then .good
  else if w.lowThreshold ch < level then .notice
  else if w.criticalThreshold ch < level then .low
  else .critical

/-- The best state that a report clears: its level is above the state's rise boundary; every report clears CRITICAL
(R43, R46). -/
def batteryCleared (w : SetupWords) (ch : Chemistry) (level : Nat) : BatteryState :=
  if w.noticeThreshold ch + w.hysteresis < level then .good
  else if w.lowThreshold ch + w.hysteresis < level then .notice
  else if w.criticalThreshold ch + w.hysteresis < level then .low
  else .critical

/-- The state after a battery report (R44 to R48). -/
def batteryMove (w : SetupWords) (ch : Chemistry) (level : Nat) (b : BatteryState) : BatteryState :=
  match b with
  | .unknown => batteryPlacement w ch level
  | .good | .notice | .low | .critical =>
    if b.rank < (batteryPlacement w ch level).rank then batteryPlacement w ch level
    else if (batteryPlacement w ch level).rank < b.rank ∧ (batteryCleared w ch level).rank < b.rank then
      batteryCleared w ch level
    else b

/-- The active condition set in step with a battery state (R50). -/
def ConditionSet.withBattery (b : BatteryState) (a : ConditionSet) : ConditionSet :=
  { a with notice := decide (b = .notice), low := decide (b = .low), critical := decide (b = .critical) }

/-- The battery stage: a level of 0 to 100 is a report, which records level and chemistry and moves the state; a level of
101 to 127 is none (R42, R49). -/
def ChannelRecord.batteryStage (w : SetupWords) (b : BatteryWord) (r : ChannelRecord) : ChannelRecord :=
  if b.level.toNat ≤ 100 then
    let st := batteryMove w b.chemistry b.level.toNat r.battery
    { r with
      batteryLevel := some b.level, chemistry := some b.chemistry, battery := st, active := r.active.withBattery st }
  else r

/-! ## The mute stage (R55, R64, R65, R68) -/

/-- The speech count after a frame of a silent or open channel (R64). -/
def stepSpeech (silent : Bool) (speechLevel audio count : Nat) : Nat :=
  if silent && decide (speechLevel ≤ audio) then min 255 (count + 1) else count - 1

/-- The speech detector (R64, R65): a rise that leaves the count at or above the threshold raises MUTED_SPEECH, a fall that
leaves it at 0 clears it, a frame that leaves the count unchanged changes nothing (log 29). -/
def ChannelRecord.speechStep (w : SetupWords) (silent : Bool) (audio : Nat) (r : ChannelRecord) : ChannelRecord :=
  let n := stepSpeech silent w.speechLevel audio r.speechCount
  if r.speechCount < n ∧ w.speechThreshold ≤ n then
    { r with speechCount := n, mutedSpeechRaised := true, active := { r.active with mutedSpeech := true } }
  else if n < r.speechCount ∧ n = 0 then
    { r with speechCount := n, mutedSpeechRaised := false, active := { r.active with mutedSpeech := false } }
  else { r with speechCount := n }

/-- OPEN_IDLE cleared and the open-idle timer stopped (R62, R68). -/
def ChannelRecord.stopIdle (r : ChannelRecord) : ChannelRecord :=
  { r with idleTimer := .stopped, openIdleRaised := false, active := { r.active with openIdle := false } }

/-- The open-idle watch at a frame of an open channel (R68): quiet below the idle level, else loud. -/
def ChannelRecord.idleStep (w : SetupWords) (now : Millis) (audio : Nat) (r : ChannelRecord) : ChannelRecord :=
  if audio < w.idleLevel then
    if r.openIdleRaised then r else { r with idleTimer := r.idleTimer.startIfStopped now (w.idleLimit * 1000) }
  else r.stopIdle

/-- The mute stage (R55): self-muted and the audio level are taken first; then silence is judged, the speech detector
stepped, and the open-idle watch sorted. -/
def ChannelRecord.muteStage (w : SetupWords) (now : Millis) (intended : Word) (sw : SwitchWord) (r : ChannelRecord) :
    ChannelRecord :=
  let r := { r with selfMuted := !sw.talkOn, lastAudio := some sw.audio }
  let silent := r.silent w.muteCode intended
  let r := r.speechStep w silent sw.audio.toNat
  if silent then r.stopIdle else r.idleStep w now sw.audio.toNat

/-- One evaluation: the link stage, then the battery stage and the mute stage when the frame carries their contents
(R7, R8). -/
def ChannelRecord.evaluate (w : SetupWords) (now : Millis) (intended : Word) (f : Frame) (r : ChannelRecord) :
    ChannelRecord :=
  let r := r.linkStage w now f
  let r := match f.battery with
    | some b => r.batteryStage w b
    | none => r
  match f.switch with
  | some sw => r.muteStage w now intended sw
  | none => r

/-- The expiry of the open-idle timer (R69). -/
def ChannelRecord.idleExpiry (r : ChannelRecord) : ChannelRecord :=
  { r with idleTimer := .stopped, openIdleRaised := true, active := { r.active with openIdle := true } }

/-! ## One event of a channel and what it reports (R9, R62, R72) -/

/-- The silence judgement at the end of every event: a silent channel's open-idle timer stops and OPEN_IDLE clears (R62). -/
def ChannelRecord.settleSilence (muteCode : Nat) (intended : Word) (r : ChannelRecord) : ChannelRecord :=
  if r.silent muteCode intended then r.stopIdle else r

/-- The condition event of a family whose summary was `before` at the start of the event and is `after` at its end
(R9). -/
def familyEvent (c : Chan) (f : Family) (before after : Option Kind) : List ConditionEvent :=
  match before, after with
  | none, none => []
  | none, some k => [.raised c f k]
  | some _, none => [.cleared c f]
  | some k, some k' => if k = k' then [] else [.changed c f k']

/-- The condition events of an event, in the order SIGNAL, BATTERY, MUTE (R9). -/
def conditionEvents (c : Chan) (before after : ConditionSet) : List ConditionEvent :=
  familyEvent c .signal before.signalSummary after.signalSummary ++
    familyEvent c .battery before.batterySummary after.batterySummary ++
    familyEvent c .mute before.muteSummary after.muteSummary

/-- Whether one of the three causes differs (R72). -/
def causesDiffer (before after : ChannelRecord) : Bool :=
  decide (before.chairCause ≠ after.chairCause) || decide (before.floorCause ≠ after.floorCause) ||
    decide (before.squelchCause ≠ after.squelchCause)

/-- The record of channel `c` after an event whose own change is `g`, silence judged last (R62). -/
def eventRecord (c : Chan) (g : ChannelRecord → ChannelRecord) (s : State) : ChannelRecord :=
  (g s.channels[c]).settleSilence s.settings.muteCode s.enf.intended[c]

/-- What an event that leaves channel `c` with record `r` reports: condition events to the alert list unit and, if a cause
differs, one cause-change notice to the enforcement unit (R9, R72). -/
def reported (c : Chan) (before r : ChannelRecord) (m : Mail) : Mail :=
  { m with
    conditions := m.conditions ++ conditionEvents c before.active r.active
    notices := m.notices ++ (if causesDiffer before r then [.causeChange c] else []) }

/-- One event of channel `c`, taken whole (R9). -/
def channelEvent (c : Chan) (g : ChannelRecord → ChannelRecord) (s : State) : State :=
  (s.setChannels (s.channels.set c (eventRecord c g s))).setMail
    (reported c s.channels[c] (eventRecord c g s) s.mail)

/-! ## Frames and timer expiries

Outside ACTIVE every timer of a channel is stopped (R1, R63, R169): HALT stops them all, and none starts before the next ACTIVE
(log 32), so that the expiries below have no occasion there. -/

/-- The first frame of channel `c` that waits, and the frames without it. -/
def takeFrame (c : Chan) : List (Chan × Frame) → Option (Frame × List (Chan × Frame))
  | [] => none
  | (d, f) :: rest =>
    if d = c then some (f, rest)
    else
      match takeFrame c rest with
      | none => none
      | some (g, others) => some (g, (d, f) :: others)

/-- FRAME_EVALUATION (R8): the evaluator takes the first frame of the channel that waits. A frame taken for a channel that is
not enrolled is discarded (R7), and so is one taken outside ACTIVE, where no record takes telemetry (R1, R63, R169). -/
def execFrameEvaluation (c : Chan) (s : State) : Host.Outcome State Fault Refusal :=
  match takeFrame c s.mail.frames with
  | none => .next s
  | some (f, rest) =>
    let t := s.setMail { s.mail with frames := rest }
    if s.channels[c].enrolled ∧ s.setup.part = .active then
      .next (channelEvent c (ChannelRecord.evaluate s.settings s.time.ticks s.enf.intended[c] f) t)
    else .next t

/-- DROPOUT_TIMER_EXPIRY (R26), delivered when the tick has reached the expiry moment (R15). -/
def execDropoutTimerExpiry (c : Chan) (s : State) : Host.Outcome State Fault Refusal :=
  if s.channels[c].dropoutTimer = .due then
    .next (channelEvent c (ChannelRecord.dropoutExpiry s.settings s.time.ticks) s)
  else .next s

/-- FRESHNESS_TIMER_EXPIRY (R30). -/
def execFreshnessTimerExpiry (c : Chan) (s : State) : Host.Outcome State Fault Refusal :=
  if s.channels[c].freshTimer = .due then .next (channelEvent c ChannelRecord.freshnessExpiry s) else .next s

/-- DROPOUT_WINDOW_EXPIRY (R33). -/
def execDropoutWindowExpiry (c : Chan) (s : State) : Host.Outcome State Fault Refusal :=
  if s.channels[c].windowTimer = .due then
    .next (channelEvent c (ChannelRecord.windowExpiry s.settings s.time.ticks) s)
  else .next s

/-- OPEN_IDLE_EXPIRY (R69). -/
def execOpenIdleExpiry (c : Chan) (s : State) : Host.Outcome State Fault Refusal :=
  if s.channels[c].idleTimer = .due then .next (channelEvent c ChannelRecord.idleExpiry s) else .next s

/-! ## Chair requests, floor changes, silence changes (R56, R57, R63) -/

/-- The evaluator takes a chair request, `rest` waiting behind it, as one event of its channel; for a channel not enrolled it
changes nothing (R56). -/
def takeChair (c : Chan) (set : Bool) (rest : List ToEvaluator) (s : State) : State :=
  let t := s.setMail { s.mail with toEvaluator := rest }
  if s.channels[c].enrolled then channelEvent c (fun r => { r with chairCause := set }) t else t

/-- CHAIR_REQUEST (R56): the chair request that waits first. None is on its way outside ACTIVE (R1, R169, R173, log 32). -/
def execChairRequest (s : State) : Host.Outcome State Fault Refusal :=
  match s.mail.toEvaluator with
  | .chair c set :: rest => .next (takeChair c set rest s)
  | .membership _ _ :: _ | .tableReset _ :: _ | [] => .next s

/-- The taken floor changes once the first has been taken for its channel: it goes on to the next channel in ascending
order, and after channel 63 it is done (R57, log 11). -/
def floorChangesAfter (f : FloorChange) (rest : List FloorChange) : List FloorChange :=
  match nextChannel f.next with
  | some c => { f with next := c } :: rest
  | none => rest

/-- TAKEN_FLOOR_CHANGE (R57): the taken floor change that waits first is taken for the channel it has come to: an enrolled
DELEGATE's floor cause takes the level, any other channel is left as it is. -/
def execTakenFloorChange (s : State) : Host.Outcome State Fault Refusal :=
  match s.mail.floor with
  | [] => .next s
  | f :: rest =>
    let t := s.setMail { s.mail with floor := floorChangesAfter f rest }
    if s.channels[f.next].enrolled ∧ s.channels[f.next].role = .delegate then
      .next (channelEvent f.next (fun r => { r with floorCause := f.asserted }) t)
    else .next t

/-- SILENCE_CHANGE (R63): the silence change that waits first is taken as one event of its channel, which judges silence
(R62); for a channel not enrolled it is ignored. -/
def execSilenceChange (s : State) : Host.Outcome State Fault Refusal :=
  match s.mail.silence with
  | [] => .next s
  | c :: rest =>
    let t := s.setMail { s.mail with silence := rest }
    if s.channels[c].enrolled then .next (channelEvent c id t) else .next t

/-! ## The capture release (R36) -/

/-- The record after a capture release: the hold is cleared and the missed count returns to 0, the capture record is kept
(R36). -/
def ChannelRecord.release (r : ChannelRecord) : ChannelRecord := { r with captureHeld := false, captureMissed := 0 }

/-! ## Membership changes and resets of the table (R10, R11, R12) -/

/-- The values a record takes at START or at its new enrolment: the power-reset values with the membership of the setup, and
the floor cause set for a DELEGATE while the debounced level is asserted; a channel the setup does not enrol keeps the
power-reset values whole (R10, R11, R54, log 19). -/
def startRecord (w : SetupWords) (debounced : Bool) (c : Chan) : ChannelRecord :=
  if w.enrols c then
    { ChannelRecord.powerReset with
      enrolled := true
      role := w.roleOf c
      squelchEnabled := w.squelches c
      floorCause := debounced && !w.isChair c }
  else .powerReset

/-- Role and squelch enabled written, floor and squelch causes recomputed (R12, R39, R58). -/
def ChannelRecord.rewriteMembership (w : SetupWords) (debounced : Bool) (c : Chan) (r : ChannelRecord) : ChannelRecord :=
  { r with
    role := w.roleOf c
    squelchEnabled := w.squelches c
    floorCause := debounced && !w.isChair c
    squelchCause := w.squelches c && (decide (r.link = .lost) || decide (r.link = .silent)) }

/-- The channel of a condition event. -/
def ConditionEvent.channel : ConditionEvent → Chan
  | .raised c _ _ | .changed c _ _ | .cleared c _ => c

/-- The membership change of an APPLY for one channel (R11, R12): de-enrolled, newly enrolled, enrolled before and after
with a changed membership, or untouched. The condition events of a channel de-enrolled that are still on their way are discarded, so
that none outlasts the enrolment that sent it (R80, R84, R105, log 36). -/
def membershipEvent (w : SetupWords) (c : Chan) (s : State) : State :=
  let r := s.channels[c]
  match r.enrolled, w.enrols c with
  | true, false =>
    (s.setChannels (s.channels.set c .powerReset)).setMail { s.mail with
      conditions := s.mail.conditions.filter fun m => decide (m.channel ≠ c)
      notices := s.mail.notices ++ [.enrolment c] }
  | false, true =>
    (s.setChannels (s.channels.set c (startRecord w s.lamps.debounced c))).setMail
      { s.mail with notices := s.mail.notices ++ [.enrolment c] }
  | true, true =>
    if r.role = w.roleOf c ∧ r.squelchEnabled = w.squelches c then s
    else channelEvent c (ChannelRecord.rewriteMembership w s.lamps.debounced c) s
  | false, false => s

/-- The requests to the evaluator once a membership change has been taken for channel `c`: it goes on to the next channel in
ascending order, and after channel 63 it is done (R11, log 11). -/
def membershipAfter (w : SetupWords) (c : Chan) (rest : List ToEvaluator) : List ToEvaluator :=
  match nextChannel c with
  | some d => .membership w d :: rest
  | none => rest

/-- The requests to the evaluator once a reset of the table has been taken for channel `c` (log 11). -/
def tableResetAfter (c : Chan) (rest : List ToEvaluator) : List ToEvaluator :=
  match nextChannel c with
  | some d => .tableReset d :: rest
  | none => rest

/-- The evaluator takes a membership change, `rest` waiting behind it, for the channel it has come to (R11, R12). -/
def takeMembership (w : SetupWords) (c : Chan) (rest : List ToEvaluator) (s : State) : State :=
  membershipEvent w c (s.setMail { s.mail with toEvaluator := membershipAfter w c rest })

/-- MEMBERSHIP_CHANGE (R11, R12): the membership change that waits first is taken for the channel it has come to. -/
def execMembershipChange (s : State) : Host.Outcome State Fault Refusal :=
  match s.mail.toEvaluator with
  | .membership w c :: rest => .next (takeMembership w c rest s)
  | .chair _ _ :: _ | .tableReset _ :: _ | [] => .next s

/-- A membership change taken for several channels, one after another. -/
def sweepMembership (w : SetupWords) : List Chan → List ToEvaluator → State → State
  | [], _, s => s
  | c :: cs, rest, s => sweepMembership w cs rest (takeMembership w c rest s)

/-- The chair requests and membership changes on their way to the evaluator taken in their order, each whole, as far as a reset
of the table, which none of them follows in ACTIVE (R152). -/
def takeRequests : List ToEvaluator → State → State
  | .chair c set :: rest, s => takeRequests rest (takeChair c set rest s)
  | .membership w c :: rest, s => takeRequests rest (sweepMembership w (allChannels.drop c.val) rest s)
  | .tableReset _ :: _, s => s
  | [], s => s

/-- CHANNEL_TABLE_RESET (R10): the reset of START that waits first is taken for the channel it has come to. It sends no
condition event and no notice. The reset of HALT is part of HALT's own step (R171, log 32). -/
def execChannelTableReset (s : State) : Host.Outcome State Fault Refusal :=
  match s.mail.toEvaluator with
  | .tableReset c :: rest =>
    .next ((s.setMail { s.mail with toEvaluator := tableResetAfter c rest }).setChannels
      (s.channels.set c (startRecord s.settings s.lamps.debounced c)))
  | .chair _ _ :: _ | .membership _ _ :: _ | [] => .next s

end Sys2Proof.Machine
end

