-- ==== Sys2Proof/Machine/AlertList.lean ====
section
/-! DEFINITION. The alert list unit (R76 to R106): placing, fresh sequences, entering and renewing entries, kind changes,
clearings, evictions, promotions, the ranking rule, read marks, acknowledgements, removals. Functions of the unit alone;
the present seconds count is their argument `stamp`. -/

namespace Sys2Proof.Machine

/-! ## Places and sequences (R78, R82) -/

/-- The entry placed at the end of its severity group: before the first entry of a lower severity (R78). -/
def placeEntry (e : AlertEntry) : List AlertEntry → List AlertEntry
  | [] => [e]
  | x :: rest => if x.severity < e.severity then e :: x :: rest else x :: placeEntry e rest

/-- Whether an entry stands for a pair (R77). -/
def AlertEntry.isPair (e : AlertEntry) (ch : AlertChannel) (f : Family) : Bool :=
  decide (e.channel = ch) && decide (e.family = f)

/-- The entry of a pair, if it is listed. -/
def AlertUnit.entryOf (u : AlertUnit) (ch : AlertChannel) (f : Family) : Option AlertEntry :=
  u.list.find? fun e => e.isPair ch f

/-- The list without the entry of a pair; the entries after it close up (R78). -/
def dropPair (ch : AlertChannel) (f : Family) (l : List AlertEntry) : List AlertEntry :=
  l.filter fun e => !e.isPair ch f

/-- The sequence after a value: the value after 65535 is 1, so 0 is never given (R82). -/
def seqAfter (n : Word) : Word := if n = 0xFFFF#16 then 1 else n + 1

/-- The first value from `n` on that is not held, tried at most `tries` times (R82). -/
def freeSeq (held : List Word) : Nat → Word → Word
  | 0, n => n
  | tries + 1, n => if n ∈ held then freeSeq held tries (seqAfter n) else n

/-- The fresh sequence the unit gives now: every listed entry holds its sequence, the one that is to receive the fresh
sequence its old one (R82). -/
def AlertUnit.freshSeq (u : AlertUnit) : Word := freeSeq (u.list.map (·.seq)) u.list.length u.nextSeq

/-! ## Entries made NEW (R85, R86, R87, R95, R103) -/

/-- An entry made NEW: it takes the kind, a fresh sequence and the present seconds count, stands at the end of its
severity group in `others` (the list without the pair), and is recorded as the latest raise. -/
def AlertUnit.makeNew (stamp : Word) (ch : AlertChannel) (f : Family) (k : Kind) (u : AlertUnit) : AlertUnit :=
  { u with
    list := placeEntry { channel := ch, family := f, kind := k, state := .new, seq := u.freshSeq, stamp := stamp }
      (dropPair ch f u.list)
    nextSeq := seqAfter u.freshSeq
    latest := some { channel := ch, family := f, kind := k, seq := u.freshSeq, stamp := stamp } }

/-! ## The unlisted set (R81) -/

/-- The order BATTERY, SIGNAL, MUTE of families (R93). -/
def Family.rank : Family → Nat
  | .battery => 0
  | .signal => 1
  | .mute => 2
  | .part => 3

/-- The place of a channel pair in ascending channel number and then family order (R93). -/
def UnlistedPair.key (p : UnlistedPair) : Nat := 4 * p.channel.val + p.family.rank

/-- The severity of an unlisted pair follows its kind (R81). -/
def UnlistedPair.severity (p : UnlistedPair) : Nat := p.kind.severity

/-- A pair joins the set, or its kind in the set is replaced. -/
def joinUnlisted (p : UnlistedPair) : List UnlistedPair → List UnlistedPair
  | [] => [p]
  | q :: rest =>
    if p.key < q.key then p :: q :: rest
    else if p.key = q.key then p :: rest
    else q :: joinUnlisted p rest

/-- Whether a pair is a member. -/
def isUnlisted (c : Chan) (f : Family) (l : List UnlistedPair) : Bool :=
  l.any fun p => decide (p.channel = c) && decide (p.family = f)

/-- The set without a pair. -/
def leaveUnlisted (c : Chan) (f : Family) (l : List UnlistedPair) : List UnlistedPair :=
  l.filter fun p => !(decide (p.channel = c) && decide (p.family = f))

/-- The most severe unlisted pair: of highest severity, and among equals the first in ascending channel number and then
in the order BATTERY, SIGNAL, MUTE (R93). -/
def mostSevere : List UnlistedPair → Option UnlistedPair
  | [] => none
  | p :: rest =>
    match mostSevere rest with
    | none => some p
    | some q => if p.severity < q.severity then some q else some p

/-! ## Eviction, promotion and the ranking rule (R93, R94, R95) -/

/-- The eviction of the last entry (R94): an entry whose condition is active joins the unlisted set, a CLEARED entry is
removed outright. The part entry has no place in the unlisted set (R81, R96). -/
def AlertUnit.evictLast (u : AlertUnit) : AlertUnit :=
  match u.list.getLast? with
  | none => u
  | some e =>
    { u with
      list := u.list.dropLast
      unlisted :=
        match e.state, e.channel with
        | .cleared, _ => u.unlisted
        | .new, .mic c | .seen, .mic c | .acked, .mic c =>
          joinUnlisted { channel := c, family := e.family, kind := e.kind } u.unlisted
        | .new, .part | .seen, .part | .acked, .part => u.unlisted }

/-- The promotion of a pair into the list (R95). -/
def AlertUnit.promote (stamp : Word) (p : UnlistedPair) (u : AlertUnit) : AlertUnit :=
  AlertUnit.makeNew stamp (.mic p.channel) p.family p.kind
    { u with unlisted := leaveUnlisted p.channel p.family u.unlisted }

/-- One step of the ranking rule, if one applies (R93): (a) a promotion while the list has room, else (b) an eviction and
a promotion while an unlisted pair is more severe than the last entry. -/
def AlertUnit.rankStep (stamp : Word) (u : AlertUnit) : Option AlertUnit :=
  match mostSevere u.unlisted with
  | none => none
  | some p =>
    if u.list.length < Config.listCapacity then some (u.promote stamp p)
    else
      match u.list.getLast? with
      | none => none
      | some e =>
        if e.severity < p.severity then
          let v := u.evictLast
          match mostSevere v.unlisted with
          | none => none
          | some q => some (v.promote stamp q)
        else none

/-- The ranking rule, applied until no step applies, at most `tries` times (R93). -/
def AlertUnit.rankFor (stamp : Word) : Nat → AlertUnit → AlertUnit
  | 0, u => u
  | tries + 1, u =>
    match u.rankStep stamp with
    | none => u
    | some v => AlertUnit.rankFor stamp tries v

/-- The ranking rule (R93). -/
def AlertUnit.rank (stamp : Word) (u : AlertUnit) : AlertUnit := u.rankFor stamp Config.rankingTries

/-! ## Condition events (R85 to R92) -/

/-- A raise of a channel pair (R85, R86): a CLEARED entry becomes NEW again, a pair with no entry enters the list or joins
the unlisted set. A raise that finds its pair active already is discarded (R92). -/
def AlertUnit.raise (stamp : Word) (c : Chan) (f : Family) (k : Kind) (u : AlertUnit) : AlertUnit :=
  match u.entryOf (.mic c) f with
  | some e =>
    match e.state with
    | .cleared => u.makeNew stamp (.mic c) f k
    | .new | .seen | .acked => u
  | none =>
    if isUnlisted c f u.unlisted then u
    else if u.list.length < Config.listCapacity then u.makeNew stamp (.mic c) f k
    else { u with unlisted := joinUnlisted { channel := c, family := f, kind := k } u.unlisted }

/-- The list with the entry of a pair changed in place (R78). -/
def mapPair (ch : AlertChannel) (f : Family) (g : AlertEntry → AlertEntry) (l : List AlertEntry) : List AlertEntry :=
  l.map fun e => if e.isPair ch f then g e else e

/-- A kind change of a listed active entry: an upgrade (R87), a downgrade (R88), or a change within one severity (R89). -/
def AlertUnit.changeListed (stamp : Word) (c : Chan) (f : Family) (k : Kind) (e : AlertEntry) (u : AlertUnit) : AlertUnit :=
  if e.severity < k.severity then u.makeNew stamp (.mic c) f k
  else if k.severity < e.severity then
    { u with list := placeEntry { e with kind := k } (dropPair (.mic c) f u.list) }
  else { u with list := mapPair (.mic c) f (fun x => { x with kind := k }) u.list }

/-- A kind change of a channel pair (R87 to R90); one that finds no active pair is discarded (R92). -/
def AlertUnit.changeKind (stamp : Word) (c : Chan) (f : Family) (k : Kind) (u : AlertUnit) : AlertUnit :=
  match u.entryOf (.mic c) f with
  | some e =>
    match e.state with
    | .cleared => u
    | .new | .seen | .acked => u.changeListed stamp c f k e
  | none =>
    if isUnlisted c f u.unlisted then
      { u with unlisted := joinUnlisted { channel := c, family := f, kind := k } u.unlisted }
    else u

/-- A clearing of a listed entry, by its state (R91). -/
def AlertUnit.clearListed (ch : AlertChannel) (f : Family) (e : AlertEntry) (u : AlertUnit) : AlertUnit :=
  match e.state with
  | .new | .seen => { u with list := mapPair ch f (fun x => { x with state := .cleared }) u.list }
  | .acked => { u with list := dropPair ch f u.list }
  | .cleared => u

/-- A clearing of a channel pair (R91, R92); one that finds no active pair is discarded (R92). -/
def AlertUnit.clearPair (c : Chan) (f : Family) (u : AlertUnit) : AlertUnit :=
  match u.entryOf (.mic c) f with
  | some e => u.clearListed (.mic c) f e
  | none => { u with unlisted := leaveUnlisted c f u.unlisted }

/-! ## The part entry (R96) -/

/-- CLAIM_STALLED becomes active (R96): a CLEARED part entry becomes NEW again; a part pair with no entry enters the list,
the last entry of a full list being evicted first, whatever its severity. -/
def AlertUnit.stallActive (stamp : Word) (u : AlertUnit) : AlertUnit :=
  match u.entryOf .part .part with
  | some e =>
    match e.state with
    | .cleared => u.makeNew stamp .part .part .claimStalled
    | .new | .seen | .acked => u
  | none =>
    if u.list.length < Config.listCapacity then u.makeNew stamp .part .part .claimStalled
    else u.evictLast.makeNew stamp .part .part .claimStalled

/-- CLAIM_STALLED becomes inactive: the part entry is cleared as R91 states (R96). -/
def AlertUnit.stallInactive (u : AlertUnit) : AlertUnit :=
  match u.entryOf .part .part with
  | some e => u.clearListed .part .part e
  | none => u

/-! ## The console (R97, R98, R99, R101) -/

/-- The live entry that holds a sequence. -/
def AlertUnit.entryAt (u : AlertUnit) (seq : Word) : Option AlertEntry :=
  u.list.find? fun e => decide (e.seq = seq)

/-- The list with the entry of a sequence changed in place. -/
def mapSeq (seq : Word) (g : AlertEntry → AlertEntry) (l : List AlertEntry) : List AlertEntry :=
  l.map fun e => if e.seq = seq then g e else e

/-- A NEW entry read becomes SEEN; every other keeps its state (R97). -/
def AlertEntry.markSeen (e : AlertEntry) : AlertEntry :=
  match e.state with
  | .new => { e with state := .seen }
  | .seen | .acked | .cleared => e

/-- A read mark (R97). -/
def AlertUnit.readMark (seq : Word) (u : AlertUnit) : AlertUnit :=
  { u with list := mapSeq seq AlertEntry.markSeen u.list }

/-- An acknowledgement of a sequence (R98). -/
def AlertUnit.acknowledge (seq : Word) (u : AlertUnit) : AlertUnit :=
  match u.entryAt seq with
  | none => { u with ackResult := .gone, ackValue := seq }
  | some e =>
    match e.state with
    | .new | .seen =>
      { u with list := mapSeq seq (fun x => { x with state := .acked }) u.list, ackResult := .accepted, ackValue := seq }
    | .acked => { u with ackResult := .already, ackValue := seq }
    | .cleared =>
      { u with list := u.list.filter (fun x => decide (x.seq ≠ seq)), ackResult := .accepted, ackValue := seq }

/-- A result the responder found, recorded with the value written (R99). -/
def AlertUnit.recordResult (r : AckResult) (value : Word) (u : AlertUnit) : AlertUnit :=
  { u with ackResult := r, ackValue := value }

/-- An acknowledgement write to a view entry (R116): the first row that applies. -/
def AlertUnit.acknowledgementWrite (viewEntry : Option AlertEntry) (value : Word) (u : AlertUnit) : AlertUnit :=
  match viewEntry with
  | none => u.recordResult .noEntry value
  | some e => if value = e.seq then u.acknowledge value else u.recordResult .mismatch value

/-- ACK_ALL, steps 1 and 2 (R101): every NEW and SEEN entry becomes ACKED, every CLEARED entry is removed. -/
def AlertUnit.ackAll (u : AlertUnit) : AlertUnit :=
  { u with
    list := (u.list.filter fun e => decide (e.state ≠ .cleared)).map fun e => { e with state := .acked } }

/-! ## Removals (R105) -/

/-- Whether an entry belongs to one of the named channels. -/
def AlertEntry.ofChannels (cs : List Chan) (e : AlertEntry) : Bool :=
  match e.channel with
  | .mic c => cs.contains c
  | .part => false

/-- A removal, steps 1 and 2 (R105). -/
def AlertUnit.remove (cs : List Chan) (u : AlertUnit) : AlertUnit :=
  { u with
    list := u.list.filter fun e => !e.ofChannels cs
    unlisted := u.unlisted.filter fun p => !cs.contains p.channel }

end Sys2Proof.Machine
end

