-- ==== Sys2Proof/Machine/Lamps.lean ====
section
/-! DEFINITION. The lamp driver (R176 to R180) and, over it, one event of the alert list unit as the rest of the part sees
it (R84, R102): the event, the ranking steps, the live generation, and the lamps. -/

namespace Sys2Proof.Machine

/-! ## Modes (R176) -/

/-- A PART entry is listed in one of the given states. -/
def partListed (states : List EntryState) (l : List AlertEntry) : Bool :=
  l.any fun e => decide (e.family = .part) && states.contains e.state

/-- An entry of a family is listed in one of the given states. -/
def familyListed (f : Family) (states : List EntryState) (l : List AlertEntry) : Bool :=
  l.any fun e => decide (e.family = f) && states.contains e.state

/-- The mode of a lamp derived from the live list: the first row that applies (R176). -/
def lampModeOf (f : Family) (l : List AlertEntry) : LampMode :=
  if (l.any fun e => decide (e.family = f) && decide (e.state = .new) && decide (e.severity = 3)) ||
      partListed [.new, .seen] l then .fast
  else if familyListed f [.new, .seen] l then .slow
  else if familyListed f [.new, .seen, .acked, .cleared] l || partListed [.new, .seen, .acked, .cleared] l then .steady
  else .off

/-- The patterns in use once a boundary has taken the pending pair (R178). -/
def LampState.patternsAtBoundary (l : LampState) : Option Patterns :=
  match l.pending with
  | some p => some p
  | none => l.inUse

/-- A lamp takes a derived mode (R176): a mode that differs begins a new period, lit at its start, on the pending pair if
one waits (R178); an equal mode leaves the lamp as it is. A lamp without patterns is dark. -/
def LampState.takeMode (m : LampMode) (l : LampState) : LampState :=
  if m = l.mode then l
  else
    { mode := m, inUse := l.patternsAtBoundary, pending := none, phase := 0,
      lit := decide (m ≠ .off) && l.patternsAtBoundary.isSome }

/-- The three lamps derived again from the live list (R176). -/
def LampUnit.derive (list : List AlertEntry) (u : LampUnit) : LampUnit :=
  { u with
    battery := u.battery.takeMode (lampModeOf .battery list)
    signal := u.signal.takeMode (lampModeOf .signal list)
    mute := u.mute.takeMode (lampModeOf .mute list) }

/-! ## Events of the alert list unit (R84, R102) -/

/-- The unit after an event `f`: its change, the ranking rule, and the live generation, which rises by 1 if the list
differs from the list before the event. -/
def AlertUnit.event (stamp : Word) (f : AlertUnit → AlertUnit) (u : AlertUnit) : AlertUnit :=
  let v := (f u).rank stamp
  if v.list = u.list then v else { v with gen := v.gen + 1 }

/-- An event of the alert list unit, seen by the lamp driver with its ranking steps (R84, R176). -/
def listEvent (f : AlertUnit → AlertUnit) (s : State) : State :=
  let u := s.alert.event s.time.seconds f
  (s.setAlert u).setLamps (s.lamps.derive u.list)

/-- The unit takes read marks, acknowledgements, condition and CLAIM_STALLED events while the part state is ACTIVE, and
discards them in another (R84). -/
def listEventIfActive (f : AlertUnit → AlertUnit) (s : State) : State :=
  if s.setup.part = .active then listEvent f s else s

/-- The clearing of the unit (R106). The live generation is 0 after it. -/
def clearAlerts (s : State) : State :=
  (s.setAlert .cleared).setLamps (s.lamps.derive [])

/-! ## Single lamps -/

def LampUnit.get (u : LampUnit) : Lamp → LampState
  | .battery => u.battery
  | .signal => u.signal
  | .mute => u.mute

def LampUnit.put (u : LampUnit) (lamp : Lamp) (l : LampState) : LampUnit :=
  match lamp with
  | .battery => { u with battery := l }
  | .signal => { u with signal := l }
  | .mute => { u with mute := l }

/-- The phase has reached the end of the period (R177). -/
def LampState.boundaryDue (l : LampState) : Bool :=
  match l.running with
  | some p => decide (Config.patternUnitMillis * p.period ≤ l.phase)
  | none => false

/-- The phase has reached the end of the on-time and the lamp is still lit (R177). -/
def LampState.onTimeDue (l : LampState) : Bool :=
  match l.running with
  | some p => decide (Config.patternUnitMillis * p.onTime ≤ l.phase) && l.lit
  | none => false

/-- A period boundary (R177, R178): the phase returns to 0, the pending pair is taken into use, the new period is lit. -/
def LampState.boundary (l : LampState) : LampState :=
  { l with inUse := l.patternsAtBoundary, pending := none, phase := 0, lit := true }

/-- PERIOD_BOUNDARY (R177): in SLOW or FAST with the phase at the end of the period. -/
def execPeriodBoundary (lamp : Lamp) (s : State) : Host.Outcome State Fault Refusal :=
  let l := s.lamps.get lamp
  if l.boundaryDue then .next (s.setLamps (s.lamps.put lamp l.boundary)) else .next s

/-- ON_TIME_END (R177): in SLOW or FAST with the phase at the end of the on-time, the lamp goes dark for the rest of its
period. -/
def execOnTimeEnd (lamp : Lamp) (s : State) : Host.Outcome State Fault Refusal :=
  let l := s.lamps.get lamp
  if l.onTimeDue then .next (s.setLamps (s.lamps.put lamp { l with lit := false })) else .next s

/-! ## New patterns (R178, R179) -/

/-- Patterns taken into use at once, none pending (R178): at START, and by a lamp in OFF or STEADY at an APPLY. A lamp that was
dark only for want of patterns is lit now (R176, R177). -/
def LampState.startPatterns (p : Patterns) (l : LampState) : LampState :=
  { l with
    inUse := some p
    pending := none
    lit := l.lit || (l.inUse.isNone && decide (l.mode ≠ .off)) }

/-- An APPLY reaches a lamp (R178): in SLOW and FAST the patterns become pending, in OFF and STEADY they are taken at
once. -/
def LampState.applyPatterns (p : Patterns) (l : LampState) : LampState :=
  match l.mode with
  | .slow | .fast => { l with pending := some p }
  | .off | .steady => l.startPatterns p

/-- The lamp driver takes the settings of START (R178, R179). -/
def LampUnit.startSettings (w : SetupWords) (u : LampUnit) : LampUnit :=
  { u with
    battery := u.battery.startPatterns w.patterns
    signal := u.signal.startPatterns w.patterns
    mute := u.mute.startPatterns w.patterns
    enables := w.enables }

/-- The lamp driver takes the settings of an APPLY (R178, R179). -/
def LampUnit.applySettings (w : SetupWords) (u : LampUnit) : LampUnit :=
  { u with
    battery := u.battery.applyPatterns w.patterns
    signal := u.signal.applyPatterns w.patterns
    mute := u.mute.applyPatterns w.patterns
    enables := w.enables }

/-- PATTERNS_PENDING (R178): the driver takes the patterns and the enables that an APPLY has sent. -/
def execPatternsPending (s : State) : Host.Outcome State Fault Refusal :=
  match s.mail.toLamps with
  | [] => .next s
  | w :: rest => .next ((s.setMail { s.mail with toLamps := rest }).setLamps (s.lamps.applySettings w))

/-! ## The floor line (R180) -/

/-- The debounce timer when the line takes a level: started 10 ms ahead when the level differs from the debounced level,
stopped when it equals it (R180). -/
def LampUnit.floorLevel (now : Millis) (line : Bool) (u : LampUnit) : LampUnit :=
  { u with debounce := if line = u.debounced then .stopped else Timer.start now Config.debounceMillis }

/-- FLOOR_LINE_CHANGE (R180). A level the line has already is no change. While power reset is asserted the driver holds its
power-reset values and looks at the line at the release. -/
def execFloorLineChange (asserted : Bool) (s : State) : Host.Outcome State Fault Refusal :=
  if asserted = s.lines.floor then .next s
  else
    let t := s.setLines { s.lines with floor := asserted }
    if s.powerReset then .next t
    else .next (t.setLamps (s.lamps.floorLevel s.time.ticks asserted))

/-- DEBOUNCE_EXPIRY (R180): the debounced level takes the line's level, and a taken floor change goes to the evaluator. -/
def execDebounceExpiry (s : State) : Host.Outcome State Fault Refusal :=
  if s.lamps.debounce = .due then
    .next ((s.setLamps { s.lamps with debounce := .stopped, debounced := s.lines.floor }).sendFloorChange s.lines.floor)
  else .next s

end Sys2Proof.Machine
end

