-- ==== Sys2Proof/Machine/Enforcement.lean ====
section
/-! DEFINITION. The memory port (R121) and the enforcement unit (R133 to R159): effective gain words, the write filter, the
rewrite queue, raising a claim, stalls, offering accesses; and what the unit takes from the other blocks. The steps that
withdraw a claim are in Claims.lean. -/

namespace Sys2Proof.Machine

/-! ## The memory port (R121, R183) -/

/-- The outputs of the memory port while an access is served: M_REQ asserted; a read drives no data (log 26). -/
def PortAccess.drive (p : PortAccess) (l : PortLines) : PortLines :=
  match p with
  | .processor (.read a) | .loadRead _ a => { l with addr := a, write := false, req := true }
  | .processor (.write a w) | .burstWrite _ a w => { addr := a, data := w, write := true, req := true }

/-- An access reaches the memory port: it begins if the port is free, else it waits (R121). -/
def PathUnit.offer (p : PortAccess) (u : PathUnit) : PathUnit :=
  match u.port with
  | none => { u with port := some p, lines := p.drive u.lines }
  | some _ => { u with waiting := some p }

/-- The access at the memory port ends: the port is free again with M_REQ deasserted, or the access that waits begins
(R121; log 26). -/
def PathUnit.portEnded (u : PathUnit) : PathUnit :=
  match u.waiting with
  | none => { u with port := none, lines := { u.lines with req := false } }
  | some p => { u with port := some p, waiting := none, lines := p.drive u.lines }

/-- Whether an access is one of the enforcement unit's own (R121). -/
def PortAccess.own : PortAccess → Bool
  | .processor _ => false
  | .loadRead _ _ | .burstWrite _ _ _ => true

/-- An access of the enforcement unit's own is at the port or waits for it (log 14). -/
def PathUnit.ownInProgress (u : PathUnit) : Bool := (u.port.any PortAccess.own) || (u.waiting.any PortAccess.own)

/-- The gain word address of a channel (R123); the base is read only while it is decoded. -/
def State.gainAddress (s : State) (c : Chan) : Addr := pastBase ((s.path.bases.map (·.gain)).getD 0) c.val

/-! ## Effective gain words (R134) -/

/-- Mute-applied: ACTIVE, effective mode ENFORCE, and the channel enforced (R134). -/
def State.muteApplied (s : State) (c : Chan) : Bool :=
  decide (s.setup.part = .active) && decide (s.mode = .enforce) && s.channels[c].enforced

/-- The mute code of the working setup as a gain code (0 to 255). -/
def State.muteGainCode (s : State) : BitVec 8 := BitVec.ofNat 8 s.settings.muteCode

/-- The effective gain word of a channel (R134). -/
def State.effectiveWord (s : State) (c : Chan) : Word :=
  if s.muteApplied c then withGainCode s.enf.intended[c] s.muteGainCode else s.enf.intended[c]

/-! ## The rewrite queue (R137) -/

/-- A channel added at the tail, if it is absent (R137, R138). -/
def addToQueue (c : Chan) (q : List Chan) : List Chan := if c ∈ q then q else q ++ [c]

/-- Several channels added, one after another, each only if absent. -/
def addAllToQueue : List Chan → List Chan → List Chan
  | [], q => q
  | c :: cs, q => addAllToQueue cs (addToQueue c q)

/-- The state with the rewrite queue replaced. -/
def State.setQueue (s : State) (q : List Chan) : State := s.setEnf { s.enf with queue := q }

/-! ## Raising a claim (R143) -/

/-- Work waits: the queue is not empty in ACTIVE or RELEASING, or a load waits to run in LOADING (R143). -/
def State.claimPurpose (s : State) : Option Purpose :=
  match s.setup.part with
  | .active | .releasing => if s.enf.queue = [] then none else some .burst
  | .loading => if s.enf.loadPosition.isSome then some .load else none
  | .settling | .passive => none

/-- From IDLE, with BUSRST_N and CEDE_N deasserted, the unit raises a claim when work waits: CLAIMING, with the claim timer
5 ms ahead (R143). -/
def claimIfAllowed (s : State) : State :=
  if s.enf.claim = .idle ∧ s.lines.busrst = false ∧ s.lines.cede = false then
    match s.claimPurpose with
    | some p =>
      s.setEnf { s.enf with
        claim := .claiming, purpose := some p, claimTimer := Timer.start s.time.ticks Config.claimMillis }
    | none => s
  else s

/-! ## Stalls (R146, R147) -/

/-- The end of a stall by CEDE_N or bus reset: the mark is cleared, and a stall-end report goes to the alert list unit in
ACTIVE, to the setup and command unit in another part state (R147). -/
def endStall (s : State) : State :=
  if s.enf.stalled then
    let t := s.setEnf { s.enf with stalled := false }
    if s.setup.part = .active then t.sendStall false else t.sendToSetup .stallEnd
  else s

/-- CLAIM_TIMER_EXPIRY (R146): in CLAIMING the stalled mark is set and a stall report sent; the claim stays asserted. -/
def execClaimTimerExpiry (s : State) : Host.Outcome State Fault Refusal :=
  if s.enf.claimTimer = .due ∧ s.enf.claim = .claiming then
    let t := s.setEnf { s.enf with claimTimer := .stopped, stalled := true }
    .next (if s.setup.part = .active then t.sendStall true else t.sendToSetup .stall)
  else .next s

/-! ## The restore-done report (R156) -/

/-- HALT is on its way to the enforcement unit, which has not taken it (R155, R171). -/
def State.haltPending (s : State) : Bool := decide (ToEnforcement.halt ∈ s.mail.toEnforcement)

/-- The report is due: RELEASING, HALT taken by the unit (log 13), queue empty, claim state IDLE, and no report on its way
already. -/
def State.restoreDue (s : State) : Bool :=
  decide (s.setup.part = .releasing) && !s.haltPending &&
    decide (s.enf.queue = []) && decide (s.enf.claim = .idle) && decide (ToSetup.restoreDone ∉ s.mail.toSetup)

/-- The restore-done report sent when it is due (R156). -/
def reportIfRestored (s : State) : State := if s.restoreDue then s.sendToSetup .restoreDone else s

/-! ## The write filter (R135, R136) -/

/-- The channels whose silence changes when the intended gain code of `c` goes from `old` to `new`: `c` if the codes lie on
opposite sides of the mute code (R63, R135). -/
def crossing (muteCode : Nat) (c : Chan) (old new : Word) : List Chan :=
  if gainSilent muteCode old = gainSilent muteCode new then [] else [c]

/-- The filter takes a processor write to a channel's gain word: intended word, silence change, and the channel out of the
queue (R135 steps 1, 2, 4; R136). In RELEASING, taking the last channel out of the queue may end the restore (R156). -/
def filterWrite (c : Chan) (w : Word) (s : State) : State :=
  let t :=
    (s.setEnf { s.enf with
      intended := s.enf.intended.set c w, queue := s.enf.queue.filter (fun d => d ≠ c) }).sendSilence
      (crossing s.settings.muteCode c s.enf.intended[c] w)
  if c ∈ s.enf.queue then reportIfRestored t else t

/-! ## What the unit takes from the evaluator (R138) -/

/-- The notices without the first. -/
def State.dropNotice (s : State) : State := s.setMail { s.mail with notices := s.mail.notices.tail }

/-- A request to the unit brings a setup in place of one under ENFORCE. -/
def ToEnforcement.endsEnforce (straps : Straps) : ToEnforcement → Bool
  | .setupChange old _ => decide (old.effectiveMode straps = .enforce)
  | .loadRequest | .halt => false

/-- A notice finds ENFORCE at the unit (R138, R139): it is the effective mode, or the mode before a setup change still on its
way, since a notice taken before a switch to OBSERVE adds its channel under ENFORCE. -/
def State.noticeUnderEnforce (s : State) : Bool :=
  decide (s.mode = .enforce) || s.mail.toEnforcement.any (ToEnforcement.endsEnforce s.path.straps)

/-- The session goes on at the unit: ACTIVE, up to the unit's taking of HALT, the event at which the part state becomes RELEASING
for it (R138, R155). -/
def State.noticeInSession (s : State) : Bool := decide (s.setup.part = .active) || s.haltPending

/-- A channel added to the queue in ACTIVE under ENFORCE, and a claim raised if it may be (R138, R139, R143). -/
def queueUnderEnforce (c : Chan) (s : State) : State :=
  if s.noticeInSession ∧ s.noticeUnderEnforce then claimIfAllowed (s.setQueue (addToQueue c s.enf.queue))
  else s

/-- CAUSE_CHANGE_NOTICE (R138): the cause-change notice that waits first. -/
def execCauseChangeNotice (s : State) : Host.Outcome State Fault Refusal :=
  match s.mail.notices with
  | .causeChange c :: _ => .next (queueUnderEnforce c s.dropNotice)
  | .enrolment _ :: _ | [] => .next s

/-- ENROLMENT_CHANGE (R138): the enrolment change that waits first. -/
def execEnrolmentChange (s : State) : Host.Outcome State Fault Refusal :=
  match s.mail.notices with
  | .enrolment c :: _ => .next (queueUnderEnforce c s.dropNotice)
  | .causeChange _ :: _ | [] => .next s

/-- The channel a notice names. -/
def Notice.channel : Notice → Chan
  | .causeChange c | .enrolment c => c

/-- The notices of the list taken in their order. -/
def takeNotices : List Notice → State → State
  | [], s => s
  | m :: rest, s => takeNotices rest (queueUnderEnforce m.channel s.dropNotice)

/-! ## Enrolment changes that a switch or HALT follows (R138, R141, log 34) -/

/-- A request to the evaluator de-enrols a channel that it has not reached. -/
def ToEvaluator.deEnrols (c : Chan) : ToEvaluator → Bool
  | .membership w next => decide (next ≤ c) && !w.enrols c
  | .chair _ _ | .tableReset _ => false

/-- The evaluator has channel `c` enrolled, and a membership change on its way de-enrols it (R11). -/
def State.deEnrolling (c : Chan) (s : State) : Bool :=
  s.channels[c].enrolled && s.mail.toEvaluator.any (ToEvaluator.deEnrols c)

/-- An enrolment change of channel `c` is still to be taken: it is on its way, or still to be sent (R11). -/
def State.enrolmentOwed (c : Chan) (s : State) : Bool :=
  decide (Notice.enrolment c ∈ s.mail.notices) || s.deEnrolling c

/-! ## What the unit takes from the setup and command unit (R139, R152) -/

/-- The requests to the unit without the first. -/
def State.dropToEnforcement (s : State) : State :=
  s.setMail { s.mail with toEnforcement := s.mail.toEnforcement.tail }

/-- Whether an APPLY changes the effective mode, or under ENFORCE the mute code (R139). -/
def setupChangeQueues (straps : Straps) (old new : SetupWords) : Bool :=
  decide (old.effectiveMode straps ≠ new.effectiveMode straps) ||
    (decide (old.effectiveMode straps = .enforce) && decide (old.muteCode ≠ new.muteCode))

/-- The channels enrolled in the old or the new setup, ascending (R139). -/
def enrolledInEither (old new : SetupWords) : List Chan := allChannels.filter fun c => old.enrols c || new.enrols c

/-- The enrolled channels whose intended gain code lies on different sides of the old and the new mute code (R63). -/
def muteCodeCrossings (old new : SetupWords) (intended : Vector Word 64) : List Chan :=
  allChannels.filter fun c =>
    new.enrols c && decide (gainSilent old.muteCode intended[c] ≠ gainSilent new.muteCode intended[c])

/-- The unit takes the setup change of an APPLY that waits first (R139). -/
def takeSetupChange (old new : SetupWords) (s : State) : State :=
  let t := s.dropToEnforcement.sendSilence (muteCodeCrossings old new s.enf.intended)
  if setupChangeQueues s.path.straps old new then
    claimIfAllowed (t.setQueue (addAllToQueue (enrolledInEither old new) s.enf.queue))
  else t

/-- A switch from ENFORCE to OBSERVE waits for the enrolment changes of earlier APPLYs: taken after it they would add nothing,
and it queues only the channels of its own two setups (R138, R139, R141, log 34). -/
def State.switchWaits (old new : SetupWords) (s : State) : Bool :=
  decide (old.effectiveMode s.path.straps = .enforce) && decide (new.effectiveMode s.path.straps = .observe) &&
    allChannels.any fun c => !(old.enrols c || new.enrols c) && s.enrolmentOwed c

/-- SETUP_CHANGE (R139): the setup change of an APPLY that waits first. -/
def execSetupChange (s : State) : Host.Outcome State Fault Refusal :=
  match s.mail.toEnforcement with
  | .setupChange old new :: _ => if s.switchWaits old new then .next s else .next (takeSetupChange old new s)
  | .loadRequest :: _ | .halt :: _ | [] => .next s

/-- START's reset of the table, on its way through the channels. -/
def ToEvaluator.isReset : ToEvaluator → Bool
  | .tableReset _ => true
  | .chair _ _ | .membership _ _ => false

/-- START's reset of the table has not been taken for every channel (R152). -/
def State.resetPending (s : State) : Bool := s.mail.toEvaluator.any ToEvaluator.isReset

/-- LOAD_REQUEST (R152): taken once the evaluator has taken START's reset of the whole table, whatever other request of START is
still on its way (R169): the load position becomes 0 and the unit claims with purpose load. -/
def execLoadRequest (s : State) : Host.Outcome State Fault Refusal :=
  match s.mail.toEnforcement with
  | .loadRequest :: _ =>
    if s.resetPending then .next s
    else
      .next (claimIfAllowed (s.dropToEnforcement.setEnf { s.enf with loadPosition := some 0 }))
  | .setupChange _ _ :: _ | .halt :: _ | [] => .next s

/-- The channels of the working setup, ascending (R155). -/
def State.workingChannels (s : State) : List Chan := allChannels.filter fun c => s.workingEnrols c

/-! ## Offering accesses in CEDED (R148, R152) -/

/-- The write of the channel at the head of the queue is offered: the channel leaves the queue and the word is formed now
(R148). -/
def offerBurstWrite (c : Chan) (rest : List Chan) (s : State) : State :=
  (s.setQueue rest).setPath (s.path.offer (.burstWrite c (s.gainAddress c) (s.effectiveWord c)))

/-- The read of the gain word at the load position is offered (R152). -/
def offerLoadRead (c : Chan) (s : State) : State := s.setPath (s.path.offer (.loadRead c (s.gainAddress c)))

/-- A load's read of channel `c` sets its intended gain word (R152). -/
def setIntended (c : Chan) (w : Word) (s : State) : State :=
  s.setEnf { s.enf with intended := s.enf.intended.set c w }

/-- The enforced channels, ascending, as the channel table has them (R153). -/
def State.enforcedChannels (s : State) : List Chan := allChannels.filter fun c => s.channels[c].enforced

end Sys2Proof.Machine
end

