-- ==== Sys2Proof/Machine/Setup.lean ====
section
/-! DEFINITION. The setup and command unit (R161 to R175): the setup copy, validation, the judging of command words, START,
APPLY, HALT, MUTE, UNMUTE, ACK_ALL, and the reports it takes. -/

namespace Sys2Proof.Machine

/-! ## The setup copy (R164) -/

/-- The unit takes the copy of a write to setup words 0 to 35: the word is stored and its mark set (R164). -/
def takeSetupWord (n : Fin 36) (data : Word) (s : State) : State :=
  s.setSetup { s.setup with copy := s.setup.copy.set n data, marks := s.setup.marks.set n true }

/-! ## Validation (R165) -/

/-- A value lies in a range, both ends included. -/
def within (lo hi n : Nat) : Bool := decide (lo ≤ n) && decide (n ≤ hi)

/-- A pattern's period is 2 to 40 units and its on-time 1 to period - 1 (R165). -/
def Pattern.inRange (p : Pattern) : Bool := within 2 40 p.period && within 1 (p.period - 1) p.onTime

/-- The sum of words 0 to 35, modulo 65536 (R165). -/
def SetupWords.sum (w : SetupWords) : Word := w.toList.foldl (· + ·) 0

/-- Every threshold of a chemistry lies in 1 to 99 (R165). -/
def SetupWords.thresholdsInRange (w : SetupWords) (ch : Chemistry) : Bool :=
  within 1 99 (w.noticeThreshold ch) && within 1 99 (w.lowThreshold ch) && within 1 99 (w.criticalThreshold ch)

/-- Every field lies in its range, and the mode request and freeze level name a mode and a level (R165, R181). -/
def SetupWords.inRange (w : SetupWords) : Bool :=
  within 0 4095 w.telemetryBlock && within 0 16383 w.gainBlock && within 0 2047 w.alertBlock &&
  within 0 1 w.modeRequest && within 0 2 w.freezeField &&
  within 0 127 w.fadeLevel && within 1 15 w.fadeConfirm &&
  within 20 2000 w.dropoutLimit && within 50 1000 w.freshnessLimit &&
  within 1 60 w.dropoutWindow && within 2 15 w.dropoutCountLimit &&
  w.thresholdsInRange .primary && w.thresholdsInRange .rechargeable && within 1 10 w.hysteresis &&
  within 0 63 w.speechLevel && within 1 255 w.speechThreshold && within 0 63 w.idleLevel && within 10 600 w.idleLimit &&
  within 0 255 w.muteCode && w.patterns.slow.inRange && w.patterns.fast.inRange

/-- The thresholds of a chemistry descend strictly (R165). -/
def SetupWords.thresholdsDescend (w : SetupWords) (ch : Chemistry) : Bool :=
  decide (w.lowThreshold ch < w.noticeThreshold ch) && decide (w.criticalThreshold ch < w.lowThreshold ch)

/-- Two windows, each a first address and a length, share an address. -/
def windowsMeet (a b : Nat × Nat) : Bool := decide (a.1 < b.1 + b.2) && decide (b.1 < a.1 + a.2)

/-- Two of the telemetry, gain, alert and setup windows share an address (R165). -/
def SetupWords.overlaps (straps : Straps) (w : SetupWords) : Bool :=
  let telemetry := (w.telemetryBlock * 256, 256)
  let gain := (w.gainBlock * 64, 64)
  let alert := (w.alertBlock * 512, 512)
  let setup := ((setupBase straps).toNat, 37)
  windowsMeet telemetry gain || windowsMeet telemetry alert || windowsMeet gain alert ||
    windowsMeet telemetry setup || windowsMeet gain setup || windowsMeet alert setup

/-- Words 1 to 3 of two setups are the same (R165). -/
def SetupWords.sameWindows (w v : SetupWords) : Bool :=
  decide (w[1] = v[1]) && decide (w[2] = v[2]) && decide (w[3] = v[3])

/-- Validation of the setup copy: the first reason that fails, in the order of R165's table; at APPLY also
WINDOWS_FIXED against the working setup. -/
def validate (straps : Straps) (marks : Vector Bool 36) (copy : SetupWords) (atApply : Option SetupWords) :
    Option Reason :=
  if marks.toList.any (fun m => !m) then some .incomplete
  else if copy[0] ≠ Config.signature then some .signature
  else if copy.sum ≠ 0 then some .check
  else if !copy.inRange then some .range
  else if !(copy.thresholdsDescend .primary && copy.thresholdsDescend .rechargeable) then some .order
  else if copy.overlaps straps then some .overlap
  else
    match atApply with
    | none => none
    | some working => if copy.sameWindows working then none else some .windowsFixed

/-! ## Commands (R168) -/

/-- The six commands (R168). -/
inductive Command where
  | start
  | apply
  | halt
  | mute
  | unmute
  | ackAll
  deriving DecidableEq, Repr

/-- The command a code names (R168). -/
def commandOf (code : BitVec 8) : Option Command :=
  if code = 0x01#8 then some .start
  else if code = 0x02#8 then some .apply
  else if code = 0x03#8 then some .halt
  else if code = 0x10#8 then some .mute
  else if code = 0x11#8 then some .unmute
  else if code = 0x20#8 then some .ackAll
  else none

/-- The part state in which a command is taken (R168). -/
def Command.takenIn : Command → PartState
  | .start => .passive
  | .apply | .halt | .mute | .unmute | .ackAll => .active

/-- A command judged to its last code, with a result (R168, cases 2 to 6). -/
def State.withResult (s : State) (code : BitVec 8) (r : CommandResult) : State :=
  s.setSetup { s.setup with result := r, lastCode := code }

/-- The channel a MUTE or UNMUTE may name: below 64 and enrolled in the working setup (R168 case 4). -/
def State.muteChannel (s : State) (n : BitVec 8) : Option Chan :=
  if h : n.toNat < 64 then if s.workingEnrols ⟨n.toNat, h⟩ then some ⟨n.toNat, h⟩ else none else none

/-- The setup a START puts in force: at PERMANENT the working setup as it stands, else the setup copy if it is valid
(R167, R169). -/
def State.startSetup (s : State) : Except Reason SetupWords :=
  if s.setup.freeze = .permanent then .ok s.settings
  else
    match validate s.path.straps s.setup.marks s.setup.copy none with
    | some r => .error r
    | none => .ok s.setup.copy

/-- START carried out with setup `w` in force (R169): working setup and freeze level, window bases, staging records, view,
seconds count, lamp patterns and enables, status and part state; the reset of the table, the clearing of the alert list and
the load request are sent. What an ended session left on its way, frames, condition events, CLAIM_STALLED events, notices and
the patterns of an APPLY, goes no further (R7, R63, R106, R138, R169; logs 16 and 30). -/
def beginSession (w : SetupWords) (s : State) : State :=
  let freeze := if s.setup.freeze = .permanent then Freeze.permanent else w.freezeLevel
  let t := s.setSetup { s.setup with
    working := some w, freeze := freeze, result := .inProgress, lastCode := 0x01#8, part := .loading }
  let t := t.setPath { s.path with bases := some w.bases }
  let t := t.setStaging (Vector.replicate 64 .empty)
  let t := t.setView .emptied
  let t := t.setTime { s.time with seconds := 0, phase := 0 }
  let t := t.setLamps (s.lamps.startSettings w)
  t.setMail { s.mail with
    frames := []
    conditions := []
    stalls := []
    notices := []
    toEvaluator := s.mail.toEvaluator ++ [.tableReset 0]
    toList := s.mail.toList ++ [.clearing]
    toEnforcement := s.mail.toEnforcement ++ [.loadRequest]
    toLamps := [] }

/-- START (R169): validated unless the freeze level is PERMANENT, then carried out. -/
def commandStart (s : State) : State :=
  match s.startSetup with
  | .error r => s.withResult 0x01#8 (.rejected r)
  | .ok w => beginSession w s

/-- The channels an APPLY de-enrols, ascending (R105, R170). -/
def deEnrolled (old new : SetupWords) : List Chan := allChannels.filter fun c => old.enrols c && !new.enrols c

/-- The channels an APPLY newly enrols, ascending (R11). -/
def newlyEnrolled (old new : SetupWords) : List Chan := allChannels.filter fun c => !old.enrols c && new.enrols c

/-- A request to the alert list unit is a removal that names one of the channels (R105). -/
def ToList.names (cs : List Chan) : ToList → Bool
  | .removal gone => gone.any cs.contains
  | .clearing => false

/-- What a request to the alert list unit does (R105, R106). -/
def takeToList (m : ToList) (s : State) : State :=
  match m with
  | .removal gone => listEvent (AlertUnit.remove gone) s
  | .clearing => clearAlerts s

/-- The requests to the alert list unit taken in their order, up to the last removal that names one of the channels (log 36). -/
def takeRemovals (cs : List Chan) : List ToList → State → State
  | [], s => s
  | m :: rest, s =>
    if (m :: rest).any (ToList.names cs) then
      takeRemovals cs rest (takeToList m (s.setMail { s.mail with toList := rest }))
    else s

/-- The staging records with those of the named channels cleared (R11, R13). -/
def clearStaging (cs : List Chan) (v : Vector Staging 64) : Vector Staging 64 :=
  Vector.ofFn fun c : Chan => if cs.contains c then .empty else v[c]

/-- What an APPLY sends and puts in force (R170): working setup and freeze level, staging records of de-enrolled channels, status;
the membership change, the removal when a channel is de-enrolled, the setup change and the new patterns are sent. Frames of a newly
enrolled channel still on their way were committed before the APPLY that de-enrolled it, and are discarded (R7, log 36). -/
def sendSetup (w : SetupWords) (s : State) : State :=
  let gone := deEnrolled s.settings w
  let fresh := newlyEnrolled s.settings w
  let t := s.setSetup { s.setup with
    working := some w, freeze := w.freezeLevel, result := .done, lastCode := 0x02#8 }
  let t := t.setStaging (clearStaging gone s.staging)
  t.setMail { s.mail with
    frames := s.mail.frames.filter fun p => !fresh.contains p.1
    toEvaluator := s.mail.toEvaluator ++ [.membership w 0]
    toList := s.mail.toList ++ (if gone = [] then [] else [.removal gone])
    toEnforcement := s.mail.toEnforcement ++ [.setupChange s.settings w]
    toLamps := s.mail.toLamps ++ [w] }

/-- APPLY carried out with setup `w` (R170): a channel that it newly enrols starts with no entries and no unlisted pairs, so an
earlier removal of that channel is taken first (R105, log 36). -/
def applySetup (w : SetupWords) (s : State) : State :=
  sendSetup w (takeRemovals (newlyEnrolled s.settings w) s.mail.toList s)

/-- APPLY (R168 cases 4 and 5, R170). -/
def commandApply (s : State) : State :=
  if s.setup.freeze ≠ .none then s.withResult 0x02#8 .refusedFrozen
  else
    match validate s.path.straps s.setup.marks s.setup.copy (some s.settings) with
    | some r => s.withResult 0x02#8 (.rejected r)
    | none => applySetup s.setup.copy s

/-- The freeze level after HALT: SESSION returns to NONE (R167, R171). -/
def Freeze.afterHalt : Freeze → Freeze
  | .session => .none
  | .none => .none
  | .permanent => .permanent

/-- HALT's own effects (R171): the table reset (R10) and the alert list cleared (R106) within the step (log 32), and with the
clearing the removals that it would overtake on its path; part state and status, freeze level, staging records, view; HALT
itself is sent to the enforcement unit. Condition events and CLAIM_STALLED events still on their way stay there: taken after HALT
they are discarded (R84, R106), and how long they may stay is the model's choice (log 30). -/
def haltSession (s : State) : State :=
  let t := (clearAlerts s).setChannels (Vector.replicate 64 .powerReset)
  let t := t.setSetup { s.setup with
    part := .releasing, freeze := s.setup.freeze.afterHalt, result := .inProgress, lastCode := 0x03#8 }
  let t := t.setStaging (Vector.replicate 64 .empty)
  let t := t.setView .emptied
  t.setMail { s.mail with
    toEvaluator := []
    toList := []
    toEnforcement := s.mail.toEnforcement ++ [.halt] }

/-- HALT carried out (R171): the evaluator first takes the chair requests and membership changes that stand before HALT's reset on
their path, and so sends the enrolment changes of the channels that an APPLY has de-enrolled (R11, log 34). -/
def commandHalt (s : State) : State := haltSession (takeRequests s.mail.toEvaluator s)

/-- MUTE and UNMUTE (R168 case 4, R173): a chair request is sent, the result is DONE whether or not it changes the cause. -/
def commandChair (set : Bool) (code : BitVec 8) (channel : BitVec 8) (s : State) : State :=
  match s.muteChannel channel with
  | none => s.withResult code .refusedChannel
  | some c => (s.withResult code .done).sendToEvaluator (.chair c set)

/-- ACK_ALL (R101, R173): one event of the alert list unit, and DONE. -/
def commandAckAll (s : State) : State := (listEvent AlertUnit.ackAll s).withResult 0x20#8 .done

/-- A command judged in cases 4 to 6 of R168. -/
def carryOut (k : Command) (channel : BitVec 8) (s : State) : State :=
  match k with
  | .start => commandStart s
  | .apply => commandApply s
  | .halt => commandHalt s
  | .mute => commandChair true 0x10#8 channel s
  | .unmute => commandChair false 0x11#8 channel s
  | .ackAll => commandAckAll s

/-- A command word judged in the order of R168. -/
def takeCommand (data : Word) (s : State) : State :=
  if s.setup.result = .inProgress then s.setSetup { s.setup with busyFlag := true }
  else
    match commandOf (commandCode data) with
    | none => s.withResult (commandCode data) .refusedCode
    | some k =>
      if s.setup.part = k.takenIn then carryOut k (commandChannel data) s
      else s.withResult (commandCode data) .refusedState

/-! ## Reports and the settle timer -/

/-- The clearings of START still on their way to the alert list unit taken: the list stays empty up to ACTIVE, and the first events
of the session are taken after it (R106, log 32). -/
def takeClearings (s : State) : State :=
  if ToList.clearing ∈ s.mail.toList then
    clearAlerts (s.setMail { s.mail with toList := s.mail.toList.filter fun m => decide (m ≠ .clearing) })
  else s

/-- LOADING ends: the load-done report makes the part ACTIVE, the result DONE, and clears the refused-while-busy flag
(R153, R161, R169). -/
def loadDone (s : State) : State :=
  s.setSetup { s.setup with part := .active, result := .done, busyFlag := false }

/-- The reports to the setup and command unit without the first. -/
def State.dropToSetup (s : State) : State := s.setMail { s.mail with toSetup := s.mail.toSetup.tail }

/-- RELEASING ends: PASSIVE, the result DONE, the refused-while-busy flag cleared (R156, R171). -/
def restoreDone (s : State) : State :=
  s.setSetup { s.setup with part := .passive, result := .done, busyFlag := false }

/-- What a report does (R171, R174): a stall report sets the stalled flag, a stall-end report clears it, the restore-done
report ends RELEASING. -/
def takeReport (m : ToSetup) (s : State) : State :=
  match m with
  | .stall => s.setSetup { s.setup with stalledFlag := true }
  | .stallEnd => s.setSetup { s.setup with stalledFlag := false }
  | .restoreDone => if s.setup.part = .releasing then restoreDone s else s

/-- Several reports taken, one after another. -/
def takeEach : List ToSetup → State → State
  | [], s => s
  | m :: rest, s => takeEach rest (takeReport m s)

/-- The reports on their way to the unit, taken in their order: one path brings them before the report that follows them. -/
def takeReports (s : State) : State := takeEach s.mail.toSetup (s.setMail { s.mail with toSetup := [] })

/-- The restore-done report where the spec has it bring its change of part state with the event that sends it, the withdrawal
of CLAIM_N after a broken cede (R129, R156) and HALT itself (R155, R171): if it is due it is sent, and the unit takes it with
the reports before it (log 13). -/
def endRestore (s : State) : State := if s.restoreDue then takeReports (s.sendToSetup .restoreDone) else s

/-- STALL_REPORT (R174): the stalled flag is set. -/
def execStallReport (s : State) : Host.Outcome State Fault Refusal :=
  match s.mail.toSetup with
  | .stall :: _ => .next (takeReport .stall s.dropToSetup)
  | .stallEnd :: _ | .restoreDone :: _ | [] => .next s

/-- STALL_END_REPORT (R147, R174): the stalled flag is cleared. -/
def execStallEndReport (s : State) : Host.Outcome State Fault Refusal :=
  match s.mail.toSetup with
  | .stallEnd :: _ => .next (takeReport .stallEnd s.dropToSetup)
  | .stall :: _ | .restoreDone :: _ | [] => .next s

/-- RESTORE_DONE_REPORT (R156, R171): RELEASING ends in PASSIVE with result DONE. -/
def execRestoreDoneReport (s : State) : Host.Outcome State Fault Refusal :=
  match s.mail.toSetup with
  | .restoreDone :: _ => .next (takeReport .restoreDone s.dropToSetup)
  | .stall :: _ | .stallEnd :: _ | [] => .next s

/-- SETTLE_TIMER_EXPIRY (R163): SETTLING becomes PASSIVE, the command status is unchanged. -/
def execSettleTimerExpiry (s : State) : Host.Outcome State Fault Refusal :=
  if s.setup.settle = .due ∧ s.setup.part = .settling then
    .next (s.setSetup { s.setup with settle := .stopped, part := .passive })
  else .next s

end Sys2Proof.Machine
end

