-- ==== Sys2Proof/Machine/Window.lean ====
section
/-! DEFINITION. The alert window responder (R107 to R119): what an access to each offset of the window returns and does. -/

namespace Sys2Proof.Machine

/-- A snapshot (R109): the listed entries, their number and the live generation copied into the view. -/
def takeSnapshot (s : State) : State :=
  s.setView
    { gen := s.alert.gen, count := s.alert.list.length, entries := Vector.ofFn fun i : Fin 32 => s.alert.list[i.val]? }

/-- A read of offset 0 to 15 that takes no snapshot (R111): the word the live state and the view give. -/
def headerWord (s : State) (offset : Nat) : Word :=
  match offset with
  | 0 => s.view.gen
  | 1 => countsWord s.view s.alert
  | 2 => stateWord s.setup s.mode
  | 3 => familiesWord s.alert
  | 4 => raiseChannelWord s.alert.latest
  | 5 => raiseKindWord s.alert.latest
  | 6 => raiseSeqWord s.alert.latest
  | 7 => raiseStampWord s.alert.latest
  | 8 => ackWord s.alert
  | 9 => s.time.seconds
  | 10 => s.alert.gen
  | _ => 0

/-- The word of a view entry (R112, R113): zero when it is empty. -/
def viewWord (e : Option AlertEntry) (word : Nat) : Word :=
  match word with
  | 0 => entryWord0 e
  | 1 => entryWord1 e
  | 2 => entryWord2 e
  | _ => entryWord3 e

/-- The word of a channel's detail (R114, R115). -/
def detailWord (r : ChannelRecord) (word : Nat) : Word :=
  match word with
  | 0 => detailWord0 r
  | 1 => detailWord1 r
  | 2 => detailWord2 r
  | _ => detailWord3 r

/-- The read mark that a read of word 0 of a view entry delivers: none when the entry is empty (R113). -/
def deliverReadMark (e : Option AlertEntry) (s : State) : State :=
  match e with
  | none => s
  | some x => listEventIfActive (AlertUnit.readMark x.seq) s

/-- The capture release that a read of detail word 3 delivers, one event of the channel (R36, R115). -/
def deliverCaptureRelease (c : Chan) (s : State) : State := channelEvent c ChannelRecord.release s

/-- The regions of the alert window (06_reading_and_acknowledging_through_the_alert_wind.md, The Window and Its Regions). -/
inductive Region where
  | header (offset : Nat)
  | entry (i : Fin 32) (word : Nat)
  | detail (c : Chan) (word : Nat)
  | blank
  deriving DecidableEq, Repr

/-- The region of an offset. -/
def regionOf (offset : Nat) : Region :=
  if offset < 16 then .header offset
  else if h : offset < 144 then .entry ⟨(offset - 16) / 4, by omega⟩ ((offset - 16) % 4)
  else if h : offset < 400 then .detail ⟨(offset - 144) / 4, by omega⟩ ((offset - 144) % 4)
  else .blank

/-- A read of the alert window: the state it leaves and the word it returns (R109 to R115). What the answer reads of the view and
of the alert list unit it reads in `seen`, which is `s` but for an answer that HALT overtakes (R119). -/
def answerRead (seen : State) (offset : Nat) (s : State) : State × Word :=
  match regionOf offset with
  | .header 0 => (takeSnapshot s, seen.alert.gen)
  | .header n => (s, headerWord seen n)
  | .entry i 0 => (deliverReadMark seen.view.entries[i] s, entryWord0 seen.view.entries[i])
  | .entry i word => (s, viewWord seen.view.entries[i] word)
  | .detail c 3 => (deliverCaptureRelease c s, detailWord3 s.channels[c])
  | .detail c word => (s, detailWord s.channels[c] word)
  | .blank => (s, 0)

/-- A write to the alert window: an acknowledgement write at word 3 of a view entry, as `seen` has it (R116), discarded elsewhere
(R118). -/
def answerWrite (seen : State) (offset : Nat) (value : Word) (s : State) : State :=
  match regionOf offset with
  | .entry i 3 => listEventIfActive (AlertUnit.acknowledgementWrite seen.view.entries[i] value) s
  | .entry _ _ | .header _ | .detail _ _ | .blank => s

end Sys2Proof.Machine
end

