-- ==== Sys2Proof/Machine/MemoryPath.lean ====
section
/-! DEFINITION. The memory path (R120 to R129): classification, the five courses of a processor access, arrival, holding,
completion, and the commands that present one access at the processor port. -/

namespace Sys2Proof.Machine

/-! ## Classification (R124) -/

/-- What the memory path does with an access (R124). -/
inductive Course where
  | forward
  | snoopSetup (word : Fin 36) (data : Word)
  | command (data : Word)
  | snoopFrameWord (c : Chan) (word : FrameWord) (data : Word)
  | snoopCommit (c : Chan) (data : Word)
  | filter (c : Chan) (data : Word)
  | answerStatus
  | answerRead (offset : Nat)
  | answerWrite (offset : Nat) (value : Word)
  deriving DecidableEq, Repr

/-- The course of a telemetry write at a place of the telemetry window (R126). -/
def telemetryCourse (place : Nat) (data : Word) : Course :=
  if h : place / 4 < 64 then
    match place % 4 with
    | 0 => .snoopFrameWord ⟨place / 4, h⟩ .link data
    | 1 => .snoopFrameWord ⟨place / 4, h⟩ .battery data
    | 2 => .snoopFrameWord ⟨place / 4, h⟩ .switch data
    | _ => .snoopCommit ⟨place / 4, h⟩ data
  else .forward

/-- The course of an access in the setup window (R124), decoded in every part state but SETTLING. -/
def setupCourse (place : Nat) (a : Access) : Course :=
  match a with
  | .read _ => if place = 36 then .answerStatus else .forward
  | .write _ data => if h : place < 36 then .snoopSetup ⟨place, h⟩ data else .command data

/-- The course of an access in the gain window, decoded in ACTIVE and RELEASING (R124, R127). -/
def gainCourse (place : Nat) (a : Access) : Course :=
  match a with
  | .read _ => .forward
  | .write _ data => if h : place < 64 then .filter ⟨place, h⟩ data else .forward

/-- The course of an access outside the setup and gain windows in ACTIVE (R124). -/
def activeCourse (b : Bases) (a : Access) : Course :=
  match inWindow b.telemetry 256 a.addr, inWindow b.alert 512 a.addr, a with
  | some place, _, .write _ data => telemetryCourse place data
  | some _, _, .read _ => .forward
  | none, some offset, .read _ => .answerRead offset
  | none, some offset, .write _ data => .answerWrite offset data
  | none, none, _ => .forward

/-- The course of an access in the windows taken from the working setup (R124). -/
def sessionCourse (part : PartState) (bases : Option Bases) (a : Access) : Course :=
  match bases with
  | none => .forward
  | some b =>
    match part with
    | .settling | .passive | .loading => .forward
    | .releasing =>
      match inWindow b.gain 64 a.addr with
      | some place => gainCourse place a
      | none => .forward
    | .active =>
      match inWindow b.gain 64 a.addr with
      | some place => gainCourse place a
      | none => activeCourse b a

/-- The classification of an access by the part state in force, the window and the direction (R124). -/
def State.classify (s : State) (a : Access) : Course :=
  if s.setup.part = .settling then .forward
  else
    match inWindow (setupBase s.path.straps) 37 a.addr with
    | some place => setupCourse place a
    | none => sessionCourse s.setup.part s.path.bases a

/-! ## Courses (R125 to R128) -/

/-- An access goes to the memory port with `toMemory` (R121), and is in progress at the processor port until its READY
(R120). -/
def serve (a toMemory : Access) (awaitsHalt : Bool) (s : State) : State :=
  s.setPath
    ({ s.path with
      processor := some { access := a, awaitsHalt := awaitsHalt, ended := false, data := none }
      completion := none }.offer (.processor toMemory))

/-- An answered access completes at once (R128). -/
def answered (a : Access) (data : Option Word) (s : State) : State :=
  s.setPath { s.path with completion := some { access := a, data := data } }

/-- An accepted HALT has been taken by the setup and command unit between two states (log 13). -/
def haltTaken (before after : State) : Bool :=
  decide (before.setup.part = .active) && decide (after.setup.part = .releasing)

/-- The write that goes to memory in place of a filtered write (R127, R135). -/
def filteredWrite (c : Chan) (addr : Addr) (s : State) : Access := .write addr (s.effectiveWord c)

/-- An access takes the course its classification gives (R124). -/
def takeCourse (a : Access) (s : State) : State :=
  match s.classify a with
  | .forward => serve a a false s
  | .snoopSetup n data => serve a a false (takeSetupWord n data s)
  | .command data => serve a a (haltTaken s (takeCommand data s)) (takeCommand data s)
  | .snoopFrameWord c word data => serve a a false (takeStagingWrite c word data s)
  | .snoopCommit c data => serve a a false (takeCommit c data s)
  | .filter c data => serve a (filteredWrite c a.addr (filterWrite c data s)) false (filterWrite c data s)
  | .answerStatus => answered a (some s.setup.statusWord) s
  | .answerRead offset => answered a (some (answerRead s offset s).2) (answerRead s offset s).1
  | .answerWrite offset value => answered a none (answerWrite s offset value s)

/-! ## Arrival and holding (R120, R129, R131, R132) -/

/-- The processor port takes accesses: no reset is asserted, no access is in progress, none is held and none waits for its answer
(R119, R120, R131, R132). -/
def State.portTakes (s : State) : Bool :=
  !s.powerReset && !s.lines.busrst && s.path.processor.isNone && s.path.held.isNone && s.path.answering.isNone

/-- The bus is ceded: CEDE_N and CLAIM_N are asserted (R129). -/
def State.busCeded (s : State) : Bool := s.lines.cede && s.claimLine

/-- The port takes an access: held while the bus is ceded, else classified (R120, R129). -/
def arrive (a : Access) (s : State) : State :=
  if s.busCeded then s.setPath { s.path with held := some a, completion := none } else takeCourse a s

/-- The access presented and not taken, if any, arrives when the port takes accesses (R120, R131; log 8). -/
def takePresented (s : State) : State :=
  match s.path.presented with
  | none => s
  | some a => if s.portTakes then arrive a (s.setPath { s.path with presented := none }) else s

/-- What the answer `w` reads: the view and the alert list unit as it has read them before HALT, the rest as it stands (R119). -/
def State.seenBy (w : Answering) (s : State) : State :=
  (s.setView (w.view.getD s.view)).setAlert (w.list.getD s.alert)

/-- The answer of an access to the alert window that arrived in ACTIVE and that HALT has overtaken is completed (R107, R119), by
the course the access had at its arrival (R120): what it has not read before HALT it reads now, and what it delivers it delivers
now, so that the alert list unit, out of ACTIVE, discards a read mark or an acknowledgement (R84). -/
def answerOvertaken (w : Answering) (s : State) : State :=
  let t := s.setPath { s.path with answering := none }
  match sessionCourse .active s.path.bases w.access with
  | .answerRead offset =>
    answered w.access (some (answerRead (t.seenBy w) offset t).2) (answerRead (t.seenBy w) offset t).1
  | .answerWrite offset value => answered w.access none (answerWrite (t.seenBy w) offset value t)
  | .forward | .snoopSetup _ _ | .command _ | .snoopFrameWord _ _ _ | .snoopCommit _ _ | .filter _ _ | .answerStatus => t

/-- The answer that the access waits for, overtaken by HALT, if no reset is asserted (R119). -/
def State.awaitedAnswer (a : Access) (s : State) : Option Answering :=
  if s.powerReset || s.lines.busrst then none else s.path.answering.filter fun w => decide (w.access = a)

/-- The chamber processor presents an access: it arrives if the port takes accesses, else it stays presented (R120, R131;
log 8). The access that waits for its answer is answered now (R119, log 33). -/
def present (a : Access) (s : State) : State :=
  if s.portTakes then arrive a s
  else
    match s.awaitedAnswer a with
    | some w => takePresented (answerOvertaken w s)
    | none => s.setPath { s.path with presented := some a }

/-- The access that waits for its answer, if any, is answered (R119, R131). -/
def finishAnswer (s : State) : State :=
  match s.path.answering with
  | none => s
  | some w => answerOvertaken w s

/-- The held access, if any, is released: classified against the part state now in force, it takes its course (R129). -/
def releaseHeld (s : State) : State :=
  match s.path.held with
  | none => s
  | some a => takeCourse a (s.setPath { s.path with held := none })

/-! ## Completion at the processor port (R120, R126) -/

/-- READY is returned for an access that memory has ended, unless it waits for the taking of HALT (R120, R126, R171). -/
def completeEnded (s : State) : State :=
  match s.path.processor with
  | some p =>
    if p.ended ∧ ¬(p.awaitsHalt ∧ s.haltPending) then
      s.setPath { s.path with processor := none, completion := some { access := p.access, data := p.data } }
    else s
  | none => s

/-- What an access does at memory: a write stores its word (R121). -/
def storeAt (a : Access) (m : Memory) : Memory :=
  match a with
  | .read _ => m
  | .write addr data => m.write addr.toNat data

/-- The word a read returns (R121). -/
def fetchAt (a : Access) (m : Memory) : Option Word :=
  match a with
  | .read addr => some (m.read addr.toNat)
  | .write _ _ => none

/-- The processor access in progress, ended by memory with the word it returned. -/
def PathUnit.endProcessor (data : Option Word) (u : PathUnit) : PathUnit :=
  match u.processor with
  | some p => { u with processor := some { p with ended := true, data := data } }
  | none => u

/-- MEMORY_ACCESS_END (R121): the processor access at the memory port ends; READY is returned with any read data. -/
def execMemoryAccessEnd (s : State) : Host.Outcome State Fault Refusal :=
  match s.path.port with
  | some (.processor a) =>
    let t := s.setMemory (storeAt a s.memory)
    let t := t.setPath (s.path.portEnded.endProcessor (fetchAt a s.memory))
    .next (takePresented (completeEnded t))
  | some (.loadRead _ _) | some (.burstWrite _ _ _) | none => .next s

/-! ## Commands that present an access -/

/-- FORWARD (R125): the processor presents an access; classified as forward, it passes unchanged to the memory port. Every
access may be presented so, and takes the course R124 gives it (log 7). -/
def execForward (a : Access) (s : State) : Host.Outcome State Fault Refusal := .next (present a s)

/-- HELD_ACCESS (R129): the processor presents an access; arriving while CEDE_N and CLAIM_N are asserted, it is held
unclassified with READY withheld. -/
def execHeldAccess (a : Access) (s : State) : Host.Outcome State Fault Refusal := .next (present a s)

/-- A write to a word of the setup window. -/
def presentSetupWrite (word : Nat) (data : Word) (s : State) : Host.Outcome State Fault Refusal :=
  .next (present (.write (pastBase (setupBase s.path.straps) word) data) s)

/-- SETUP_COPY_WRITE (R164): a processor write to one of setup words 0 to 35. -/
def execSetupCopyWrite (word : Fin 36) (data : Word) (s : State) : Host.Outcome State Fault Refusal :=
  presentSetupWrite word.val data s

/-- A command word written to setup word 36: the code in the high byte (R168). -/
def presentCommand (code low : BitVec 8) (s : State) : Host.Outcome State Fault Refusal :=
  presentSetupWrite 36 (code ++ low) s

/-- START (R169): command code 01h. -/
def execStart (low : BitVec 8) (s : State) : Host.Outcome State Fault Refusal := presentCommand 0x01#8 low s

/-- APPLY (R170): command code 02h. -/
def execApply (low : BitVec 8) (s : State) : Host.Outcome State Fault Refusal := presentCommand 0x02#8 low s

/-- The access would be answered from the alert window, were it to arrive now (R107, R124). -/
def State.answersWindow (s : State) (a : Access) : Bool :=
  match s.classify a with
  | .answerRead _ | .answerWrite _ _ => true
  | .forward | .snoopSetup _ _ | .command _ | .snoopFrameWord _ _ _ | .snoopCommit _ _ | .filter _ _ | .answerStatus => false

/-- The access that HALT overtakes in `s`, with what its answer has read there (R119). -/
def Answering.of (o : Overtaken) (s : State) : Answering :=
  { access := o.access
    view := if o.viewRead then some s.view else none
    list := if o.listRead then some s.alert else none }

/-- HALT (R171): command code 03h. With `answering`, an access to the alert window that arrived in ACTIVE before HALT is still
being answered when HALT is taken (R119): it waits for its answer, which the row that presents it again completes (log 33). Where
HALT is not taken, or the access is not one that the alert window answers, `answering` says nothing. -/
def execHalt (low : BitVec 8) (s : State) (answering : Option Overtaken := none) : Host.Outcome State Fault Refusal :=
  let t := present (.write (pastBase (setupBase s.path.straps) 36) (0x03#8 ++ low)) s
  match answering with
  | none => .next t
  | some o =>
    if s.portTakes ∧ haltTaken s t ∧ s.answersWindow o.access then
      .next (t.setPath { t.path with answering := some (Answering.of o s) })
    else .next t

/-- MUTE (R173): command code 10h with the channel in the low byte. -/
def execMute (channel : BitVec 8) (s : State) : Host.Outcome State Fault Refusal := presentCommand 0x10#8 channel s

/-- UNMUTE (R173): command code 11h with the channel in the low byte. -/
def execUnmute (channel : BitVec 8) (s : State) : Host.Outcome State Fault Refusal := presentCommand 0x11#8 channel s

/-- ACK_ALL (R101): command code 20h. -/
def execAckAll (low : BitVec 8) (s : State) : Host.Outcome State Fault Refusal := presentCommand 0x20#8 low s

/-- UNKNOWN_CODE (R168): a command word whose code is none of the six. -/
def execUnknownCode (code low : BitVec 8) (s : State) : Host.Outcome State Fault Refusal := presentCommand code low s

/-- An access to a window taken from the working setup; while there are no bases there is no such window, and the command
presents nothing (log 9). -/
def presentIn (base : Bases → Addr) (place : Nat) (mk : Addr → Access) (s : State) : Host.Outcome State Fault Refusal :=
  match s.path.bases with
  | none => .next s
  | some b => .next (present (mk (pastBase (base b) place)) s)

/-- STAGING_FILL (R5): a processor write to W0, W1 or W2 of a channel's telemetry record. -/
def execStagingFill (c : Chan) (word : FrameWord) (data : Word) (s : State) : Host.Outcome State Fault Refusal :=
  presentIn (·.telemetry) (4 * c.val + word.offset) (fun a => .write a data) s

/-- COMMIT (R6): a processor write to W3 of a channel's telemetry record. -/
def execCommit (c : Chan) (data : Word) (s : State) : Host.Outcome State Fault Refusal :=
  presentIn (·.telemetry) (4 * c.val + 3) (fun a => .write a data) s

/-- WRITE_FILTER (R135): a processor write to a channel's gain word. -/
def execWriteFilter (c : Chan) (data : Word) (s : State) : Host.Outcome State Fault Refusal :=
  presentIn (·.gain) c.val (fun a => .write a data) s

/-- SNAPSHOT (R109): a processor read of offset 0 of the alert window. -/
def execSnapshot (s : State) : Host.Outcome State Fault Refusal := presentIn (·.alert) 0 .read s

/-- READ_MARK (R113): a processor read of word 0 of a view entry. -/
def execReadMark (entry : Fin 32) (s : State) : Host.Outcome State Fault Refusal :=
  presentIn (·.alert) (16 + 4 * entry.val) .read s

/-- CAPTURE_RELEASE (R115): a processor read of word 3 of a channel's detail. -/
def execCaptureRelease (c : Chan) (s : State) : Host.Outcome State Fault Refusal :=
  presentIn (·.alert) (147 + 4 * c.val) .read s

/-- ACKNOWLEDGEMENT_WRITE (R116): a processor write to word 3 of a view entry. -/
def execAcknowledgementWrite (entry : Fin 32) (value : Word) (s : State) : Host.Outcome State Fault Refusal :=
  presentIn (·.alert) (19 + 4 * entry.val) (fun a => .write a value) s

/-- DISCARDED_WRITE (R118): a processor write to an offset of the alert window other than word 3 of a view entry. -/
def execDiscardedWrite (offset : Fin 512) (data : Word) (s : State) : Host.Outcome State Fault Refusal :=
  presentIn (·.alert) offset.val (fun a => .write a data) s

/-! ## Commands of the alert list unit that take what other blocks sent -/

/-- The condition events without the first. -/
def State.dropCondition (s : State) : State := s.setMail { s.mail with conditions := s.mail.conditions.tail }

/-- The unit takes a condition event of a channel in ACTIVE, if the working setup enrols the channel; else it is discarded
(R84). An event of an enrolment that an APPLY has ended is discarded too, where the working setup enrols the channel anew before the
evaluator has de-enrolled it (R80, R105, log 36). -/
def takeCondition (c : Chan) (f : AlertUnit → AlertUnit) (s : State) : State :=
  if s.workingEnrols c ∧ ¬s.deEnrolling c then listEventIfActive f s else s

/-- CONDITION_RAISE (R85, R86): the raise that waits first. -/
def execConditionRaise (s : State) : Host.Outcome State Fault Refusal :=
  match s.mail.conditions with
  | .raised c f k :: _ => .next (takeCondition c (AlertUnit.raise s.time.seconds c f k) s.dropCondition)
  | .changed _ _ _ :: _ | .cleared _ _ :: _ | [] => .next s

/-- CONDITION_KIND_CHANGE (R87 to R90): the kind change that waits first. -/
def execConditionKindChange (s : State) : Host.Outcome State Fault Refusal :=
  match s.mail.conditions with
  | .changed c f k :: _ => .next (takeCondition c (AlertUnit.changeKind s.time.seconds c f k) s.dropCondition)
  | .raised _ _ _ :: _ | .cleared _ _ :: _ | [] => .next s

/-- CONDITION_CLEAR (R91, R92): the clearing that waits first. -/
def execConditionClear (s : State) : Host.Outcome State Fault Refusal :=
  match s.mail.conditions with
  | .cleared c f :: _ => .next (takeCondition c (AlertUnit.clearPair c f) s.dropCondition)
  | .raised _ _ _ :: _ | .changed _ _ _ :: _ | [] => .next s

/-- The CLAIM_STALLED events without the first. -/
def State.dropStall (s : State) : State := s.setMail { s.mail with stalls := s.mail.stalls.tail }

/-- CLAIM_STALLED_ACTIVE (R96). -/
def execClaimStalledActive (s : State) : Host.Outcome State Fault Refusal :=
  match s.mail.stalls with
  | true :: _ => .next (listEventIfActive (AlertUnit.stallActive s.time.seconds) s.dropStall)
  | false :: _ | [] => .next s

/-- CLAIM_STALLED_INACTIVE (R96). -/
def execClaimStalledInactive (s : State) : Host.Outcome State Fault Refusal :=
  match s.mail.stalls with
  | false :: _ => .next (listEventIfActive AlertUnit.stallInactive s.dropStall)
  | true :: _ | [] => .next s

/-- The requests to the alert list unit without the first. -/
def State.dropToList (s : State) : State := s.setMail { s.mail with toList := s.mail.toList.tail }

/-- REMOVAL (R105): the removal of an APPLY that waits first. -/
def execRemoval (s : State) : Host.Outcome State Fault Refusal :=
  match s.mail.toList with
  | .removal cs :: _ => .next (takeToList (.removal cs) s.dropToList)
  | .clearing :: _ | [] => .next s

/-- ALERT_LIST_CLEARING (R106): the clearing of START that waits first. The clearing of HALT is part of HALT's own step (R171,
log 32). -/
def execAlertListClearing (s : State) : Host.Outcome State Fault Refusal :=
  match s.mail.toList with
  | .clearing :: _ => .next (takeToList .clearing s.dropToList)
  | .removal _ :: _ | [] => .next s

end Sys2Proof.Machine
end

