-- ==== Sys2Proof/Machine/Claims.lean ====
section
/-! DEFINITION. The claim cycle (R144 to R156): the assertion and the fall of CEDE_N, bursts, the load, their ends, the
withdrawal of CLAIM_N with the release of the held access, HALT at the enforcement unit. -/

namespace Sys2Proof.Machine

/-! ## Withdrawing the claim (R129, R145, R149, R153) -/

/-- CLAIM_N is withdrawn: RELEASING_BUS while CEDE_N stands asserted, else IDLE (R145, R149). -/
def withdrawClaim (s : State) : State :=
  s.setEnf { s.enf with
    claim := if s.lines.cede then .releasingBus else .idle
    purpose := if s.lines.cede then s.enf.purpose else none
    broken := false }

/-- The end of a burst (R149): CLAIM_N withdrawn and the held access released (R129). -/
def endBurst (s : State) : State := takePresented (releaseHeld (withdrawClaim s))

/-- The end of a broken cede (R145, R154): a load returns to position 0; CLAIM_N withdrawn, and with it RELEASING ended if
the restore is done (R129, R156); the held access released, classified in the part state that leaves; in IDLE the unit claims
again at once if it may. -/
def endBrokenCede (s : State) : State :=
  let t := s.setEnf { s.enf with loadPosition := if s.enf.purpose = some .load then some 0 else s.enf.loadPosition }
  takePresented (claimIfAllowed (releaseHeld (endRestore (withdrawClaim t))))

/-- Steps 1 and 2 of the end of the load (R153): position none and the claim withdrawn; the load-done report, after the reports
before it on its path, makes LOADING ACTIVE at that withdrawal (R174), START's clearing taken before it (R106, log 24). -/
def leaveLoading (s : State) : State :=
  let t := takeClearings s
  loadDone (takeReports (withdrawClaim (t.setEnf { t.enf with loadPosition := none })))

/-- Step 3 of the end of the load (R153): under ENFORCE the enforced channels join the queue. -/
def queueEnforced (s : State) : State :=
  if s.mode = .enforce then s.setQueue (addAllToQueue s.enforcedChannels s.enf.queue) else s

/-- The held access is a gain write that the filter takes (R127, R153). -/
def State.holdsGainWrite (s : State) : Bool :=
  match s.path.held.map s.classify with
  | some (.filter _ _) => true
  | some .forward | some (.snoopSetup _ _) | some (.command _) | some (.snoopFrameWord _ _ _) | some (.snoopCommit _ _)
  | some (.answerRead _) | some (.answerWrite _ _) | some .answerStatus | none => false

/-- The end of the load (R153): the held access is released, classified in ACTIVE, after step 3; a held gain write may be filtered
before step 3 instead, as `filterFirst` has it. -/
def endLoad (filterFirst : Bool) (s : State) : State :=
  let t := leaveLoading s
  if filterFirst && t.holdsGainWrite then takePresented (queueEnforced (releaseHeld t))
  else takePresented (releaseHeld (queueEnforced t))

/-! ## The next access in CEDED (R148, R149, R152) -/

/-- What follows in CEDED with no own access in progress: after a broken cede the claim is withdrawn; a burst writes the
channel at the head of the queue below the limit, or ends; a load reads the channel at its position. -/
def proceed (s : State) : State :=
  if s.enf.broken then endBrokenCede s
  else
    match s.enf.purpose, s.enf.loadPosition with
    | some .load, some c => offerLoadRead c s
    | some .load, none | some .burst, _ | none, _ =>
      match s.enf.queue with
      | c :: rest => if s.enf.burstCount < Config.burstLimit then offerBurstWrite c rest s else endBurst s
      | [] => endBurst s

/-- The end of an own access that a bus reset left without its claim (R158): a claim ceded meanwhile goes on; in RELEASING,
after the release, the restore may now be done (R156; log 15). -/
def proceedAfterOrphan (s : State) : State :=
  match s.enf.claim with
  | .ceded => proceed s
  | .idle => if s.lines.busrst then s else reportIfRestored s
  | .claiming | .releasingBus => s

/-- What follows the end of an own access, in CEDED or after its claim was dropped. -/
def afterOwnAccess (s : State) : State :=
  if s.enf.orphan then proceedAfterOrphan (s.setEnf { s.enf with orphan := false })
  else if s.enf.claim = .ceded then proceed s
  else s

/-- The burst write count rises at the end of each burst write of the claim cycle it counts (R151); a write whose claim was
dropped does not count in a cycle ceded since (log 15). -/
def countWrite (s : State) : State :=
  if s.enf.orphan ∧ s.enf.claim = .ceded then s else s.setEnf { s.enf with burstCount := s.enf.burstCount + 1 }

/-- BURST_WRITE_END (R148): the word is stored, the count rises, and the next write is offered or the burst ends. -/
def execBurstWriteEnd (s : State) : Host.Outcome State Fault Refusal :=
  match s.path.port with
  | some (.burstWrite _ addr word) =>
    .next (afterOwnAccess (countWrite
      ((s.setMemory (s.memory.write addr.toNat word)).setPath s.path.portEnded)))
  | some (.processor _) | some (.loadRead _ _) | none => .next s

/-- The load goes on after the read of channel `c`: the next position, or the end of the load after channel 63 (R152,
R153). -/
def advanceLoad (filterFirst : Bool) (c : Chan) (s : State) : State :=
  if s.enf.broken then endBrokenCede s
  else
    match nextChannel c with
    | some d => offerLoadRead d (s.setEnf { s.enf with loadPosition := some d })
    | none => endLoad filterFirst s

/-- LOAD_READ_END (R152): the word read becomes the channel's intended gain word, and the next read is offered or the load
ends. Of the two orders that R153 allows at its end, `filterFirst` chooses one. -/
def execLoadReadEnd (s : State) (filterFirst : Bool := false) : Host.Outcome State Fault Refusal :=
  match s.path.port with
  | some (.loadRead c addr) =>
    let t := setIntended c (s.memory.read addr.toNat) (s.setPath s.path.portEnded)
    if s.enf.orphan ∨ s.enf.claim ≠ .ceded then .next (afterOwnAccess t) else .next (advanceLoad filterFirst c t)
  | some (.processor _) | some (.burstWrite _ _ _) | none => .next s

/-! ## CEDE_N (R144, R145) -/

/-- CEDED entered (R144): the claim timer stops, the burst write count becomes 0, a stall ends. -/
def enterCeded (s : State) : State :=
  endStall (s.setEnf { s.enf with claim := .ceded, claimTimer := .stopped, burstCount := 0, broken := false })

/-- The burst or load begins (R144). A burst with nothing to write ends at once (R149); an own access that a bus reset left
at the port is awaited first (R130; log 15). -/
def beginCeded (s : State) : State :=
  if s.path.ownInProgress ∧ ¬(s.enf.purpose = some .burst ∧ s.enf.queue = []) then s else proceed s

/-- CEDE_ASSERT (R144): in CLAIMING the claim is answered; in another claim state the line alone changes. A line that stands
asserted is no event. -/
def execCedeAssert (s : State) : Host.Outcome State Fault Refusal :=
  if s.lines.cede then .next s
  else
    let t := s.setLines { s.lines with cede := true }
    match s.enf.claim with
    | .claiming => .next (beginCeded (enterCeded t))
    | .idle | .ceded | .releasingBus => .next t

/-- CEDE_FALL (R145): RELEASING_BUS becomes IDLE and the unit claims again if it may, or reports restore-done (R156); in
CEDED the cede is broken, and the claim withdrawn at once if no own access is in progress; in IDLE the unit claims if work
waited for the line to fall, as after a bus reset (R143, R158). -/
def execCedeFall (s : State) : Host.Outcome State Fault Refusal :=
  if s.lines.cede then
    let t := s.setLines { s.lines with cede := false }
    match s.enf.claim with
    | .releasingBus => .next (reportIfRestored (claimIfAllowed (t.setEnf { s.enf with claim := .idle, purpose := none })))
    | .ceded =>
      if s.path.ownInProgress then .next (t.setEnf { s.enf with broken := true }) else .next (endBrokenCede t)
    | .idle => .next (claimIfAllowed t)
    | .claiming => .next t
  else .next s

/-! ## HALT and restore-done (R155, R156, R171) -/

/-- The unit takes HALT (R155): the restores queued under ENFORCE, a standing stall reported to the setup and command unit, the
restore ended if nothing is left to do (R171), and a claim raised if it may be. -/
def takeHalt (s : State) : State :=
  let t := s.dropToEnforcement
  let t := if s.mode = .enforce then t.setQueue (addAllToQueue s.workingChannels s.enf.queue) else t
  let t := if s.enf.stalled then t.sendToSetup .stall else t
  claimIfAllowed (endRestore t)

/-- HALT waits for the enrolment changes of earlier APPLYs: taken after it they would add nothing, and under ENFORCE it queues
only the channels of the working setup (R138, R141, R155, log 34). -/
def State.haltWaits (s : State) : Bool :=
  decide (s.mode = .enforce) && allChannels.any fun c => !s.workingEnrols c && s.enrolmentOwed c

/-- ENFORCEMENT_HALT (R155): the unit takes HALT; the HALT write may then complete (log 13). -/
def execEnforcementHalt (s : State) : Host.Outcome State Fault Refusal :=
  match s.mail.toEnforcement with
  | .halt :: _ => if s.haltWaits then .next s else .next (takePresented (completeEnded (takeHalt s)))
  | .setupChange _ _ :: _ | .loadRequest :: _ | [] => .next s

/-- The requests up to HALT taken by the unit in their order, HALT with them. -/
def takeUntilHalt : List ToEnforcement → State → State
  | .setupChange old new :: rest, s => takeUntilHalt rest (takeSetupChange old new s)
  | .halt :: _, s => takeHalt s
  | .loadRequest :: _, s => s
  | [], s => s

/-- A HALT write in progress brought to its result (R175): if HALT is still on its way, the unit takes the notices on their way
(log 34), then what is before HALT on its path, and HALT; the write completes if memory has ended it. -/
def finishHalt (s : State) : State :=
  if s.haltPending then completeEnded (takeUntilHalt s.mail.toEnforcement (takeNotices s.mail.notices s)) else s

end Sys2Proof.Machine
end

