-- ==== Sys2Proof/Machine/Resets.lean ====
section
/-! DEFINITION. Power reset and bus reset (R13, R108, R122, R131, R132, R158, R159, R162, R163, R175). -/

namespace Sys2Proof.Machine

/-! ## Power reset -/

/-- The input lines with one source of power reset asserted or released (R162). -/
def InputLines.setSource (l : InputLines) (source : PowerSource) (asserted : Bool) : InputLines :=
  match source with
  | .pin => { l with powerPin := asserted }
  | .supply => { l with supplyLow := asserted }

/-- Whether a source asserts power reset (R162). -/
def InputLines.source (l : InputLines) : PowerSource → Bool
  | .pin => l.powerPin
  | .supply => l.supplyLow

/-- The write in progress at the memory port, if there is one: its address and its word. -/
def PortAccess.storing : PortAccess → Option (Nat × Word)
  | .processor (.write a w) | .burstWrite _ a w => some (a.toNat, w)
  | .processor (.read _) | .loadRead _ _ => none

/-- The memory after the access in progress is withdrawn without completion: a word that a withdrawn write was storing holds
its old word or the written word, as a free value decides (R132; log 17). -/
def withdrawAccess (s : State) : State :=
  match s.path.port.bind PortAccess.storing with
  | none => s
  | some (a, w) =>
    (s.setMemory (if Config.withdrawnWriteStored s.draws then s.memory.write a w else s.memory)).setDraws (s.draws + 1)

/-- Every block at its power-reset values (R162). The strap latches and the levels of the memory port's lines stay, and so
does an access presented and not taken; what was in flight between blocks is gone (log 16). -/
def resetBlocks (s : State) : State :=
  let t := s.setPath { s.path with
    bases := none, port := none, waiting := none, processor := none, held := none, answering := none, completion := none }
  let t := t.setStaging (Vector.replicate 64 .empty)
  let t := t.setChannels (Vector.replicate 64 .powerReset)
  let t := t.setAlert .cleared
  let t := t.setView .emptied
  let t := t.setEnf .powerReset
  let t := t.setSetup .powerReset
  let t := t.setLamps .powerReset
  let t := t.setTime .powerReset
  t.setMail .empty

/-- POWER_RESET_ASSERT (R162): a source asserts power reset. If the other asserts it already, nothing else changes. -/
def execPowerResetAssert (source : PowerSource) (s : State) : Host.Outcome State Fault Refusal :=
  let t := s.setLines (s.lines.setSource source true)
  if s.powerReset then .next t else .next (resetBlocks (withdrawAccess t))

/-- Power reset is released (R122, R163, R180): the straps are latched, the settle timer starts, and the debounce timer if the
floor line is asserted; M_REQ, held till now (R183), follows the memory port again (log 26). An access presented meanwhile
arrives (R120, log 8). -/
def releasePower (straps : Straps) (s : State) : State :=
  let t := s.setPath { s.path with straps := straps, lines := { s.path.lines with req := s.path.port.isSome } }
  let t := t.setSetup { s.setup with settle := Timer.start s.time.ticks Config.settleMillis }
  let t := t.setLamps (s.lamps.floorLevel s.time.ticks s.lines.floor)
  takePresented t

/-- POWER_RESET_RELEASE (R163): a source releases power reset; it is released when both have released it (R162). -/
def execPowerResetRelease (source : PowerSource) (straps : Straps) (s : State) : Host.Outcome State Fault Refusal :=
  if s.lines.source source then
    let t := s.setLines (s.lines.setSource source false)
    if t.powerReset then .next t else .next (releasePower straps t)
  else .next s

/-! ## Bus reset -/

/-- The setup and command unit at the assertion of BUSRST_N (R175): LOADING is abandoned, the status is IDLE except in
RELEASING, where it is kept. -/
def SetupUnit.busReset (u : SetupUnit) : SetupUnit :=
  let idle := { u with result := .idle, lastCode := 0, stalledFlag := false, busyFlag := false }
  match u.part with
  | .releasing => u
  | .loading => { idle with part := .passive }
  | .settling | .passive | .active => idle

/-- The enforcement unit at the assertion of BUSRST_N (R158), the stall's end apart: the claim dropped, the timer stopped, an
own access left to run to its end, a load abandoned. -/
def EnforcementUnit.busReset (abandon ownInProgress : Bool) (u : EnforcementUnit) : EnforcementUnit :=
  { u with
    claim := .idle
    purpose := none
    claimTimer := .stopped
    broken := false
    orphan := ownInProgress
    loadPosition := if abandon then none else u.loadPosition }

/-- The requests to the enforcement unit once LOADING is abandoned: a load request not yet taken is abandoned with it
(log 16). -/
def abandonLoad (abandon : Bool) (l : List ToEnforcement) : List ToEnforcement :=
  if abandon then l.filter fun m => decide (m ≠ .loadRequest) else l

/-- The part at the assertion of BUSRST_N (R13, R108, R131, R158, R175). An own access that has been offered and still waits
behind a processor access stays and is served after it, which is the model's choice (log 14). -/
def busReset (s : State) : State :=
  let abandon := decide (s.setup.part = .loading)
  let t := endStall s
  let t := t.setMail { t.mail with toEnforcement := abandonLoad abandon t.mail.toEnforcement }
  let t := t.setEnf (t.enf.busReset abandon s.path.ownInProgress)
  let t := t.setSetup s.setup.busReset
  let t := t.setStaging (Vector.replicate 64 .empty)
  let t := t.setView .emptied
  t.setPath { s.path with held := none }

/-- BUSRST_ASSERT (R175): an access being answered is answered first (R119, R131), and a HALT write in progress comes to its
result. A line that stands asserted is no event. -/
def execBusrstAssert (s : State) : Host.Outcome State Fault Refusal :=
  if s.lines.busrst then .next s
  else .next (busReset ((finishHalt (finishAnswer s)).setLines { s.lines with busrst := true }))

/-- The restore-done report at the release of BUSRST_N, when no own access is in progress (R156). -/
def reportAtRelease (s : State) : State := if s.path.ownInProgress then s else reportIfRestored s

/-- BUSRST_RELEASE (R158): the unit claims again if work waits, and an access still presented arrives (R131). -/
def execBusrstRelease (s : State) : Host.Outcome State Fault Refusal :=
  if s.lines.busrst then
    .next (takePresented (reportAtRelease (claimIfAllowed (s.setLines { s.lines with busrst := false }))))
  else .next s

end Sys2Proof.Machine
end

