-- ==== Sys2Proof/Machine/Own.lean ====
section
/-! DEFINITION. What the part does of itself while no command waits (log 5): the next of its own steps, what another block
has sent or a timer has delivered; and when there is none, one REFCLK period passes. -/

namespace Sys2Proof.Machine

/-- The first of several candidates. -/
def firstStep : List (Option Instr) → Option Instr
  | [] => none
  | some i :: _ => some i
  | none :: rest => firstStep rest

/-- A step when its occasion stands. -/
def stepWhen (b : Bool) (i : Instr) : Option Instr := if b then some i else none

/-- The evaluator's next message from the setup and command unit. -/
def evaluatorStep : List ToEvaluator → Option Instr
  | [] => none
  | .chair _ _ :: _ => some .chairRequest
  | .membership _ _ :: _ => some .membershipChange
  | .tableReset _ :: _ => some .channelTableReset

/-- The next frame that waits. -/
def frameStep : List (Chan × Frame) → Option Instr
  | [] => none
  | (c, _) :: _ => some (.frameEvaluation c)

/-- The alert list unit's next condition event. -/
def conditionStep : List ConditionEvent → Option Instr
  | [] => none
  | .raised _ _ _ :: _ => some .conditionRaise
  | .changed _ _ _ :: _ => some .conditionKindChange
  | .cleared _ _ :: _ => some .conditionClear

/-- The alert list unit's next CLAIM_STALLED event. -/
def stallStep : List Bool → Option Instr
  | [] => none
  | true :: _ => some .claimStalledActive
  | false :: _ => some .claimStalledInactive

/-- The alert list unit's next request of the setup and command unit. -/
def listStep : List ToList → Option Instr
  | [] => none
  | .removal _ :: _ => some .removal
  | .clearing :: _ => some .alertListClearing

/-- The enforcement unit's next notice. -/
def noticeStep : List Notice → Option Instr
  | [] => none
  | .causeChange _ :: _ => some .causeChangeNotice
  | .enrolment _ :: _ => some .enrolmentChange

/-- The enforcement unit's next request of the setup and command unit. -/
def enforcementStep : List ToEnforcement → Option Instr
  | [] => none
  | .setupChange _ _ :: _ => some .setupChange
  | .loadRequest :: _ => some .loadRequest
  | .halt :: _ => some .enforcementHalt

/-- The setup and command unit's next report. -/
def setupStep : List ToSetup → Option Instr
  | [] => none
  | .stall :: _ => some .stallReport
  | .stallEnd :: _ => some .stallEndReport
  | .restoreDone :: _ => some .restoreDoneReport

/-- The first timer expiry of a channel that waits to be taken. -/
def timerStep (c : Chan) (r : ChannelRecord) : Option Instr :=
  firstStep [
    stepWhen (decide (r.dropoutTimer = .due)) (.dropoutTimerExpiry c),
    stepWhen (decide (r.freshTimer = .due)) (.freshnessTimerExpiry c),
    stepWhen (decide (r.windowTimer = .due)) (.dropoutWindowExpiry c),
    stepWhen (decide (r.idleTimer = .due)) (.openIdleExpiry c)]

/-- The messages that wait, in the order the part takes them of itself (DESIGN CHOICE, log 5). -/
def messageStep (m : Mail) : Option Instr :=
  firstStep [
    conditionStep m.conditions, stallStep m.stalls, listStep m.toList,
    evaluatorStep m.toEvaluator, stepWhen (!m.floor.isEmpty) .takenFloorChange, frameStep m.frames,
    stepWhen (!m.silence.isEmpty) .silenceChange,
    noticeStep m.notices, enforcementStep m.toEnforcement, setupStep m.toSetup,
    stepWhen (!m.toLamps.isEmpty) .patternsPending]

/-- A lamp's next event. -/
def lampStep (u : LampUnit) (lamp : Lamp) : Option Instr :=
  firstStep [
    stepWhen (u.get lamp).boundaryDue (.periodBoundary lamp),
    stepWhen (u.get lamp).onTimeDue (.onTimeEnd lamp)]

/-- The expiries and clocked events that wait, in the order the part takes them of itself (DESIGN CHOICE, log 5). -/
def clockStep (s : State) : Option Instr :=
  firstStep [
    stepWhen (decide (s.setup.settle = .due ∧ s.setup.part = .settling)) .settleTimerExpiry,
    stepWhen (decide (s.enf.claimTimer = .due ∧ s.enf.claim = .claiming)) .claimTimerExpiry,
    stepWhen (decide (s.lamps.debounce = .due)) .debounceExpiry,
    stepWhen (decide (Config.ticksPerSecond ≤ s.time.phase)) .secondsStep,
    lampStep s.lamps .battery, lampStep s.lamps .signal, lampStep s.lamps .mute,
    allChannels.findSome? fun c => timerStep c s.channels[c]]

/-- The answer of the access that HALT has overtaken, if there is one (R119). -/
def answerStep (u : PathUnit) : Option Instr := u.answering.map fun w => .forward w.access

/-- The next step the part takes of itself, if one waits. -/
def ownStep (s : State) : Option Instr := firstStep [answerStep s.path, messageStep s.mail, clockStep s]

end Sys2Proof.Machine
end

