-- ==== Sys2Proof/Machine/Dispatch.lean ====
section
/-! DEFINITION. The dispatch: one arm for each command, each one call of its meaning. -/

namespace Sys2Proof.Machine

/-- The effect of a command on everything but the queue. -/
def exec (i : Instr) (s : State) : Host.Outcome State Fault Refusal :=
    match i with
    | .powerResetAssert source => Sys2Proof.Machine.execPowerResetAssert source s
    | .powerResetRelease source straps => Sys2Proof.Machine.execPowerResetRelease source straps s
    | .settleTimerExpiry => Sys2Proof.Machine.execSettleTimerExpiry s
    | .busrstAssert => Sys2Proof.Machine.execBusrstAssert s
    | .busrstRelease => Sys2Proof.Machine.execBusrstRelease s
    | .forward a => Sys2Proof.Machine.execForward a s
    | .heldAccess a => Sys2Proof.Machine.execHeldAccess a s
    | .memoryAccessEnd => Sys2Proof.Machine.execMemoryAccessEnd s
    | .setupCopyWrite word data => Sys2Proof.Machine.execSetupCopyWrite word data s
    | .start low => Sys2Proof.Machine.execStart low s
    | .apply low => Sys2Proof.Machine.execApply low s
    | .halt low answering => Sys2Proof.Machine.execHalt low s answering
    | .mute channel => Sys2Proof.Machine.execMute channel s
    | .unmute channel => Sys2Proof.Machine.execUnmute channel s
    | .ackAll low => Sys2Proof.Machine.execAckAll low s
    | .unknownCode code low => Sys2Proof.Machine.execUnknownCode code low s
    | .stagingFill c word data => Sys2Proof.Machine.execStagingFill c word data s
    | .commit c data => Sys2Proof.Machine.execCommit c data s
    | .frameEvaluation c => Sys2Proof.Machine.execFrameEvaluation c s
    | .dropoutTimerExpiry c => Sys2Proof.Machine.execDropoutTimerExpiry c s
    | .freshnessTimerExpiry c => Sys2Proof.Machine.execFreshnessTimerExpiry c s
    | .dropoutWindowExpiry c => Sys2Proof.Machine.execDropoutWindowExpiry c s
    | .openIdleExpiry c => Sys2Proof.Machine.execOpenIdleExpiry c s
    | .chairRequest => Sys2Proof.Machine.execChairRequest s
    | .takenFloorChange => Sys2Proof.Machine.execTakenFloorChange s
    | .silenceChange => Sys2Proof.Machine.execSilenceChange s
    | .captureRelease c => Sys2Proof.Machine.execCaptureRelease c s
    | .membershipChange => Sys2Proof.Machine.execMembershipChange s
    | .channelTableReset => Sys2Proof.Machine.execChannelTableReset s
    | .causeChangeNotice => Sys2Proof.Machine.execCauseChangeNotice s
    | .enrolmentChange => Sys2Proof.Machine.execEnrolmentChange s
    | .setupChange => Sys2Proof.Machine.execSetupChange s
    | .writeFilter c data => Sys2Proof.Machine.execWriteFilter c data s
    | .cedeAssert => Sys2Proof.Machine.execCedeAssert s
    | .cedeFall => Sys2Proof.Machine.execCedeFall s
    | .claimTimerExpiry => Sys2Proof.Machine.execClaimTimerExpiry s
    | .burstWriteEnd => Sys2Proof.Machine.execBurstWriteEnd s
    | .loadRequest => Sys2Proof.Machine.execLoadRequest s
    | .loadReadEnd filterFirst => Sys2Proof.Machine.execLoadReadEnd s filterFirst
    | .enforcementHalt => Sys2Proof.Machine.execEnforcementHalt s
    | .restoreDoneReport => Sys2Proof.Machine.execRestoreDoneReport s
    | .stallReport => Sys2Proof.Machine.execStallReport s
    | .stallEndReport => Sys2Proof.Machine.execStallEndReport s
    | .claimStalledActive => Sys2Proof.Machine.execClaimStalledActive s
    | .claimStalledInactive => Sys2Proof.Machine.execClaimStalledInactive s
    | .conditionRaise => Sys2Proof.Machine.execConditionRaise s
    | .conditionKindChange => Sys2Proof.Machine.execConditionKindChange s
    | .conditionClear => Sys2Proof.Machine.execConditionClear s
    | .removal => Sys2Proof.Machine.execRemoval s
    | .alertListClearing => Sys2Proof.Machine.execAlertListClearing s
    | .snapshot => Sys2Proof.Machine.execSnapshot s
    | .readMark entry => Sys2Proof.Machine.execReadMark entry s
    | .acknowledgementWrite entry value => Sys2Proof.Machine.execAcknowledgementWrite entry value s
    | .discardedWrite offset data => Sys2Proof.Machine.execDiscardedWrite offset data s
    | .periodBoundary lamp => Sys2Proof.Machine.execPeriodBoundary lamp s
    | .patternsPending => Sys2Proof.Machine.execPatternsPending s
    | .floorLineChange asserted => Sys2Proof.Machine.execFloorLineChange asserted s
    | .debounceExpiry => Sys2Proof.Machine.execDebounceExpiry s
    | .secondsStep => Sys2Proof.Machine.execSecondsStep s
    | .onTimeEnd lamp => Sys2Proof.Machine.execOnTimeEnd lamp s

end Sys2Proof.Machine
end

