-- ==== Sys2Proof/Machine/Step.lean ====
section
/-! DEFINITION. The step: the command at the front of the queue is run on the state with the rest of the queue. On an empty
queue the part takes its own next step, or one REFCLK period passes (DESIGN CHOICE, log 5). -/

namespace Sys2Proof.Machine

/-- What happens while no command waits. -/
def idle (s : State) : Host.Outcome State Fault Refusal :=
  match ownStep s with
  | some i => exec i s
  | none => .next (refclkPeriod s)

/-- One step of the machine. -/
def step (s : State) : Host.Outcome State Fault Refusal :=
  match s.pending with
  | i :: rest => exec i (s.setPending rest)
  | [] => idle s

/-- The state with the command that a word spells put at the front of its queue; unchanged where the word spells none, which
is every word (Decode.lean). -/
def State.withFetchWord (s : State) (nbits w : Nat) : State :=
  match decodeTableWord nbits w with
  | some i => s.setPending (i :: s.pending)
  | none => s

end Sys2Proof.Machine
end

