-- ==== Sys2Proof/Safety.lean ====
section
/-! DEFINITION. The words in which claims about the part are stated: what a step leaves unchanged, when an access is taken,
what an event reports, how the parts of a channel record and the alert list change, and the laws that every step keeps. -/

namespace Sys2Proof.Machine

/-! ## What a step leaves unchanged -/

/-- From `s` to `t` at most the record of channel `c` changed, and what it reports was sent (R9, R72). -/
def OnlyChannel (c : Chan) (s t : State) : Prop :=
  t = { s with
    channels := t.channels
    mail := { s.mail with conditions := t.mail.conditions, notices := t.mail.notices } } ∧
  ∀ d : Chan, d ≠ c → t.channels[d] = s.channels[d]

/-- A lamp over one list event (R176, R178): a lamp that keeps its mode is undisturbed, phase and level with the rest; one that
takes another begins a period at phase 0, on its pending patterns if there are any, lit unless it is OFF or has no patterns. -/
def LampTaken (a b : LampState) : Prop :=
  (b.mode = a.mode → b = a) ∧
  (b.mode ≠ a.mode →
    b = { a with
      mode := b.mode
      inUse := if a.pending = none then a.inUse else a.pending
      pending := none
      phase := 0
      lit := decide (b.mode ≠ .off ∧ (a.inUse ≠ none ∨ a.pending ≠ none)) })

/-- From `s` to `t` at most the alert list unit and the three lamps that follow its list changed (R84), each lamp as R176 and
R178 say. -/
def OnlyAlerts (s t : State) : Prop :=
  t = { s with
    alert := t.alert
    lamps := { s.lamps with battery := t.lamps.battery, signal := t.lamps.signal, mute := t.lamps.mute } } ∧
  ∀ l, LampTaken (s.lamps.get l) (t.lamps.get l)

/-- From `s` to `t` at most the enforcement unit's claim changed: its state, purpose and timer (R143). -/
def OnlyClaim (s t : State) : Prop :=
  t = { s with
    enf := { s.enf with claim := t.enf.claim, purpose := t.enf.purpose, claimTimer := t.enf.claimTimer } }

/-- The word that memory holds at every address outside `written` is the same in `s` and `t`. -/
def SameMemoryBut (written : Nat → Prop) (s t : State) : Prop :=
  ∀ x : Nat, ¬ written x → t.memory.read x = s.memory.read x

/-! ## Accesses -/

/-- An access presented now is taken and classified at once (R120, R129). -/
def State.Taking (s : State) : Prop := s.portTakes = true ∧ s.busCeded = false

/-- The outputs of the memory port when an access begins there (R121, R183; log 26): its address and direction, for a write its
word, and M_REQ asserted. -/
def PortAccess.outputs (before : PortLines) : PortAccess → PortLines
  | .processor (.read a) | .loadRead _ a => { addr := a, data := before.data, write := false, req := true }
  | .processor (.write a w) | .burstWrite _ a w => { addr := a, data := w, write := true, req := true }

/-- The outputs of the memory port when an access ends there: those of the access that waits and begins, else M_REQ deasserted
(R121; log 26). -/
def PathUnit.outputsAfter (u : PathUnit) : PortLines :=
  match u.waiting with
  | some p => p.outputs u.lines
  | none => { u.lines with req := false }

/-- The access is in progress and goes to the memory port with `toMemory`: it begins there if the port was free, else it
waits (R120, R121). -/
def Served (a toMemory : Access) (awaitsHalt : Bool) (s t : State) : Prop :=
  t.path.processor = some { access := a, awaitsHalt := awaitsHalt, ended := false, data := none } ∧
  t.path.completion = none ∧
  (s.path.port = none → t.path.port = some (.processor toMemory) ∧ t.path.waiting = s.path.waiting ∧
    t.path.lines = PortAccess.outputs s.path.lines (.processor toMemory)) ∧
  (s.path.port ≠ none → t.path.port = s.path.port ∧ t.path.waiting = some (.processor toMemory) ∧
    t.path.lines = s.path.lines) ∧
  t.path.straps = s.path.straps ∧ t.path.bases = s.path.bases ∧ t.path.held = s.path.held ∧
  t.path.presented = s.path.presented ∧ t.path.answering = s.path.answering

/-- The access completed at once with `data`, without reaching the memory port (R128). -/
def AnsweredWith (a : Access) (data : Option Word) (s t : State) : Prop :=
  t.path = { s.path with completion := some { access := a, data := data } }

/-- The windows, each a first address and a length: setup, telemetry, gain, alert (R122, R123). -/
def Bases.windows (straps : Straps) (b : Bases) : List (Nat × Nat) :=
  [((setupBase straps).toNat, 37), (b.telemetry.toNat, 256), (b.gain.toNat, 64), (b.alert.toNat, 512)]

/-- No two windows share an address, and each lies within the 20-bit address space (R123). -/
def Bases.Apart (straps : Straps) (b : Bases) : Prop :=
  (b.windows straps).Pairwise (fun v w => windowsMeet v w = false) ∧
  ∀ w ∈ b.windows straps, w.1 + w.2 ≤ 0x100000

/-- A session runs with its windows decoded at `b`. -/
def State.InSession (b : Bases) (s : State) : Prop :=
  s.setup.part = .active ∧ s.path.bases = some b ∧ b.Apart s.path.straps

/-- The access a command presents at the processor port, for the commands that present one; none for a window command
while no window is decoded (log 9), and for every other command. -/
def accessOf (s : State) : Instr → Option Access
  | .forward a | .heldAccess a => some a
  | .setupCopyWrite n data => some (.write (pastBase (setupBase s.path.straps) n.val) data)
  | .start low => some (.write (pastBase (setupBase s.path.straps) 36) (0x01#8 ++ low))
  | .apply low => some (.write (pastBase (setupBase s.path.straps) 36) (0x02#8 ++ low))
  | .halt low _ => some (.write (pastBase (setupBase s.path.straps) 36) (0x03#8 ++ low))
  | .mute channel => some (.write (pastBase (setupBase s.path.straps) 36) (0x10#8 ++ channel))
  | .unmute channel => some (.write (pastBase (setupBase s.path.straps) 36) (0x11#8 ++ channel))
  | .ackAll low => some (.write (pastBase (setupBase s.path.straps) 36) (0x20#8 ++ low))
  | .unknownCode code low => some (.write (pastBase (setupBase s.path.straps) 36) (code ++ low))
  | .stagingFill c word data => s.path.bases.map fun b => .write (pastBase b.telemetry (4 * c.val + word.offset)) data
  | .commit c data => s.path.bases.map fun b => .write (pastBase b.telemetry (4 * c.val + 3)) data
  | .writeFilter c data => s.path.bases.map fun b => .write (pastBase b.gain c.val) data
  | .snapshot => s.path.bases.map fun b => .read (pastBase b.alert 0)
  | .readMark i => s.path.bases.map fun b => .read (pastBase b.alert (16 + 4 * i.val))
  | .captureRelease c => s.path.bases.map fun b => .read (pastBase b.alert (147 + 4 * c.val))
  | .acknowledgementWrite i value => s.path.bases.map fun b => .write (pastBase b.alert (19 + 4 * i.val)) value
  | .discardedWrite offset data => s.path.bases.map fun b => .write (pastBase b.alert offset.val) data
  | .powerResetAssert _ | .powerResetRelease _ _ | .settleTimerExpiry | .busrstAssert | .busrstRelease
  | .memoryAccessEnd | .frameEvaluation _ | .dropoutTimerExpiry _ | .freshnessTimerExpiry _ | .dropoutWindowExpiry _
  | .openIdleExpiry _ | .chairRequest | .takenFloorChange | .silenceChange | .membershipChange | .channelTableReset
  | .causeChangeNotice | .enrolmentChange | .setupChange | .cedeAssert | .cedeFall | .claimTimerExpiry
  | .burstWriteEnd | .loadRequest | .loadReadEnd _ | .enforcementHalt | .restoreDoneReport | .stallReport
  | .stallEndReport | .claimStalledActive | .claimStalledInactive | .conditionRaise | .conditionKindChange
  | .conditionClear | .removal | .alertListClearing | .periodBoundary _ | .patternsPending | .floorLineChange _
  | .debounceExpiry | .secondsStep | .onTimeEnd _ => none

/-- Whether a command presents an access (the rows of spec/opcode_table.json that are a write or a read of the
processor's). -/
def presentsAccess : Instr → Bool
  | .forward _ | .heldAccess _ | .setupCopyWrite _ _ | .start _ | .apply _ | .halt _ _ | .mute _ | .unmute _ | .ackAll _
  | .unknownCode _ _ | .stagingFill _ _ _ | .commit _ _ | .writeFilter _ _ | .snapshot | .readMark _ | .captureRelease _
  | .acknowledgementWrite _ _ | .discardedWrite _ _ => true
  | .powerResetAssert _ | .powerResetRelease _ _ | .settleTimerExpiry | .busrstAssert | .busrstRelease
  | .memoryAccessEnd | .frameEvaluation _ | .dropoutTimerExpiry _ | .freshnessTimerExpiry _ | .dropoutWindowExpiry _
  | .openIdleExpiry _ | .chairRequest | .takenFloorChange | .silenceChange | .membershipChange | .channelTableReset
  | .causeChangeNotice | .enrolmentChange | .setupChange | .cedeAssert | .cedeFall | .claimTimerExpiry
  | .burstWriteEnd | .loadRequest | .loadReadEnd _ | .enforcementHalt | .restoreDoneReport | .stallReport
  | .stallEndReport | .claimStalledActive | .claimStalledInactive | .conditionRaise | .conditionKindChange
  | .conditionClear | .removal | .alertListClearing | .periodBoundary _ | .patternsPending | .floorLineChange _
  | .debounceExpiry | .secondsStep | .onTimeEnd _ => false

/-- The six commands and the unknown codes, each with the command word it writes (R168). -/
def commandWordOf : Instr → Option Word
  | .start low => some (0x01#8 ++ low)
  | .apply low => some (0x02#8 ++ low)
  | .halt low _ => some (0x03#8 ++ low)
  | .mute channel => some (0x10#8 ++ channel)
  | .unmute channel => some (0x11#8 ++ channel)
  | .ackAll low => some (0x20#8 ++ low)
  | .unknownCode code low => some (code ++ low)
  | _ => none

/-- A write of the command word `w` to setup word 36. -/
def State.commandWrite (s : State) (w : Word) : Access := .write (pastBase (setupBase s.path.straps) 36) w

/-- From `u` to `t` the access that stayed presented, if there is one and the port takes accesses, has arrived, as if it
were presented now (R120, R131; log 8). -/
def Arrived (u t : State) : Prop :=
  (u.path.presented = none ∨ u.portTakes = false → t = u) ∧
  ∀ a, u.path.presented = some a → u.portTakes = true →
    exec (.forward a) { u with path := { u.path with presented := none } } = .next t

/-- The table, the list and the view are as HALT leaves them (R10, R106, R108). -/
def State.AfterHalt (s : State) : Prop :=
  (∀ c : Chan, s.channels[c] = ChannelRecord.powerReset) ∧
  s.alert = { list := [], unlisted := [], nextSeq := 1, gen := 0, latest := none, ackResult := .noEntry, ackValue := 0 } ∧
  s.view = { gen := 0, count := 0, entries := Vector.replicate 32 none }

/-- The word that a read of offset `n` of the alert window returns once HALT has been taken (R119): the part state, the mode and the
freeze level as they stand at offset 2, the seconds count at offset 9, and the rest what the clearing, the emptying and the
reset of the table have left (R182). -/
def State.WordAfterHalt (s : State) (n : Nat) (word : Word) : Prop :=
  (n = 2 → word.extractLsb' 0 3 = s.setup.part.code ∧ word.getLsbD 4 = decide (s.mode = .observe) ∧
    word.extractLsb' 8 2 = s.setup.freeze.code ∧
    word.getLsbD 3 = false ∧ word.extractLsb' 5 3 = 0 ∧ word.extractLsb' 10 6 = 0) ∧
  (n = 9 → word = s.time.seconds) ∧
  (144 ≤ n → n < 400 → n % 4 = 1 → word = 0x007F#16) ∧
  (144 ≤ n → n < 400 → n % 4 = 2 → word = 0x3F80#16) ∧
  (n ≠ 2 → n ≠ 9 → (n < 144 ∨ 400 ≤ n ∨ n % 4 = 0 ∨ n % 4 = 3) → word = 0)

/-- The evaluator has channel `c` enrolled, and a membership change on its way is yet to de-enrol it (R11). -/
def State.DeEnrolling (c : Chan) (s : State) : Prop :=
  s.channels[c].enrolled = true ∧
    ∃ w next, ToEvaluator.membership w next ∈ s.mail.toEvaluator ∧ next ≤ c ∧ w.enrols c = false

/-- The row that takes a request to the alert list unit (R105, R106). -/
def ToList.row : ToList → Instr
  | .removal _ => .removal
  | .clearing => .alertListClearing

/-- The requests of the list have been taken from `s` to `t`, each by its own row, up to the last removal that names one of the
channels (R105). -/
def RemovalsTaken (cs : List Chan) : List ToList → State → State → Prop
  | [], s, t => t = s
  | m :: rest, s, t =>
    ((∃ gone c, ToList.removal gone ∈ m :: rest ∧ c ∈ gone ∧ c ∈ cs) →
      ∃ u, exec m.row s = .next u ∧ RemovalsTaken cs rest u t) ∧
    ((∀ gone c, ToList.removal gone ∈ m :: rest → c ∈ gone → c ∉ cs) → t = s)

/-- The clearings of START still on their way have been taken from `s` to `t` (R106): all six pieces of state of the alert list unit at
their first values, and every lamp OFF. -/
def ClearingsTaken (s t : State) : Prop :=
  (ToList.clearing ∉ s.mail.toList → t = s) ∧
  (ToList.clearing ∈ s.mail.toList →
    OnlyAlerts { s with mail := { s.mail with toList := s.mail.toList.filter fun m => decide (m ≠ .clearing) } } t ∧
    t.alert = { list := [], unlisted := [], nextSeq := 1, gen := 0, latest := none, ackResult := .noEntry, ackValue := 0 } ∧
    ∀ l, (t.lamps.get l).mode = .off)

/-- What offset `n` of the alert window reads of the view (R111, R112, R113, R182): the view entry count at offset 1, the four words of
a view entry, zero for an empty one. -/
def View.WordAt (v : View) (n : Nat) (word : Word) : Prop :=
  (n = 1 → (word.extractLsb' 0 8).toNat = v.count % 256) ∧
  ∀ i : Fin 32,
    (v.entries[i] = none → 16 + 4 * i.val ≤ n → n < 20 + 4 * i.val → word = 0) ∧
    ∀ x, v.entries[i] = some x →
      (n = 16 + 4 * i.val →
        word = BitVec.ofNat 2 x.kind.severity ++ x.kind.code ++ x.family.code ++ x.channel.code) ∧
      (n = 17 + 4 * i.val → word = (x.state.code).setWidth 16) ∧
      (n = 18 + 4 * i.val → word = x.stamp) ∧ (n = 19 + 4 * i.val → word = x.seq)

/-- What offset `n` of the alert window reads of the alert list unit (R98, R99, R103, R104, R111, R182), field by field. -/
def AlertUnit.WordAt (u : AlertUnit) (n : Nat) (word : Word) : Prop :=
  (n = 0 → word = u.gen) ∧
  (n = 1 → (word.extractLsb' 8 8).toNat = u.unlisted.length % 256) ∧
  (n = 3 → word.extractLsb' 4 4 = 0 ∧ word.extractLsb' 10 6 = 0 ∧
    (word.getLsbD 0 = true ↔ ∃ e ∈ u.list, e.family = .battery ∧ e.state = .new) ∧
    (word.getLsbD 1 = true ↔ ∃ e ∈ u.list, e.family = .signal ∧ e.state = .new) ∧
    (word.getLsbD 2 = true ↔ ∃ e ∈ u.list, e.family = .mute ∧ e.state = .new) ∧
    (word.getLsbD 3 = true ↔ ∃ e ∈ u.list, e.family = .part ∧ e.state = .new) ∧
    (∀ e ∈ u.list, e.state ≠ .cleared → e.severity ≤ (word.extractLsb' 8 2).toNat) ∧
    ((word.extractLsb' 8 2).toNat = 0 ∨
      ∃ e ∈ u.list, e.state ≠ .cleared ∧ e.severity = (word.extractLsb' 8 2).toNat)) ∧
  (∀ r, u.latest = some r →
    (n = 4 → word.extractLsb' 0 8 = r.channel.code ∧ word.extractLsb' 8 3 = r.family.raiseCode ∧ word.extractLsb' 11 5 = 0) ∧
    (n = 5 → word.extractLsb' 0 4 = r.kind.code ∧ (word.extractLsb' 8 2).toNat = r.kind.severity ∧
      word.extractLsb' 4 4 = 0 ∧ word.extractLsb' 10 6 = 0) ∧
    (n = 6 → word = r.seq) ∧ (n = 7 → word = r.stamp)) ∧
  (u.latest = none → 4 ≤ n → n ≤ 7 → word = 0) ∧
  (n = 8 → word.extractLsb' 13 3 = u.ackResult.code ∧ word.extractLsb' 0 13 = u.ackValue.extractLsb' 0 13) ∧
  (n = 10 → word = u.gen)

/-- From `u` to `t` the held access, if there is one, has been released and taken its course (R129). -/
def Released (u t : State) : Prop :=
  (u.path.held = none → t = u) ∧
  ∀ a, u.path.held = some a → t = takeCourse a { u with path := { u.path with held := none } }

/-- From `u` to `t` the write `a`, copied where the state says so, has gone to the memory port unchanged (R125, R126), and
nothing but the two ports has changed. -/
def WriteServed (a : Access) (awaitsHalt : Bool) (u t : State) : Prop :=
  t = { u with path := t.path } ∧ Served a a awaitsHalt u t

/-- A write of `w` at address `x` is in progress at the memory port (R121). -/
def State.Storing (s : State) (x : Nat) (w : Word) : Prop :=
  (∃ a, x = a.toNat ∧ s.path.port = some (.processor (.write a w))) ∨
    ∃ c a, x = a.toNat ∧ s.path.port = some (.burstWrite c a w)

/-- The power-reset values of every block, as the spec gives them (R10, R13, R106, R108, R132, R159, R183, R184; the opening
tables of 09_setup_commands_and_part_states.md and 10_lamps_and_the_alert_line.md). -/
structure State.AtPowerReset (s : State) : Prop where
  channels : ∀ c : Chan, s.channels[c] =
    { enrolled := false, role := .delegate, squelchEnabled := false,
      link := .absent, lastRf := 0, fadeRun := 0, dropoutTimer := .stopped, dropoutStamp := 0, freshTimer := .stopped,
      dropoutCount := 0, windowTimer := .stopped, dropoutsRaised := false,
      capture := none, captureHeld := false, captureMissed := 0,
      battery := .unknown, batteryLevel := none, chemistry := none,
      selfMuted := false, chairCause := false, floorCause := false, squelchCause := false, lastAudio := none,
      speechCount := 0, mutedSpeechRaised := false, idleTimer := .stopped, openIdleRaised := false,
      active :=
        { notice := false, low := false, critical := false, weak := false, dropouts := false, lost := false,
          noReport := false, openIdle := false, mutedSpeech := false } }
  staging : ∀ c : Chan, s.staging[c] = { link := none, battery := none, switch := none }
  alert : s.alert =
    { list := [], unlisted := [], nextSeq := 1, gen := 0, latest := none, ackResult := .noEntry, ackValue := 0 }
  view : s.view.gen = 0 ∧ s.view.count = 0 ∧ ∀ i : Fin 32, s.view.entries[i] = none
  intended : ∀ c : Chan, s.enf.intended[c] = 0x0000#16
  claims : s.enf =
    { intended := s.enf.intended, queue := [], claim := .idle, purpose := none, stalled := false,
      claimTimer := .stopped, burstCount := 0, loadPosition := none, broken := false, orphan := false }
  copy : ∀ n : Fin 36, s.setup.copy[n] = 0x0000#16 ∧ s.setup.marks[n] = false
  setup : s.setup =
    { copy := s.setup.copy, marks := s.setup.marks, working := none, part := .settling, settle := .stopped,
      freeze := .none, result := .idle, lastCode := 0, stalledFlag := false, busyFlag := false }
  lamps : ∀ l, s.lamps.get l = { mode := .off, inUse := none, pending := none, phase := 0, lit := false }
  floor : s.lamps.enables = { battery := false, signal := false, mute := false, part := false } ∧
    s.lamps.debounced = false ∧ s.lamps.debounce = .stopped
  time : s.time = { divider := 0, ticks := 0, seconds := 0, phase := 0 }
  path : s.path.bases = none ∧ s.path.port = none ∧ s.path.waiting = none ∧ s.path.processor = none ∧ s.path.held = none ∧
    s.path.answering = none
  mail : s.mail =
    { frames := [], toEvaluator := [], floor := [], silence := [], conditions := [], stalls := [], toList := [],
      notices := [], toEnforcement := [], toSetup := [], toLamps := [] }

/-! ## Claims (R143, R156) -/

/-- Work waits for a claim (R143): rewrites in ACTIVE or RELEASING, or a load in LOADING. -/
def State.Work (s : State) : Purpose → Prop
  | .burst => (s.setup.part = .active ∨ s.setup.part = .releasing) ∧ s.enf.queue ≠ []
  | .load => s.setup.part = .loading ∧ s.enf.loadPosition ≠ none

/-- From IDLE, with BUSRST_N and CEDE_N deasserted, a claim may be raised (R143). -/
def State.MayClaim (s : State) : Prop := s.enf.claim = .idle ∧ s.lines.busrst = false ∧ s.lines.cede = false

/-- From `u` to `t` the unit has claimed if it may and work waits (R143). -/
def Claims (u t : State) : Prop :=
  (∀ p, u.MayClaim → u.Work p →
    t = { u with enf := { u.enf with
      claim := .claiming, purpose := some p, claimTimer := .running (u.time.ticks + 5) } }) ∧
  (¬(u.MayClaim ∧ ∃ p, u.Work p) → t = u)

/-- The restore is done (R156), and no report of it is on its way (log 13). -/
def State.Restored (s : State) : Prop :=
  s.setup.part = .releasing ∧ ToEnforcement.halt ∉ s.mail.toEnforcement ∧ s.enf.queue = [] ∧ s.enf.claim = .idle ∧
    ToSetup.restoreDone ∉ s.mail.toSetup

/-- The stalled flag once the reports of the list have been taken in their order (R174). -/
def flagAfter : List ToSetup → Bool → Bool
  | [], b => b
  | .stall :: rest, _ => flagAfter rest true
  | .stallEnd :: rest, _ => flagAfter rest false
  | .restoreDone :: rest, b => flagAfter rest b

/-- From `u` to `t` RELEASING has ended if the restore is done (R129, R156, R171): the restore-done report, taken with the
reports before it on its path, leaves PASSIVE with result DONE (log 13). -/
def RestoreEnded (u t : State) : Prop :=
  (u.Restored → t = { u with
    mail := { u.mail with toSetup := [] }
    setup := { u.setup with
      part := .passive, result := .done, busyFlag := false
      stalledFlag := flagAfter u.mail.toSetup u.setup.stalledFlag } }) ∧
  (¬u.Restored → t = u)

/-- From `u` to `t` the restore-done report has been sent if the restore is done (R156). -/
def ReportsRestore (u t : State) : Prop :=
  (u.Restored → t = { u with mail := { u.mail with toSetup := u.mail.toSetup ++ [.restoreDone] } }) ∧
  (¬u.Restored → t = u)

/-- READY is returned from `u` to `t` for an access that memory has ended, unless it waits for the taking of HALT (R120,
R171; log 13). -/
def Completed (u t : State) : Prop :=
  (∀ p, u.path.processor = some p → p.ended = true → p.awaitsHalt = false ∨ u.haltPending = false →
    t = { u with path := { u.path with
      processor := none, completion := some { access := p.access, data := p.data } } }) ∧
  ((∀ p, u.path.processor = some p → p.ended = false ∨ (p.awaitsHalt = true ∧ u.haltPending = true)) → t = u)

/-- From `u` to `t` an access has been offered to the memory port: it begins there if the port is free, else it waits
(R121). -/
def Offered (p : PortAccess) (u t : State) : Prop :=
  t = { u with path := t.path } ∧
  (u.path.port = none → t.path = { u.path with port := some p, lines := p.outputs u.path.lines }) ∧
  (u.path.port ≠ none → t.path = { u.path with waiting := some p })

/-- What is left once CLAIM_N has been withdrawn in `u`: the held access released, then an access that stayed presented
arrives (R129, R131). -/
def BusReturned (u t : State) : Prop := ∃ v, Released u v ∧ Arrived v t

/-- CLAIM_N withdrawn (R145, R149): RELEASING_BUS while CEDE_N stands asserted, else IDLE. -/
def EnforcementUnit.withdrawn (cede : Bool) (u : EnforcementUnit) : EnforcementUnit :=
  { u with
    claim := if cede then .releasingBus else .idle
    purpose := if cede then u.purpose else none
    broken := false }

/-- A broken cede has been ended from `u` to `t` (R129, R145, R154, R156): a load goes back to position 0; CLAIM_N withdrawn,
and RELEASING ended with it if the restore is done; the held access released into the part state that leaves; the unit claims
again if it may. -/
def BrokenCedeEnded (u t : State) : Prop :=
  ∃ v w x,
    RestoreEnded { u with
      enf := EnforcementUnit.withdrawn u.lines.cede { u.enf with
        loadPosition := if u.enf.purpose = some .load then some 0 else u.enf.loadPosition } } v ∧
    Released v w ∧ Claims w x ∧ Arrived x t

/-- The gain word that the part stores for channel `c` whose intended word is `w` (R134): the intended word with its gain code
replaced by the mute code in ACTIVE under ENFORCE while the channel is enforced (R60), else the intended word. -/
def State.StoredWord (s : State) (c : Chan) (w stored : Word) : Prop :=
  (s.setup.part = .active ∧ s.mode = .enforce ∧ s.channels[c].enrolled = true ∧
      (s.channels[c].chairCause = true ∨ s.channels[c].floorCause = true ∨ s.channels[c].squelchCause = true) →
    stored = w.extractLsb' 8 8 ++ BitVec.ofNat 8 s.settings.muteCode) ∧
  (¬(s.setup.part = .active ∧ s.mode = .enforce ∧ s.channels[c].enrolled = true ∧
      (s.channels[c].chairCause = true ∨ s.channels[c].floorCause = true ∨ s.channels[c].squelchCause = true)) →
    stored = w)

/-- What the unit does in CEDED, in `u` with no own access in progress, up to `t` (R145, R148, R149, R152, R154): after a broken
cede the claim is withdrawn; a load offers the read at its position; a burst offers the write of the channel at the head of the
queue, its word formed now, or with the queue empty or the count at 64 withdraws the claim and returns the bus. -/
def Proceeds (u t : State) : Prop :=
  (u.enf.broken = true → BrokenCedeEnded u t) ∧
  (u.enf.broken = false → u.enf.purpose = some .load → ∀ c, u.enf.loadPosition = some c →
    ∃ b, (∀ bases, u.path.bases = some bases → b = bases.gain) ∧ Offered (.loadRead c (pastBase b c.val)) u t) ∧
  (u.enf.broken = false → u.enf.purpose = some .burst →
    (∀ c rest, u.enf.queue = c :: rest → u.enf.burstCount < 64 →
      ∃ b stored, (∀ bases, u.path.bases = some bases → b = bases.gain) ∧ u.StoredWord c u.enf.intended[c] stored ∧
        Offered (.burstWrite c (pastBase b c.val) stored) { u with enf := { u.enf with queue := rest } } t) ∧
    (u.enf.queue = [] ∨ 64 ≤ u.enf.burstCount →
      BusReturned { u with enf := u.enf.withdrawn u.lines.cede } t))

/-- The stall ended in `u`, if the mark was set (R147): the mark cleared, and a stall-end report to the receiver that the part
state gives. -/
def State.stallEnded (u : State) : State :=
  { u with
    enf := { u.enf with stalled := false }
    mail := { u.mail with
      stalls := u.mail.stalls ++ (if u.enf.stalled = true ∧ u.setup.part = .active then [false] else [])
      toSetup := u.mail.toSetup ++ (if u.enf.stalled = true ∧ u.setup.part ≠ .active then [.stallEnd] else []) } }

/-- `q'` is `q` with the channels of `cs` added at its tail in their order, each only if absent (R137). -/
def Joins (cs q q' : List Chan) : Prop :=
  q' = q ++ cs.filter fun c => !q.contains c

/-- The held access is a write to a gain word that the filter takes (R127). -/
def State.HoldsGainWrite (s : State) : Prop := ∃ a c data, s.path.held = some a ∧ s.classify a = .filter c data

/-- Step 3 of the end of the load from `s` to `t` (R153): under ENFORCE the enforced channels have joined the queue. -/
def EnforcedQueued (s t : State) : Prop :=
  ∃ q, t = { s with enf := { s.enf with queue := q } } ∧
    (s.mode = .enforce → Joins ((List.finRange 64).filter fun d => s.channels[d].enrolled &&
      (s.channels[d].chairCause || s.channels[d].floorCause || s.channels[d].squelchCause)) s.enf.queue q) ∧
    (s.mode ≠ .enforce → q = s.enf.queue)

/-- A notice finds ENFORCE (R138, R139): it is the effective mode, or the mode before a setup change still on its way. -/
def State.FindsEnforce (s : State) : Prop :=
  s.mode = .enforce ∨
    ∃ old new, ToEnforcement.setupChange old new ∈ s.mail.toEnforcement ∧ old.effectiveMode s.path.straps = .enforce

/-- An enrolment change of channel `c` is still to be taken by the enforcement unit: it is on its way, or still to be sent
(R11). -/
def State.EnrolmentOwed (c : Chan) (s : State) : Prop := Notice.enrolment c ∈ s.mail.notices ∨ s.DeEnrolling c

/-- A switch from ENFORCE to OBSERVE waits while it would overtake the enrolment change of a channel that it does not queue itself
(R138, R141; log 34). -/
def State.SwitchWaits (old new : SetupWords) (s : State) : Prop :=
  old.effectiveMode s.path.straps = .enforce ∧ new.effectiveMode s.path.straps = .observe ∧
    ∃ c, old.enrols c = false ∧ new.enrols c = false ∧ s.EnrolmentOwed c

/-- HALT waits under ENFORCE while it would overtake the enrolment change of a channel that it does not queue itself (R138, R141,
R155; log 34). -/
def State.HaltWaits (s : State) : Prop :=
  s.mode = .enforce ∧ ∃ c, s.workingEnrols c = false ∧ s.EnrolmentOwed c

/-- The setup change, first of the requests, has been taken by the enforcement unit from `s` to `t` (R63, R139): the silence changes
of a changed mute code sent, the channels of either setup queued if the mode changes, or the mute code under ENFORCE, and the unit
has claimed if it may. -/
def SetupChangeTaken (old new : SetupWords) (s t : State) : Prop :=
  ∃ u, u = { s with mail := { s.mail with
      toEnforcement := s.mail.toEnforcement.tail
      silence := s.mail.silence ++ (List.finRange 64).filter fun c =>
        new.enrols c &&
          (decide ((s.enf.intended[c].extractLsb' 0 8).toNat ≤ old.muteCode) !=
            decide ((s.enf.intended[c].extractLsb' 0 8).toNat ≤ new.muteCode)) } } ∧
    (old.effectiveMode s.path.straps ≠ new.effectiveMode s.path.straps ∨
        (old.effectiveMode s.path.straps = .enforce ∧ old.muteCode ≠ new.muteCode) →
      ∃ q, Joins ((List.finRange 64).filter fun c => old.enrols c || new.enrols c) s.enf.queue q ∧
        Claims { u with enf := { u.enf with queue := q } } t) ∧
    (¬(old.effectiveMode s.path.straps ≠ new.effectiveMode s.path.straps ∨
        (old.effectiveMode s.path.straps = .enforce ∧ old.muteCode ≠ new.muteCode)) → t = u)

/-- The row that takes a notice (R138). -/
def Notice.row : Notice → Instr
  | .causeChange _ => .causeChangeNotice
  | .enrolment _ => .enrolmentChange

/-- The notices of the list have been taken from `s` to `t`, each by its own row (R138). -/
def NoticesTaken : List Notice → State → State → Prop
  | [], s, t => t = s
  | m :: rest, s, t => ∃ u, exec m.row s = .next u ∧ NoticesTaken rest u t

/-- The evaluator has taken the chair requests and membership changes that wait, from `s` to `t`, each by its own row, a membership
change channel by channel (R11, R56). -/
inductive CaughtUp : State → State → Prop
  | done {s} (hc : ∀ c set rest, s.mail.toEvaluator ≠ .chair c set :: rest)
      (hm : ∀ w c rest, s.mail.toEvaluator ≠ .membership w c :: rest) : CaughtUp s s
  | chair {s u t} {c set rest} (h : s.mail.toEvaluator = .chair c set :: rest) (hx : exec .chairRequest s = .next u)
      (ht : CaughtUp u t) : CaughtUp s t
  | membership {s u t} {w c rest} (h : s.mail.toEvaluator = .membership w c :: rest)
      (hx : exec .membershipChange s = .next u) (ht : CaughtUp u t) : CaughtUp s t

/-- HALT, first of the requests, has been taken by the enforcement unit from `s` to `t` (R155): under ENFORCE the channels of the
working setup have joined the queue, a standing stall has been reported, RELEASING has ended if nothing is left to do, and the
unit has claimed if it may. -/
def HaltTaken (s t : State) : Prop :=
  ∃ q u,
    (s.mode = .enforce →
      Joins ((List.finRange 64).filter fun c => s.workingEnrols c) s.enf.queue q) ∧
    (s.mode ≠ .enforce → q = s.enf.queue) ∧
    RestoreEnded { s with
      mail := { s.mail with
        toEnforcement := s.mail.toEnforcement.tail
        toSetup := s.mail.toSetup ++ (if s.enf.stalled then [.stall] else []) }
      enf := { s.enf with queue := q } } u ∧
    Claims u t

/-- The requests of the list have been taken from `s` to `t` up to HALT, the setup changes before it in their order (R139,
R155). -/
def HaltReached : List ToEnforcement → State → State → Prop
  | .setupChange old new :: rest, s, t => ∃ u, SetupChangeTaken old new s u ∧ HaltReached rest u t
  | .halt :: _, s, t => HaltTaken s t
  | .loadRequest :: _, s, t => t = s
  | [], s, t => t = s

/-! ## The parts of a channel record -/

/-- The part of a record that the link stage and the link timers keep (02_signal_supervision.md). -/
structure LinkPart where
  lastRf : BitVec 7
  link : LinkState
  fadeRun : Nat
  dropoutTimer : Timer
  dropoutStamp : Millis
  freshTimer : Timer
  dropoutCount : Nat
  windowTimer : Timer
  dropoutsRaised : Bool
  capture : Option CaptureRecord
  captureHeld : Bool
  captureMissed : Nat
  squelchCause : Bool
  weak : Bool
  lost : Bool
  noReport : Bool
  dropouts : Bool

def ChannelRecord.linkPart (r : ChannelRecord) : LinkPart :=
  { lastRf := r.lastRf, link := r.link, fadeRun := r.fadeRun, dropoutTimer := r.dropoutTimer,
    dropoutStamp := r.dropoutStamp, freshTimer := r.freshTimer, dropoutCount := r.dropoutCount,
    windowTimer := r.windowTimer, dropoutsRaised := r.dropoutsRaised, capture := r.capture,
    captureHeld := r.captureHeld, captureMissed := r.captureMissed, squelchCause := r.squelchCause,
    weak := r.active.weak, lost := r.active.lost, noReport := r.active.noReport, dropouts := r.active.dropouts }

/-- The part of a record that the battery stage keeps (R41). -/
structure BatteryPart where
  battery : BatteryState
  level : Option (BitVec 7)
  chemistry : Option Chemistry
  notice : Bool
  low : Bool
  critical : Bool

def ChannelRecord.batteryPart (r : ChannelRecord) : BatteryPart :=
  { battery := r.battery, level := r.batteryLevel, chemistry := r.chemistry, notice := r.active.notice,
    low := r.active.low, critical := r.active.critical }

/-- Membership and the chair and floor causes (R1, R54). -/
structure MemberPart where
  enrolled : Bool
  role : Role
  squelchEnabled : Bool
  chairCause : Bool
  floorCause : Bool

def ChannelRecord.memberPart (r : ChannelRecord) : MemberPart :=
  { enrolled := r.enrolled, role := r.role, squelchEnabled := r.squelchEnabled, chairCause := r.chairCause,
    floorCause := r.floorCause }

/-- Self-muted and the speech detector (R55, R64, R65). -/
structure SpeechPart where
  selfMuted : Bool
  lastAudio : Option (BitVec 6)
  speechCount : Nat
  raised : Bool
  mutedSpeech : Bool

def ChannelRecord.speechPart (r : ChannelRecord) : SpeechPart :=
  { selfMuted := r.selfMuted, lastAudio := r.lastAudio, speechCount := r.speechCount, raised := r.mutedSpeechRaised,
    mutedSpeech := r.active.mutedSpeech }

/-- The open-idle watch (R67 to R70). -/
structure IdlePart where
  idleTimer : Timer
  raised : Bool
  openIdle : Bool

def ChannelRecord.idlePart (r : ChannelRecord) : IdlePart :=
  { idleTimer := r.idleTimer, raised := r.openIdleRaised, openIdle := r.active.openIdle }

/-- The watch at rest: the timer stopped and OPEN_IDLE not raised. -/
def IdlePart.atRest : IdlePart := { idleTimer := .stopped, raised := false, openIdle := false }

/-- Channel `c` is silent in `t` (R61). -/
def State.SilentIn (t : State) (c : Chan) : Prop :=
  t.channels[c].silent t.settings.muteCode t.enf.intended[c] = true

/-- The silence judgement at the end of an event of channel `c` from `s` to `t` that does not touch the open-idle watch
itself (R62). -/
def WatchJudged (c : Chan) (s t : State) : Prop :=
  (t.SilentIn c → t.channels[c].idlePart = .atRest) ∧
  (¬t.SilentIn c → t.channels[c].idlePart = s.channels[c].idlePart)

/-- The first frame of channel `c` that waits is `f`, the channel is enrolled and the part is ACTIVE (R1, R7, R8; log 4). -/
def State.FrameWaits (c : Chan) (f : Frame) (s : State) : Prop :=
  (∃ before after, s.mail.frames = before ++ (c, f) :: after ∧ ∀ p ∈ before, p.1 ≠ c) ∧
    s.channels[c].enrolled = true ∧ s.setup.part = .active

/-- `evs` is what is reported of a family whose summary was `before` and is `after` (R9). -/
def FamilyReport (c : Chan) (f : Family) (before after : Option Kind) (evs : List ConditionEvent) : Prop :=
  (before = after → evs = []) ∧
  (∀ k, before = none → after = some k → evs = [.raised c f k]) ∧
  (∀ k, before = some k → after = none → evs = [.cleared c f]) ∧
  (∀ k k', before = some k → after = some k' → k ≠ k' → evs = [.changed c f k'])

/-- From `s` to `t` the change of channel `c`'s record has been reported (R9, R72): the families in the order SIGNAL,
BATTERY, MUTE, and one cause-change notice if a cause differs. -/
def ChangeReported (c : Chan) (s t : State) : Prop :=
  (∃ signal battery mute,
    t.mail.conditions = s.mail.conditions ++ (signal ++ battery ++ mute) ∧
    FamilyReport c .signal s.channels[c].active.signalSummary t.channels[c].active.signalSummary signal ∧
    FamilyReport c .battery s.channels[c].active.batterySummary t.channels[c].active.batterySummary battery ∧
    FamilyReport c .mute s.channels[c].active.muteSummary t.channels[c].active.muteSummary mute) ∧
  ((t.channels[c].chairCause = s.channels[c].chairCause ∧ t.channels[c].floorCause = s.channels[c].floorCause ∧
      t.channels[c].squelchCause = s.channels[c].squelchCause → t.mail.notices = s.mail.notices) ∧
    (t.channels[c].chairCause ≠ s.channels[c].chairCause ∨ t.channels[c].floorCause ≠ s.channels[c].floorCause ∨
      t.channels[c].squelchCause ≠ s.channels[c].squelchCause →
        t.mail.notices = s.mail.notices ++ [.causeChange c]))

/-- The family of a condition event. -/
def ConditionEvent.family : ConditionEvent → Family
  | .raised _ f _ | .changed _ f _ | .cleared _ f => f

/-- From `s` to `t` the BATTERY events sent are `evs`, after any SIGNAL event and before any MUTE event (R9, R50). -/
def BatteryReported (evs : List ConditionEvent) (s t : State) : Prop :=
  ∃ signal mute, t.mail.conditions = s.mail.conditions ++ (signal ++ evs ++ mute) ∧
    (∀ ev ∈ signal, ev.family = .signal) ∧ ∀ ev ∈ mute, ev.family = .mute

/-- The state that a level selects under the thresholds of a chemistry (R43). -/
def PlacementIs (w : SetupWords) (ch : Chemistry) (level : Nat) (b : BatteryState) : Prop :=
  (w.noticeThreshold ch < level ∧ b = .good) ∨
  (level ≤ w.noticeThreshold ch ∧ w.lowThreshold ch < level ∧ b = .notice) ∨
  (level ≤ w.lowThreshold ch ∧ w.criticalThreshold ch < level ∧ b = .low) ∨
  (level ≤ w.criticalThreshold ch ∧ b = .critical)

/-- A level clears a state: it is above the state's rise boundary, and every level clears CRITICAL (R43). -/
def Clears (w : SetupWords) (ch : Chemistry) (level : Nat) : BatteryState → Prop
  | .unknown => False
  | .good => w.noticeThreshold ch + w.hysteresis < level
  | .notice => w.lowThreshold ch + w.hysteresis < level
  | .low => w.criticalThreshold ch + w.hysteresis < level
  | .critical => True

/-- The thresholds of a chemistry descend strictly, as in every valid setup (R165). -/
def Descends (w : SetupWords) (ch : Chemistry) : Prop :=
  w.lowThreshold ch < w.noticeThreshold ch ∧ w.criticalThreshold ch < w.lowThreshold ch

/-- The battery part with a report of `level` and `ch` that leaves the record in state `b` (R42, R50). -/
def BatteryPart.reported (b : BatteryState) (level : BitVec 7) (ch : Chemistry) : BatteryPart :=
  { battery := b, level := some level, chemistry := some ch, notice := decide (b = .notice), low := decide (b = .low),
    critical := decide (b = .critical) }

/-- The condition a battery state names; none in UNKNOWN and GOOD (R50). -/
def BatteryState.kind : BatteryState → Option Kind
  | .unknown | .good => none
  | .notice => some .notice
  | .low => some .low
  | .critical => some .critical

/-- A link part placed directly by the RF level of a frame with lock taken now (R17, R21). -/
def LinkPart.placed (w : SetupWords) (now : Millis) (rf : BitVec 7) (l : LinkPart) : LinkPart :=
  { l with
    lastRf := rf
    freshTimer := .running (now + BitVec.ofNat 32 w.freshnessLimit)
    link := if rf.toNat < w.fadeLevel then .weak else .locked
    fadeRun := 0
    weak := decide (rf.toNat < w.fadeLevel) }

/-- A link part with a dropout counted now (R24). -/
def LinkPart.counted (w : SetupWords) (now : Millis) (l : LinkPart) : LinkPart :=
  { l with
    dropoutCount := min 15 (l.dropoutCount + 1)
    windowTimer := if l.windowTimer = .stopped then .running (now + BitVec.ofNat 32 (w.dropoutWindow * 1000)) else l.windowTimer
    dropoutsRaised := l.dropoutsRaised || decide (w.dropoutCountLimit ≤ min 15 (l.dropoutCount + 1))
    dropouts := l.dropouts || decide (w.dropoutCountLimit ≤ min 15 (l.dropoutCount + 1)) }

/-- A link part to whose capture `rec` has been offered (R35). -/
def LinkPart.offered (rec : CaptureRecord) (l : LinkPart) : LinkPart :=
  if l.captureHeld then { l with captureMissed := min 15 (l.captureMissed + 1) }
  else { l with capture := some rec, captureHeld := true }

/-- The message to the evaluator has been taken for channel `c`: what is left is `rest`, preceded by the message gone on to
the next channel, if there is one (log 11). -/
def GoesOn {α : Type} (c : Chan) (atNext : Chan → α) (rest left : List α) : Prop :=
  (c.val = 63 → left = rest) ∧ ∀ d : Chan, d.val = c.val + 1 → left = atNext d :: rest

/-- A timer at the tick that brings the running count to `now` (R15): it expires if that is its expiry moment. -/
def TimerAtTick (now : Millis) (a b : Timer) : Prop :=
  (a = .running now → b = .due) ∧ (a ≠ .running now → b = a)

/-! ## Laws that every step keeps -/

/-- The part of the law of the alert list that holds between any two steps of the ranking rule: at most 32 entries (R77), no
pair twice (R77), severity never increasing (R78), no sequence twice and none 0 (R83), the counter from 1 to 65535 (R82),
the unlisted set without repeats (R81), and no pair both listed and unlisted (R80). -/
structure AlertUnit.Orderly (u : AlertUnit) : Prop where
  capacity : u.list.length ≤ Config.listCapacity
  pairs : (u.list.map fun e => (e.channel, e.family)).Nodup
  ranked : u.list.Pairwise fun e f => f.severity ≤ e.severity
  sequences : (u.list.map (·.seq)).Nodup
  nonzero : ∀ e ∈ u.list, e.seq ≠ 0
  counter : u.nextSeq ≠ 0
  keys : u.unlisted.Pairwise fun p q => p.key < q.key
  apart : ∀ p ∈ u.unlisted, ∀ e ∈ u.list, e.isPair (.mic p.channel) p.family = false

/-- The law of the alert list as every event leaves it: beside the above, the unlisted set is empty unless the list is full,
and no unlisted pair is more severe than an entry (R93). -/
structure AlertUnit.Lawful (u : AlertUnit) : Prop extends u.Orderly where
  full : u.unlisted ≠ [] → u.list.length = Config.listCapacity
  outranked : ∀ p ∈ u.unlisted, ∀ e ∈ u.list, p.severity ≤ e.severity

/-- The law of a channel record. A record not enrolled holds its power-reset values (R1). The timers run as the link states
ask (02_signal_supervision.md, Link States; R29), the conditions stand in step with what raises them (R37, R50, R65, R70),
the squelch cause with link and membership (R38), a CHAIR holds no floor cause (R59), and counts stay in their ranges. -/
structure ChannelRecord.Lawful (r : ChannelRecord) : Prop where
  idle : r.enrolled = false → r = .powerReset
  dropoutTimer : r.dropoutTimer = .stopped ↔ r.link ≠ .dropout
  freshTimer : r.freshTimer = .stopped ↔ (r.link = .absent ∨ r.link = .silent)
  absent : r.link = .absent → r.dropoutCount = 0 ∧ r.windowTimer = .stopped ∧ r.dropoutsRaised = false
  weak : r.active.weak = decide (r.link = .weak)
  lost : r.active.lost = decide (r.link = .lost)
  noReport : r.active.noReport = decide (r.link = .silent)
  dropouts : r.active.dropouts = r.dropoutsRaised
  squelch : r.squelchCause = (r.squelchEnabled && (decide (r.link = .lost) || decide (r.link = .silent)))
  fadeRun : r.fadeRun ≤ 15
  dropoutCount : r.dropoutCount ≤ 15
  capture : r.captureHeld = true → r.capture ≠ none
  missed : r.captureMissed ≤ 15 ∧ (r.captureHeld = false → r.captureMissed = 0)
  battery : r.active = r.active.withBattery r.battery
  report : (r.battery = .unknown ↔ r.batteryLevel = none) ∧ (r.batteryLevel = none ↔ r.chemistry = none) ∧
    ∀ l, r.batteryLevel = some l → l.toNat ≤ 100
  floor : r.role = .chair → r.floorCause = false
  speech : r.speechCount ≤ 255 ∧ r.active.mutedSpeech = r.mutedSpeechRaised ∧
    (r.mutedSpeechRaised = true → 0 < r.speechCount)
  openIdle : r.active.openIdle = r.openIdleRaised ∧ (r.openIdleRaised = true → r.idleTimer = .stopped)

/-- The law of the setup and command unit: the result is IN_PROGRESS exactly in LOADING and RELEASING (R168), PERMANENT is
held only with a working setup, and a working setup passed validation's range and overlap checks (R165, R166). -/
structure State.SetupLawful (s : State) : Prop where
  progress : s.setup.result = .inProgress ↔ (s.setup.part = .loading ∨ s.setup.part = .releasing)
  frozen : s.setup.freeze = .permanent → s.setup.working ≠ none
  valid : ∀ w, s.setup.working = some w → w.inRange = true ∧ w.overlaps s.path.straps = false
  windows : ∀ b, s.path.bases = some b → b.Apart s.path.straps
  reset : s.powerReset = true → s.setup.working = none ∧ s.path.bases = none ∧ s.path.held = none

/-- The law of the enforcement unit: each channel stands in the queue at most once (R137), the claim timer runs and the
stalled mark stands in CLAIMING alone (R146), a claim has a purpose (R142). -/
structure EnforcementUnit.Lawful (u : EnforcementUnit) : Prop where
  once : u.queue.Nodup
  timer : u.claimTimer ≠ .stopped → u.claim = .claiming
  stalled : u.stalled = true → u.claim = .claiming
  broken : u.broken = true → u.claim = .ceded
  purpose : u.purpose = none ↔ u.claim = .idle

/-- An access of the processor's. -/
def PortAccess.ofProcessor (p : PortAccess) : Bool := !p.own

/-- The law of the two ports: an access waits only while the port is busy, the two are not of one source (R121), a processor
access is at the port or waits for it exactly while one is in progress and not ended, and none is held meanwhile (R120,
R129). -/
structure PathUnit.Lawful (u : PathUnit) : Prop where
  waits : u.waiting ≠ none → u.port ≠ none
  sources : ∀ p q, u.port = some p → u.waiting = some q → p.own ≠ q.own
  served : (u.port.any PortAccess.ofProcessor || u.waiting.any PortAccess.ofProcessor) =
    u.processor.any fun p => !p.ended
  single : u.processor ≠ none → u.held = none

/-- What a channel record holds while no channel event is evaluated: every timer is stopped and no condition is active. -/
def ChannelRecord.Still (r : ChannelRecord) : Prop :=
  r.dropoutTimer = .stopped ∧ r.freshTimer = .stopped ∧ r.windowTimer = .stopped ∧ r.idleTimer = .stopped ∧
  r.active =
    { notice := false, low := false, critical := false, weak := false, dropouts := false, lost := false, noReport := false,
      openIdle := false, mutedSpeech := false }

/-- Nothing of a session is left: the alert list unit is as a clearing leaves it, every record is still, and no chair request,
membership change or removal is on its way. -/
structure State.Emptied (s : State) : Prop where
  alert : s.alert =
    { list := [], unlisted := [], nextSeq := 1, gen := 0, latest := none, ackResult := .noEntry, ackValue := 0 }
  records : ∀ c : Chan, s.channels[c].Still
  requests : ∀ m ∈ s.mail.toEvaluator, ∃ c, m = .tableReset c
  removals : ∀ m ∈ s.mail.toList, m = .clearing

/-- The law of the session: outside ACTIVE the alert list is empty (R106), no timer of a channel runs (R63), and no condition is
active nor brought by an event (R169). -/
def State.EmptyOutsideActive (s : State) : Prop := s.setup.part ≠ .active → s.Emptied

/-- The laws of the part together. -/
structure State.Lawful (s : State) : Prop where
  memory : s.memory.wf = true
  alert : s.alert.Lawful
  channels : ∀ c : Chan, s.channels[c].Lawful
  setup : s.SetupLawful
  enf : s.enf.Lawful
  path : s.path.Lawful

/-! ## The alert list -/

/-- The unit takes condition events of the enrolled channel `c` (R84), over a lawful list, and none of an enrolment that an APPLY has
ended is left to come (R105, log 36). -/
def State.Listening (c : Chan) (s : State) : Prop :=
  s.setup.part = .active ∧ s.workingEnrols c = true ∧ ¬s.DeEnrolling c ∧ s.alert.Lawful

/-- `e` has been placed in `old` at the end of its severity group, giving `new` (R78). -/
def PlacedIn (e : AlertEntry) (old new : List AlertEntry) : Prop :=
  ∃ front back, old = front ++ back ∧ new = front ++ e :: back ∧
    (∀ x ∈ front, e.severity ≤ x.severity) ∧ ∀ x ∈ back, x.severity < e.severity

/-- The counter's value after `n` (R82), `k` times. -/
def seqLater : Nat → Word → Word
  | 0, n => n
  | k + 1, n => seqLater k (seqAfter n)

/-- `q` is the fresh sequence that the unit gives (R82): the first value from the counter's next value on that no listed
entry holds. -/
def AlertUnit.GivesSeq (u : AlertUnit) (q : Word) : Prop :=
  q ≠ 0 ∧ (∀ e ∈ u.list, e.seq ≠ q) ∧
  ∃ k, k ≤ u.list.length ∧ q = seqLater k u.nextSeq ∧ ∀ j < k, ∃ e ∈ u.list, e.seq = seqLater j u.nextSeq

/-- The pair of `ch` and `f` has become NEW at kind `k`, from `u` to `v` (R82, R83, R85, R86, R87, R95, R103): its entry, in
place of an old one, at the end of its severity group with a fresh sequence and the stamp, and the latest raise recorded. -/
def BecameNew (stamp : Word) (ch : AlertChannel) (f : Family) (k : Kind) (others : List AlertEntry)
    (u v : AlertUnit) : Prop :=
  ∃ q, u.GivesSeq q ∧
    PlacedIn { channel := ch, family := f, kind := k, state := .new, seq := q, stamp := stamp } others v.list ∧
    v.nextSeq = seqAfter q ∧
    v.latest = some { channel := ch, family := f, kind := k, seq := q, stamp := stamp }

/-- So it has, and nothing more in one event (R84): the list has changed, and with it the live generation. -/
def MadeNew (stamp : Word) (ch : AlertChannel) (f : Family) (k : Kind) (others : List AlertEntry)
    (u v : AlertUnit) : Prop :=
  BecameNew stamp ch f k others u v ∧ v.gen = u.gen + 1 ∧ v.ackResult = u.ackResult ∧ v.ackValue = u.ackValue

/-- `p` is the most severe pair of the unlisted set (R93). -/
def MostSevereIn (p : UnlistedPair) (l : List UnlistedPair) : Prop :=
  p ∈ l ∧ ∀ q ∈ l, q = p ∨ q.severity < p.severity ∨ (q.severity = p.severity ∧ p.key < q.key)

/-- The entry `e` has been taken out of the list of `u`, giving `v`, and the most severe unlisted pair, if there is one,
promoted into its place (R91, R93, R95, R98). -/
def TakenOut (stamp : Word) (e : AlertEntry) (u v : AlertUnit) : Prop :=
  (u.unlisted = [] → v = { u with list := u.list.filter (fun x => decide (x ≠ e)), gen := u.gen + 1 }) ∧
  ∀ p, MostSevereIn p u.unlisted →
    MadeNew stamp (.mic p.channel) p.family p.kind (u.list.filter (fun x => decide (x ≠ e)))
      { u with list := u.list.filter (fun x => decide (x ≠ e)) } v ∧
    ∀ q, q ∈ v.unlisted ↔ q ∈ u.unlisted ∧ q ≠ p

/-- The entry `e` has taken the state `st` in its place, from `u` to `v` (R91, R97, R98). -/
def StateTaken (st : EntryState) (e : AlertEntry) (u v : AlertUnit) : Prop :=
  v = { u with
    list := u.list.map fun x => if x = e then { e with state := st } else x
    gen := u.gen + 1 }

/-- The listed entry `e` has been cleared, from `u` to `v` (R91); a CLEARED entry is in neither state R80 gives an active
pair, and its clearing is discarded (R92). -/
def EntryCleared (stamp : Word) (e : AlertEntry) (u v : AlertUnit) : Prop :=
  (e.state = .new ∨ e.state = .seen → StateTaken .cleared e u v) ∧
  (e.state = .acked → TakenOut stamp e u v) ∧
  (e.state = .cleared → v = u)

/-- The unlisted set of `v` is that of `u` with the evicted entry's pair, unless the entry was CLEARED (R94), and without
`gone`. -/
def EvictedInto (last : AlertEntry) (gone : Option (Chan × Family)) (u v : AlertUnit) : Prop :=
  ∀ q, q ∈ v.unlisted ↔
    (q ∈ u.unlisted ∧ gone ≠ some (q.channel, q.family)) ∨
      (last.state ≠ .cleared ∧ last.channel = .mic q.channel ∧ last.family = q.family ∧ last.kind = q.kind)

/-- The entry `e` of `u`, made one of kind `k` below an unlisted pair in severity, has been evicted at once, giving `v` (R86,
R88, R93, R94, R95): its pair has joined the unlisted set at kind `k`, and the most severe unlisted pair has been promoted into
its place. -/
def Displaced (stamp : Word) (c : Chan) (f : Family) (k : Kind) (e : AlertEntry) (u v : AlertUnit) : Prop :=
  ∀ p, MostSevereIn p u.unlisted →
    MadeNew stamp (.mic p.channel) p.family p.kind (u.list.filter (fun x => decide (x ≠ e)))
      { u with list := u.list.filter (fun x => decide (x ≠ e)) } v ∧
    ∀ q, q ∈ v.unlisted ↔ (q ∈ u.unlisted ∧ q ≠ p) ∨ q = { channel := c, family := f, kind := k }

/-- The pairs of `ps` have been promoted one after another from `u` to `v`, each into a free place and each the most severe that
stood in the unlisted set at its turn (R93 step (a), R95): NEW at the end of its severity group, with a fresh sequence and the
stamp, and recorded as the latest raise. -/
def Promoted (stamp : Word) : List UnlistedPair → AlertUnit → AlertUnit → Prop
  | [], u, v => v = u
  | p :: ps, u, v =>
    u.list.length < 32 ∧ MostSevereIn p u.unlisted ∧
    ∃ m, BecameNew stamp (.mic p.channel) p.family p.kind u.list u m ∧ (∀ q, q ∈ m.unlisted ↔ q ∈ u.unlisted ∧ q ≠ p) ∧
      m.gen = u.gen ∧ m.ackResult = u.ackResult ∧ m.ackValue = u.ackValue ∧ Promoted stamp ps m v

/-- The ranking rule has filled the places free in `u`, giving `v` but for the live generation (R93 step (a)): pairs have been
promoted, the most severe first, until no place is free or the unlisted set is empty. -/
def Filled (stamp : Word) (u v : AlertUnit) : Prop :=
  ∃ ps w, Promoted stamp ps u w ∧ (w.unlisted = [] ∨ w.list.length = 32) ∧ v = { w with gen := v.gen }

/-! ## Lamps (R176) -/

/-- The family of a lamp. -/
def lampFamily : Lamp → Family
  | .battery => .battery
  | .signal => .signal
  | .mute => .mute

/-- An entry of the family that is NEW at severity 3, or a PART entry that is NEW or SEEN: the lamp is FAST (R176). -/
def AsksFast (f : Family) (l : List AlertEntry) : Prop :=
  (∃ e ∈ l, e.family = f ∧ e.state = .new ∧ e.severity = 3) ∨
    ∃ e ∈ l, e.family = .part ∧ (e.state = .new ∨ e.state = .seen)

/-- An entry of the family that is NEW or SEEN: the lamp is SLOW unless it is FAST (R176). -/
def AsksSlow (f : Family) (l : List AlertEntry) : Prop := ∃ e ∈ l, e.family = f ∧ (e.state = .new ∨ e.state = .seen)

/-- An entry of the family or of PART in any state: the lamp is STEADY unless it is FAST or SLOW (R176). -/
def AsksLight (f : Family) (l : List AlertEntry) : Prop := ∃ e ∈ l, e.family = f ∨ e.family = .part

/-- The mode of a lamp as the live list asks: the first row that applies (R176). -/
def ModeAsked (f : Family) (l : List AlertEntry) (m : LampMode) : Prop :=
  (AsksFast f l → m = .fast) ∧ (¬AsksFast f l → AsksSlow f l → m = .slow) ∧
  (¬AsksFast f l → ¬AsksSlow f l → AsksLight f l → m = .steady) ∧
  (¬AsksFast f l → ¬AsksSlow f l → ¬AsksLight f l → m = .off)

/-- Every lamp has the mode that the live list asks (R176); a lamp in OFF is dark, one in STEADY lit (R177), and one without
patterns dark (R176). -/
def State.LampsFollow (s : State) : Prop :=
  ∀ l, ModeAsked (lampFamily l) s.alert.list (s.lamps.get l).mode ∧
    ((s.lamps.get l).mode = .off → (s.lamps.get l).lit = false) ∧
    ((s.lamps.get l).mode = .steady → (s.lamps.get l).inUse ≠ none → (s.lamps.get l).lit = true) ∧
    ((s.lamps.get l).inUse = none → (s.lamps.get l).lit = false)

/-- A lamp that takes patterns into use at once (R176, R178): none is pending, and one that was dark only for want of patterns is
lit. -/
def LampState.usingNow (p : Patterns) (l : LampState) : LampState :=
  { l with inUse := some p, pending := none, lit := l.lit || (decide (l.inUse = none) && decide (l.mode ≠ .off)) }

/-- The pattern a lamp runs on (R177, R178). -/
def LampState.RunsOn (p : Pattern) (l : LampState) : Prop :=
  ∃ q, l.inUse = some q ∧ ((l.mode = .slow ∧ p = q.slow) ∨ (l.mode = .fast ∧ p = q.fast))

end Sys2Proof.Machine
end

