-- ==== Sys2Proof/WellFormed.lean ====
section
/-! DEFINITION. Which commands name what their row says: an unknown code is none of the six command codes, and a
discarded write is not a write to word 3 of a view entry. Every other operand is within its range by its type. -/

namespace Sys2Proof

/-- The six command codes of R168's table. -/
def knownCodes : List (BitVec 8) := [0x01#8, 0x02#8, 0x03#8, 0x10#8, 0x11#8, 0x20#8]

/-- Word 3 of one of the 32 view entries: the one kind of offset whose write is an acknowledgement (R116, R118). -/
def isAcknowledgementOffset (offset : Nat) : Bool :=
  decide (16 ≤ offset) && decide (offset < 144) && decide ((offset - 16) % 4 = 3)

/-- A command whose operands fit its row. -/
def Instr.wellFormed : Instr → Bool
  | .unknownCode code _ => !knownCodes.contains code
  | .discardedWrite offset _ => !isAcknowledgementOffset offset.val
  | .powerResetAssert _ | .powerResetRelease _ _ | .settleTimerExpiry | .busrstAssert | .busrstRelease
  | .forward _ | .heldAccess _ | .memoryAccessEnd | .setupCopyWrite _ _
  | .start _ | .apply _ | .halt _ _ | .mute _ | .unmute _ | .ackAll _
  | .stagingFill _ _ _ | .commit _ _ | .frameEvaluation _
  | .dropoutTimerExpiry _ | .freshnessTimerExpiry _ | .dropoutWindowExpiry _ | .openIdleExpiry _
  | .chairRequest | .takenFloorChange | .silenceChange | .captureRelease _ | .membershipChange | .channelTableReset
  | .causeChangeNotice | .enrolmentChange | .setupChange | .writeFilter _ _
  | .cedeAssert | .cedeFall | .claimTimerExpiry | .burstWriteEnd | .loadRequest | .loadReadEnd _ | .enforcementHalt
  | .restoreDoneReport | .stallReport | .stallEndReport | .claimStalledActive | .claimStalledInactive
  | .conditionRaise | .conditionKindChange | .conditionClear | .removal | .alertListClearing
  | .snapshot | .readMark _ | .acknowledgementWrite _ _
  | .periodBoundary _ | .patternsPending | .floorLineChange _ | .debounceExpiry | .secondsStep | .onTimeEnd _ => true

end Sys2Proof
end

