-- ==== Sys2Proof/Certificates/Slice0/Obligations.lean ====
section
/-! DEFINITION. The statements for the provers, in the order of OBLIGATIONS.json. Each is about `exec` or `step` over every
state, with the rules of spec/ it formalises in its docstring; the words they are stated in stand in Safety.lean. -/

section
open Sys2Proof Sys2Proof.Machine

/-! ## The step and the queue -/

/-- The step of a state with a command at the front of its queue is that command on the state with the queue's rest. -/
def Obligations.StepRunsFrontCommand : Prop :=
  ∀ (i : Instr) (rest : List Instr) (s : State),
    s.pending = i :: rest → step s = exec i { s with pending := rest }

/-- On an empty queue the part takes its own next step; with none waiting, one REFCLK period passes, which changes nothing while
power reset is asserted and raises the divider until the 4096th (R184; the use of the empty queue is the model's choice,
log 5). The 4096th is the millisecond tick (R15, R67, R184): the running count rises, and the seconds phase once there is a
working setup; every timer whose expiry moment is reached expires, and every other timer stands; a lamp in SLOW or FAST
gains a millisecond of phase (R177); nothing else changes. -/
def Obligations.EmptyQueueLetsTimePass : Prop :=
  (∀ s : State, s.pending = [] →
     (∀ i, ownStep s = some i → step s = exec i s) ∧
     (ownStep s = none → s.powerReset = true → step s = .next s) ∧
     (ownStep s = none → s.powerReset = false → s.time.divider + 1 < 4096 →
       step s = .next { s with time := { s.time with divider := s.time.divider + 1 } })) ∧
  (∀ s : State, s.pending = [] → ownStep s = none → s.powerReset = false → 4096 ≤ s.time.divider + 1 →
     ∃ t, step s = .next t ∧
       t.time =
         { divider := 0, ticks := s.time.ticks + 1, seconds := s.time.seconds,
           phase := if s.setup.working = none then s.time.phase else s.time.phase + 1 } ∧
       t = { s with
         time := t.time
         channels := t.channels
         setup := { s.setup with settle := t.setup.settle }
         enf := { s.enf with claimTimer := t.enf.claimTimer }
         lamps := { s.lamps with
           battery := { s.lamps.battery with phase := t.lamps.battery.phase }
           signal := { s.lamps.signal with phase := t.lamps.signal.phase }
           mute := { s.lamps.mute with phase := t.lamps.mute.phase }
           debounce := t.lamps.debounce } } ∧
       (∀ c : Chan,
         t.channels[c] = { s.channels[c] with
           dropoutTimer := t.channels[c].dropoutTimer, freshTimer := t.channels[c].freshTimer
           windowTimer := t.channels[c].windowTimer, idleTimer := t.channels[c].idleTimer } ∧
         TimerAtTick t.time.ticks s.channels[c].dropoutTimer t.channels[c].dropoutTimer ∧
         TimerAtTick t.time.ticks s.channels[c].freshTimer t.channels[c].freshTimer ∧
         TimerAtTick t.time.ticks s.channels[c].windowTimer t.channels[c].windowTimer ∧
         TimerAtTick t.time.ticks s.channels[c].idleTimer t.channels[c].idleTimer) ∧
       TimerAtTick t.time.ticks s.setup.settle t.setup.settle ∧
       TimerAtTick t.time.ticks s.enf.claimTimer t.enf.claimTimer ∧
       TimerAtTick t.time.ticks s.lamps.debounce t.lamps.debounce ∧
       ∀ l, (t.lamps.get l).phase =
         if ((s.lamps.get l).mode = .slow ∨ (s.lamps.get l).mode = .fast) ∧ (s.lamps.get l).inUse ≠ none
           then (s.lamps.get l).phase + 1 else (s.lamps.get l).phase)

/-- No command stops the part, and none but the step itself changes the queue: every command on every state answers a next
state. Memory changes only at the end of a memory access and at the assertion of power reset, an input line only by its own
command (00_scope.md; logs 1 and 28). -/
def Obligations.EveryCommandAnswersNext : Prop :=
  (∀ (i : Instr) (s : State), ∃ t, exec i s = .next t ∧ t.pending = s.pending) ∧
  (∀ (i : Instr) (s t : State), exec i s = .next t →
     (i ≠ .memoryAccessEnd → i ≠ .burstWriteEnd → (∀ source, i ≠ .powerResetAssert source) → t.memory = s.memory) ∧
     ((∀ source, i ≠ .powerResetAssert source) → (∀ source straps, i ≠ .powerResetRelease source straps) →
       t.lines.powerPin = s.lines.powerPin ∧ t.lines.supplyLow = s.lines.supplyLow) ∧
     (i ≠ .busrstAssert → i ≠ .busrstRelease → t.lines.busrst = s.lines.busrst) ∧
     (i ≠ .cedeAssert → i ≠ .cedeFall → t.lines.cede = s.lines.cede) ∧
     ((∀ b, i ≠ .floorLineChange b) → t.lines.floor = s.lines.floor))

/-! ## Resets and the settle interval -/

/-- The state at reset: every block at its power-reset values (R10, R13, R106, R108, R132, R159, R184 and the opening tables),
power reset asserted, nothing in the queue. The levels of the lines, the strap latches and the memory are the model's
choices (logs 1, 2, 3, 26). -/
def Obligations.ResetStateValues : Prop :=
  State.reset.AtPowerReset ∧ State.reset.powerReset = true ∧ State.reset.pending = [] ∧
    State.reset.path.presented = none ∧ State.reset.path.completion = none ∧
    ∀ x, State.reset.memory.read x = 0x0000#16

/-- The assertion of power reset (R162, R132, R183): every block at its power-reset values, the access in progress withdrawn, the
outputs of the memory port held; a word that a withdrawn write was storing holds its old word or the written one, and every
other word stands. An assertion while the other source asserts power reset changes the line alone. That what the blocks
have sent each other is dropped (log 16), that an access presented and not taken stays presented (log 8) and that the strap
latches stay (log 3) is the model's choice; which of its two words memory holds is a free value (log 17). -/
def Obligations.PowerResetAssertion : Prop :=
  ∀ (source : PowerSource) (s : State),
    (s.powerReset = true → exec (.powerResetAssert source) s = .next { s with lines := s.lines.setSource source true }) ∧
    (s.powerReset = false → s.memory.wf = true →
      ∃ t, exec (.powerResetAssert source) s = .next t ∧ t.AtPowerReset ∧
        t.lines = s.lines.setSource source true ∧ t.powerReset = true ∧
        t.path.straps = s.path.straps ∧ t.path.presented = s.path.presented ∧ t.path.lines = s.path.lines ∧
        SameMemoryBut (fun x => ∃ w, s.Storing x w) s t ∧
        ∀ x w, s.Storing x w → t.memory.read x = s.memory.read x ∨ t.memory.read x = w)

/-- The release of power reset (R162, R163, R122, R180): it is released when both sources have released it; the straps are
latched, the settle timer starts 4 ms ahead, and the debounce timer starts if the floor line differs from the debounced level.
That an access presented while power reset was asserted arrives now (log 8), and that M_REQ then follows the memory port
again (log 26), is the model's choice. -/
def Obligations.PowerResetRelease : Prop :=
  ∀ (source : PowerSource) (straps : Straps) (s : State),
    (s.lines.source source = false → exec (.powerResetRelease source straps) s = .next s) ∧
    (s.lines.source source = true → (s.lines.setSource source false).powerPin = true ∨
        (s.lines.setSource source false).supplyLow = true →
      exec (.powerResetRelease source straps) s = .next { s with lines := s.lines.setSource source false }) ∧
    (s.lines.source source = true → (s.lines.setSource source false).powerPin = false →
        (s.lines.setSource source false).supplyLow = false →
      ∃ t, exec (.powerResetRelease source straps) s = .next t ∧
        Arrived { s with
          lines := s.lines.setSource source false
          path := { s.path with straps := straps, lines := { s.path.lines with req := s.path.port.isSome } }
          setup := { s.setup with settle := .running (s.time.ticks + 4) }
          lamps := { s.lamps with
            debounce := if s.lines.floor = s.lamps.debounced then .stopped else .running (s.time.ticks + 10) } } t)

/-- While power reset is asserted the processor port takes no access (R132, R162); that what is presented then stays presented, the
newest in place of an older, is the model's choice (log 8). In SETTLING every access is forwarded (R163): a setup word is not
copied, a command word not taken. The expiry of the settle timer ends SETTLING in PASSIVE and changes nothing else (R163). -/
def Obligations.ResetAndSettling : Prop :=
  (∀ (a : Access) (s : State), s.powerReset = true →
    exec (.forward a) s = .next { s with path := { s.path with presented := some a } }) ∧
  (∀ (a : Access) (s : State), s.Taking → s.setup.part = .settling →
    ∃ t, exec (.forward a) s = .next t ∧ t = { s with path := t.path } ∧ Served a a false s t) ∧
  (∀ s : State, s.setup.settle = .due → s.setup.part = .settling →
    exec .settleTimerExpiry s = .next { s with setup := { s.setup with settle := .stopped, part := .passive } })

/-- The assertion of BUSRST_N (R13, R108, R131, R158, R175): staging records, view and held access are emptied; the claim
is dropped, its timer stopped, a stall ended with a report by the part state; LOADING is abandoned to PASSIVE; the
command status becomes IDLE with its flags clear, except in RELEASING, which keeps it. Everything else stands, the
queue and the intended gain words, the records and the alert list, an access at the memory port. A HALT write in
progress comes to its result first (R175), and an access still waiting for its answer is answered before the view is emptied
(R119, R131). That the enforcement unit takes HALT, with the setup changes before it (log 13) and the notices on their way (log 34),
in this step, that a load request
not yet taken is abandoned with LOADING (log 16), that an own access left in progress is marked so (log 15) and one still waiting
behind a processor access kept (log 14), and that an access can wait for its answer (log 33), is the model's choice. The release
of BUSRST_N (R131, R156, R158): the unit claims again if work waits, a restore found done with no own access in progress is
reported, and an access still presented arrives. That none is reported while HALT or a report is on its way (log 13), and that
arrival (log 8), is the model's choice. -/
def Obligations.BusReset : Prop :=
  (∀ s : State,
     (s.lines.busrst = true → exec .busrstAssert s = .next s) ∧
     (s.lines.busrst = false →
       ∃ w u, (s.path.answering = none → w = s) ∧
         (∀ o, s.path.answering = some o → s.powerReset = false → w.path.presented = s.path.presented ∧
           exec (.forward o.access) { s with path := { s.path with presented := none } } =
             .next { w with path := { w.path with presented := none } }) ∧
         (ToEnforcement.halt ∉ w.mail.toEnforcement → u = w) ∧
         (ToEnforcement.halt ∈ w.mail.toEnforcement →
           ∃ n v, NoticesTaken w.mail.notices w n ∧ HaltReached w.mail.toEnforcement n v ∧ Completed v u) ∧
         exec .busrstAssert s = .next { u with
           lines := { s.lines with busrst := true }
           staging := Vector.replicate 64 { link := none, battery := none, switch := none }
           view := { gen := 0, count := 0, entries := Vector.replicate 32 none }
           path := { u.path with held := none }
           enf := { u.enf with
             claim := .idle, purpose := none, stalled := false, claimTimer := .stopped, broken := false
             orphan := u.path.ownInProgress
             loadPosition := if u.setup.part = .loading then none else u.enf.loadPosition }
           setup :=
             if u.setup.part = .releasing then u.setup
             else { u.setup with
               part := if u.setup.part = .loading then .passive else u.setup.part
               result := .idle, lastCode := 0, stalledFlag := false, busyFlag := false }
           mail := { u.mail with
             stalls := u.mail.stalls ++ (if u.enf.stalled = true ∧ u.setup.part = .active then [false] else [])
             toSetup := u.mail.toSetup ++ (if u.enf.stalled = true ∧ u.setup.part ≠ .active then [.stallEnd] else [])
             toEnforcement :=
               if u.setup.part = .loading then u.mail.toEnforcement.filter (fun m => decide (m ≠ .loadRequest))
               else u.mail.toEnforcement } })) ∧
  (∀ s : State,
     (s.lines.busrst = false → exec .busrstRelease s = .next s) ∧
     (s.lines.busrst = true →
       ∃ u v t, exec .busrstRelease s = .next t ∧
         Claims { s with lines := { s.lines with busrst := false } } u ∧
         (s.path.ownInProgress = false → ReportsRestore u v) ∧ (s.path.ownInProgress = true → v = u) ∧ Arrived v t))

/-! ## The memory path -/

/-- Every command that presents an access presents it as FORWARD does, so that what FORWARD does at each address holds for it; a
window command with no window decoded presents nothing (log 9). No other command presents one: where nothing stays presented,
nothing does after it, and where nothing is held either, no access comes to be in progress at the processor port. An access
presented while the bus is ceded, CEDE_N and CLAIM_N both asserted, is held unclassified with READY withheld (R129); one the
port cannot take stays presented (R120, R131; log 8). A forwarded access passes unchanged to the memory port (R121, R125).
That both FORWARD and HELD_ACCESS carry any access (log 7), that a newer presented access replaces an older (log 8), what a
window command does with no window decoded (log 9) and that an access which HALT has overtaken waits for the row that presents
it again (log 33) is the model's choice. -/
def Obligations.AccessesArePresented : Prop :=
  (∀ (i : Instr) (s : State), presentsAccess i = true →
     (∀ a, accessOf s i = some a → (∀ low b, i ≠ .halt low (some b)) → exec i s = exec (.forward a) s) ∧
     (accessOf s i = none → exec i s = .next s)) ∧
  (∀ (i : Instr) (s t : State), presentsAccess i = false → exec i s = .next t → s.path.presented = none →
     t.path.presented = none ∧
     (s.path.held = none → ∀ p, t.path.processor = some p → ∃ q, s.path.processor = some q ∧ p.access = q.access)) ∧
  (∀ (a : Access) (s : State), ∀ i ∈ [Instr.forward a, Instr.heldAccess a],
     (s.portTakes = true → s.lines.cede = true → (s.enf.claim = .claiming ∨ s.enf.claim = .ceded) →
       exec i s = .next { s with path := { s.path with held := some a, completion := none } }) ∧
     (s.powerReset = true ∨ s.lines.busrst = true ∨
         (s.path.processor ≠ none ∨ s.path.held ≠ none ∨ s.path.answering ≠ none) ∧
           (∀ o, s.path.answering = some o → o.access ≠ a) →
       exec i s = .next { s with path := { s.path with presented := some a } })) ∧
  (∀ (a : Access) (s : State), s.Taking → s.classify a = .forward → ∀ i ∈ [Instr.forward a, Instr.heldAccess a],
     ∃ t, exec i s = .next t ∧ t = { s with path := t.path } ∧ Served a a false s t)

/-- The classification of an access by part state, window and direction (R124): forward, snoop, filter or answer. -/
def Obligations.ClassificationOfAccesses : Prop :=
  ∀ (a : Access) (s : State),
    (s.setup.part = .settling → s.classify a = .forward) ∧
    (s.setup.part ≠ .settling →
      (∀ n : Fin 36, ∀ data, a = .write (pastBase (setupBase s.path.straps) n.val) data →
        s.classify a = .snoopSetup n data) ∧
      (∀ data, a = .write (pastBase (setupBase s.path.straps) 36) data → s.classify a = .command data) ∧
      (∀ n : Fin 36, a = .read (pastBase (setupBase s.path.straps) n.val) → s.classify a = .forward) ∧
      (a = .read (pastBase (setupBase s.path.straps) 36) → s.classify a = .answerStatus)) ∧
    (s.setup.part = .passive ∨ s.setup.part = .loading →
      (∀ n < 37, a.addr ≠ pastBase (setupBase s.path.straps) n) → s.classify a = .forward) ∧
    (∀ b, s.path.bases = some b → b.Apart s.path.straps → s.setup.part = .active ∨ s.setup.part = .releasing →
      (∀ c : Chan, ∀ data, a = .write (pastBase b.gain c.val) data → s.classify a = .filter c data) ∧
      (∀ c : Chan, a = .read (pastBase b.gain c.val) → s.classify a = .forward) ∧
      (s.setup.part = .releasing → (∀ n < 37, a.addr ≠ pastBase (setupBase s.path.straps) n) →
        (∀ n < 64, a.addr ≠ pastBase b.gain n) → s.classify a = .forward)) ∧
    (∀ b, s.InSession b →
      (∀ c : Chan, ∀ word data, a = .write (pastBase b.telemetry (4 * c.val + FrameWord.offset word)) data →
        s.classify a = .snoopFrameWord c word data) ∧
      (∀ c : Chan, ∀ data, a = .write (pastBase b.telemetry (4 * c.val + 3)) data → s.classify a = .snoopCommit c data) ∧
      (∀ n < 256, a = .read (pastBase b.telemetry n) → s.classify a = .forward) ∧
      (∀ n < 512, a = .read (pastBase b.alert n) → s.classify a = .answerRead n) ∧
      (∀ n < 512, ∀ data, a = .write (pastBase b.alert n) data → s.classify a = .answerWrite n data) ∧
      ((∀ n < 37, a.addr ≠ pastBase (setupBase s.path.straps) n) → (∀ n < 64, a.addr ≠ pastBase b.gain n) →
        (∀ n < 256, a.addr ≠ pastBase b.telemetry n) → (∀ n < 512, a.addr ≠ pastBase b.alert n) →
        s.classify a = .forward))

/-- The end of a processor access at the memory port (R120, R121): a write has stored its word and nothing else in memory, a
read returns the word memory holds; READY is returned and the access that waits begins, or the port falls free; then an access
that stayed presented arrives (log 8, the model's choice). An accepted HALT's write ends at memory but completes only once the
enforcement unit has taken HALT (R171; log 13, the model's choice). -/
def Obligations.MemoryAccessEnd : Prop :=
  ∀ (s : State) (a : Access) (p : InProgress),
    s.memory.wf = true → s.path.port = some (.processor a) → s.path.processor = some p →
    ∃ u t data, exec .memoryAccessEnd s = .next t ∧ Arrived u t ∧
      (∀ x, a = .read x → u.memory = s.memory ∧ data = some (s.memory.read x.toNat)) ∧
      (∀ x w, a = .write x w → data = none ∧ u.memory.read x.toNat = w ∧ SameMemoryBut (· = x.toNat) s u) ∧
      (p.awaitsHalt = false ∨ s.haltPending = false →
        u = { s with
          memory := u.memory
          path := { s.path with
            port := s.path.waiting, waiting := none, lines := s.path.outputsAfter
            processor := none, completion := some { access := p.access, data := data } } }) ∧
      (p.awaitsHalt = true → s.haltPending = true →
        u = { s with
          memory := u.memory
          path := { s.path with
            port := s.path.waiting, waiting := none, lines := s.path.outputsAfter
            processor := some { p with ended := true, data := data } } })

/-! ## The setup copy and the commands -/

/-- A write to setup words 0 to 35 (R164): stored in memory, and outside SETTLING copied with its mark set; nothing else. -/
def Obligations.SetupCopyWrite : Prop :=
  ∀ (n : Fin 36) (data : Word) (s : State), s.Taking →
    ∃ t, exec (.setupCopyWrite n data) s = .next t ∧
      WriteServed (.write (pastBase (setupBase s.path.straps) n.val) data) false
        (if s.setup.part = .settling then s
         else { s with setup := { s.setup with copy := s.setup.copy.set n data, marks := s.setup.marks.set n true } }) t

/-- Command words that are not carried out (R168, R163): in SETTLING not taken at all; while a command is IN_PROGRESS only
the refused-while-busy flag is set; an unknown code is REFUSED_CODE, a known one in the wrong part state REFUSED_STATE, each
with its code as last code. In every case the write goes to memory. -/
def Obligations.CommandsNotCarriedOut : Prop :=
  ∀ (i : Instr) (w : Word) (s : State), commandWordOf i = some w → i.wellFormed = true → s.Taking →
    (s.setup.part = .settling →
      ∃ t, exec i s = .next t ∧ WriteServed (s.commandWrite w) false s t) ∧
    (s.setup.part ≠ .settling → s.setup.result = .inProgress →
      ∃ t, exec i s = .next t ∧
        WriteServed (s.commandWrite w) false { s with setup := { s.setup with busyFlag := true } } t) ∧
    (s.setup.part ≠ .settling → s.setup.result ≠ .inProgress → (∃ code low, i = .unknownCode code low) →
      ∃ t, exec i s = .next t ∧
        WriteServed (s.commandWrite w) false
          { s with setup := { s.setup with result := .refusedCode, lastCode := w.extractLsb' 8 8 } } t) ∧
    (s.setup.part ≠ .settling → s.setup.result ≠ .inProgress →
      ((∃ low, i = .start low) ∧ s.setup.part ≠ .passive) ∨
        ((∀ low, i ≠ .start low) ∧ (∀ code low, i ≠ .unknownCode code low) ∧ s.setup.part ≠ .active) →
      ∃ t, exec i s = .next t ∧
        WriteServed (s.commandWrite w) false
          { s with setup := { s.setup with result := .refusedState, lastCode := w.extractLsb' 8 8 } } t)

/-- START in PASSIVE (R167, R169): without PERMANENT the setup copy is validated, and an invalid one is REJECTED with its
reason; a valid one, or at PERMANENT the working setup as it stands, begins a session: working setup, freeze level, window
bases, LOADING with result IN_PROGRESS, staging records and view emptied, seconds count and phase 0, lamp patterns and
enables; the reset of the table, the clearing of the alert list and the load request are sent. That frames, condition events,
CLAIM_STALLED events and notices of an ended session (log 30), and patterns of an earlier APPLY (log 16), still on their way
go no further is the model's choice. -/
def Obligations.StartCommand : Prop :=
  ∀ (low : BitVec 8) (s : State), s.Taking → s.setup.part = .passive → s.setup.result ≠ .inProgress →
    (∀ reason, s.setup.freeze ≠ .permanent →
        validate s.path.straps s.setup.marks s.setup.copy none = some reason →
      ∃ t, exec (.start low) s = .next t ∧
        WriteServed (s.commandWrite (0x01#8 ++ low)) false
          { s with setup := { s.setup with result := .rejected reason, lastCode := 0x01#8 } } t) ∧
    (∀ w, (s.setup.freeze ≠ .permanent ∧ validate s.path.straps s.setup.marks s.setup.copy none = none ∧
          w = s.setup.copy) ∨ (s.setup.freeze = .permanent ∧ s.setup.working = some w) →
      ∃ t, exec (.start low) s = .next t ∧
        WriteServed (s.commandWrite (0x01#8 ++ low)) false
          { s with
            setup := { s.setup with
              working := some w, part := .loading, result := .inProgress, lastCode := 0x01#8
              freeze := if s.setup.freeze = .permanent then .permanent else w.freezeLevel }
            path := { s.path with
              bases := some
                { telemetry := BitVec.ofNat 20 (w[1].toNat * 256), gain := BitVec.ofNat 20 (w[2].toNat * 64),
                  alert := BitVec.ofNat 20 (w[3].toNat * 512) } }
            staging := Vector.replicate 64 { link := none, battery := none, switch := none }
            view := { gen := 0, count := 0, entries := Vector.replicate 32 none }
            time := { s.time with seconds := 0, phase := 0 }
            lamps := { s.lamps with
              battery := s.lamps.battery.usingNow w.patterns
              signal := s.lamps.signal.usingNow w.patterns
              mute := s.lamps.mute.usingNow w.patterns
              enables := w.enables }
            mail := { s.mail with
              frames := [], conditions := [], stalls := [], notices := []
              toEvaluator := s.mail.toEvaluator ++ [.tableReset 0]
              toList := s.mail.toList ++ [.clearing]
              toEnforcement := s.mail.toEnforcement ++ [.loadRequest]
              toLamps := [] } } t)

/-- APPLY in ACTIVE (R168, R170): under a freeze REFUSED_FROZEN, an invalid copy REJECTED, a valid one in force at once with
its freeze level and result DONE; the staging records of de-enrolled channels are cleared (R11); the membership change, a
removal if a channel is de-enrolled (R105), the setup change and the new patterns are sent. A removal of an earlier APPLY that names
a channel newly enrolled is taken first, with the requests before it on its path, so that the channel starts with no entries and no
unlisted pairs (R105); a frame of such a channel, committed before it was de-enrolled, is discarded (R7). That both fall in APPLY's
own step is the model's choice (log 36). -/
def Obligations.ApplyCommand : Prop :=
  ∀ (low : BitVec 8) (old : SetupWords) (s : State), s.Taking → s.setup.part = .active → s.setup.result ≠ .inProgress →
    s.setup.working = some old →
    (s.setup.freeze ≠ .none →
      ∃ t, exec (.apply low) s = .next t ∧
        WriteServed (s.commandWrite (0x02#8 ++ low)) false
          { s with setup := { s.setup with result := .refusedFrozen, lastCode := 0x02#8 } } t) ∧
    (∀ reason, s.setup.freeze = .none → validate s.path.straps s.setup.marks s.setup.copy (some old) = some reason →
      ∃ t, exec (.apply low) s = .next t ∧
        WriteServed (s.commandWrite (0x02#8 ++ low)) false
          { s with setup := { s.setup with result := .rejected reason, lastCode := 0x02#8 } } t) ∧
    (s.setup.freeze = .none → validate s.path.straps s.setup.marks s.setup.copy (some old) = none →
      ∃ u t gone fresh, exec (.apply low) s = .next t ∧
        gone = (List.finRange 64).filter (fun c => old.enrols c && !s.setup.copy.enrols c) ∧
        fresh = (List.finRange 64).filter (fun c => !old.enrols c && s.setup.copy.enrols c) ∧
        RemovalsTaken fresh s.mail.toList s u ∧
        (∀ c : Chan, t.staging[c] =
          if c ∈ gone then { link := none, battery := none, switch := none } else s.staging[c]) ∧
        WriteServed (s.commandWrite (0x02#8 ++ low)) false
          { u with
            staging := t.staging
            setup := { s.setup with
              working := some s.setup.copy, freeze := s.setup.copy.freezeLevel, result := .done, lastCode := 0x02#8 }
            mail := { s.mail with
              frames := s.mail.frames.filter fun p => decide (p.1 ∉ fresh)
              toEvaluator := s.mail.toEvaluator ++ [.membership s.setup.copy 0]
              toList := u.mail.toList ++ (if gone = [] then [] else [.removal gone])
              toEnforcement := s.mail.toEnforcement ++ [.setupChange old s.setup.copy]
              toLamps := s.mail.toLamps ++ [s.setup.copy] } } t)

/-- HALT in ACTIVE (R10, R106, R108, R167, R171, R176): the table is reset and the alert list cleared, with every lamp OFF; the part
enters RELEASING with result IN_PROGRESS, the freeze level SESSION returns to NONE, staging records and view are emptied; HALT
itself is sent to the enforcement unit. The evaluator takes the chair requests and membership changes before the reset on its path first, and sends
their notices (R11, R56; log 34). That reset and clearing fall within HALT's own step, with the removals before the clearing
(log 32), and that READY for its write waits for HALT to be taken (log 13), is the model's choice. An access to the alert window that
arrived in ACTIVE before HALT is answered after it (R107, R119): with `answering` HALT leaves it waiting for its answer, with the view
and the alert list unit as its answer has read them by then; where HALT is not taken or the alert window does not answer the access,
`answering` says nothing. The answer reads what it has not read before from what HALT has left: of that it returns zero but for the
part state, the seconds count and the words of a record at its power-reset values. A read mark or an acknowledgement is discarded,
and no snapshot or capture release changes anything. That the row that presents the access again completes its answer is the model's
choice (log 33), and so is the arrival of one that stayed presented (log 8). -/
def Obligations.HaltCommand : Prop :=
  (∀ (low : BitVec 8) (s : State), s.Taking → s.setup.part = .active → s.setup.result ≠ .inProgress →
    ∃ u t, CaughtUp s u ∧ exec (.halt low none) s = .next t ∧
      WriteServed (s.commandWrite (0x03#8 ++ low)) true
        { s with
          channels := Vector.replicate 64 .powerReset
          alert :=
            { list := [], unlisted := [], nextSeq := 1, gen := 0, latest := none, ackResult := .noEntry, ackValue := 0 }
          lamps := { s.lamps with battery := t.lamps.battery, signal := t.lamps.signal, mute := t.lamps.mute }
          setup := { s.setup with
            part := .releasing, result := .inProgress, lastCode := 0x03#8
            freeze := if s.setup.freeze = .session then .none else s.setup.freeze }
          staging := Vector.replicate 64 { link := none, battery := none, switch := none }
          view := { gen := 0, count := 0, entries := Vector.replicate 32 none }
          mail := { u.mail with
            toEvaluator := []
            toList := []
            toEnforcement := s.mail.toEnforcement ++ [.halt] } } t ∧
      (∀ l, LampTaken (s.lamps.get l) (t.lamps.get l) ∧ (t.lamps.get l).mode = .off) ∧
      ∀ o : Overtaken,
        ((∃ n, s.classify o.access = .answerRead n) ∨ (∃ n w, s.classify o.access = .answerWrite n w) →
          exec (.halt low (some o)) s = .next { t with path := { t.path with answering := some {
            access := o.access
            view := if o.viewRead then some s.view else none
            list := if o.listRead then some s.alert else none } } }) ∧
        ((∀ n, s.classify o.access ≠ .answerRead n) → (∀ n w, s.classify o.access ≠ .answerWrite n w) →
          exec (.halt low (some o)) s = .next t)) ∧
  (∀ (low : BitVec 8) (o : Overtaken) (s : State),
    s.portTakes = false ∨ s.busCeded = true ∨ s.setup.part ≠ .active ∨ s.setup.result = .inProgress →
    exec (.halt low (some o)) s = exec (.halt low none) s) ∧
  ∀ (b : Bases) (n : Nat) (o : Answering) (s : State),
    s.path.bases = some b → b.Apart s.path.straps → n < 512 → o.access.addr = pastBase b.alert n →
    s.path.answering = some o → s.powerReset = false → s.lines.busrst = false → s.setup.part ≠ .active → s.AfterHalt →
    ∃ t data, exec (.forward o.access) s = .next t ∧
      (∀ x w, o.access = .write x w → data = none) ∧
      (∀ x, o.access = .read x → ∃ word, data = some word ∧
        (o.view = none → o.list = none → s.WordAfterHalt n word) ∧
        (o.view.getD s.view).WordAt n word ∧ (o.list.getD s.alert).WordAt n word ∧
        (n = 2 ∨ n = 9 ∨ (11 ≤ n ∧ n < 16) ∨ 144 ≤ n → s.WordAfterHalt n word)) ∧
      Arrived { s with path := { s.path with
        answering := none, completion := some { access := o.access, data := data } } } t

/-- MUTE and UNMUTE in ACTIVE (R56, R168, R173): for an enrolled channel below 64 a chair request is sent and the result
is DONE; for any other channel byte REFUSED_CHANNEL. ACK_ALL in ACTIVE (R101): every NEW and SEEN entry becomes
ACKED, every CLEARED entry goes, the freed places are filled from the unlisted set, the most severe first, each NEW with
a fresh sequence at the end of its severity group and recorded as the latest raise (R78, R82, R93, R95, R103); the
generation rises once if the list changed; the last acknowledgement result stands; the lamps follow (R176, R178);
DONE. That ACK_ALL is carried out within the step that takes its command word is the model's choice (log 18). -/
def Obligations.MuteUnmuteAndAckAllCommands : Prop :=
  (∀ (channel : BitVec 8) (s : State), s.Taking → s.setup.part = .active → s.setup.result ≠ .inProgress →
     ∀ i set code, (i, set, code) = (Instr.mute channel, true, 0x10#8) ∨ (i, set, code) = (Instr.unmute channel, false, 0x11#8) →
       (∀ c : Chan, channel.toNat = c.val → s.workingEnrols c = true →
         ∃ t, exec i s = .next t ∧
           WriteServed (s.commandWrite (code ++ channel)) false
             { s with
               setup := { s.setup with result := .done, lastCode := code }
               mail := { s.mail with toEvaluator := s.mail.toEvaluator ++ [.chair c set] } } t) ∧
       ((∀ c : Chan, channel.toNat = c.val → s.workingEnrols c = false) →
         ∃ t, exec i s = .next t ∧
           WriteServed (s.commandWrite (code ++ channel)) false
             { s with setup := { s.setup with result := .refusedChannel, lastCode := code } } t)) ∧
  (∀ (low : BitVec 8) (s : State), s.Taking → s.setup.part = .active → s.setup.result ≠ .inProgress → s.alert.Lawful →
     ∃ t, exec (.ackAll low) s = .next t ∧
       WriteServed (s.commandWrite (0x20#8 ++ low)) false
         { s with
           alert := t.alert
           lamps := { s.lamps with battery := t.lamps.battery, signal := t.lamps.signal, mute := t.lamps.mute }
           setup := { s.setup with result := .done, lastCode := 0x20#8 } } t ∧
       (∀ l, LampTaken (s.lamps.get l) (t.lamps.get l)) ∧
       Filled s.time.seconds
         { s.alert with
           list := (s.alert.list.filter fun e => decide (e.state ≠ .cleared)).map fun e => { e with state := .acked } }
         t.alert ∧
       t.alert.gen = if t.alert.list = s.alert.list then s.alert.gen else s.alert.gen + 1)

/-- Validation (R165): the first reason that fails, in the order INCOMPLETE, SIGNATURE, CHECK, RANGE, ORDER, OVERLAP, and
at APPLY WINDOWS_FIXED. The ranges of R165's table over the fields of R181, and the windows that may not share an
address (R122, R123, R165). -/
def Obligations.Validation : Prop :=
  (∀ (straps : Straps) (marks : Vector Bool 36) (w : SetupWords) (working : Option SetupWords),
     let written : Prop := ∀ n : Fin 36, marks[n] = true
     let sum : Word := w.toList.foldl (· + ·) 0
     let descends : Prop :=
       w[22].toNat < w[21].toNat ∧ w[23].toNat < w[22].toNat ∧ w[25].toNat < w[24].toNat ∧ w[26].toNat < w[25].toNat
     (¬written → validate straps marks w working = some .incomplete) ∧
     (written → w[0] ≠ 0xD764#16 → validate straps marks w working = some .signature) ∧
     (written → w[0] = 0xD764#16 → sum ≠ 0 → validate straps marks w working = some .check) ∧
     (written → w[0] = 0xD764#16 → sum = 0 →
       (w.inRange = false → validate straps marks w working = some .range) ∧
       (w.inRange = true → ¬descends → validate straps marks w working = some .order) ∧
       (w.inRange = true → descends → w.overlaps straps = true → validate straps marks w working = some .overlap) ∧
       (w.inRange = true → descends → w.overlaps straps = false →
         (working = none → validate straps marks w working = none) ∧
         ∀ v, working = some v →
           (w[1] = v[1] ∧ w[2] = v[2] ∧ w[3] = v[3] → validate straps marks w working = none) ∧
           (¬(w[1] = v[1] ∧ w[2] = v[2] ∧ w[3] = v[3]) → validate straps marks w working = some .windowsFixed)))) ∧
  ((∀ w : SetupWords, w.inRange = true ↔
     w[1].toNat ≤ 4095 ∧ w[2].toNat ≤ 16383 ∧ w[3].toNat ≤ 2047 ∧
     (w[4].extractLsb' 0 2).toNat ≤ 1 ∧ (w[4].extractLsb' 4 2).toNat ≤ 2 ∧
     (w[17].extractLsb' 0 8).toNat ≤ 127 ∧
     (1 ≤ (w[17].extractLsb' 8 4).toNat ∧ (w[17].extractLsb' 8 4).toNat ≤ 15) ∧
     (20 ≤ w[18].toNat ∧ w[18].toNat ≤ 2000) ∧ (50 ≤ w[19].toNat ∧ w[19].toNat ≤ 1000) ∧
     (1 ≤ (w[20].extractLsb' 0 8).toNat ∧ (w[20].extractLsb' 0 8).toNat ≤ 60) ∧
     (2 ≤ (w[20].extractLsb' 8 8).toNat ∧ (w[20].extractLsb' 8 8).toNat ≤ 15) ∧
     (1 ≤ w[21].toNat ∧ w[21].toNat ≤ 99) ∧ (1 ≤ w[22].toNat ∧ w[22].toNat ≤ 99) ∧
     (1 ≤ w[23].toNat ∧ w[23].toNat ≤ 99) ∧ (1 ≤ w[24].toNat ∧ w[24].toNat ≤ 99) ∧
     (1 ≤ w[25].toNat ∧ w[25].toNat ≤ 99) ∧ (1 ≤ w[26].toNat ∧ w[26].toNat ≤ 99) ∧
     (1 ≤ w[27].toNat ∧ w[27].toNat ≤ 10) ∧
     (w[28].extractLsb' 0 8).toNat ≤ 63 ∧ 1 ≤ (w[28].extractLsb' 8 8).toNat ∧
     w[29].toNat ≤ 63 ∧ (10 ≤ w[30].toNat ∧ w[30].toNat ≤ 600) ∧ w[31].toNat ≤ 255 ∧
     ∀ p ∈ [w[32], w[33]], 2 ≤ (p.extractLsb' 8 8).toNat ∧ (p.extractLsb' 8 8).toNat ≤ 40 ∧
       1 ≤ (p.extractLsb' 0 8).toNat ∧ (p.extractLsb' 0 8).toNat < (p.extractLsb' 8 8).toNat) ∧
   (∀ (straps : Straps) (w : SetupWords), w.overlaps straps = true ↔
     ∃ v ∈ [(0, w[1].toNat * 256, 256), (1, w[2].toNat * 64, 64), (2, w[3].toNat * 512, 512),
         (3, (setupBase straps).toNat, 37)],
       ∃ v' ∈ [(0, w[1].toNat * 256, 256), (1, w[2].toNat * 64, 64), (2, w[3].toNat * 512, 512),
         (3, (setupBase straps).toNat, 37)],
         v.1 ≠ v'.1 ∧ ∃ x : Nat, (v.2.1 ≤ x ∧ x < v.2.1 + v.2.2) ∧ (v'.2.1 ≤ x ∧ x < v'.2.1 + v'.2.2)) ∧
   ∀ straps : Straps, setupBase straps =
     if straps.sbase1 then (if straps.sbase0 then 0xFFF80#20 else 0x7FFC0#20)
     else (if straps.sbase0 then 0x04000#20 else 0x00040#20))

/-! ## The telemetry intake -/

/-- A write of W0, W1 or W2 in ACTIVE (R4, R5): for an enrolled channel it fills the matching field of that channel's staging
record, replacing what it held; it has no other effect, and none at all for a channel not enrolled. The write goes to
memory. -/
def Obligations.StagingFill : Prop :=
  ∀ (b : Bases) (c : Chan) (word : FrameWord) (data : Word) (s : State), s.InSession b → s.Taking →
    ∃ t, exec (.stagingFill c word data) s = .next t ∧
      WriteServed (.write (pastBase b.telemetry (4 * c.val + word.offset)) data) false
        (if s.workingEnrols c then
          { s with
            staging := s.staging.set c
              (match word with
               | .link => { s.staging[c] with
                   link := some { rf := data.extractLsb' 0 7, lock := data.getLsbD 7, tag := data.extractLsb' 8 4 } }
               | .battery => { s.staging[c] with
                   battery := some
                     { level := data.extractLsb' 0 7, chemistry := if data.getLsbD 7 then .rechargeable else .primary } }
               | .switch => { s.staging[c] with
                   switch := some { talkOn := data.getLsbD 7, audio := data.extractLsb' 0 6 } }) }
         else s) t

/-- A write of W3 in ACTIVE (R4, R6, R7): a commit of an enrolled channel is valid if the staging record's link field is
present with the tag of bits 3 to 0; a valid commit hands the frame on, a torn one hands on nothing, and either clears the
staging record. For a channel not enrolled it is no commit. -/
def Obligations.CommitClassified : Prop :=
  ∀ (b : Bases) (c : Chan) (data : Word) (s : State), s.InSession b → s.Taking →
    ∃ t u, exec (.commit c data) s = .next t ∧
      WriteServed (.write (pastBase b.telemetry (4 * c.val + 3)) data) false u t ∧
      (s.workingEnrols c = false → u = s) ∧
      (s.workingEnrols c = true →
        (∀ l, s.staging[c].link = some l → l.tag = data.extractLsb' 0 4 →
          u = { s with
            staging := s.staging.set c { link := none, battery := none, switch := none }
            mail := { s.mail with
              frames := s.mail.frames ++
                [(c, { rf := l.rf, lock := l.lock, battery := s.staging[c].battery, switch := s.staging[c].switch })] } }) ∧
        ((∀ l, s.staging[c].link = some l → l.tag ≠ data.extractLsb' 0 4) →
          u = { s with staging := s.staging.set c { link := none, battery := none, switch := none } }))

/-! ## The channel evaluator: frames -/

/-- A frame is taken (R7, R8, R9, R17): the first that waits for its channel; only that channel's record changes, and what
changed is reported. Membership, chair and floor causes stand; without battery contents the battery part stands, without
switch contents the speech detector. A frame taken for a channel not enrolled is discarded (R7), and so is one taken in a part
state other than ACTIVE (R1, R63, R169). That the row takes the first frame of its channel, whatever other channels' frames
wait before it, is the model's choice (log 4). -/
def Obligations.FrameEvaluation : Prop :=
  ∀ (c : Chan) (f : Frame) (before after : List (Chan × Frame)) (s : State),
    s.mail.frames = before ++ (c, f) :: after → (∀ p ∈ before, p.1 ≠ c) →
    (s.channels[c].enrolled = false ∨ s.setup.part ≠ .active →
      exec (.frameEvaluation c) s = .next { s with mail := { s.mail with frames := before ++ after } }) ∧
    (s.channels[c].enrolled = true → s.setup.part = .active →
      ∃ t, exec (.frameEvaluation c) s = .next t ∧
        OnlyChannel c { s with mail := { s.mail with frames := before ++ after } } t ∧
        t.channels[c].lastRf = f.rf ∧ t.channels[c].memberPart = s.channels[c].memberPart ∧
        (f.battery = none → t.channels[c].batteryPart = s.channels[c].batteryPart) ∧
        (f.switch = none → t.channels[c].speechPart = s.channels[c].speechPart ∧ WatchJudged c s t) ∧
        ChangeReported c s t)

/-- Frames of a channel in ABSENT (R18, R21): without lock only the RF level is recorded; with lock the channel is placed
directly and its freshness timer starts. Frames with lock of a channel in LOCKED and WEAK (R19, R20): the fade run
rises below the fade level, and in WEAK from the fade level plus 3 on, and at the fade confirm count the link state
changes; any other level sets the run to 0. A frame without lock in LOCKED or WEAK enters DROPOUT (R22), and one in
DROPOUT holds it (R23): the stamp and the dropout timer are set at the entry alone. -/
def Obligations.FramesUpToADropout : Prop :=
  (∀ (c : Chan) (f : Frame) (s : State), s.FrameWaits c f → s.channels[c].Lawful → s.channels[c].link = .absent →
     ∃ t, exec (.frameEvaluation c) s = .next t ∧
       t.channels[c].linkPart =
         if f.lock then s.channels[c].linkPart.placed s.settings s.time.ticks f.rf
         else { s.channels[c].linkPart with lastRf := f.rf }) ∧
  (∀ (c : Chan) (f : Frame) (s : State), s.FrameWaits c f → s.channels[c].Lawful → f.lock = true →
     ∃ t, exec (.frameEvaluation c) s = .next t ∧
       (s.channels[c].link = .locked →
         t.channels[c].linkPart = { s.channels[c].linkPart with
           lastRf := f.rf
           freshTimer := .running (s.time.ticks + BitVec.ofNat 32 s.settings.freshnessLimit)
           link := if f.rf.toNat < s.settings.fadeLevel ∧ s.settings.fadeConfirm ≤ s.channels[c].fadeRun + 1
             then .weak else .locked
           weak := decide (f.rf.toNat < s.settings.fadeLevel ∧ s.settings.fadeConfirm ≤ s.channels[c].fadeRun + 1)
           fadeRun := if f.rf.toNat < s.settings.fadeLevel ∧ s.channels[c].fadeRun + 1 < s.settings.fadeConfirm
             then s.channels[c].fadeRun + 1 else 0 }) ∧
       (s.channels[c].link = .weak →
         t.channels[c].linkPart = { s.channels[c].linkPart with
           lastRf := f.rf
           freshTimer := .running (s.time.ticks + BitVec.ofNat 32 s.settings.freshnessLimit)
           link := if s.settings.fadeLevel + 3 ≤ f.rf.toNat ∧ s.settings.fadeConfirm ≤ s.channels[c].fadeRun + 1
             then .locked else .weak
           weak := decide (¬(s.settings.fadeLevel + 3 ≤ f.rf.toNat ∧ s.settings.fadeConfirm ≤ s.channels[c].fadeRun + 1))
           fadeRun := if s.settings.fadeLevel + 3 ≤ f.rf.toNat ∧ s.channels[c].fadeRun + 1 < s.settings.fadeConfirm
             then s.channels[c].fadeRun + 1 else 0 })) ∧
  (∀ (c : Chan) (f : Frame) (s : State), s.FrameWaits c f → s.channels[c].Lawful → f.lock = false →
     ∃ t, exec (.frameEvaluation c) s = .next t ∧
       (s.channels[c].link = .locked ∨ s.channels[c].link = .weak →
         t.channels[c].linkPart = { s.channels[c].linkPart with
           lastRf := f.rf
           freshTimer := .running (s.time.ticks + BitVec.ofNat 32 s.settings.freshnessLimit)
           link := .dropout, dropoutStamp := s.time.ticks
           dropoutTimer := .running (s.time.ticks + BitVec.ofNat 32 s.settings.dropoutLimit)
           fadeRun := 0, weak := false }) ∧
       (s.channels[c].link = .dropout →
         t.channels[c].linkPart = { s.channels[c].linkPart with
           lastRf := f.rf
           freshTimer := .running (s.time.ticks + BitVec.ofNat 32 s.settings.freshnessLimit) }))

/-- A frame with lock in DROPOUT ends the dropout (R25): the timer stops, a record with the duration and ending RETURNED is
offered to the capture (R35), the dropout is counted (R24), and the channel is placed directly (R21) with its freshness timer
restarted; no LOST and no squelch cause. -/
def Obligations.DropoutEndedByFrame : Prop :=
  ∀ (c : Chan) (f : Frame) (s : State), s.FrameWaits c f → s.channels[c].Lawful → f.lock = true →
    s.channels[c].link = .dropout →
    ∃ t, exec (.frameEvaluation c) s = .next t ∧
      t.channels[c].linkPart =
        ((({ s.channels[c].linkPart with dropoutTimer := .stopped }.offered
          (.returned (s.time.ticks - s.channels[c].dropoutStamp).toNat)).counted s.settings s.time.ticks).placed
            s.settings s.time.ticks f.rf) ∧
      t.channels[c].active.lost = false ∧ t.channels[c].squelchCause = false

/-- Frames of a channel in LOST (R28): with lock the loss ends by direct placement, LOST clears and the squelch cause
falls, with nothing counted and nothing offered; without lock the channel stays as it is, its freshness timer
restarted and no dropout timer running. Frames of a channel in SILENT (R32): with lock the silence ends by direct
placement, NO_REPORT clears and the squelch cause falls; without lock the channel becomes LOST, the squelch cause
stays, no dropout timer starts, nothing is offered or counted. -/
def Obligations.LostAndSilentFrames : Prop :=
  (∀ (c : Chan) (f : Frame) (s : State), s.FrameWaits c f → s.channels[c].Lawful → s.channels[c].link = .lost →
     ∃ t, exec (.frameEvaluation c) s = .next t ∧
       (f.lock = true →
         t.channels[c].linkPart =
           { s.channels[c].linkPart with lost := false, squelchCause := false }.placed s.settings s.time.ticks f.rf) ∧
       (f.lock = false →
         t.channels[c].linkPart = { s.channels[c].linkPart with
           lastRf := f.rf
           freshTimer := .running (s.time.ticks + BitVec.ofNat 32 s.settings.freshnessLimit) } ∧
         t.channels[c].dropoutTimer = .stopped)) ∧
  (∀ (c : Chan) (f : Frame) (s : State), s.FrameWaits c f → s.channels[c].Lawful → s.channels[c].link = .silent →
     ∃ t, exec (.frameEvaluation c) s = .next t ∧
       (f.lock = true →
         t.channels[c].linkPart =
           { s.channels[c].linkPart with noReport := false, squelchCause := false }.placed s.settings s.time.ticks f.rf) ∧
       (f.lock = false →
         t.channels[c].linkPart = { s.channels[c].linkPart with
           lastRf := f.rf
           freshTimer := .running (s.time.ticks + BitVec.ofNat 32 s.settings.freshnessLimit)
           link := .lost, noReport := false, lost := true }))

/-- The first battery report (R44): a report in UNKNOWN places the channel, whichever state that is, with no hysteresis;
GOOD changes no condition, any other state adds its condition, and the BATTERY family is reported raised at that
kind. A later battery report (R42, R43, R45, R46, R48): a worse placement moves the state down at once; a better one
moves it up to the best state the report clears, if that is better than the present state; the conditions follow the
state (R50), and level and chemistry are recorded. The thresholds are those of the report's chemistry. -/
def Obligations.BatteryReports : Prop :=
  (∀ (c : Chan) (f : Frame) (word : BatteryWord) (b : BatteryState) (s : State),
     s.FrameWaits c f → s.channels[c].Lawful → f.battery = some word → word.level.toNat ≤ 100 →
     s.channels[c].battery = .unknown → Descends s.settings word.chemistry →
     PlacementIs s.settings word.chemistry word.level.toNat b →
     ∃ t, exec (.frameEvaluation c) s = .next t ∧
       t.channels[c].batteryPart = .reported b word.level word.chemistry ∧
       BatteryReported (match b.kind with | none => [] | some k => [.raised c .battery k]) s t) ∧
  (∀ (c : Chan) (f : Frame) (word : BatteryWord) (b target : BatteryState) (s : State),
     s.FrameWaits c f → s.channels[c].Lawful → f.battery = some word → word.level.toNat ≤ 100 →
     s.channels[c].battery ≠ .unknown → Descends s.settings word.chemistry →
     PlacementIs s.settings word.chemistry word.level.toNat b →
     Clears s.settings word.chemistry word.level.toNat target →
     (∀ x, Clears s.settings word.chemistry word.level.toNat x → target.rank ≤ x.rank) →
     ∃ t, exec (.frameEvaluation c) s = .next t ∧
       (s.channels[c].battery.rank < b.rank →
         t.channels[c].batteryPart = .reported b word.level word.chemistry) ∧
       (b.rank < s.channels[c].battery.rank → target.rank < s.channels[c].battery.rank →
         t.channels[c].batteryPart = .reported target word.level word.chemistry) ∧
       (t.channels[c].battery.kind = s.channels[c].battery.kind → BatteryReported [] s t) ∧
       (∀ k, s.channels[c].battery.kind = some k → t.channels[c].battery.kind = none →
         BatteryReported [.cleared c .battery] s t) ∧
       ∀ k, t.channels[c].battery.kind = some k →
         (s.channels[c].battery.kind = none → BatteryReported [.raised c .battery k] s t) ∧
         (∀ k', s.channels[c].battery.kind = some k' → k' ≠ k → BatteryReported [.changed c .battery k] s t))

/-- A report that leaves the state (R47): its placement is the present state, or better while it clears no better state; level
and chemistry are still recorded, no condition changes and no condition event is sent for the battery. -/
def Obligations.BatteryReportLeavingTheState : Prop :=
  ∀ (c : Chan) (f : Frame) (word : BatteryWord) (b : BatteryState) (s : State),
    s.FrameWaits c f → s.channels[c].Lawful → f.battery = some word → word.level.toNat ≤ 100 →
    s.channels[c].battery ≠ .unknown → Descends s.settings word.chemistry →
    PlacementIs s.settings word.chemistry word.level.toNat b →
    (b = s.channels[c].battery ∨ (b.rank < s.channels[c].battery.rank ∧
      ∀ x, Clears s.settings word.chemistry word.level.toNat x → s.channels[c].battery.rank ≤ x.rank)) →
    ∃ t, exec (.frameEvaluation c) s = .next t ∧
      t.channels[c].batteryPart = { s.channels[c].batteryPart with
        level := some word.level, chemistry := some word.chemistry } ∧
      BatteryReported [] s t

/-- No report (R49): a battery word with a level of 101 to 127, and a frame without battery contents, leave state, last level,
chemistry and battery conditions as they were and send no battery event; a channel in UNKNOWN stays in UNKNOWN. -/
def Obligations.BatteryNoReport : Prop :=
  ∀ (c : Chan) (f : Frame) (s : State), s.FrameWaits c f →
    (f.battery = none ∨ ∃ word, f.battery = some word ∧ 101 ≤ word.level.toNat) →
    ∃ t, exec (.frameEvaluation c) s = .next t ∧
      t.channels[c].batteryPart = s.channels[c].batteryPart ∧ BatteryReported [] s t

/-- The mute stage (R55, R64, R65, R68): self-muted and the audio level are taken; then the speech count rises in a silent
channel at or above the speech level, else falls; MUTED_SPEECH is raised by a rise to the threshold and cleared by a fall to
0; the open-idle watch starts at a quiet frame, rests at a loud and at a silent one. That a count which stands at 0 or at 255
raises and clears nothing is the model's reading (log 29). -/
def Obligations.MuteStage : Prop :=
  ∀ (c : Chan) (f : Frame) (w : SwitchWord) (s : State), s.FrameWaits c f → s.channels[c].Lawful → f.switch = some w →
    ∃ t n, exec (.frameEvaluation c) s = .next t ∧
      (t.SilentIn c → s.settings.speechLevel ≤ w.audio.toNat → n = min 255 (s.channels[c].speechCount + 1)) ∧
      (¬t.SilentIn c ∨ w.audio.toNat < s.settings.speechLevel → n = s.channels[c].speechCount - 1) ∧
      t.channels[c].speechPart =
        { selfMuted := !w.talkOn, lastAudio := some w.audio, speechCount := n
          raised :=
            if s.channels[c].speechCount < n ∧ s.settings.speechThreshold ≤ n then true
            else if n < s.channels[c].speechCount ∧ n = 0 then false else s.channels[c].mutedSpeechRaised
          mutedSpeech :=
            if s.channels[c].speechCount < n ∧ s.settings.speechThreshold ≤ n then true
            else if n < s.channels[c].speechCount ∧ n = 0 then false else s.channels[c].mutedSpeechRaised } ∧
      (t.SilentIn c ∨ s.settings.idleLevel ≤ w.audio.toNat → t.channels[c].idlePart = .atRest) ∧
      (¬t.SilentIn c → w.audio.toNat < s.settings.idleLevel →
        t.channels[c].idlePart = { s.channels[c].idlePart with
          idleTimer :=
            if s.channels[c].idleTimer = .stopped ∧ s.channels[c].openIdleRaised = false
              then .running (s.time.ticks + BitVec.ofNat 32 (s.settings.idleLimit * 1000))
              else s.channels[c].idleTimer })

/-! ## The channel evaluator: timers -/

/-- The expiry of the dropout timer in DROPOUT turns the dropout into a loss (R26): LOST raised, a LIMIT record offered
(R35), the dropout counted (R24), the squelch cause set if squelch is enabled; the freshness timer and the stamp stand. -/
def Obligations.DropoutTimerExpiry : Prop :=
  ∀ (c : Chan) (s : State),
    (s.channels[c].dropoutTimer ≠ .due → exec (.dropoutTimerExpiry c) s = .next s) ∧
    (s.channels[c].dropoutTimer = .due → s.channels[c].Lawful →
      ∃ t, exec (.dropoutTimerExpiry c) s = .next t ∧ OnlyChannel c s t ∧ ChangeReported c s t ∧
        t.channels[c].linkPart =
          ({ s.channels[c].linkPart with
            dropoutTimer := .stopped, link := .lost, lost := true
            squelchCause := s.channels[c].squelchEnabled }.offered .limit).counted s.settings s.time.ticks ∧
        t.channels[c].batteryPart = s.channels[c].batteryPart ∧ t.channels[c].memberPart = s.channels[c].memberPart ∧
        t.channels[c].speechPart = s.channels[c].speechPart ∧ WatchJudged c s t)

/-- The expiry of the freshness timer makes the channel SILENT (R30): NO_REPORT replaces WEAK and LOST, the dropout timer
stops, the fade run is 0, the squelch cause set if squelch is enabled; nothing is offered or counted, and the window and
DROPOUTS stand. -/
def Obligations.FreshnessTimerExpiry : Prop :=
  ∀ (c : Chan) (s : State),
    (s.channels[c].freshTimer ≠ .due → exec (.freshnessTimerExpiry c) s = .next s) ∧
    (s.channels[c].freshTimer = .due → s.channels[c].Lawful →
      ∃ t, exec (.freshnessTimerExpiry c) s = .next t ∧ OnlyChannel c s t ∧ ChangeReported c s t ∧
        t.channels[c].linkPart = { s.channels[c].linkPart with
          freshTimer := .stopped, dropoutTimer := .stopped, link := .silent, fadeRun := 0
          squelchCause := s.channels[c].squelchEnabled, weak := false, lost := false, noReport := true } ∧
        t.channels[c].batteryPart = s.channels[c].batteryPart ∧ t.channels[c].memberPart = s.channels[c].memberPart ∧
        t.channels[c].speechPart = s.channels[c].speechPart ∧ WatchJudged c s t)

/-- The expiry of the dropout window (R33): at or above the limit DROPOUTS is raised, the count returns to 0 and the window
starts again; below it DROPOUTS clears, the count returns to 0 and the window stays stopped; in every link state alike. -/
def Obligations.DropoutWindowExpiry : Prop :=
  ∀ (c : Chan) (s : State),
    (s.channels[c].windowTimer ≠ .due → exec (.dropoutWindowExpiry c) s = .next s) ∧
    (s.channels[c].windowTimer = .due →
      ∃ t, exec (.dropoutWindowExpiry c) s = .next t ∧ OnlyChannel c s t ∧ ChangeReported c s t ∧
        (s.settings.dropoutCountLimit ≤ s.channels[c].dropoutCount →
          t.channels[c].linkPart = { s.channels[c].linkPart with
            dropoutCount := 0, dropoutsRaised := true, dropouts := true
            windowTimer := .running (s.time.ticks + BitVec.ofNat 32 (s.settings.dropoutWindow * 1000)) }) ∧
        (s.channels[c].dropoutCount < s.settings.dropoutCountLimit →
          t.channels[c].linkPart = { s.channels[c].linkPart with
            dropoutCount := 0, dropoutsRaised := false, dropouts := false, windowTimer := .stopped }) ∧
        t.channels[c].batteryPart = s.channels[c].batteryPart ∧ t.channels[c].memberPart = s.channels[c].memberPart ∧
        t.channels[c].speechPart = s.channels[c].speechPart ∧ WatchJudged c s t)

/-- The expiry of the open-idle timer raises OPEN_IDLE (R69), unless the channel is silent at the end of the event (R62).
A chair request (R56), a taken floor change (R57) and a silence change (R63), each one event of its channel: the
chair cause of an enrolled channel takes the request, the floor cause of an enrolled DELEGATE the level, and silence
is judged (R62); a channel not concerned stands. That a floor change goes from channel to channel is the model's choice
(log 11). -/
def Obligations.CausesSilenceAndOpenIdle : Prop :=
  (∀ (c : Chan) (s : State),
     (s.channels[c].idleTimer ≠ .due → exec (.openIdleExpiry c) s = .next s) ∧
     (s.channels[c].idleTimer = .due →
       ∃ t, exec (.openIdleExpiry c) s = .next t ∧ OnlyChannel c s t ∧ ChangeReported c s t ∧
         t.channels[c].linkPart = s.channels[c].linkPart ∧ t.channels[c].batteryPart = s.channels[c].batteryPart ∧
         t.channels[c].memberPart = s.channels[c].memberPart ∧ t.channels[c].speechPart = s.channels[c].speechPart ∧
         (t.SilentIn c → t.channels[c].idlePart = .atRest) ∧
         (¬t.SilentIn c → t.channels[c].idlePart = { idleTimer := .stopped, raised := true, openIdle := true }))) ∧
  (∀ s : State,
     (∀ c set rest, s.mail.toEvaluator = .chair c set :: rest →
       let u : State := { s with mail := { s.mail with toEvaluator := rest } }
       (s.channels[c].enrolled = false → exec .chairRequest s = .next u) ∧
       (s.channels[c].enrolled = true →
         ∃ t, exec .chairRequest s = .next t ∧ OnlyChannel c u t ∧ ChangeReported c s t ∧ WatchJudged c s t ∧
           t.channels[c].memberPart = { s.channels[c].memberPart with chairCause := set } ∧
           t.channels[c].linkPart = s.channels[c].linkPart ∧ t.channels[c].batteryPart = s.channels[c].batteryPart ∧
           t.channels[c].speechPart = s.channels[c].speechPart)) ∧
     (∀ f rest, s.mail.floor = f :: rest →
       ∃ left, GoesOn f.next (fun d => { f with next := d }) rest left ∧
         let u : State := { s with mail := { s.mail with floor := left } }
         (s.channels[f.next].enrolled = false ∨ s.channels[f.next].role = .chair →
           exec .takenFloorChange s = .next u) ∧
         (s.channels[f.next].enrolled = true → s.channels[f.next].role = .delegate →
           ∃ t, exec .takenFloorChange s = .next t ∧ OnlyChannel f.next u t ∧ ChangeReported f.next s t ∧
             WatchJudged f.next s t ∧
             t.channels[f.next].memberPart = { s.channels[f.next].memberPart with floorCause := f.asserted } ∧
             t.channels[f.next].linkPart = s.channels[f.next].linkPart ∧
             t.channels[f.next].batteryPart = s.channels[f.next].batteryPart ∧
             t.channels[f.next].speechPart = s.channels[f.next].speechPart)) ∧
     (∀ c rest, s.mail.silence = c :: rest →
       let u : State := { s with mail := { s.mail with silence := rest } }
       (s.channels[c].enrolled = false → exec .silenceChange s = .next u) ∧
       (s.channels[c].enrolled = true →
         ∃ t, exec .silenceChange s = .next t ∧ OnlyChannel c u t ∧ ChangeReported c s t ∧ WatchJudged c s t ∧
           t.channels[c].memberPart = s.channels[c].memberPart ∧ t.channels[c].linkPart = s.channels[c].linkPart ∧
           t.channels[c].batteryPart = s.channels[c].batteryPart ∧
           t.channels[c].speechPart = s.channels[c].speechPart)))

/-! ## The channel evaluator: causes, silence, membership, reset -/

/-- The membership change of an APPLY for one channel (R11, R12, R39, R58): a channel de-enrolled takes its power-reset
values, one newly enrolled starts afresh with a DELEGATE's floor cause at the debounced level, and each sends one
enrolment change; a channel enrolled before and after with a changed membership has role, squelch and the two causes
rewritten as one event; any other stands. The condition events of a channel de-enrolled that are still on their way are discarded
(R84); that this falls in the same event is the model's choice (log 36). The reset of the table at START for one channel (R10): the power-reset values with
the membership of the working setup and a DELEGATE's floor cause at the debounced level (R54). It reports nothing (HALT resets
the table within its own step, which HaltCommand states). That change and reset go
channel by channel (log 11), that a channel the setup does not enrol takes DELEGATE and squelch no at START whatever its
mask bits say (log 19), and that the floor cause is recomputed also when the squelch enable alone changed (log 20), is
the model's choice. -/
def Obligations.MembershipAndTableReset : Prop :=
  (∀ (w : SetupWords) (c : Chan) (rest : List ToEvaluator) (s : State), s.mail.toEvaluator = .membership w c :: rest →
     ∃ left t, GoesOn c (fun d => .membership w d) rest left ∧ exec .membershipChange s = .next t ∧
       let u : State := { s with mail := { s.mail with toEvaluator := left } }
       (s.channels[c].enrolled = true → w.enrols c = false →
         t = { u with
           channels := s.channels.set c .powerReset
           mail := { u.mail with
             conditions := s.mail.conditions.filter fun m => decide (m.channel ≠ c)
             notices := s.mail.notices ++ [.enrolment c] } }) ∧
       (s.channels[c].enrolled = false → w.enrols c = true →
         t = { u with
           channels := s.channels.set c { ChannelRecord.powerReset with
             enrolled := true
             role := if w.isChair c then .chair else .delegate
             squelchEnabled := w.squelches c
             floorCause := s.lamps.debounced && !w.isChair c }
           mail := { u.mail with notices := s.mail.notices ++ [.enrolment c] } }) ∧
       (s.channels[c].enrolled = true → w.enrols c = true →
         (s.channels[c].role = w.roleOf c → s.channels[c].squelchEnabled = w.squelches c → t = u) ∧
         (s.channels[c].role ≠ w.roleOf c ∨ s.channels[c].squelchEnabled ≠ w.squelches c →
           OnlyChannel c u t ∧ ChangeReported c s t ∧ WatchJudged c s t ∧
           t.channels[c].memberPart = { s.channels[c].memberPart with
             role := if w.isChair c then .chair else .delegate
             squelchEnabled := w.squelches c
             floorCause := s.lamps.debounced && !w.isChair c } ∧
           t.channels[c].linkPart = { s.channels[c].linkPart with
             squelchCause := w.squelches c &&
               (decide (s.channels[c].link = .lost) || decide (s.channels[c].link = .silent)) } ∧
           t.channels[c].batteryPart = s.channels[c].batteryPart ∧
           t.channels[c].speechPart = s.channels[c].speechPart)) ∧
       (s.channels[c].enrolled = false → w.enrols c = false → t = u)) ∧
  (∀ (c : Chan) (rest : List ToEvaluator) (s : State), s.mail.toEvaluator = .tableReset c :: rest →
     ∃ left, GoesOn c (fun d => .tableReset d) rest left ∧
       exec .channelTableReset s = .next { s with
         mail := { s.mail with toEvaluator := left }
         channels := s.channels.set c
           (if s.settings.enrols c = true then
             { ChannelRecord.powerReset with
               enrolled := true
               role := if s.settings.isChair c then .chair else .delegate
               squelchEnabled := s.settings.squelches c
               floorCause := s.lamps.debounced && !s.settings.isChair c }
            else .powerReset) })

/-! ## The alert list -/

/-- A raise (R85, R86, R92, R93): a pair with neither entry nor place in the unlisted set enters a list with room; into a full
list it enters only over a last entry of lower severity, which is evicted, else it joins the unlisted set; a CLEARED entry
becomes NEW again, and where an unlisted pair is more severe than it then is, it is evicted at once and the most severe
unlisted pair promoted; a raise of an active pair changes nothing. -/
def Obligations.ConditionRaise : Prop :=
  ∀ (c : Chan) (f : Family) (k : Kind) (rest : List ConditionEvent) (s : State),
    s.mail.conditions = .raised c f k :: rest → s.Listening c →
    ∃ t, exec .conditionRaise s = .next t ∧ OnlyAlerts { s with mail := { s.mail with conditions := rest } } t ∧
      ((∀ e ∈ s.alert.list, e.isPair (.mic c) f = false) → isUnlisted c f s.alert.unlisted = false →
        (s.alert.list.length < 32 →
          MadeNew s.time.seconds (.mic c) f k s.alert.list s.alert t.alert ∧ t.alert.unlisted = s.alert.unlisted) ∧
        (s.alert.list.length = 32 → (∀ e ∈ s.alert.list, k.severity ≤ e.severity) →
          t.alert = { s.alert with unlisted := t.alert.unlisted } ∧
          ∀ q, q ∈ t.alert.unlisted ↔ q = { channel := c, family := f, kind := k } ∨ q ∈ s.alert.unlisted) ∧
        (∀ front last, s.alert.list.length = 32 → s.alert.list = front ++ [last] → last.severity < k.severity →
          MadeNew s.time.seconds (.mic c) f k front { s.alert with list := front } t.alert ∧
          EvictedInto last none s.alert t.alert)) ∧
      (∀ e ∈ s.alert.list, e.isPair (.mic c) f = true → e.state = .cleared →
        ((∀ q ∈ s.alert.unlisted, q.severity ≤ k.severity) →
          MadeNew s.time.seconds (.mic c) f k (s.alert.list.filter (fun x => decide (x ≠ e))) s.alert t.alert ∧
          t.alert.unlisted = s.alert.unlisted) ∧
        ((∃ q ∈ s.alert.unlisted, k.severity < q.severity) →
          ∃ v x, BecameNew s.time.seconds (.mic c) f k (s.alert.list.filter (fun x => decide (x ≠ e))) s.alert v ∧
            x ∈ v.list ∧ x.isPair (.mic c) f = true ∧
            Displaced s.time.seconds c f k x { s.alert with list := v.list, nextSeq := v.nextSeq } t.alert)) ∧
      ((∃ e ∈ s.alert.list, e.isPair (.mic c) f = true ∧ e.state ≠ .cleared) ∨ isUnlisted c f s.alert.unlisted = true →
        t.alert = s.alert)

/-- A kind change of a listed active pair (R87, R88, R89): an upgrade makes the entry NEW at the new kind; a downgrade
moves it to the end of its new severity group with its state, sequence and stamp, and where an unlisted pair outranks it
there it is evicted at once and the most severe unlisted pair promoted; a change within one severity changes the kind
alone. A clearing of a listed pair (R91): NEW and SEEN become CLEARED in place, ACKED leaves the list and the most severe
unlisted pair is promoted into its place (R93, R95). -/
def Obligations.ListedKindChangesAndClearings : Prop :=
  (∀ (c : Chan) (f : Family) (k : Kind) (e : AlertEntry) (rest : List ConditionEvent) (s : State),
     s.mail.conditions = .changed c f k :: rest → s.Listening c →
     e ∈ s.alert.list → e.isPair (.mic c) f = true → e.state ≠ .cleared →
     ∃ t, exec .conditionKindChange s = .next t ∧
       OnlyAlerts { s with mail := { s.mail with conditions := rest } } t ∧
       (e.severity < k.severity →
         MadeNew s.time.seconds (.mic c) f k (s.alert.list.filter (fun x => decide (x ≠ e))) s.alert t.alert ∧
         t.alert.unlisted = s.alert.unlisted) ∧
       (k.severity < e.severity → (∀ q ∈ s.alert.unlisted, q.severity ≤ k.severity) →
         PlacedIn { e with kind := k } (s.alert.list.filter (fun x => decide (x ≠ e))) t.alert.list ∧
         t.alert = { s.alert with list := t.alert.list, gen := s.alert.gen + 1 }) ∧
       (k.severity < e.severity → (∃ q ∈ s.alert.unlisted, k.severity < q.severity) →
         Displaced s.time.seconds c f k e s.alert t.alert) ∧
       (k.severity = e.severity →
         t.alert = { s.alert with
           list := s.alert.list.map fun x => if x = e then { e with kind := k } else x
           gen := if k = e.kind then s.alert.gen else s.alert.gen + 1 })) ∧
  (∀ (c : Chan) (f : Family) (e : AlertEntry) (rest : List ConditionEvent) (s : State),
     s.mail.conditions = .cleared c f :: rest → s.Listening c → e ∈ s.alert.list → e.isPair (.mic c) f = true →
     ∃ t, exec .conditionClear s = .next t ∧ OnlyAlerts { s with mail := { s.mail with conditions := rest } } t ∧
       EntryCleared s.time.seconds e s.alert t.alert)

/-- A kind change of an unlisted pair (R90): the kind in the set is replaced and no entry changes; a pair raised above the
last entry of the list displaces it by the ranking rule, and one that is not stays in the set. -/
def Obligations.UnlistedKindChange : Prop :=
  ∀ (c : Chan) (f : Family) (k : Kind) (rest : List ConditionEvent) (s : State),
    s.mail.conditions = .changed c f k :: rest → s.Listening c → isUnlisted c f s.alert.unlisted = true →
    ∃ t, exec .conditionKindChange s = .next t ∧
      OnlyAlerts { s with mail := { s.mail with conditions := rest } } t ∧
      ((∀ e ∈ s.alert.list, k.severity ≤ e.severity) →
        t.alert = { s.alert with unlisted := t.alert.unlisted } ∧
        ∀ q, q ∈ t.alert.unlisted ↔ q = { channel := c, family := f, kind := k } ∨
          (q ∈ s.alert.unlisted ∧ ¬(q.channel = c ∧ q.family = f))) ∧
      (∀ front last, s.alert.list = front ++ [last] → last.severity < k.severity →
        MadeNew s.time.seconds (.mic c) f k front { s.alert with list := front } t.alert ∧
        EvictedInto last (some (c, f)) s.alert t.alert)

/-- A clearing of an unlisted pair removes it from the set, with the list and the live generation unchanged; a raise of a
pair active already, and a kind change or a clearing of a pair not active, are discarded (R92), those of the part
pair as well (R96). The unit takes condition events in ACTIVE alone, and of enrolled channels alone (R84); any other
is discarded, with its message taken. So is one of a channel that an APPLY enrols anew while the evaluator has yet to end the
enrolment before it, which keeps the law of R80 and the empty start of R105 and is the model's choice (log 36). It discards a
CLAIM_STALLED event outside ACTIVE. -/
def Obligations.UnlistedClearingAndDiscards : Prop :=
  (∀ s : State,
     (∀ c f rest, s.mail.conditions = .cleared c f :: rest → s.Listening c →
       (∀ e ∈ s.alert.list, e.isPair (.mic c) f = false) →
       ∃ t, exec .conditionClear s = .next t ∧ OnlyAlerts { s with mail := { s.mail with conditions := rest } } t ∧
         t.alert = { s.alert with unlisted := t.alert.unlisted } ∧
         ∀ q, q ∈ t.alert.unlisted ↔ q ∈ s.alert.unlisted ∧ ¬(q.channel = c ∧ q.family = f)) ∧
     (∀ c f rest, s.mail.conditions = .cleared c f :: rest → s.Listening c → isUnlisted c f s.alert.unlisted = false →
       (∀ e ∈ s.alert.list, e.isPair (.mic c) f = true → e.state = .cleared) →
       ∃ t, exec .conditionClear s = .next t ∧ OnlyAlerts { s with mail := { s.mail with conditions := rest } } t ∧
         t.alert = s.alert) ∧
     (∀ c f k rest, s.mail.conditions = .changed c f k :: rest → s.Listening c →
       isUnlisted c f s.alert.unlisted = false →
       (∀ e ∈ s.alert.list, e.isPair (.mic c) f = true → e.state = .cleared) →
       ∃ t, exec .conditionKindChange s = .next t ∧ OnlyAlerts { s with mail := { s.mail with conditions := rest } } t ∧
         t.alert = s.alert) ∧
     (∀ c f k rest, s.mail.conditions = .raised c f k :: rest → s.Listening c →
       isUnlisted c f s.alert.unlisted = true ∨ (∃ e ∈ s.alert.list, e.isPair (.mic c) f = true ∧ e.state ≠ .cleared) →
       ∃ t, exec .conditionRaise s = .next t ∧ OnlyAlerts { s with mail := { s.mail with conditions := rest } } t ∧
         t.alert = s.alert) ∧
     (∀ rest, s.mail.stalls = true :: rest → s.setup.part = .active → s.alert.Lawful →
       (∃ e ∈ s.alert.list, e.isPair .part .part = true ∧ e.state ≠ .cleared) →
       ∃ t, exec .claimStalledActive s = .next t ∧ OnlyAlerts { s with mail := { s.mail with stalls := rest } } t ∧
         t.alert = s.alert) ∧
     (∀ rest, s.mail.stalls = false :: rest → s.alert.Lawful →
       (∀ e ∈ s.alert.list, e.isPair .part .part = true → e.state = .cleared) →
       ∃ t, exec .claimStalledInactive s = .next t ∧ OnlyAlerts { s with mail := { s.mail with stalls := rest } } t ∧
         t.alert = s.alert)) ∧
  (∀ s : State,
     (∀ c f k rest, s.mail.conditions = .raised c f k :: rest → s.setup.part ≠ .active ∨ s.workingEnrols c = false ∨ s.DeEnrolling c →
       exec .conditionRaise s = .next { s with mail := { s.mail with conditions := rest } }) ∧
     (∀ c f k rest, s.mail.conditions = .changed c f k :: rest → s.setup.part ≠ .active ∨ s.workingEnrols c = false ∨ s.DeEnrolling c →
       exec .conditionKindChange s = .next { s with mail := { s.mail with conditions := rest } }) ∧
     (∀ c f rest, s.mail.conditions = .cleared c f :: rest → s.setup.part ≠ .active ∨ s.workingEnrols c = false ∨ s.DeEnrolling c →
       exec .conditionClear s = .next { s with mail := { s.mail with conditions := rest } }) ∧
     (∀ rest, s.mail.stalls = true :: rest → s.setup.part ≠ .active →
       exec .claimStalledActive s = .next { s with mail := { s.mail with stalls := rest } }) ∧
     (∀ rest, s.mail.stalls = false :: rest → s.setup.part ≠ .active →
       exec .claimStalledInactive s = .next { s with mail := { s.mail with stalls := rest } }))

/-- The part entry (R96): CLAIM_STALLED becoming active enters the list, over the evicted last entry of a full one whatever
its severity, or makes a CLEARED entry NEW again; becoming inactive clears the entry as R91 states. -/
def Obligations.PartEntry : Prop :=
  ∀ (rest : List Bool) (s : State), s.setup.part = .active → s.alert.Lawful →
    (s.mail.stalls = true :: rest →
      ∃ t, exec .claimStalledActive s = .next t ∧ OnlyAlerts { s with mail := { s.mail with stalls := rest } } t ∧
        ((∀ e ∈ s.alert.list, e.isPair .part .part = false) →
          (s.alert.list.length < 32 →
            MadeNew s.time.seconds .part .part .claimStalled s.alert.list s.alert t.alert ∧
            t.alert.unlisted = s.alert.unlisted) ∧
          (∀ front last, s.alert.list.length = 32 → s.alert.list = front ++ [last] →
            MadeNew s.time.seconds .part .part .claimStalled front { s.alert with list := front } t.alert ∧
            EvictedInto last none s.alert t.alert)) ∧
        (∀ e ∈ s.alert.list, e.isPair .part .part = true → e.state = .cleared →
          MadeNew s.time.seconds .part .part .claimStalled (s.alert.list.filter (fun x => decide (x ≠ e))) s.alert t.alert ∧
          t.alert.unlisted = s.alert.unlisted)) ∧
    (s.mail.stalls = false :: rest → ∀ e ∈ s.alert.list, e.isPair .part .part = true →
      ∃ t, exec .claimStalledInactive s = .next t ∧ OnlyAlerts { s with mail := { s.mail with stalls := rest } } t ∧
        EntryCleared s.time.seconds e s.alert t.alert)

/-- A removal (R105): every entry and every unlisted pair of the named channels goes, in any state, and the freed places are
filled from the unlisted set, the most severe first, each NEW with a fresh sequence at the end of its severity group and recorded
as the latest raise (R78, R82, R93, R95, R103); the generation rises once if the list changed. A clearing (R106): all six pieces of state at their first values, and every lamp OFF, one that was not OFF dark now (R176, R177). -/
def Obligations.RemovalAndClearing : Prop :=
  ∀ (rest : List ToList) (s : State),
    (∀ cs, s.mail.toList = .removal cs :: rest → s.alert.Lawful →
      ∃ t, exec .removal s = .next t ∧ OnlyAlerts { s with mail := { s.mail with toList := rest } } t ∧
        Filled s.time.seconds
          { s.alert with
            list := s.alert.list.filter fun e => decide (∀ c ∈ cs, e.channel ≠ .mic c)
            unlisted := s.alert.unlisted.filter fun p => decide (p.channel ∉ cs) }
          t.alert ∧
        t.alert.gen = if t.alert.list = s.alert.list then s.alert.gen else s.alert.gen + 1) ∧
    (s.mail.toList = .clearing :: rest →
      ∃ t, exec .alertListClearing s = .next t ∧ OnlyAlerts { s with mail := { s.mail with toList := rest } } t ∧
        t.alert =
          { list := [], unlisted := [], nextSeq := 1, gen := 0, latest := none, ackResult := .noEntry, ackValue := 0 } ∧
        ∀ l, (t.lamps.get l).mode = .off ∧ ((s.lamps.get l).mode ≠ .off → (t.lamps.get l).lit = false))

/-! ## The alert window -/

/-- A read of offset 0 takes a snapshot (R109): the view takes every listed entry at its place, their number and the live
generation, empty beyond; the read returns the new view generation; the alert list unit stands. A write to offset 0 takes no
snapshot. -/
def Obligations.SnapshotTaken : Prop :=
  ∀ (b : Bases) (s : State), s.InSession b → s.Taking → s.alert.Lawful →
    (∃ t, exec .snapshot s = .next t ∧ t = { s with path := t.path, view := t.view } ∧
      AnsweredWith (.read (pastBase b.alert 0)) (some t.view.gen) s t ∧
      t.view.gen = s.alert.gen ∧ t.view.count = s.alert.list.length ∧
      (∀ i : Fin 32, ∀ h : i.val < s.alert.list.length, t.view.entries[i] = some s.alert.list[i.val]) ∧
      ∀ i : Fin 32, s.alert.list.length ≤ i.val → t.view.entries[i] = none) ∧
    ∀ data, ∃ t, exec (.discardedWrite 0 data) s = .next t ∧ t.view = s.view

/-- A read of word 0 of a view entry (R97, R113): it returns severity, kind, family and channel of the entry as the snapshot
took it, zero when it is empty; a filled entry's read mark makes a live NEW entry with that sequence SEEN and changes
nothing else. -/
def Obligations.ReadMarkDelivered : Prop :=
  ∀ (b : Bases) (i : Fin 32) (s : State), s.InSession b → s.Taking → s.alert.Lawful →
    ∃ t word, exec (.readMark i) s = .next t ∧ OnlyAlerts { s with path := t.path } t ∧
      AnsweredWith (.read (pastBase b.alert (16 + 4 * i.val))) (some word) s t ∧
      (s.view.entries[i] = none → word = 0 ∧ t.alert = s.alert) ∧
      ∀ x, s.view.entries[i] = some x →
        word = BitVec.ofNat 2 x.kind.severity ++ x.kind.code ++ x.family.code ++ x.channel.code ∧
        (∀ e ∈ s.alert.list, e.seq = x.seq → e.state = .new → StateTaken .seen e s.alert t.alert) ∧
        ((∀ e ∈ s.alert.list, e.seq = x.seq → e.state ≠ .new) → t.alert = s.alert)

/-- A write to word 3 of a view entry (R98, R99, R116): an empty view entry records NO_ENTRY, a value other than its sequence
MISMATCH, neither touching the list; an equal value is an acknowledgement of the live entry with that sequence: GONE,
ACCEPTED with NEW and SEEN made ACKED, ALREADY, or ACCEPTED with a CLEARED entry taken out. -/
def Obligations.AcknowledgementWrite : Prop :=
  ∀ (b : Bases) (i : Fin 32) (value : Word) (s : State), s.InSession b → s.Taking → s.alert.Lawful →
    ∃ t, exec (.acknowledgementWrite i value) s = .next t ∧ OnlyAlerts { s with path := t.path } t ∧
      AnsweredWith (.write (pastBase b.alert (19 + 4 * i.val)) value) none s t ∧ t.alert.ackValue = value ∧
      (s.view.entries[i] = none → t.alert = { s.alert with ackResult := .noEntry, ackValue := value }) ∧
      (∀ x, s.view.entries[i] = some x → x.seq ≠ value →
        t.alert = { s.alert with ackResult := .mismatch, ackValue := value }) ∧
      ∀ x, s.view.entries[i] = some x → x.seq = value →
        ((∀ e ∈ s.alert.list, e.seq ≠ value) → t.alert = { s.alert with ackResult := .gone, ackValue := value }) ∧
        ∀ e ∈ s.alert.list, e.seq = value →
          (e.state = .new ∨ e.state = .seen →
            StateTaken .acked e { s.alert with ackResult := .accepted, ackValue := value } t.alert) ∧
          (e.state = .acked → t.alert = { s.alert with ackResult := .already, ackValue := value }) ∧
          (e.state = .cleared →
            TakenOut s.time.seconds e { s.alert with ackResult := .accepted, ackValue := value } t.alert)

/-- A read of word 3 of a channel's detail (R36, R115): it returns the capture, its hold and the missed count, and as one event
of the channel releases the hold and sets the missed count to 0; the record in the capture is kept. -/
def Obligations.CaptureReleased : Prop :=
  ∀ (b : Bases) (c : Chan) (s : State), s.InSession b → s.Taking → s.channels[c].Lawful →
    ∃ t word, exec (.captureRelease c) s = .next t ∧ OnlyChannel c { s with path := t.path } t ∧ ChangeReported c s t ∧
      WatchJudged c s t ∧
      AnsweredWith (.read (pastBase b.alert (147 + 4 * c.val))) (some word) s t ∧
      word.extractLsb' 0 11 =
        (match s.channels[c].capture with
         | none => 0
         | some (.returned ms) => BitVec.ofNat 11 (ms + 1)
         | some .limit => 2047) ∧
      word.getLsbD 11 = s.channels[c].captureHeld ∧ (word.extractLsb' 12 4).toNat = s.channels[c].captureMissed ∧
      t.channels[c].linkPart = { s.channels[c].linkPart with captureHeld := false, captureMissed := 0 } ∧
      t.channels[c].batteryPart = s.channels[c].batteryPart ∧ t.channels[c].memberPart = s.channels[c].memberPart ∧
      t.channels[c].speechPart = s.channels[c].speechPart

/-- A discarded write (R118): a write to any offset of the alert window other than word 3 of a view entry completes and
changes nothing else whatever: no view, no record, no alert, no memory, no message. -/
def Obligations.DiscardedWrites : Prop :=
  ∀ (b : Bases) (offset : Fin 512) (data : Word) (s : State), s.InSession b → s.Taking →
    (offset.val < 16 ∨ 144 ≤ offset.val ∨ offset.val % 4 ≠ 3) →
    exec (.discardedWrite offset data) s = .next { s with
      path := { s.path with
        completion := some { access := .write (pastBase b.alert offset.val) data, data := none } } }

/-- The header reads that take no snapshot (R98, R99, R103, R104, R111, R182), field by field, and the command status in every part state but
SETTLING (R124, R128, R168, R182): each read completes at once and changes nothing else. The view words 1 to 3 (R112), the
detail words 0 to 2 (R114, R182), field by field, and offsets 400 to 511, which read 0000h (R111, R182): each read completes at
once and changes nothing else. Bits assigned to no field read 0 (R182). -/
def Obligations.AnsweredReads : Prop :=
  (∀ (b : Bases) (s : State), s.InSession b → s.Taking → s.alert.Lawful →
     (∀ n : Fin 15, ∃ t word, exec (.forward (.read (pastBase b.alert (n.val + 1)))) s = .next t ∧
       t = { s with path := t.path } ∧ AnsweredWith (.read (pastBase b.alert (n.val + 1))) (some word) s t ∧
       s.view.WordAt (n.val + 1) word ∧ s.alert.WordAt (n.val + 1) word ∧
       (n.val + 1 = 2 → word.extractLsb' 0 3 = 3 ∧ word.getLsbD 4 = decide (s.mode = .observe) ∧
         word.extractLsb' 8 2 = s.setup.freeze.code ∧
         word.getLsbD 3 = false ∧ word.extractLsb' 5 3 = 0 ∧ word.extractLsb' 10 6 = 0) ∧
       (n.val + 1 = 9 → word = s.time.seconds) ∧ (11 ≤ n.val + 1 → word = 0))) ∧
  (∀ s : State, s.Taking → s.setup.part ≠ .settling →
     ∃ t word, exec (.forward (.read (pastBase (setupBase s.path.straps) 36))) s = .next t ∧
       t = { s with path := t.path } ∧
       AnsweredWith (.read (pastBase (setupBase s.path.straps) 36)) (some word) s t ∧
       word.extractLsb' 0 3 = s.setup.result.code ∧ word.extractLsb' 3 3 = s.setup.result.reasonCode ∧
       word.getLsbD 6 = s.setup.stalledFlag ∧ word.getLsbD 7 = s.setup.busyFlag ∧ word.extractLsb' 8 8 = s.setup.lastCode) ∧
  (∀ (b : Bases) (s : State), s.InSession b → s.Taking →
     (∀ i : Fin 32, ∀ n : Fin 3, ∃ t word, exec (.forward (.read (pastBase b.alert (17 + 4 * i.val + n.val)))) s = .next t ∧
       t = { s with path := t.path } ∧
       AnsweredWith (.read (pastBase b.alert (17 + 4 * i.val + n.val))) (some word) s t ∧
       s.view.WordAt (17 + 4 * i.val + n.val) word) ∧
     (∀ n : Nat, 400 ≤ n → n < 512 → ∃ t, exec (.forward (.read (pastBase b.alert n))) s = .next t ∧
       AnsweredWith (.read (pastBase b.alert n)) (some 0x0000#16) s t ∧ t = { s with path := t.path }) ∧
     ∀ c : Chan, ∀ n : Fin 3, ∃ t word,
       exec (.forward (.read (pastBase b.alert (144 + 4 * c.val + n.val)))) s = .next t ∧
       t = { s with path := t.path } ∧
       AnsweredWith (.read (pastBase b.alert (144 + 4 * c.val + n.val))) (some word) s t ∧
       (n.val = 0 →
         word.getLsbD 0 = s.channels[c].enrolled ∧ word.getLsbD 1 = decide (s.channels[c].role = .chair) ∧
         word.extractLsb' 2 3 = s.channels[c].link.code ∧ word.extractLsb' 5 3 = s.channels[c].battery.code ∧
         word.getLsbD 8 = s.channels[c].selfMuted ∧ word.getLsbD 9 = s.channels[c].chairCause ∧
         word.getLsbD 10 = s.channels[c].floorCause ∧ word.getLsbD 11 = s.channels[c].squelchCause ∧
         word.extractLsb' 12 4 = 0) ∧
       (n.val = 1 →
         word.extractLsb' 0 7 = s.channels[c].batteryLevel.getD 127 ∧
         word.extractLsb' 9 7 = s.channels[c].lastRf ∧
         word.extractLsb' 7 2 =
           (match s.channels[c].chemistry with
            | none => 0
            | some .primary => 1
            | some .rechargeable => 2)) ∧
       (n.val = 2 →
         (word.extractLsb' 0 2).toNat =
           (if s.channels[c].active.critical then 3 else if s.channels[c].active.low then 2
            else if s.channels[c].active.notice then 1 else 0) ∧
         (word.extractLsb' 2 2).toNat =
           (if s.channels[c].active.noReport then 3 else if s.channels[c].active.lost then 2
            else if s.channels[c].active.weak then 1 else 0) ∧
         word.getLsbD 4 = s.channels[c].active.dropouts ∧ word.getLsbD 5 = s.channels[c].active.openIdle ∧
         word.getLsbD 6 = s.channels[c].active.mutedSpeech ∧
         (word.extractLsb' 7 7).toNat = (match s.channels[c].lastAudio with | none => 127 | some a => a.toNat) ∧
         (word.extractLsb' 14 2).toNat = min s.channels[c].speechCount 3))

/-! ## Gain enforcement -/

/-- What joins the rewrite queue (R137, R138, R139): in ACTIVE under ENFORCE the channel of a cause-change notice or an
enrolment change, ENFORCE being the effective mode or that before a setup change still on its way (R139), and ACTIVE lasting at
the unit until it takes HALT (R155); at a setup change that changes the effective mode, or the mute code under ENFORCE, every
channel enrolled before or after; each at the tail, in ascending order, only if absent; then the unit claims if it may (R143). A
setup change sends the silence changes of R63; that it sends none for a channel the new setup does not enrol is the model's choice
(log 25). A switch to OBSERVE waits for the enrolment change of a channel that an earlier APPLY has de-enrolled, which keeps the law
of R141 and is the model's choice (log 34). -/
def Obligations.RewriteQueueJoins : Prop :=
  ∀ s : State,
    (∀ c rest i m, (i, m) = (Instr.causeChangeNotice, Notice.causeChange c) ∨
        (i, m) = (Instr.enrolmentChange, Notice.enrolment c) → s.mail.notices = m :: rest →
      ∃ t, exec i s = .next t ∧
        ((s.setup.part = .active ∨ ToEnforcement.halt ∈ s.mail.toEnforcement) ∧ s.FindsEnforce →
          ∃ q, Joins [c] s.enf.queue q ∧
            Claims { s with mail := { s.mail with notices := rest }, enf := { s.enf with queue := q } } t) ∧
        (¬((s.setup.part = .active ∨ ToEnforcement.halt ∈ s.mail.toEnforcement) ∧ s.FindsEnforce) →
          t = { s with mail := { s.mail with notices := rest } })) ∧
    (∀ old new rest, s.mail.toEnforcement = .setupChange old new :: rest →
      (s.SwitchWaits old new → exec .setupChange s = .next s) ∧
      (¬s.SwitchWaits old new → ∃ t, exec .setupChange s = .next t ∧ SetupChangeTaken old new s t))

/-- The write filter (R127, R134, R135, R136): the written word becomes the intended word, a silence change is sent if the gain
codes lie on opposite sides of the mute code, the channel leaves the rewrite queue, and memory gets the word the part
stores for it; in RELEASING that is the written word, and the restore may be done with it (R156). That no restore is reported
while HALT or a report is on its way is the model's choice (log 13). -/
def Obligations.WriteFilter : Prop :=
  ∀ (b : Bases) (c : Chan) (data : Word) (s : State), s.path.bases = some b → b.Apart s.path.straps → s.Taking →
    s.setup.part = .active ∨ s.setup.part = .releasing →
    ∃ u v t stored, exec (.writeFilter c data) s = .next t ∧
      u = { s with
        enf := { s.enf with
          intended := s.enf.intended.set c data, queue := s.enf.queue.filter fun d => decide (d ≠ c) }
        mail := { s.mail with
          silence := s.mail.silence ++
            (if ((s.enf.intended[c].extractLsb' 0 8).toNat ≤ s.settings.muteCode ↔
                (data.extractLsb' 0 8).toNat ≤ s.settings.muteCode) then [] else [c]) } } ∧
      (c ∈ s.enf.queue → ReportsRestore u v) ∧ (c ∉ s.enf.queue → v = u) ∧
      s.StoredWord c data stored ∧
      t = { v with path := t.path } ∧
      Served (.write (pastBase b.gain c.val) data) (.write (pastBase b.gain c.val) stored) false s t

/-- The assertion of CEDE_N (R144, R148, R149, R152): in CLAIMING the claim is CEDED, its timer stopped, the burst write count 0,
a stall ended; then the write of the channel at the head of the queue is offered with the word formed now, or a burst with
nothing to write ends at once, or the read at the load position is offered; that an own access which a bus reset left at the
port is awaited first (log 15), and that an access which stayed presented arrives when a burst with nothing to write has returned
the bus (log 8), is the model's choice. In any other claim state the line alone changes. The claim timer's expiry sets the
stalled mark and reports a stall (R146). -/
def Obligations.CedeAssertionAndStall : Prop :=
  ∀ s : State,
    (s.lines.cede = true → exec .cedeAssert s = .next s) ∧
    (s.lines.cede = false → s.enf.claim ≠ .claiming →
      exec .cedeAssert s = .next { s with lines := { s.lines with cede := true } }) ∧
    (s.lines.cede = false → s.enf.claim = .claiming →
      let u : State := State.stallEnded { s with
        lines := { s.lines with cede := true }
        enf := { s.enf with claim := .ceded, claimTimer := .stopped, burstCount := 0, broken := false } }
      (s.path.ownInProgress = false ∨ (s.enf.purpose = some .burst ∧ s.enf.queue = []) →
        ∃ t, exec .cedeAssert s = .next t ∧ Proceeds u t) ∧
      (s.path.ownInProgress = true → s.enf.purpose = some .load ∨ s.enf.queue ≠ [] →
        exec .cedeAssert s = .next u)) ∧
    (s.enf.claimTimer = .due → s.enf.claim = .claiming →
      exec .claimTimerExpiry s = .next { s with
        enf := { s.enf with claimTimer := .stopped, stalled := true }
        mail := { s.mail with
          stalls := s.mail.stalls ++ (if s.setup.part = .active then [true] else [])
          toSetup := s.mail.toSetup ++ (if s.setup.part = .active then [] else [.stall]) } })

/-- The end of a burst write (R121, R145, R148, R149, R151): its word is stored and no other; the count rises; below the limit the
next channel's write is offered, formed now; with the queue empty or the count at 64 the claim is withdrawn and the bus
returned; after a broken cede the claim is withdrawn at once. A write whose claim a bus reset dropped ends without the
next (R158), and may end the restore (R156). That such a write, ending in a claim ceded since, does not raise that claim's
count and is followed by its first access (log 15), that a restore which ends with a broken cede is reported and taken in the same
step and none is reported while HALT or a report is on its way (log 13), and that an access which stayed presented arrives when
the bus is returned (log 8), is the model's choice. -/
def Obligations.BurstWriteEnd : Prop :=
  ∀ (c : Chan) (addr : Addr) (word : Word) (s : State), s.path.port = some (.burstWrite c addr word) →
    s.memory.wf = true →
    ∃ t u, exec .burstWriteEnd s = .next t ∧
      t.memory = u.memory ∧ u.memory.read addr.toNat = word ∧ SameMemoryBut (· = addr.toNat) s u ∧
      u = { s with
        memory := u.memory
        path := { s.path with port := s.path.waiting, waiting := none, lines := s.path.outputsAfter }
        enf := { s.enf with
          burstCount := if s.enf.orphan = true ∧ s.enf.claim = .ceded then s.enf.burstCount else s.enf.burstCount + 1
          orphan := false } } ∧
      (s.enf.claim = .ceded → Proceeds u t) ∧
      (s.enf.claim = .idle → s.enf.orphan = true → s.lines.busrst = false → ReportsRestore u t) ∧
      (s.enf.claim ≠ .ceded → s.enf.orphan = false ∨ s.enf.claim ≠ .idle ∨ s.lines.busrst = true → t = u)

/-- The load (R152, R153, R154, R158, R169, R174): the load request is taken once START's reset of the table is through, whether or
not START's clearing of the alert list has been taken, with position 0 and a claim; each read's word becomes its channel's intended
word and the next read is offered; after channel 63 the load ends: the reports on their way taken and then ACTIVE with result DONE,
the claim withdrawn, the enforced channels queued under ENFORCE and the bus returned; a gain write held during the load may be
filtered before these are queued or after, as `filterFirst` has it (R153). A broken cede takes the load back to position 0. A read
whose claim a bus reset dropped sets its word (R158); where another claim is ceded when it ends, what that claim asks for is offered
then, the first read of a new load among it. That any other held access is released after the enforced channels are queued
(log 24), what a read of a dropped claim does
at its end in a claim ceded since (log 15), that an access which stayed presented arrives when the bus is returned (log 8), that
no restore is reported while HALT or a report is on its way and that of a broken cede is taken in the same step (log 13), and
that a clearing still on its way is taken before ACTIVE (log 32), is the model's choice. -/
def Obligations.LoadRequestAndReads : Prop :=
  (∀ (rest : List ToEnforcement) (s : State), s.mail.toEnforcement = .loadRequest :: rest →
    ((∃ c, ToEvaluator.tableReset c ∈ s.mail.toEvaluator) → exec .loadRequest s = .next s) ∧
    ((∀ c, ToEvaluator.tableReset c ∉ s.mail.toEvaluator) →
      ∃ t, exec .loadRequest s = .next t ∧
        Claims { s with
          mail := { s.mail with toEnforcement := rest }, enf := { s.enf with loadPosition := some 0 } } t)) ∧
  (∀ (c : Chan) (addr : Addr) (s : State), s.path.port = some (.loadRead c addr) →
    ∀ filterFirst, ∃ t u, exec (.loadReadEnd filterFirst) s = .next t ∧
      u = { s with
        path := { s.path with port := s.path.waiting, waiting := none, lines := s.path.outputsAfter }
        enf := { s.enf with intended := s.enf.intended.set c (s.memory.read addr.toNat) } } ∧
      (s.enf.claim = .ceded → s.enf.orphan = false → s.enf.broken = true → BrokenCedeEnded u t) ∧
      (s.enf.claim = .ceded → s.enf.orphan = false → s.enf.broken = false →
        (∀ d : Chan, d.val = c.val + 1 →
          ∃ b, (∀ bases, s.path.bases = some bases → b = bases.gain) ∧
            Offered (.loadRead d (pastBase b d.val)) { u with enf := { u.enf with loadPosition := some d } } t) ∧
        (c.val = 63 →
          ∃ v w, ClearingsTaken u v ∧
            w = { v with
              enf := EnforcementUnit.withdrawn s.lines.cede { u.enf with loadPosition := none }
              mail := { v.mail with toSetup := [] }
              setup := { s.setup with
                part := .active, result := .done, busyFlag := false
                stalledFlag := flagAfter s.mail.toSetup s.setup.stalledFlag } } ∧
            (filterFirst = false ∨ ¬w.HoldsGainWrite → ∃ x, EnforcedQueued w x ∧ BusReturned x t) ∧
            (filterFirst = true → w.HoldsGainWrite → ∃ x y, Released w x ∧ EnforcedQueued x y ∧ Arrived y t))) ∧
      (s.enf.claim = .ceded → s.enf.orphan = true → Proceeds { u with enf := { u.enf with orphan := false } } t) ∧
      (s.enf.claim ≠ .ceded → s.enf.orphan = false → t = u) ∧
      (s.enf.claim = .idle → s.enf.orphan = true → s.lines.busrst = false →
        ReportsRestore { u with enf := { u.enf with orphan := false } } t) ∧
      (s.enf.claim ≠ .ceded → s.enf.orphan = true → s.enf.claim ≠ .idle ∨ s.lines.busrst = true →
        t = { u with enf := { u.enf with orphan := false } }))

/-- The fall of CEDE_N (R143, R145, R154, R156, R158): RELEASING_BUS becomes IDLE, and the unit claims again if work waits or
reports the restore done; in CEDED the cede is broken, and the claim withdrawn at once unless an own access is in progress; in
IDLE the unit claims if work waited for the line to fall; in CLAIMING the line alone changes. That an own access which is
offered and still waits for the port counts as in progress (log 14), that the restore-done report of a broken cede is taken in
the same step with the reports before it and none is sent while HALT or a report is on its way (log 13), and that an access
which stayed presented arrives when the bus is returned (log 8), is the model's choice. -/
def Obligations.CedeFall : Prop :=
  ∀ s : State,
    (s.lines.cede = false → exec .cedeFall s = .next s) ∧
    (s.lines.cede = true →
      let u : State := { s with lines := { s.lines with cede := false } }
      (s.enf.claim = .claiming → exec .cedeFall s = .next u) ∧
      (s.enf.claim = .idle → ∃ t, exec .cedeFall s = .next t ∧ Claims u t) ∧
      (s.enf.claim = .releasingBus →
        ∃ v t, exec .cedeFall s = .next t ∧
          Claims { u with enf := { u.enf with claim := .idle, purpose := none } } v ∧ ReportsRestore v t) ∧
      (s.enf.claim = .ceded → s.path.ownInProgress = true →
        exec .cedeFall s = .next { u with enf := { u.enf with broken := true } }) ∧
      (s.enf.claim = .ceded → s.path.ownInProgress = false →
        ∃ t, exec .cedeFall s = .next t ∧ BrokenCedeEnded u t))

/-- HALT at the enforcement unit (R155, R171): under ENFORCE the channels of the working setup join the queue, a standing stall is
reported to the setup and command unit, RELEASING ends in PASSIVE with result DONE if nothing is left to do, and the unit
claims if it may; the HALT write may then complete, and an access that stayed presented arrives. That the setup and command
unit takes the restore-done report of HALT itself in this step, after the reports before it, and that the write's READY has
waited for it, is the model's choice (log 13), and so is the arrival (log 8). HALT waits for the enrolment change of a channel that
an earlier APPLY has de-enrolled, which keeps the law of R141 and is the model's choice (log 34). -/
def Obligations.EnforcementHalt : Prop :=
  ∀ (rest : List ToEnforcement) (s : State), s.mail.toEnforcement = .halt :: rest →
    (s.HaltWaits → exec .enforcementHalt s = .next s) ∧
    (¬s.HaltWaits → ∃ u v t, exec .enforcementHalt s = .next t ∧ HaltTaken s u ∧ Completed u v ∧ Arrived v t)

/-- The reports to the setup and command unit (R156, R171, R174): a stall report sets the stalled flag, a stall-end report
clears it, and neither changes anything else; the restore-done report ends RELEASING in PASSIVE with result DONE and the
refused-while-busy flag clear, and changes nothing else. -/
def Obligations.ReportsToTheSetupUnit : Prop :=
  ∀ (rest : List ToSetup) (s : State),
    (s.mail.toSetup = .stall :: rest →
      exec .stallReport s = .next { s with
        mail := { s.mail with toSetup := rest }, setup := { s.setup with stalledFlag := true } }) ∧
    (s.mail.toSetup = .stallEnd :: rest →
      exec .stallEndReport s = .next { s with
        mail := { s.mail with toSetup := rest }, setup := { s.setup with stalledFlag := false } }) ∧
    (s.mail.toSetup = .restoreDone :: rest → s.setup.part = .releasing →
      exec .restoreDoneReport s = .next { s with
        mail := { s.mail with toSetup := rest }
        setup := { s.setup with part := .passive, result := .done, busyFlag := false } })

/-! ## Lamps, floor line, seconds -/

/-- The lamps (R177, R178, R179): at the end of its period a lamp begins a new one, lit, on the pending patterns if there are
any; at the end of its on-time it goes dark; the patterns of an APPLY become pending in SLOW and FAST and are taken at once
in OFF and STEADY, and the alert line enables at once. ALERT_N is asserted exactly in ACTIVE with a NEW entry of an enabled
family. -/
def Obligations.LampPatternsAndAlertLine : Prop :=
  (∀ (l : Lamp) (p : Pattern) (s : State), (s.lamps.get l).RunsOn p → 50 * p.period ≤ (s.lamps.get l).phase →
    exec (.periodBoundary l) s = .next { s with
      lamps := s.lamps.put l { s.lamps.get l with
        inUse := if (s.lamps.get l).pending = none then (s.lamps.get l).inUse else (s.lamps.get l).pending
        pending := none, phase := 0, lit := true } }) ∧
  (∀ (l : Lamp) (p : Pattern) (s : State), (s.lamps.get l).RunsOn p → 50 * p.onTime ≤ (s.lamps.get l).phase →
    (s.lamps.get l).lit = true →
    exec (.onTimeEnd l) s = .next { s with lamps := s.lamps.put l { s.lamps.get l with lit := false } }) ∧
  (∀ (w : SetupWords) (rest : List SetupWords) (s : State), s.mail.toLamps = w :: rest →
    ∃ t, exec .patternsPending s = .next t ∧
      t = { s with mail := { s.mail with toLamps := rest }, lamps := t.lamps } ∧
      t.lamps.enables =
        { battery := w[34].getLsbD 0, signal := w[34].getLsbD 1, mute := w[34].getLsbD 2, part := w[34].getLsbD 3 } ∧
      t.lamps.debounced = s.lamps.debounced ∧ t.lamps.debounce = s.lamps.debounce ∧
      ∀ l, ∀ p : Patterns, p =
          { slow := { period := (w[32].extractLsb' 8 8).toNat, onTime := (w[32].extractLsb' 0 8).toNat },
            fast := { period := (w[33].extractLsb' 8 8).toNat, onTime := (w[33].extractLsb' 0 8).toNat } } →
        t.lamps.get l =
          if (s.lamps.get l).mode = .slow ∨ (s.lamps.get l).mode = .fast then { s.lamps.get l with pending := some p }
          else (s.lamps.get l).usingNow p) ∧
  ∀ s : State, s.alertLine = true ↔ s.setup.part = .active ∧
    ∃ e ∈ s.alert.list, e.state = .new ∧
      ((e.family = .battery ∧ s.lamps.enables.battery = true) ∨ (e.family = .signal ∧ s.lamps.enables.signal = true) ∨
        (e.family = .mute ∧ s.lamps.enables.mute = true) ∨ (e.family = .part ∧ s.lamps.enables.part = true))

/-- The floor line (R180): a change that leaves the line at other than the debounced level starts the debounce timer 10 ms
ahead, one that leaves it at that level stops it; the expiry takes the line's level and sends one taken floor change. The
seconds step (R184): at phase 1000 the phase returns to 0 and the seconds count rises by 1, wrapping at 65536. -/
def Obligations.FloorLineAndSeconds : Prop :=
  ∀ s : State,
    (∀ b, b = s.lines.floor → exec (.floorLineChange b) s = .next s) ∧
    (∀ b, b ≠ s.lines.floor → s.powerReset = true →
      exec (.floorLineChange b) s = .next { s with lines := { s.lines with floor := b } }) ∧
    (∀ b, b ≠ s.lines.floor → s.powerReset = false →
      exec (.floorLineChange b) s = .next { s with
        lines := { s.lines with floor := b }
        lamps := { s.lamps with
          debounce := if b = s.lamps.debounced then .stopped else .running (s.time.ticks + 10) } }) ∧
    (s.lamps.debounce = .due →
      exec .debounceExpiry s = .next { s with
        lamps := { s.lamps with debounce := .stopped, debounced := s.lines.floor }
        mail := { s.mail with floor := s.mail.floor ++ [{ asserted := s.lines.floor, next := 0 }] } }) ∧
    (1000 ≤ s.time.phase →
      exec .secondsStep s = .next { s with time := { s.time with phase := 0, seconds := s.time.seconds + 1 } })

/-! ## What every step keeps -/

/-- Every step keeps the law of the alert list (R77, R78, R80 to R83, R93). -/
def Obligations.EveryStepKeepsTheAlertList : Prop :=
  ∀ s t : State, s.alert.Lawful → step s = .next t → t.alert.Lawful

/-- Every step keeps the law of every channel record (R1, R29, R37, R38, R50, R59, R65, R70 and the ranges of its counts). -/
def Obligations.EveryStepKeepsTheRecords : Prop :=
  ∀ s t : State, (∀ c : Chan, s.channels[c].Lawful) → step s = .next t → ∀ c : Chan, t.channels[c].Lawful

/-- Every step keeps memory's canonical form (log 2), the law of the setup and command unit (R123, R165, R166, R168), and the law
of the session: outside ACTIVE the alert list is empty (R106), no timer of a channel runs (R63), no condition is active, and none
is brought by an event that a session has left (R169); that HALT's reset and clearing are done within its step is the model's
reading of R171 (log 32). -/
def Obligations.EveryStepKeepsMemoryAndSetup : Prop :=
  ∀ s t : State, step s = .next t →
    (s.memory.wf = true → t.memory.wf = true) ∧ (s.SetupLawful → t.SetupLawful) ∧
    (s.EmptyOutsideActive → t.EmptyOutsideActive)

/-- Every step keeps the law of the enforcement unit (R137, R142, R146) and of the two ports (R120, R121, R129), and every lamp
in the mode that the live list asks, lit in STEADY, dark in OFF and without patterns (R176, R177). -/
def Obligations.EveryStepKeepsClaimsPortsAndLamps : Prop :=
  ∀ s t : State, step s = .next t →
    (s.enf.Lawful → t.enf.Lawful) ∧ (s.path.Lawful → t.path.Lawful) ∧ (s.LampsFollow → t.LampsFollow)

/-- The state at reset has all the laws that every step keeps. -/
def Obligations.ResetStateIsLawful : Prop :=
  State.reset.Lawful ∧ State.reset.LampsFollow ∧ State.reset.EmptyOutsideActive

end
end

