-- ==== Sys2Proof/Laws/AlertList.lean ====
section
/-! SUPPORT. The alert list unit: one lemma for each of its operations, up to the law of the list that every event keeps. -/

namespace Sys2Proof.Machine

/-! ## Pairs -/

theorem AlertEntry.isPair_iff (e : AlertEntry) (ch : AlertChannel) (f : Family) :
    e.isPair ch f = true ↔ (e.channel, e.family) = (ch, f) := by
  simp [AlertEntry.isPair]

theorem Kind.severity_pos (k : Kind) : 1 ≤ k.severity := by cases k <;> decide

theorem Kind.severity_le (k : Kind) : k.severity ≤ 3 := by cases k <;> decide

theorem UnlistedPair.key_eq (p q : UnlistedPair) (h : p.key = q.key) : p.channel = q.channel ∧ p.family = q.family := by
  have rank_le : ∀ f : Family, f.rank ≤ 3 := fun f => by cases f <;> decide
  have rank_inj : ∀ f g : Family, f.rank = g.rank → f = g := fun f g => by cases f <;> cases g <;> decide
  unfold UnlistedPair.key at h
  have := rank_le p.family
  have := rank_le q.family
  exact ⟨Fin.ext (by omega), rank_inj _ _ (by omega)⟩

theorem AlertUnit.entryOf_some {u : AlertUnit} {ch : AlertChannel} {f : Family} {e : AlertEntry}
    (h : u.entryOf ch f = some e) : e ∈ u.list ∧ e.isPair ch f = true :=
  ⟨List.mem_of_find?_eq_some h, by simpa using List.find?_some h⟩

theorem AlertUnit.entryOf_none {u : AlertUnit} {ch : AlertChannel} {f : Family} (h : u.entryOf ch f = none) :
    ∀ e ∈ u.list, e.isPair ch f = false := by
  simpa using List.find?_eq_none.1 h

/-! ## Places (R78) -/

theorem placeEntry_perm (e : AlertEntry) (l : List AlertEntry) : (placeEntry e l).Perm (e :: l) := by
  induction l with
  | nil => exact .refl _
  | cons x rest ih =>
    unfold placeEntry
    split
    · exact .refl _
    · exact (ih.cons x).trans (.swap e x rest)

theorem placeEntry_ranked (e : AlertEntry) (l : List AlertEntry)
    (h : l.Pairwise fun e f => f.severity ≤ e.severity) :
    (placeEntry e l).Pairwise fun e f => f.severity ≤ e.severity := by
  induction l with
  | nil => simp [placeEntry]
  | cons x rest ih =>
    obtain ⟨hx, hrest⟩ := List.pairwise_cons.1 h
    unfold placeEntry
    split
    · next hlt =>
      refine List.pairwise_cons.2 ⟨fun y hy => ?_, h⟩
      rcases List.mem_cons.1 hy with rfl | hy
      · exact hlt.le
      · exact (hx y hy).trans hlt.le
    · next hge =>
      refine List.pairwise_cons.2 ⟨fun y hy => ?_, ih hrest⟩
      rcases List.mem_cons.1 ((placeEntry_perm e rest).subset hy) with rfl | hy
      · exact not_lt.1 hge
      · exact hx y hy

theorem mem_dropPair (ch : AlertChannel) (f : Family) (l : List AlertEntry) (e : AlertEntry) :
    e ∈ dropPair ch f l ↔ e ∈ l ∧ e.isPair ch f = false := by
  simp [dropPair]

/-! ## Fresh sequences (R82, R83) -/

theorem seqAfter_ne_zero (n : Word) : seqAfter n ≠ 0 := by
  unfold seqAfter
  split
  · decide
  · next h =>
    intro h0
    have : n = 0xFFFF#16 := by
      have := congrArg (· - 1#16) h0
      simpa using this
    exact h this

theorem freeSeq_ne_zero (held : List Word) (tries : Nat) (n : Word) (h : n ≠ 0) : freeSeq held tries n ≠ 0 := by
  induction tries generalizing n with
  | zero => exact h
  | succ k ih =>
    unfold freeSeq
    split
    · exact ih _ (seqAfter_ne_zero n)
    · exact h



/-- The `i`-th value after a nonzero one on the counter's round of 65535 values. -/
theorem seqAfter_iterate_toNat (n : Word) (h : n ≠ 0) (i : Nat) :
    (seqAfter^[i] n).toNat = (n.toNat - 1 + i) % 65535 + 1 := by
  have pos : 0 < n.toNat := Nat.pos_of_ne_zero fun h0 => h (BitVec.eq_of_toNat_eq h0)
  have lt := n.isLt
  induction i with
  | zero =>
    rw [Function.iterate_zero_apply, Nat.add_zero, Nat.mod_eq_of_lt (by omega)]
    omega
  | succ i ih =>
    rw [Function.iterate_succ_apply']
    generalize seqAfter^[i] n = m at ih
    have hm := m.isLt
    unfold seqAfter
    split
    · next hmax =>
      have : m.toNat = 65535 := by rw [hmax]; rfl
      show 1 = _
      omega
    · next hmax =>
      have : m.toNat ≠ 65535 := fun h => hmax (BitVec.eq_of_toNat_eq h)
      rw [BitVec.toNat_add, show (1 : BitVec 16).toNat = 1 from rfl, Nat.mod_eq_of_lt (by omega)]
      omega

theorem freeSeq_held_all (held : List Word) (tries : Nat) (n : Word) (h : freeSeq held tries n ∈ held) :
    ∀ i ≤ tries, seqAfter^[i] n ∈ held := by
  induction tries generalizing n with
  | zero =>
    intro i hi
    obtain rfl : i = 0 := by omega
    exact h
  | succ k ih =>
    by_cases hn : n ∈ held
    · rw [freeSeq, if_pos hn] at h
      rintro (_ | i) hi
      · exact hn
      · exact ih _ h i (by omega)
    · rw [freeSeq, if_neg hn] at h
      exact absurd h hn

/-- With as many tries as held values, the value given is held by none (R82). -/
theorem freeSeq_fresh (held : List Word) (n : Word) (hn : n ≠ 0) (hl : held.length < 65535) :
    freeSeq held held.length n ∉ held := by
  intro h
  have all := freeSeq_held_all held held.length n h
  have inj : Set.InjOn (fun i => seqAfter^[i] n) (Finset.range (held.length + 1) : Set Nat) := by
    intro i hi j hj hij
    have hi' := Finset.mem_range.1 (Finset.mem_coe.1 hi)
    have hj' := Finset.mem_range.1 (Finset.mem_coe.1 hj)
    have := congrArg BitVec.toNat (show seqAfter^[i] n = seqAfter^[j] n from hij)
    rw [seqAfter_iterate_toNat n hn, seqAfter_iterate_toNat n hn] at this
    have pos : 0 < n.toNat := Nat.pos_of_ne_zero fun h0 => hn (BitVec.eq_of_toNat_eq h0)
    omega
  have sub : (Finset.range (held.length + 1)).image (fun i => seqAfter^[i] n) ⊆ held.toFinset := by
    intro x hx
    obtain ⟨i, hi, rfl⟩ := Finset.mem_image.1 hx
    exact List.mem_toFinset.2 (all i (by have := Finset.mem_range.1 hi; omega))
  have := Finset.card_le_card sub
  rw [Finset.card_image_of_injOn inj, Finset.card_range] at this
  exact absurd (this.trans (List.toFinset_card_le held)) (by omega)

/-! ## Orderly units -/

/-- What the law of the list reads of an entry. -/
def AlertEntry.shape (e : AlertEntry) : (AlertChannel × Family) × Nat × Word :=
  ((e.channel, e.family), e.severity, e.seq)

/-- A list whose shapes are some of the old shapes, in the old order, keeps the law between ranking steps: every removal,
and every change of an entry's state or of its kind within one severity. -/
theorem AlertUnit.Orderly.of_shapes {u : AlertUnit} (h : u.Orderly) {l : List AlertEntry} {un : List UnlistedPair}
    (hl : (l.map AlertEntry.shape).Sublist (u.list.map AlertEntry.shape)) (hun : un.Sublist u.unlisted)
    (v : AlertUnit) (hvl : v.list = l) (hvu : v.unlisted = un) (hvs : v.nextSeq = u.nextSeq) : v.Orderly := by
  have mem : ∀ e ∈ l, ∃ e' ∈ u.list, e'.shape = e.shape := fun e he =>
    List.mem_map.1 (hl.subset (List.mem_map_of_mem he))
  constructor
  · rw [hvl]
    have := hl.length_le
    simp only [List.length_map] at this
    exact this.trans h.capacity
  · rw [hvl]
    have := (hl.map Prod.fst).nodup
    simp only [List.map_map] at this
    exact this h.pairs
  · rw [hvl]
    have old : (u.list.map AlertEntry.shape).Pairwise fun a b => b.2.1 ≤ a.2.1 := List.pairwise_map.2 h.ranked
    exact List.pairwise_map.1 (old.sublist hl)
  · rw [hvl]
    have := (hl.map fun x => x.2.2).nodup
    simp only [List.map_map] at this
    exact this h.sequences
  · rw [hvl]
    intro e he
    obtain ⟨e', he', hs⟩ := mem e he
    have : e'.seq = e.seq := congrArg (fun x => x.2.2) hs
    exact this ▸ h.nonzero e' he'
  · rw [hvs]
    exact h.counter
  · rw [hvu]
    exact h.keys.sublist hun
  · rw [hvl, hvu]
    intro p hp e he
    obtain ⟨e', he', hs⟩ := mem e he
    have key : (e'.channel, e'.family) = (e.channel, e.family) := congrArg (fun x => x.1) hs
    have := h.apart p (hun.subset hp) e' he'
    rw [Bool.eq_false_iff, Ne, AlertEntry.isPair_iff] at this ⊢
    rwa [← key]

/-- A change of some entries that keeps their shapes keeps the law between ranking steps. -/
theorem AlertUnit.Orderly.of_map {u : AlertUnit} (h : u.Orderly) (g : AlertEntry → AlertEntry)
    (hg : ∀ e ∈ u.list, (g e).shape = e.shape) (v : AlertUnit) (hvl : v.list = u.list.map g)
    (hvu : v.unlisted = u.unlisted) (hvs : v.nextSeq = u.nextSeq) : v.Orderly := by
  refine h.of_shapes (l := u.list.map g) (un := u.unlisted) ?_ (.refl _) v hvl hvu hvs
  rw [List.map_map, List.map_congr_left (f := AlertEntry.shape ∘ g) (g := AlertEntry.shape) hg]

/-- A removal of entries keeps the law between ranking steps. -/
theorem AlertUnit.Orderly.of_sublist {u : AlertUnit} (h : u.Orderly) {l : List AlertEntry} {un : List UnlistedPair}
    (hl : l.Sublist u.list) (hun : un.Sublist u.unlisted) (v : AlertUnit) (hvl : v.list = l) (hvu : v.unlisted = un)
    (hvs : v.nextSeq = u.nextSeq) : v.Orderly :=
  h.of_shapes (hl.map _) hun v hvl hvu hvs

/-! ## Entries made NEW -/

theorem AlertUnit.freshSeq_fresh {u : AlertUnit} (h : u.Orderly) : ∀ e ∈ u.list, e.seq ≠ u.freshSeq := by
  intro e he heq
  have hlen : (u.list.map (·.seq)).length < 65535 := by
    have := h.capacity
    rw [List.length_map]
    unfold Config.listCapacity at this
    omega
  have := freeSeq_fresh (u.list.map (·.seq)) u.nextSeq h.counter hlen
  rw [List.length_map] at this
  exact this (List.mem_map.2 ⟨e, he, heq⟩)

theorem AlertUnit.freshSeq_ne_zero {u : AlertUnit} (h : u.Orderly) : u.freshSeq ≠ 0 :=
  freeSeq_ne_zero _ _ _ h.counter

/-- The shape of a list with an entry of a pair placed anew. -/
theorem placeEntry_orderly {u : AlertUnit} (h : u.Orderly) (e : AlertEntry)
    (room : (∃ x ∈ u.list, x.isPair e.channel e.family = true) ∨ u.list.length < Config.listCapacity)
    (hun : ∀ p ∈ u.unlisted, e.isPair (.mic p.channel) p.family = false)
    (hseq : ∀ x ∈ u.list, x.isPair e.channel e.family = false → x.seq ≠ e.seq) (h0 : e.seq ≠ 0)
    (v : AlertUnit) (hvl : v.list = placeEntry e (dropPair e.channel e.family u.list)) (hvu : v.unlisted = u.unlisted)
    (hvs : v.nextSeq ≠ 0) : v.Orderly := by
  have perm := placeEntry_perm e (dropPair e.channel e.family u.list)
  have sub : (dropPair e.channel e.family u.list).Sublist u.list := List.filter_sublist
  constructor
  · rw [hvl, perm.length_eq, List.length_cons]
    rcases room with ⟨x, hx, hp⟩ | hlt
    · have : (dropPair e.channel e.family u.list).length < u.list.length :=
        List.length_filter_lt_length_iff_exists.2 ⟨x, hx, by simp [hp]⟩
      exact this.trans_le h.capacity
    · exact Nat.lt_of_le_of_lt sub.length_le hlt
  · rw [hvl, (perm.map _).nodup_iff, List.map_cons, List.nodup_cons]
    refine ⟨fun hm => ?_, (sub.map _).nodup h.pairs⟩
    obtain ⟨x, hx, hk⟩ := List.mem_map.1 hm
    have := ((mem_dropPair _ _ _ _).1 hx).2
    rw [(AlertEntry.isPair_iff x e.channel e.family).2 hk] at this
    exact absurd this (by decide)
  · rw [hvl]
    exact placeEntry_ranked e _ (h.ranked.sublist sub)
  · rw [hvl, (perm.map _).nodup_iff, List.map_cons, List.nodup_cons]
    refine ⟨fun hm => ?_, (sub.map _).nodup h.sequences⟩
    obtain ⟨x, hx, hk⟩ := List.mem_map.1 hm
    obtain ⟨hx, hp⟩ := (mem_dropPair _ _ _ _).1 hx
    exact hseq x hx hp hk
  · rw [hvl]
    intro x hx
    rcases List.mem_cons.1 (perm.subset hx) with rfl | hx
    · exact h0
    · exact h.nonzero x (sub.subset hx)
  · exact hvs
  · rw [hvu]
    exact h.keys
  · rw [hvl, hvu]
    intro p hp x hx
    rcases List.mem_cons.1 (perm.subset hx) with rfl | hx
    · exact hun p hp
    · exact h.apart p hp x (sub.subset hx)

/-- An entry made NEW keeps the law between ranking steps, if its pair is listed or the list has room, and it is not
unlisted (R85, R86, R87, R95, R96). -/
theorem AlertUnit.makeNew_orderly {u : AlertUnit} (h : u.Orderly) (stamp : Word) (ch : AlertChannel) (f : Family)
    (k : Kind) (room : (∃ x ∈ u.list, x.isPair ch f = true) ∨ u.list.length < Config.listCapacity)
    (hun : ∀ p ∈ u.unlisted, (AlertChannel.mic p.channel, p.family) ≠ (ch, f)) :
    (u.makeNew stamp ch f k).Orderly := by
  refine placeEntry_orderly h
    { channel := ch, family := f, kind := k, state := .new, seq := u.freshSeq, stamp := stamp } room (fun p hp => ?_)
    (fun x hx _ => AlertUnit.freshSeq_fresh h x hx) (AlertUnit.freshSeq_ne_zero h) _ rfl rfl (seqAfter_ne_zero _)
  rw [Bool.eq_false_iff, Ne, AlertEntry.isPair_iff]
  exact fun he => hun p hp he.symm

/-! ## The unlisted set (R81, R93) -/

theorem mem_joinUnlisted (p : UnlistedPair) (l : List UnlistedPair) (q : UnlistedPair) (h : q ∈ joinUnlisted p l) :
    q = p ∨ q ∈ l := by
  induction l with
  | nil => simpa [joinUnlisted] using h
  | cons x rest ih =>
    unfold joinUnlisted at h
    split at h
    · simpa using h
    · split at h
      · rcases List.mem_cons.1 h with h | h
        · exact .inl h
        · exact .inr (List.mem_cons_of_mem _ h)
      · rcases List.mem_cons.1 h with h | h
        · exact .inr (h ▸ List.mem_cons_self)
        · rcases ih h with h | h
          · exact .inl h
          · exact .inr (List.mem_cons_of_mem _ h)

theorem joinUnlisted_keys (p : UnlistedPair) (l : List UnlistedPair) (h : l.Pairwise fun p q => p.key < q.key) :
    (joinUnlisted p l).Pairwise fun p q => p.key < q.key := by
  induction l with
  | nil => simp [joinUnlisted]
  | cons x rest ih =>
    obtain ⟨hx, hrest⟩ := List.pairwise_cons.1 h
    unfold joinUnlisted
    split
    · next hlt =>
      refine List.pairwise_cons.2 ⟨fun q hq => ?_, h⟩
      rcases List.mem_cons.1 hq with rfl | hq
      · exact hlt
      · exact hlt.trans (hx q hq)
    · split
      · next _ heq => exact List.pairwise_cons.2 ⟨fun q hq => heq ▸ hx q hq, hrest⟩
      · next hge hne =>
        refine List.pairwise_cons.2 ⟨fun q hq => ?_, ih hrest⟩
        rcases mem_joinUnlisted p rest q hq with rfl | hq
        · omega
        · exact hx q hq

/-- A pair joins the unlisted set, or its kind there is replaced: the law between ranking steps is kept if the pair has no
entry. -/
theorem AlertUnit.Orderly.join {u : AlertUnit} (h : u.Orderly) (p : UnlistedPair)
    (hp : ∀ e ∈ u.list, e.isPair (.mic p.channel) p.family = false) :
    AlertUnit.Orderly { u with unlisted := joinUnlisted p u.unlisted } where
  capacity := h.capacity
  pairs := h.pairs
  ranked := h.ranked
  sequences := h.sequences
  nonzero := h.nonzero
  counter := h.counter
  keys := joinUnlisted_keys p u.unlisted h.keys
  apart q hq e he := by
    rcases mem_joinUnlisted p u.unlisted q hq with rfl | hq
    · exact hp e he
    · exact h.apart q hq e he

theorem mem_leaveUnlisted (c : Chan) (f : Family) (l : List UnlistedPair) (p : UnlistedPair) :
    p ∈ leaveUnlisted c f l ↔ p ∈ l ∧ (p.channel, p.family) ≠ (c, f) := by
  simp only [leaveUnlisted, List.mem_filter, Bool.not_eq_true', Bool.and_eq_false_imp, decide_eq_true_eq,
    decide_eq_false_iff_not, ne_eq, Prod.mk.injEq, not_and]

/-- The most severe pair is a member, and no member is more severe (R93). -/
theorem mostSevere_some {l : List UnlistedPair} {p : UnlistedPair} (h : mostSevere l = some p) :
    p ∈ l ∧ ∀ q ∈ l, q.severity ≤ p.severity := by
  induction l generalizing p with
  | nil => simp [mostSevere] at h
  | cons x rest ih =>
    unfold mostSevere at h
    split at h
    · next hnone =>
      cases h
      have : rest = [] := by
        cases rest with
        | nil => rfl
        | cons y ys =>
          unfold mostSevere at hnone
          split at hnone <;> [skip; split at hnone] <;> simp at hnone
      subst this
      simp
    · next q hq =>
      obtain ⟨hmem, hmax⟩ := ih hq
      split at h
      · next hlt =>
        cases h
        refine ⟨List.mem_cons_of_mem _ hmem, fun y hy => ?_⟩
        rcases List.mem_cons.1 hy with rfl | hy
        · exact hlt.le
        · exact hmax y hy
      · next hge =>
        cases h
        refine ⟨List.mem_cons_self, fun y hy => ?_⟩
        rcases List.mem_cons.1 hy with rfl | hy
        · exact le_rfl
        · exact (hmax y hy).trans (not_lt.1 hge)

theorem mostSevere_none {l : List UnlistedPair} (h : mostSevere l = none) : l = [] := by
  cases l with
  | nil => rfl
  | cons y ys =>
    unfold mostSevere at h
    split at h <;> [skip; split at h] <;> simp at h

/-! ## Evictions, promotions and the ranking rule (R93, R94, R95) -/

theorem AlertUnit.evictLast_list (u : AlertUnit) : u.evictLast.list = u.list.dropLast := by
  unfold AlertUnit.evictLast
  split
  · next h => rw [List.getLast?_eq_none_iff.1 h, List.dropLast_nil]
  · rfl

theorem AlertUnit.evictLast_nextSeq (u : AlertUnit) : u.evictLast.nextSeq = u.nextSeq := by
  unfold AlertUnit.evictLast
  split <;> rfl

theorem AlertUnit.evictLast_orderly {u : AlertUnit} (h : u.Orderly) : u.evictLast.Orderly := by
  have drop : AlertUnit.Orderly { u with list := u.list.dropLast } :=
    h.of_sublist (List.dropLast_sublist _) (.refl _) _ rfl rfl rfl
  unfold AlertUnit.evictLast
  split
  · exact h
  · next e he =>
    have gone : ∀ x ∈ u.list.dropLast, x.isPair e.channel e.family = false := by
      intro x hx
      rw [Bool.eq_false_iff, Ne, AlertEntry.isPair_iff]
      intro hk
      have split := List.dropLast_append_getLast? e he
      have hp := h.pairs
      rw [← split, List.map_append, List.nodup_append] at hp
      exact hp.2.2 _ (List.mem_map.2 ⟨x, hx, hk⟩) _ (by simp) rfl
    split
    · exact drop
    all_goals first
      | exact drop
      | (next c _ hc => exact drop.join { channel := c, family := e.family, kind := e.kind } fun x hx => hc ▸ gone x hx)

theorem AlertUnit.promote_orderly {u : AlertUnit} (h : u.Orderly) (stamp : Word) (p : UnlistedPair)
    (room : u.list.length < Config.listCapacity) : (u.promote stamp p).Orderly := by
  unfold AlertUnit.promote
  have left : AlertUnit.Orderly { u with unlisted := leaveUnlisted p.channel p.family u.unlisted } :=
    h.of_sublist (.refl _) List.filter_sublist _ rfl rfl rfl
  refine AlertUnit.makeNew_orderly left stamp _ _ _ (.inr room) ?_
  intro q hq heq
  obtain ⟨-, hne⟩ := (mem_leaveUnlisted _ _ _ q).1 hq
  exact hne (by simpa using heq)

theorem mem_joinUnlisted_of_ne (p : UnlistedPair) (l : List UnlistedPair) (q : UnlistedPair) (hq : q ∈ l)
    (hne : q.key ≠ p.key) : q ∈ joinUnlisted p l := by
  induction l with
  | nil => simp at hq
  | cons x rest ih =>
    unfold joinUnlisted
    split
    · exact List.mem_cons_of_mem _ hq
    · split
      · next _ heq =>
        rcases List.mem_cons.1 hq with rfl | hq
        · exact absurd heq.symm hne
        · exact List.mem_cons_of_mem _ hq
      · rcases List.mem_cons.1 hq with rfl | hq
        · exact List.mem_cons_self
        · exact List.mem_cons_of_mem _ (ih hq)

/-- The eviction leaves an unlisted pair unlisted. -/
theorem AlertUnit.mem_evictLast_unlisted {u : AlertUnit} (h : u.Orderly) {p : UnlistedPair} (hp : p ∈ u.unlisted) :
    p ∈ u.evictLast.unlisted := by
  unfold AlertUnit.evictLast
  split
  · exact hp
  · next e he =>
    have hne : ∀ c, e.channel = .mic c → p.key ≠ ({ channel := c, family := e.family, kind := e.kind } : UnlistedPair).key := by
      intro c hc hk
      obtain ⟨h1, h2⟩ := UnlistedPair.key_eq _ _ hk
      have := h.apart p hp e (List.mem_of_getLast? he)
      rw [Bool.eq_false_iff, Ne, AlertEntry.isPair_iff] at this
      exact this (by rw [hc, h1, h2])
    simp only
    split
    · exact hp
    all_goals first
      | exact hp
      | (next c _ hc => exact mem_joinUnlisted_of_ne _ _ _ hp (hne c hc))

/-- The sum of the severities of a list. -/
def listWeight (l : List AlertEntry) : Nat := (l.map AlertEntry.severity).sum

theorem listWeight_le (l : List AlertEntry) : listWeight l ≤ 3 * l.length := by
  induction l with
  | nil => simp [listWeight]
  | cons x rest ih =>
    have := Kind.severity_le x.kind
    simp only [listWeight, List.map_cons, List.sum_cons, List.length_cons, AlertEntry.severity] at ih ⊢
    omega

/-- A promotion adds the pair's severity to the weight. -/
theorem AlertUnit.promote_weight {u : AlertUnit} (h : u.Orderly) (stamp : Word) {p : UnlistedPair} (hp : p ∈ u.unlisted) :
    listWeight (u.promote stamp p).list = p.severity + listWeight u.list := by
  have same : dropPair (.mic p.channel) p.family u.list = u.list :=
    List.filter_eq_self.2 fun e he => by rw [h.apart p hp e he]; rfl
  show listWeight (placeEntry _ (dropPair _ _ u.list)) = _
  rw [same]
  unfold listWeight
  rw [((placeEntry_perm _ _).map _).sum_eq]
  rfl

/-- Each step of the ranking rule keeps the law between steps and makes the list heavier (R93). -/
theorem AlertUnit.rankStep_some {u v : AlertUnit} (h : u.Orderly) (stamp : Word) (hs : u.rankStep stamp = some v) :
    v.Orderly ∧ listWeight u.list < listWeight v.list := by
  unfold AlertUnit.rankStep at hs
  split at hs
  · cases hs
  next p hp =>
  obtain ⟨hmem, -⟩ := mostSevere_some hp
  split at hs
  · next hlt =>
    cases hs
    refine ⟨AlertUnit.promote_orderly h stamp p hlt, ?_⟩
    rw [AlertUnit.promote_weight h stamp hmem]
    have : 1 ≤ p.severity := Kind.severity_pos p.kind
    omega
  · split at hs
    · cases hs
    next e he =>
    split at hs
    · next hlt =>
      simp only at hs
      split at hs
      · cases hs
      next q hq =>
      cases hs
      obtain ⟨hqm, hmax⟩ := mostSevere_some hq
      have hv := AlertUnit.evictLast_orderly h
      have weight : listWeight u.list = listWeight u.evictLast.list + e.severity := by
        rw [AlertUnit.evictLast_list]
        conv_lhs => rw [← List.dropLast_append_getLast? e he]
        simp [listWeight]
      have ge := hmax p (AlertUnit.mem_evictLast_unlisted h hmem)
      have room : u.evictLast.list.length < Config.listCapacity := by
        have := h.capacity
        have pos : 0 < u.list.length := List.length_pos_of_mem (List.mem_of_getLast? he)
        rw [AlertUnit.evictLast_list, List.length_dropLast]
        omega
      refine ⟨AlertUnit.promote_orderly hv stamp q room, ?_⟩
      rw [AlertUnit.promote_weight hv stamp hqm]
      omega
    · cases hs

/-- When no step of the ranking rule applies, the law of the list holds (R93). -/
theorem AlertUnit.rankStep_none {u : AlertUnit} (h : u.Orderly) (stamp : Word) (hs : u.rankStep stamp = none) :
    u.Lawful := by
  unfold AlertUnit.rankStep at hs
  split at hs
  · next hnone =>
    have hu := mostSevere_none hnone
    exact { h with full := fun hne => absurd hu hne, outranked := fun p hp => by simp [hu] at hp }
  next p hp =>
  obtain ⟨hmem, hmax⟩ := mostSevere_some hp
  split at hs
  · cases hs
  next hge =>
  have hlen : u.list.length = Config.listCapacity := le_antisymm h.capacity (not_lt.1 hge)
  split at hs
  · next hnone =>
    rw [List.getLast?_eq_none_iff.1 hnone] at hlen
    exact absurd hlen (by decide)
  next e he =>
  split at hs
  · simp only at hs
    split at hs
    · next hnone =>
      have := AlertUnit.mem_evictLast_unlisted h hmem
      rw [mostSevere_none hnone] at this
      cases this
    · cases hs
  next hnlt =>
  refine { h with full := fun _ => hlen, outranked := fun q hq x hx => ?_ }
  have hlast : e.severity ≤ x.severity := by
    have hr := h.ranked
    rw [← List.dropLast_append_getLast? e he] at hr hx
    rcases List.mem_append.1 hx with hx | hx
    · exact (List.pairwise_append.1 hr).2.2 x hx e (by simp)
    · rw [List.mem_singleton.1 hx]
  exact ((hmax q hq).trans (not_lt.1 hnlt)).trans hlast

theorem AlertUnit.rankFor_lawful (stamp : Word) (tries : Nat) (u : AlertUnit) (h : u.Orderly)
    (ht : 96 < tries + listWeight u.list) : (u.rankFor stamp tries).Lawful := by
  induction tries generalizing u with
  | zero =>
    have := listWeight_le u.list
    have := h.capacity
    unfold Config.listCapacity at this
    omega
  | succ k ih =>
    unfold AlertUnit.rankFor
    split
    · next hs => exact AlertUnit.rankStep_none h stamp hs
    · next v hs =>
      obtain ⟨hv, hw⟩ := AlertUnit.rankStep_some h stamp hs
      exact ih v hv (by omega)

/-- The ranking rule restores the law of the list (R93). -/
theorem AlertUnit.rank_lawful (stamp : Word) {u : AlertUnit} (h : u.Orderly) : (u.rank stamp).Lawful :=
  AlertUnit.rankFor_lawful stamp Config.rankingTries u h (by unfold Config.rankingTries; omega)

/-- Where nothing waits unlisted, the ranking rule changes nothing (R93). -/
theorem AlertUnit.rank_of_unlisted_nil (stamp : Word) {u : AlertUnit} (h : u.unlisted = []) : u.rank stamp = u := by
  unfold AlertUnit.rank Config.rankingTries AlertUnit.rankFor AlertUnit.rankStep
  rw [h]
  rfl

/-! ## The events -/

/-- An event whose own change keeps the law between ranking steps leaves the law of the list (R84, R93). -/
theorem AlertUnit.event_lawful (stamp : Word) (f : AlertUnit → AlertUnit) {u : AlertUnit} (h : (f u).Orderly) :
    (u.event stamp f).Lawful := by
  unfold AlertUnit.event
  simp only
  have hr := AlertUnit.rank_lawful stamp h
  split
  · exact hr
  · exact { hr with }

theorem AlertUnit.pair_not_unlisted {u : AlertUnit} (h : u.Orderly) {ch : AlertChannel} {f : Family} {e : AlertEntry}
    (he : e ∈ u.list) (hp : e.isPair ch f = true) : ∀ p ∈ u.unlisted, (AlertChannel.mic p.channel, p.family) ≠ (ch, f) := by
  intro p hpu heq
  have := h.apart p hpu e he
  rw [Bool.eq_false_iff, Ne, AlertEntry.isPair_iff] at this
  rw [AlertEntry.isPair_iff] at hp
  exact this (hp.trans heq.symm)

theorem not_isUnlisted {c : Chan} {f : Family} {l : List UnlistedPair} (h : isUnlisted c f l = false) :
    ∀ p ∈ l, (AlertChannel.mic p.channel, p.family) ≠ (.mic c, f) := by
  intro p hp heq
  simp only [Prod.mk.injEq, AlertChannel.mic.injEq] at heq
  have : isUnlisted c f l = true := List.any_eq_true.2 ⟨p, hp, by simp [heq.1, heq.2]⟩
  rw [h] at this
  cases this

/-- A raise keeps the law between ranking steps (R85, R86, R92). -/
theorem AlertUnit.raise_orderly {u : AlertUnit} (h : u.Orderly) (stamp : Word) (c : Chan) (f : Family) (k : Kind) :
    (u.raise stamp c f k).Orderly := by
  unfold AlertUnit.raise
  split
  · next e he =>
    obtain ⟨hm, hp⟩ := AlertUnit.entryOf_some he
    split
    · exact AlertUnit.makeNew_orderly h stamp _ _ _ (.inl ⟨e, hm, hp⟩) (AlertUnit.pair_not_unlisted h hm hp)
    all_goals exact h
  · next hnone =>
    split
    · exact h
    · next hun =>
      split
      · next hlt =>
        exact AlertUnit.makeNew_orderly h stamp _ _ _ (.inr hlt) (not_isUnlisted (Bool.eq_false_iff.2 hun))
      · exact h.join { channel := c, family := f, kind := k } (AlertUnit.entryOf_none hnone)

/-- A change of the entry of a pair that keeps shapes keeps the law between ranking steps. -/
theorem AlertUnit.Orderly.of_mapPair {u : AlertUnit} (h : u.Orderly) (ch : AlertChannel) (f : Family)
    (g : AlertEntry → AlertEntry) (hg : ∀ e ∈ u.list, e.isPair ch f = true → (g e).shape = e.shape) :
    AlertUnit.Orderly { u with list := mapPair ch f g u.list } := by
  refine h.of_map (fun e => if e.isPair ch f then g e else e) (fun e he => ?_) _ rfl rfl rfl
  split
  · next hp => exact hg e he hp
  · rfl

/-- The entry of a pair is one entry. -/
theorem AlertUnit.Orderly.pair_unique {u : AlertUnit} (h : u.Orderly) {ch : AlertChannel} {f : Family} {x y : AlertEntry}
    (hx : x ∈ u.list) (hy : y ∈ u.list) (hpx : x.isPair ch f = true) (hpy : y.isPair ch f = true) : x = y :=
  List.inj_on_of_nodup_map h.pairs hx hy
    (((AlertEntry.isPair_iff x ch f).1 hpx).trans ((AlertEntry.isPair_iff y ch f).1 hpy).symm)

/-- A kind change of a listed active entry keeps the law between ranking steps (R87, R88, R89). -/
theorem AlertUnit.changeListed_orderly {u : AlertUnit} (h : u.Orderly) (stamp : Word) (c : Chan) (f : Family) (k : Kind)
    {e : AlertEntry} (hm : e ∈ u.list) (hp : e.isPair (.mic c) f = true) : (u.changeListed stamp c f k e).Orderly := by
  have hkey := (AlertEntry.isPair_iff e (.mic c) f).1 hp
  unfold AlertUnit.changeListed
  split
  · exact AlertUnit.makeNew_orderly h stamp _ _ _ (.inl ⟨e, hm, hp⟩) (AlertUnit.pair_not_unlisted h hm hp)
  · split
    · have hc : e.channel = .mic c := congrArg Prod.fst hkey
      have hf : e.family = f := congrArg Prod.snd hkey
      refine placeEntry_orderly h { e with kind := k } (.inl ⟨e, hm, by simpa [hc, hf] using hp⟩) (fun p hpu => ?_)
        (fun x hx hxp heq => ?_) (h.nonzero e hm) _ (by simp [hc, hf]) rfl h.counter
      · exact h.apart p hpu e hm
      · have : x = e := List.inj_on_of_nodup_map h.sequences hx hm heq
        subst this
        rw [hc, hf] at hxp
        simp [hxp] at hp
    · next h1 h2 =>
      refine h.of_mapPair _ _ _ fun x hx hxp => ?_
      obtain rfl := h.pair_unique hx hm hxp hp
      have hsev : k.severity = x.kind.severity := le_antisymm (not_lt.1 h1) (not_lt.1 h2)
      simp [AlertEntry.shape, AlertEntry.severity, hsev]

/-- A kind change keeps the law between ranking steps (R87 to R90, R92). -/
theorem AlertUnit.changeKind_orderly {u : AlertUnit} (h : u.Orderly) (stamp : Word) (c : Chan) (f : Family) (k : Kind) :
    (u.changeKind stamp c f k).Orderly := by
  unfold AlertUnit.changeKind
  split
  · next e he =>
    obtain ⟨hm, hp⟩ := AlertUnit.entryOf_some he
    split
    · exact h
    all_goals exact AlertUnit.changeListed_orderly h stamp c f k hm hp
  · next hnone =>
    split
    · exact h.join { channel := c, family := f, kind := k } (AlertUnit.entryOf_none hnone)
    · exact h

theorem AlertUnit.clearListed_orderly {u : AlertUnit} (h : u.Orderly) (ch : AlertChannel) (f : Family) (e : AlertEntry) :
    (u.clearListed ch f e).Orderly := by
  unfold AlertUnit.clearListed
  split
  · exact h.of_mapPair _ _ _ fun _ _ _ => rfl
  · exact h.of_mapPair _ _ _ fun _ _ _ => rfl
  · exact h.of_sublist List.filter_sublist (.refl _) _ rfl rfl rfl
  · exact h

/-- A clearing keeps the law between ranking steps (R91, R92). -/
theorem AlertUnit.clearPair_orderly {u : AlertUnit} (h : u.Orderly) (c : Chan) (f : Family) :
    (u.clearPair c f).Orderly := by
  unfold AlertUnit.clearPair
  split
  · exact AlertUnit.clearListed_orderly h _ _ _
  · exact h.of_sublist (.refl _) List.filter_sublist _ rfl rfl rfl

/-- CLAIM_STALLED becoming active keeps the law between ranking steps (R96). -/
theorem AlertUnit.stallActive_orderly {u : AlertUnit} (h : u.Orderly) (stamp : Word) : (u.stallActive stamp).Orderly := by
  unfold AlertUnit.stallActive
  split
  · next e he =>
    obtain ⟨hm, hp⟩ := AlertUnit.entryOf_some he
    split
    · exact AlertUnit.makeNew_orderly h stamp _ _ _ (.inl ⟨e, hm, hp⟩) (AlertUnit.pair_not_unlisted h hm hp)
    all_goals exact h
  · split
    · next hlt => exact AlertUnit.makeNew_orderly h stamp _ _ _ (.inr hlt) (fun p _ => by simp)
    · next hge =>
      refine AlertUnit.makeNew_orderly (AlertUnit.evictLast_orderly h) stamp _ _ _ (.inr ?_) (fun p _ => by simp)
      have := h.capacity
      rw [AlertUnit.evictLast_list, List.length_dropLast]
      unfold Config.listCapacity at *
      omega

/-- CLAIM_STALLED becoming inactive keeps the law between ranking steps (R96). -/
theorem AlertUnit.stallInactive_orderly {u : AlertUnit} (h : u.Orderly) : u.stallInactive.Orderly := by
  unfold AlertUnit.stallInactive
  split
  · exact AlertUnit.clearListed_orderly h _ _ _
  · exact h

/-- A change of the entry of a sequence that keeps shapes keeps the law between ranking steps. -/
theorem AlertUnit.Orderly.of_mapSeq {u : AlertUnit} (h : u.Orderly) (seq : Word) (g : AlertEntry → AlertEntry)
    (hg : ∀ e, (g e).shape = e.shape) (v : AlertUnit) (hvl : v.list = mapSeq seq g u.list)
    (hvu : v.unlisted = u.unlisted) (hvs : v.nextSeq = u.nextSeq) : v.Orderly := by
  refine h.of_map (fun e => if e.seq = seq then g e else e) (fun e _ => ?_) v hvl hvu hvs
  split
  · exact hg e
  · rfl

/-- A read mark keeps the law between ranking steps (R97). -/
theorem AlertUnit.readMark_orderly {u : AlertUnit} (h : u.Orderly) (seq : Word) : (u.readMark seq).Orderly :=
  h.of_mapSeq seq AlertEntry.markSeen (fun e => by unfold AlertEntry.markSeen; split <;> rfl) _ rfl rfl rfl

/-- An acknowledgement keeps the law between ranking steps (R98). -/
theorem AlertUnit.acknowledge_orderly {u : AlertUnit} (h : u.Orderly) (seq : Word) : (u.acknowledge seq).Orderly := by
  have same : ∀ r, AlertUnit.Orderly { u with ackResult := r, ackValue := seq } := fun _ => { h with }
  unfold AlertUnit.acknowledge
  split
  · exact same _
  · split
    · exact h.of_mapSeq seq (fun x => { x with state := .acked }) (fun _ => rfl) _ rfl rfl rfl
    · exact h.of_mapSeq seq (fun x => { x with state := .acked }) (fun _ => rfl) _ rfl rfl rfl
    · exact same _
    · exact h.of_sublist List.filter_sublist (.refl _) _ rfl rfl rfl

/-- An acknowledgement write keeps the law between ranking steps (R116). -/
theorem AlertUnit.acknowledgementWrite_orderly {u : AlertUnit} (h : u.Orderly) (v : Option AlertEntry) (value : Word) :
    (u.acknowledgementWrite v value).Orderly := by
  unfold AlertUnit.acknowledgementWrite
  split
  · exact { h with }
  · split
    · exact AlertUnit.acknowledge_orderly h value
    · exact { h with }

/-- ACK_ALL keeps the law between ranking steps (R101). -/
theorem AlertUnit.ackAll_orderly {u : AlertUnit} (h : u.Orderly) : u.ackAll.Orderly := by
  have kept : AlertUnit.Orderly { u with list := u.list.filter fun e => decide (e.state ≠ .cleared) } :=
    h.of_sublist List.filter_sublist (.refl _) _ rfl rfl rfl
  exact kept.of_map (fun e => { e with state := .acked }) (fun _ _ => rfl) _ rfl rfl rfl

/-- A removal keeps the law between ranking steps (R105). -/
theorem AlertUnit.remove_orderly {u : AlertUnit} (h : u.Orderly) (cs : List Chan) : (u.remove cs).Orderly :=
  h.of_sublist List.filter_sublist List.filter_sublist _ rfl rfl rfl

/-- The cleared unit is lawful (R106). -/
theorem AlertUnit.cleared_lawful : AlertUnit.cleared.Lawful := by
  constructor
  · constructor <;> simp [AlertUnit.cleared]
  all_goals simp [AlertUnit.cleared]

/-- An event of the alert list unit leaves the law of the list (R84, R93). -/
theorem listEvent_lawful (f : AlertUnit → AlertUnit) {s : State} (h : (f s.alert).Orderly) :
    (listEvent f s).alert.Lawful :=
  AlertUnit.event_lawful s.time.seconds f h

/-- The same, of an event discarded unless the part is ACTIVE (R84). -/
theorem listEventIfActive_lawful (f : AlertUnit → AlertUnit) {s : State} (h : (f s.alert).Orderly) (hs : s.alert.Lawful) :
    (listEventIfActive f s).alert.Lawful := by
  unfold listEventIfActive
  split
  · exact listEvent_lawful f h
  · exact hs

end Sys2Proof.Machine
end

