-- ==== Sys2Proof/Laws/Channels.lean ====
section
/-! SUPPORT. The channel evaluator: each part of an event keeps the law of a record, and what one event of a channel
changes. -/

namespace Sys2Proof.Machine

/-! ## The law of a record (R1, R29, R37, R38, R50, R59, R65, R70) -/

theorem ChannelRecord.powerReset_lawful : ChannelRecord.powerReset.Lawful := by
  constructor <;> simp [ChannelRecord.powerReset, ConditionSet.empty, ConditionSet.withBattery]

/-- The values at START and at a new enrolment are lawful (R10, R11). -/
theorem startRecord_lawful (w : SetupWords) (b : Bool) (c : Chan) : (startRecord w b c).Lawful := by
  unfold startRecord
  split
  · constructor <;>
      simp [ChannelRecord.powerReset, ConditionSet.empty, ConditionSet.withBattery, SetupWords.roleOf]
    cases w.isChair c <;> simp
  · exact ChannelRecord.powerReset_lawful

theorem Timer.start_ne_stopped (now : Millis) (n : Nat) : Timer.start now n ≠ .stopped := by simp [Timer.start]

theorem Timer.startIfStopped_ne_stopped (now : Millis) (n : Nat) (t : Timer) : t.startIfStopped now n ≠ .stopped := by
  cases t <;> simp [Timer.startIfStopped, Timer.start]

theorem Timer.tick_stopped_iff (now : Millis) (t : Timer) : t.tick now = .stopped ↔ t = .stopped := by
  cases t <;> simp [Timer.tick]
  split <;> simp

/-- A tick keeps the law (R15). -/
theorem ChannelRecord.tick_lawful (now : Millis) {r : ChannelRecord} (h : r.Lawful) : (r.tick now).Lawful := by
  refine ⟨fun hr => ?_, ?_, ?_, fun ha => ?_, h.weak, h.lost, h.noReport, h.dropouts, h.squelch, h.fadeRun, h.dropoutCount,
    h.capture, h.missed, h.battery, h.report, h.floor, h.speech, ⟨h.openIdle.1, fun ho => ?_⟩⟩
  · rw [h.idle hr]; rfl
  · exact (Timer.tick_stopped_iff now _).trans h.dropoutTimer
  · exact (Timer.tick_stopped_iff now _).trans h.freshTimer
  · exact ⟨(h.absent ha).1, (Timer.tick_stopped_iff now _).2 (h.absent ha).2.1, (h.absent ha).2.2⟩
  · exact (Timer.tick_stopped_iff now _).2 (h.openIdle.2 ho)

/-- An offer to the capture keeps the law of an enrolled record (R35). -/
theorem ChannelRecord.offer_lawful (rec : CaptureRecord) {r : ChannelRecord} (h : r.Lawful) (he : r.enrolled = true) :
    (r.offer rec).Lawful := by
  obtain ⟨_, h2, h3, h4, h5, h6, h7, h8, h9, h10, h11, h12, h13, h14, h15, h16, h17, h18⟩ := h
  unfold ChannelRecord.offer
  split
  · next hh =>
    exact ⟨fun hr => by simp [he] at hr, h2, h3, h4, h5, h6, h7, h8, h9, h10, h11, h12,
      ⟨by simp, fun hf => by simp [hh] at hf⟩, h14, h15, h16, h17, h18⟩
  · next hh =>
    exact ⟨fun hr => by simp [he] at hr, h2, h3, h4, h5, h6, h7, h8, h9, h10, h11, by simp,
      ⟨h13.1, fun hf => by simp at hf⟩, h14, h15, h16, h17, h18⟩

/-- What the law says of the parts that the link stage leaves alone. -/
structure ChannelRecord.Rest (r : ChannelRecord) : Prop where
  enrolled : r.enrolled = true
  dropouts : r.active.dropouts = r.dropoutsRaised
  dropoutCount : r.dropoutCount ≤ 15
  capture : r.captureHeld = true → r.capture ≠ none
  missed : r.captureMissed ≤ 15 ∧ (r.captureHeld = false → r.captureMissed = 0)
  battery : r.active = r.active.withBattery r.battery
  report : (r.battery = .unknown ↔ r.batteryLevel = none) ∧ (r.batteryLevel = none ↔ r.chemistry = none) ∧
    ∀ l, r.batteryLevel = some l → l.toNat ≤ 100
  floor : r.role = .chair → r.floorCause = false
  speech : r.speechCount ≤ 255 ∧ r.active.mutedSpeech = r.mutedSpeechRaised ∧
    (r.mutedSpeechRaised = true → 0 < r.speechCount)
  openIdle : r.active.openIdle = r.openIdleRaised ∧ (r.openIdleRaised = true → r.idleTimer = .stopped)

theorem ChannelRecord.Lawful.rest {r : ChannelRecord} (h : r.Lawful) (he : r.enrolled = true) : r.Rest :=
  ⟨he, h.dropouts, h.dropoutCount, h.capture, h.missed, h.battery, h.report, h.floor, h.speech, h.openIdle⟩

theorem ConditionSet.withBattery_eq_iff (a : ConditionSet) (b : BatteryState) :
    a = a.withBattery b ↔
      a.notice = decide (b = .notice) ∧ a.low = decide (b = .low) ∧ a.critical = decide (b = .critical) := by
  cases a
  simp [ConditionSet.withBattery]

theorem ChannelRecord.Lawful.batteryFlags {r : ChannelRecord} (h : r.Lawful) :
    r.active.notice = decide (r.battery = .notice) ∧ r.active.low = decide (r.battery = .low) ∧
      r.active.critical = decide (r.battery = .critical) :=
  (ConditionSet.withBattery_eq_iff _ _).1 h.battery

/-- The rest of the law and the link's own clauses make the law of an enrolled record. -/
theorem ChannelRecord.Rest.lawful {r : ChannelRecord} (h : r.Rest)
    (dropoutTimer : r.dropoutTimer = .stopped ↔ r.link ≠ .dropout)
    (freshTimer : r.freshTimer = .stopped ↔ (r.link = .absent ∨ r.link = .silent))
    (absent : r.link = .absent → r.dropoutCount = 0 ∧ r.windowTimer = .stopped ∧ r.dropoutsRaised = false)
    (conditions : r.active.weak = decide (r.link = .weak) ∧ r.active.lost = decide (r.link = .lost) ∧
      r.active.noReport = decide (r.link = .silent))
    (squelch : r.squelchCause = (r.squelchEnabled && (decide (r.link = .lost) || decide (r.link = .silent))))
    (fadeRun : r.fadeRun ≤ 15) : r.Lawful :=
  ⟨fun hr => absurd (h.enrolled.symm.trans hr) (by decide), dropoutTimer, freshTimer, absent, conditions.1, conditions.2.1,
    conditions.2.2, h.dropouts, squelch, fadeRun, h.dropoutCount, h.capture, h.missed, h.battery, h.report, h.floor,
    h.speech, h.openIdle⟩

theorem ChannelRecord.Rest.offer {r : ChannelRecord} (h : r.Rest) (rec : CaptureRecord) : (r.offer rec).Rest := by
  unfold ChannelRecord.offer
  split
  · next hh => exact { h with missed := ⟨by simp, fun hf => by simp [hh] at hf⟩ }
  · next hh => exact { h with capture := by simp, missed := ⟨h.missed.1, fun hf => by simp at hf⟩ }

theorem ChannelRecord.Rest.countDropout {r : ChannelRecord} (h : r.Rest) (w : SetupWords) (now : Millis) :
    (r.countDropout w now).Rest :=
  { h with
    dropouts := by simp [ChannelRecord.countDropout, h.dropouts]
    dropoutCount := by simp [ChannelRecord.countDropout]
    battery := (ConditionSet.withBattery_eq_iff _ _).2 (by
      have hb := (ConditionSet.withBattery_eq_iff _ _).1 h.battery
      simpa [ChannelRecord.countDropout] using hb) }

/-- Direct placement of a channel that has left its state's conditions and causes behind (R21). -/
theorem ChannelRecord.Rest.place {r : ChannelRecord} (h : r.Rest) (w : SetupWords) (rf : BitVec 7)
    (hd : r.dropoutTimer = .stopped) (hf : r.freshTimer ≠ .stopped)
    (hc : r.active.weak = false ∧ r.active.lost = false ∧ r.active.noReport = false) (hs : r.squelchCause = false) :
    (r.place w rf).Lawful := by
  have hb := (ConditionSet.withBattery_eq_iff _ _).1 h.battery
  unfold ChannelRecord.place
  split
  · exact ChannelRecord.Rest.lawful
      { h with battery := (ConditionSet.withBattery_eq_iff _ _).2 hb }
      (by simp [hd]) (by simp [hf]) (by simp) (by simp [hc]) (by simp [hs]) (by simp)
  · exact ChannelRecord.Rest.lawful { h with }
      (by simp [hd]) (by simp [hf]) (by simp) (by simp [hc]) (by simp [hs]) (by simp)

theorem offer_link (rec : CaptureRecord) (r : ChannelRecord) :
    (r.offer rec).dropoutTimer = r.dropoutTimer ∧ (r.offer rec).freshTimer = r.freshTimer ∧
    (r.offer rec).active = r.active ∧ (r.offer rec).squelchCause = r.squelchCause ∧ (r.offer rec).link = r.link ∧
    (r.offer rec).squelchEnabled = r.squelchEnabled ∧ (r.offer rec).fadeRun = r.fadeRun := by
  unfold ChannelRecord.offer
  split <;> simp

theorem SetupWords.fadeConfirm_le (w : SetupWords) : w.fadeConfirm ≤ 15 := by
  have := (w[17].extractLsb' 8 4).isLt
  unfold SetupWords.fadeConfirm
  omega

/-- A frame with pilot lock keeps the law, the freshness timer started (R19 to R21, R25, R28, R32). -/
theorem ChannelRecord.linkLocked_lawful (w : SetupWords) (now : Millis) (rf : BitVec 7) {r : ChannelRecord} (h : r.Lawful)
    (he : r.enrolled = true) (t : Timer) (ht : t ≠ .stopped) :
    (({ r with freshTimer := t } : ChannelRecord).linkLocked w now rf).Lawful := by
  have rest : ({ r with freshTimer := t } : ChannelRecord).Rest := { h.rest he with }
  have hw := h.weak
  have hlo := h.lost
  have hn := h.noReport
  have hq := h.squelch
  have hd := h.dropoutTimer
  have hcon := w.fadeConfirm_le
  have hb := (ConditionSet.withBattery_eq_iff _ _).1 h.battery
  unfold ChannelRecord.linkLocked
  split <;> rename_i hl <;> simp only at hl <;> simp only [hl] at hw hlo hn hq hd
  · exact rest.place w rf (by simpa using hd) ht (by simpa using ⟨hw, hlo, hn⟩) (by simpa using hq)
  · unfold ChannelRecord.countFade
    split
    · split
      · exact ChannelRecord.Rest.lawful { rest with battery := (ConditionSet.withBattery_eq_iff _ _).2 hb }
          (by simpa using hd) (by simp [ht]) (by simp) (by simpa using ⟨hlo, hn⟩) (by simpa using hq) (by simp)
      · exact ChannelRecord.Rest.lawful { rest with } (by simpa [hl] using hd) (by simp [ht, hl]) (by simp [hl])
          (by simpa [hl] using ⟨hw, hlo, hn⟩) (by simpa [hl] using hq) (by rename_i hlt; simp only at hlt ⊢; omega)
    · exact ChannelRecord.Rest.lawful { rest with } (by simpa [hl] using hd) (by simp [ht, hl]) (by simp [hl])
          (by simpa [hl] using ⟨hw, hlo, hn⟩) (by simpa [hl] using hq) (by simp)
  · unfold ChannelRecord.countRecovery
    split
    · split
      · exact ChannelRecord.Rest.lawful { rest with battery := (ConditionSet.withBattery_eq_iff _ _).2 hb }
          (by simpa using hd) (by simp [ht]) (by simp) (by simpa using ⟨hlo, hn⟩) (by simpa using hq) (by simp)
      · exact ChannelRecord.Rest.lawful { rest with } (by simpa [hl] using hd) (by simp [ht, hl]) (by simp [hl])
          (by simpa [hl] using ⟨hw, hlo, hn⟩) (by simpa [hl] using hq) (by rename_i hlt; simp only at hlt ⊢; omega)
    · exact ChannelRecord.Rest.lawful { rest with } (by simpa [hl] using hd) (by simp [ht, hl]) (by simp [hl])
          (by simpa [hl] using ⟨hw, hlo, hn⟩) (by simpa [hl] using hq) (by simp)
  · unfold ChannelRecord.endDropout
    have base : ({ r with freshTimer := t, dropoutTimer := .stopped } : ChannelRecord).Rest := { rest with }
    have o := offer_link (.returned (now - r.dropoutStamp).toNat)
      ({ r with freshTimer := t, dropoutTimer := .stopped } : ChannelRecord)
    refine ((base.offer (.returned (now - r.dropoutStamp).toNat)).countDropout w now).place w rf ?_ ?_ ?_ ?_
    · exact o.1
    · exact fun hf => ht (o.2.1.symm.trans hf)
    · show _ ∧ _ ∧ _
      simp only [ChannelRecord.countDropout, o.2.2.1]
      simpa using ⟨hw, hlo, hn⟩
    · show (ChannelRecord.offer _ _).squelchCause = false
      rw [o.2.2.2.1]
      simpa using hq
  · apply ChannelRecord.Rest.place
    · exact { rest with battery := (ConditionSet.withBattery_eq_iff _ _).2 hb }
    · simpa using hd
    · exact ht
    · simpa using ⟨hw, hn⟩
    · rfl
  · apply ChannelRecord.Rest.place
    · exact { rest with battery := (ConditionSet.withBattery_eq_iff _ _).2 hb }
    · simpa using hd
    · exact ht
    · simpa using ⟨hw, hlo⟩
    · rfl

/-- The link stage keeps the law of an enrolled record (R17 to R32). -/
theorem ChannelRecord.linkStage_lawful (w : SetupWords) (now : Millis) (f : Frame) {r : ChannelRecord} (h : r.Lawful)
    (he : r.enrolled = true) : (r.linkStage w now f).Lawful := by
  have hrf : ({ r with lastRf := f.rf } : ChannelRecord).Lawful :=
    { h with idle := fun hr => absurd (he.symm.trans hr) (by decide) }
  have rest : ({ r with lastRf := f.rf, freshTimer := Timer.start now w.freshnessLimit } : ChannelRecord).Rest :=
    { h.rest he with }
  have ht := Timer.start_ne_stopped now w.freshnessLimit
  have hw := h.weak
  have hlo := h.lost
  have hn := h.noReport
  have hq := h.squelch
  have hd := h.dropoutTimer
  have hb := (ConditionSet.withBattery_eq_iff _ _).1 h.battery
  unfold ChannelRecord.linkStage
  simp only
  split
  · exact ChannelRecord.linkLocked_lawful w now f.rf hrf he _ ht
  · split
    · exact hrf
    all_goals
      rename_i hl
      simp only [hl] at hw hlo hn hq hd
      simp only [ChannelRecord.linkUnlocked, hl, ChannelRecord.enterDropout]
    · exact ChannelRecord.Rest.lawful { rest with battery := (ConditionSet.withBattery_eq_iff _ _).2 hb }
        (by simp [Timer.start]) (by simp [Timer.start]) (by simp) (by simpa using ⟨hlo, hn⟩) (by simpa using hq) (by simp)
    · exact ChannelRecord.Rest.lawful { rest with battery := (ConditionSet.withBattery_eq_iff _ _).2 hb }
        (by simp [Timer.start]) (by simp [Timer.start]) (by simp) (by simpa using ⟨hlo, hn⟩) (by simpa using hq) (by simp)
    · exact ChannelRecord.Rest.lawful { rest with } (by simpa [hl] using hd) (by simp [Timer.start]) (by simp)
        (by simpa [hl] using ⟨hw, hlo, hn⟩) (by simpa [hl] using hq) h.fadeRun
    · exact ChannelRecord.Rest.lawful { rest with } (by simpa [hl] using hd) (by simp [Timer.start]) (by simp)
        (by simpa [hl] using ⟨hw, hlo, hn⟩) (by simpa [hl] using hq) h.fadeRun
    · exact ChannelRecord.Rest.lawful { rest with battery := (ConditionSet.withBattery_eq_iff _ _).2 hb }
        (by simpa using hd) (by simp [Timer.start]) (by simp) (by simpa using hw) (by simpa using hq) h.fadeRun

/-- The expiry of the dropout timer keeps the law (R26). -/
theorem ChannelRecord.dropoutExpiry_lawful (w : SetupWords) (now : Millis) {r : ChannelRecord} (h : r.Lawful)
    (hdue : r.dropoutTimer = .due) : (r.dropoutExpiry w now).Lawful := by
  have hl : r.link = .dropout := by
    by_contra hne
    rw [h.dropoutTimer.2 hne] at hdue
    cases hdue
  have he : r.enrolled = true := by
    by_contra hne
    rw [h.idle (Bool.eq_false_iff.2 hne)] at hdue
    cases hdue
  have hw := h.weak
  have hn := h.noReport
  have hq := h.squelch
  have hf := h.freshTimer
  simp only [hl] at hw hn hq hf
  have base : ({ r with
      dropoutTimer := .stopped, link := .lost, active := { r.active with lost := true } } : ChannelRecord).Rest :=
    { h.rest he with
      battery := (ConditionSet.withBattery_eq_iff _ _).2 h.batteryFlags }
  have o := offer_link .limit
    ({ r with dropoutTimer := .stopped, link := .lost, active := { r.active with lost := true } } : ChannelRecord)
  have rest := (base.offer .limit).countDropout w now
  unfold ChannelRecord.dropoutExpiry
  simp only [hl]
  refine ChannelRecord.Rest.lawful { rest with } ?_ ?_ ?_ ?_ ?_ ?_ <;>
    simp only [ChannelRecord.countDropout, o]
  · simp
  · simpa using hf
  · simp
  · simpa using ⟨hw, hn⟩
  · simp [hq]
  · exact h.fadeRun

/-- The expiry of the freshness timer keeps the law (R30). -/
theorem ChannelRecord.freshnessExpiry_lawful {r : ChannelRecord} (h : r.Lawful) (hdue : r.freshTimer = .due) :
    r.freshnessExpiry.Lawful := by
  have hl : ¬(r.link = .absent ∨ r.link = .silent) := fun hl => by
    rw [h.freshTimer.2 hl] at hdue
    cases hdue
  have he : r.enrolled = true := by
    by_contra hne
    rw [h.idle (Bool.eq_false_iff.2 hne)] at hdue
    cases hdue
  have hb := (ConditionSet.withBattery_eq_iff _ _).1 h.battery
  have hq := h.squelch
  unfold ChannelRecord.freshnessExpiry
  simp only
  split
  case h_5 => simp_all
  case h_6 => simp_all
  all_goals
    rename_i hs
    simp only [hs] at hq
    exact ChannelRecord.Rest.lawful { h.rest he with battery := (ConditionSet.withBattery_eq_iff _ _).2 hb }
      (by simp) (by simp) (by simp) (by simp) (by simp [hq]) (by simp)

/-- The expiry of the dropout window timer keeps the law (R33). -/
theorem ChannelRecord.windowExpiry_lawful (w : SetupWords) (now : Millis) {r : ChannelRecord} (h : r.Lawful)
    (hdue : r.windowTimer = .due) : (r.windowExpiry w now).Lawful := by
  have hl : r.link ≠ .absent := fun hl => by
    rw [(h.absent hl).2.1] at hdue
    cases hdue
  have he : r.enrolled = true := by
    by_contra hne
    rw [h.idle (Bool.eq_false_iff.2 hne)] at hdue
    cases hdue
  have hb := (ConditionSet.withBattery_eq_iff _ _).1 h.battery
  unfold ChannelRecord.windowExpiry
  split
  all_goals
    exact ChannelRecord.Rest.lawful
      { h.rest he with dropouts := rfl, dropoutCount := by simp, battery := (ConditionSet.withBattery_eq_iff _ _).2 hb }
      h.dropoutTimer h.freshTimer (fun ha => absurd ha hl) ⟨h.weak, h.lost, h.noReport⟩ h.squelch h.fadeRun

theorem batteryPlacement_ne_unknown (w : SetupWords) (ch : Chemistry) (n : Nat) : batteryPlacement w ch n ≠ .unknown := by
  unfold batteryPlacement
  repeat' split
  all_goals simp

theorem batteryCleared_ne_unknown (w : SetupWords) (ch : Chemistry) (n : Nat) : batteryCleared w ch n ≠ .unknown := by
  unfold batteryCleared
  repeat' split
  all_goals simp

/-- No report leaves a channel in UNKNOWN (R41, R44). -/
theorem batteryMove_ne_unknown (w : SetupWords) (ch : Chemistry) (n : Nat) (b : BatteryState) :
    batteryMove w ch n b ≠ .unknown := by
  unfold batteryMove
  split
  · exact batteryPlacement_ne_unknown w ch n
  all_goals
    split
    · exact batteryPlacement_ne_unknown w ch n
    · split
      · exact batteryCleared_ne_unknown w ch n
      · simp

/-- The battery stage keeps the law of an enrolled record (R42 to R50). -/
theorem ChannelRecord.batteryStage_lawful (w : SetupWords) (b : BatteryWord) {r : ChannelRecord} (h : r.Lawful)
    (he : r.enrolled = true) : (r.batteryStage w b).Lawful := by
  unfold ChannelRecord.batteryStage
  split
  · next hl =>
    exact { h with
      idle := fun hr => absurd (he.symm.trans hr) (by decide)
      battery := rfl
      report := ⟨by simp [batteryMove_ne_unknown], by simp, by simpa using hl⟩ }
  · exact h

/-- The speech detector keeps the law of an enrolled record (R64, R65). -/
theorem ChannelRecord.speechStep_lawful (w : SetupWords) (silent : Bool) (audio : Nat) {r : ChannelRecord} (h : r.Lawful)
    (he : r.enrolled = true) : (r.speechStep w silent audio).Lawful := by
  have hb := (ConditionSet.withBattery_eq_iff _ _).1 h.battery
  have hle : stepSpeech silent w.speechLevel audio r.speechCount ≤ 255 := by
    have := h.speech.1
    unfold stepSpeech
    split <;> omega
  unfold ChannelRecord.speechStep
  simp only
  split
  · next hup =>
    exact { h with
      idle := fun hr => absurd (he.symm.trans hr) (by decide)
      battery := (ConditionSet.withBattery_eq_iff _ _).2 hb
      speech := ⟨hle, rfl, fun _ => by simp only; omega⟩ }
  · split
    · exact { h with
        idle := fun hr => absurd (he.symm.trans hr) (by decide)
        battery := (ConditionSet.withBattery_eq_iff _ _).2 hb
        speech := ⟨hle, rfl, fun hf => by cases hf⟩ }
    · next hup hdown =>
      exact { h with
        idle := fun hr => absurd (he.symm.trans hr) (by decide)
        speech := ⟨hle, h.speech.2.1, fun hf => by have := h.speech.2.2 hf; simp only; omega⟩ }

/-- Stopping the open-idle watch keeps the law of an enrolled record (R62). -/
theorem ChannelRecord.Lawful.stopIdle {r : ChannelRecord} (h : r.Lawful) (he : r.enrolled = true) : r.stopIdle.Lawful :=
  { h with
    idle := fun hr => absurd (he.symm.trans hr) (by decide)
    battery := (ConditionSet.withBattery_eq_iff _ _).2 h.batteryFlags
    openIdle := ⟨rfl, fun hf => by cases hf⟩ }

/-- The open-idle watch keeps the law of an enrolled record (R68). -/
theorem ChannelRecord.idleStep_lawful (w : SetupWords) (now : Millis) (audio : Nat) {r : ChannelRecord} (h : r.Lawful)
    (he : r.enrolled = true) : (r.idleStep w now audio).Lawful := by
  unfold ChannelRecord.idleStep
  split
  · split
    · exact h
    · next ho =>
      exact { h with
        idle := fun hr => absurd (he.symm.trans hr) (by decide)
        openIdle := ⟨h.openIdle.1, fun hf => absurd hf ho⟩ }
  · exact h.stopIdle he

/-- The mute stage keeps the law of an enrolled record (R55). -/
theorem ChannelRecord.muteStage_lawful (w : SetupWords) (now : Millis) (i : Word) (sw : SwitchWord) {r : ChannelRecord}
    (h : r.Lawful) (he : r.enrolled = true) : (r.muteStage w now i sw).Lawful := by
  have h1 : ({ r with selfMuted := !sw.talkOn, lastAudio := some sw.audio } : ChannelRecord).Lawful :=
    { h with idle := fun hr => absurd (he.symm.trans hr) (by decide) }
  unfold ChannelRecord.muteStage
  simp only
  generalize ChannelRecord.silent w.muteCode i _ = silent
  have h2 := ChannelRecord.speechStep_lawful w silent sw.audio.toNat h1 he
  have he2 : (ChannelRecord.speechStep w silent sw.audio.toNat
      ({ r with selfMuted := !sw.talkOn, lastAudio := some sw.audio } : ChannelRecord)).enrolled = true := by
    unfold ChannelRecord.speechStep
    simp only
    split
    · exact he
    · split <;> exact he
  split
  · exact h2.stopIdle he2
  · exact ChannelRecord.idleStep_lawful w now _ h2 he2

theorem ChannelRecord.place_enrolled (w : SetupWords) (rf : BitVec 7) (r : ChannelRecord) :
    (r.place w rf).enrolled = r.enrolled := by
  unfold ChannelRecord.place
  split <;> rfl

theorem ChannelRecord.offer_enrolled (rec : CaptureRecord) (r : ChannelRecord) : (r.offer rec).enrolled = r.enrolled := by
  unfold ChannelRecord.offer
  split <;> rfl

theorem ChannelRecord.linkLocked_enrolled (w : SetupWords) (now : Millis) (rf : BitVec 7) (r : ChannelRecord) :
    (r.linkLocked w now rf).enrolled = r.enrolled := by
  unfold ChannelRecord.linkLocked
  split
  · exact place_enrolled ..
  · unfold ChannelRecord.countFade; repeat' split
    all_goals rfl
  · unfold ChannelRecord.countRecovery; repeat' split
    all_goals rfl
  · exact (place_enrolled ..).trans (offer_enrolled ..)
  · exact place_enrolled ..
  · exact place_enrolled ..

theorem ChannelRecord.linkStage_enrolled (w : SetupWords) (now : Millis) (f : Frame) (r : ChannelRecord) :
    (r.linkStage w now f).enrolled = r.enrolled := by
  unfold ChannelRecord.linkStage
  simp only
  split
  · exact linkLocked_enrolled ..
  · unfold ChannelRecord.linkUnlocked ChannelRecord.enterDropout
    repeat' split
    all_goals rfl

theorem ChannelRecord.batteryStage_enrolled (w : SetupWords) (b : BatteryWord) (r : ChannelRecord) :
    (r.batteryStage w b).enrolled = r.enrolled := by
  unfold ChannelRecord.batteryStage
  split <;> rfl

/-- One evaluation keeps the law of an enrolled record (R8). -/
theorem ChannelRecord.evaluate_lawful (w : SetupWords) (now : Millis) (i : Word) (f : Frame) {r : ChannelRecord}
    (h : r.Lawful) (he : r.enrolled = true) : (r.evaluate w now i f).Lawful := by
  have h1 := ChannelRecord.linkStage_lawful w now f h he
  have e1 := (ChannelRecord.linkStage_enrolled w now f r).trans he
  unfold ChannelRecord.evaluate
  cases f.battery with
  | none =>
    cases f.switch with
    | none => exact h1
    | some sw => exact ChannelRecord.muteStage_lawful w now i sw h1 e1
  | some b =>
    have h2 := ChannelRecord.batteryStage_lawful w b h1 e1
    have e2 := (ChannelRecord.batteryStage_enrolled w b (r.linkStage w now f)).trans e1
    cases f.switch with
    | none => exact h2
    | some sw => exact ChannelRecord.muteStage_lawful w now i sw h2 e2

/-- The expiry of the open-idle timer keeps the law (R69). -/
theorem ChannelRecord.idleExpiry_lawful {r : ChannelRecord} (h : r.Lawful) (hdue : r.idleTimer = .due) :
    r.idleExpiry.Lawful :=
  { h with
    idle := fun hr => by rw [h.idle hr] at hdue; cases hdue
    battery := (ConditionSet.withBattery_eq_iff _ _).2 h.batteryFlags
    openIdle := ⟨rfl, fun _ => rfl⟩ }

/-- A capture release keeps the law (R36). -/
theorem ChannelRecord.release_lawful {r : ChannelRecord} (h : r.Lawful) : r.release.Lawful :=
  { h with
    idle := fun hr => by rw [h.idle hr]; rfl
    capture := fun hf => by cases hf
    missed := ⟨by simp [ChannelRecord.release], fun _ => rfl⟩ }

/-- The rewriting of a membership keeps the law of an enrolled record (R12, R39, R58). -/
theorem ChannelRecord.rewriteMembership_lawful (w : SetupWords) (b : Bool) (c : Chan) {r : ChannelRecord} (h : r.Lawful)
    (he : r.enrolled = true) : (r.rewriteMembership w b c).Lawful :=
  { h with
    idle := fun hr => absurd (he.symm.trans hr) (by decide)
    squelch := rfl
    floor := fun hr => by
      simp only [ChannelRecord.rewriteMembership, SetupWords.roleOf] at hr ⊢
      cases hc : w.isChair c
      · simp [hc] at hr
      · simp }

/-- A chair request keeps the law of an enrolled record (R56). -/
theorem ChannelRecord.chair_lawful (set : Bool) {r : ChannelRecord} (h : r.Lawful) (he : r.enrolled = true) :
    ({ r with chairCause := set } : ChannelRecord).Lawful :=
  { h with idle := fun hr => absurd (he.symm.trans hr) (by decide) }

/-- A floor change keeps the law of an enrolled DELEGATE's record (R57). -/
theorem ChannelRecord.floor_lawful (b : Bool) {r : ChannelRecord} (h : r.Lawful) (he : r.enrolled = true)
    (hd : r.role = .delegate) : ({ r with floorCause := b } : ChannelRecord).Lawful :=
  { h with
    idle := fun hr => absurd (he.symm.trans hr) (by decide)
    floor := fun hr => absurd (hd.symm.trans hr) (by decide) }

/-- The silence judgement at the end of an event keeps the law (R62). -/
theorem ChannelRecord.settleSilence_lawful (m : Nat) (i : Word) {r : ChannelRecord} (h : r.Lawful) :
    (r.settleSilence m i).Lawful := by
  unfold ChannelRecord.settleSilence
  split
  · next hs =>
    refine h.stopIdle ?_
    unfold ChannelRecord.silent at hs
    exact (Bool.and_eq_true _ _ ▸ hs).1
  · exact h

/-! ## One event of a channel (R9, R62, R72) -/

/-- What one event of a channel does: its record and its reports, and nothing else. -/
theorem channelEvent_eq (c : Chan) (g : ChannelRecord → ChannelRecord) (s : State) :
    channelEvent c g s = { s with
      channels := s.channels.set c (eventRecord c g s)
      mail := { s.mail with
        conditions := s.mail.conditions ++ conditionEvents c s.channels[c].active (eventRecord c g s).active
        notices := s.mail.notices ++ (if causesDiffer s.channels[c] (eventRecord c g s) then [.causeChange c] else []) } } :=
  rfl

@[simp] theorem channelEvent_this (c : Chan) (g : ChannelRecord → ChannelRecord) (s : State) :
    (channelEvent c g s).channels[c] = eventRecord c g s := by
  simp [channelEvent_eq]

theorem channelEvent_other (c : Chan) (g : ChannelRecord → ChannelRecord) (s : State) (d : Chan) (h : d ≠ c) :
    (channelEvent c g s).channels[d] = s.channels[d] := by
  have : c.val ≠ d.val := fun hv => h (Fin.ext hv.symm)
  simp [channelEvent_eq, this]

theorem channelEvent_onlyChannel (c : Chan) (g : ChannelRecord → ChannelRecord) (s : State) :
    OnlyChannel c s (channelEvent c g s) :=
  ⟨rfl, fun d h => channelEvent_other c g s d h⟩

/-- An event whose own change keeps the law of its record keeps the law of every record. -/
theorem channelEvent_lawful (c : Chan) (g : ChannelRecord → ChannelRecord) (s : State)
    (h : ∀ d : Chan, s.channels[d].Lawful) (hg : (g s.channels[c]).Lawful) :
    ∀ d : Chan, (channelEvent c g s).channels[d].Lawful := by
  intro d
  by_cases hd : d = c
  · subst hd
    rw [channelEvent_this]
    exact ChannelRecord.settleSilence_lawful _ _ hg
  · rw [channelEvent_other c g s d hd]
    exact h d

end Sys2Proof.Machine
end

