-- ==== Sys2Proof/Laws/State.lean ====
section
/-! SUPPORT. One lemma for each field of the state and each update of it, and what sending a message leaves unchanged. -/

namespace Sys2Proof.Machine.State

/-! ### Replacing `memory` -/

section
variable (s : State) (v : Memory)

@[simp] theorem setMemory_memory : (s.setMemory v).memory = v := rfl
@[simp] theorem setMemory_path : (s.setMemory v).path = s.path := rfl
@[simp] theorem setMemory_staging : (s.setMemory v).staging = s.staging := rfl
@[simp] theorem setMemory_channels : (s.setMemory v).channels = s.channels := rfl
@[simp] theorem setMemory_alert : (s.setMemory v).alert = s.alert := rfl
@[simp] theorem setMemory_view : (s.setMemory v).view = s.view := rfl
@[simp] theorem setMemory_enf : (s.setMemory v).enf = s.enf := rfl
@[simp] theorem setMemory_setup : (s.setMemory v).setup = s.setup := rfl
@[simp] theorem setMemory_lamps : (s.setMemory v).lamps = s.lamps := rfl
@[simp] theorem setMemory_time : (s.setMemory v).time = s.time := rfl
@[simp] theorem setMemory_lines : (s.setMemory v).lines = s.lines := rfl
@[simp] theorem setMemory_mail : (s.setMemory v).mail = s.mail := rfl
@[simp] theorem setMemory_draws : (s.setMemory v).draws = s.draws := rfl
@[simp] theorem setMemory_pending : (s.setMemory v).pending = s.pending := rfl

end

/-! ### Replacing `path` -/

section
variable (s : State) (v : PathUnit)

@[simp] theorem setPath_memory : (s.setPath v).memory = s.memory := rfl
@[simp] theorem setPath_path : (s.setPath v).path = v := rfl
@[simp] theorem setPath_staging : (s.setPath v).staging = s.staging := rfl
@[simp] theorem setPath_channels : (s.setPath v).channels = s.channels := rfl
@[simp] theorem setPath_alert : (s.setPath v).alert = s.alert := rfl
@[simp] theorem setPath_view : (s.setPath v).view = s.view := rfl
@[simp] theorem setPath_enf : (s.setPath v).enf = s.enf := rfl
@[simp] theorem setPath_setup : (s.setPath v).setup = s.setup := rfl
@[simp] theorem setPath_lamps : (s.setPath v).lamps = s.lamps := rfl
@[simp] theorem setPath_time : (s.setPath v).time = s.time := rfl
@[simp] theorem setPath_lines : (s.setPath v).lines = s.lines := rfl
@[simp] theorem setPath_mail : (s.setPath v).mail = s.mail := rfl
@[simp] theorem setPath_draws : (s.setPath v).draws = s.draws := rfl
@[simp] theorem setPath_pending : (s.setPath v).pending = s.pending := rfl

end

/-! ### Replacing `staging` -/

section
variable (s : State) (v : Vector Staging 64)

@[simp] theorem setStaging_memory : (s.setStaging v).memory = s.memory := rfl
@[simp] theorem setStaging_path : (s.setStaging v).path = s.path := rfl
@[simp] theorem setStaging_staging : (s.setStaging v).staging = v := rfl
@[simp] theorem setStaging_channels : (s.setStaging v).channels = s.channels := rfl
@[simp] theorem setStaging_alert : (s.setStaging v).alert = s.alert := rfl
@[simp] theorem setStaging_view : (s.setStaging v).view = s.view := rfl
@[simp] theorem setStaging_enf : (s.setStaging v).enf = s.enf := rfl
@[simp] theorem setStaging_setup : (s.setStaging v).setup = s.setup := rfl
@[simp] theorem setStaging_lamps : (s.setStaging v).lamps = s.lamps := rfl
@[simp] theorem setStaging_time : (s.setStaging v).time = s.time := rfl
@[simp] theorem setStaging_lines : (s.setStaging v).lines = s.lines := rfl
@[simp] theorem setStaging_mail : (s.setStaging v).mail = s.mail := rfl
@[simp] theorem setStaging_draws : (s.setStaging v).draws = s.draws := rfl
@[simp] theorem setStaging_pending : (s.setStaging v).pending = s.pending := rfl

end

/-! ### Replacing `channels` -/

section
variable (s : State) (v : Vector ChannelRecord 64)

@[simp] theorem setChannels_memory : (s.setChannels v).memory = s.memory := rfl
@[simp] theorem setChannels_path : (s.setChannels v).path = s.path := rfl
@[simp] theorem setChannels_staging : (s.setChannels v).staging = s.staging := rfl
@[simp] theorem setChannels_channels : (s.setChannels v).channels = v := rfl
@[simp] theorem setChannels_alert : (s.setChannels v).alert = s.alert := rfl
@[simp] theorem setChannels_view : (s.setChannels v).view = s.view := rfl
@[simp] theorem setChannels_enf : (s.setChannels v).enf = s.enf := rfl
@[simp] theorem setChannels_setup : (s.setChannels v).setup = s.setup := rfl
@[simp] theorem setChannels_lamps : (s.setChannels v).lamps = s.lamps := rfl
@[simp] theorem setChannels_time : (s.setChannels v).time = s.time := rfl
@[simp] theorem setChannels_lines : (s.setChannels v).lines = s.lines := rfl
@[simp] theorem setChannels_mail : (s.setChannels v).mail = s.mail := rfl
@[simp] theorem setChannels_draws : (s.setChannels v).draws = s.draws := rfl
@[simp] theorem setChannels_pending : (s.setChannels v).pending = s.pending := rfl

end

/-! ### Replacing `alert` -/

section
variable (s : State) (v : AlertUnit)

@[simp] theorem setAlert_memory : (s.setAlert v).memory = s.memory := rfl
@[simp] theorem setAlert_path : (s.setAlert v).path = s.path := rfl
@[simp] theorem setAlert_staging : (s.setAlert v).staging = s.staging := rfl
@[simp] theorem setAlert_channels : (s.setAlert v).channels = s.channels := rfl
@[simp] theorem setAlert_alert : (s.setAlert v).alert = v := rfl
@[simp] theorem setAlert_view : (s.setAlert v).view = s.view := rfl
@[simp] theorem setAlert_enf : (s.setAlert v).enf = s.enf := rfl
@[simp] theorem setAlert_setup : (s.setAlert v).setup = s.setup := rfl
@[simp] theorem setAlert_lamps : (s.setAlert v).lamps = s.lamps := rfl
@[simp] theorem setAlert_time : (s.setAlert v).time = s.time := rfl
@[simp] theorem setAlert_lines : (s.setAlert v).lines = s.lines := rfl
@[simp] theorem setAlert_mail : (s.setAlert v).mail = s.mail := rfl
@[simp] theorem setAlert_draws : (s.setAlert v).draws = s.draws := rfl
@[simp] theorem setAlert_pending : (s.setAlert v).pending = s.pending := rfl

end

/-! ### Replacing `view` -/

section
variable (s : State) (v : View)

@[simp] theorem setView_memory : (s.setView v).memory = s.memory := rfl
@[simp] theorem setView_path : (s.setView v).path = s.path := rfl
@[simp] theorem setView_staging : (s.setView v).staging = s.staging := rfl
@[simp] theorem setView_channels : (s.setView v).channels = s.channels := rfl
@[simp] theorem setView_alert : (s.setView v).alert = s.alert := rfl
@[simp] theorem setView_view : (s.setView v).view = v := rfl
@[simp] theorem setView_enf : (s.setView v).enf = s.enf := rfl
@[simp] theorem setView_setup : (s.setView v).setup = s.setup := rfl
@[simp] theorem setView_lamps : (s.setView v).lamps = s.lamps := rfl
@[simp] theorem setView_time : (s.setView v).time = s.time := rfl
@[simp] theorem setView_lines : (s.setView v).lines = s.lines := rfl
@[simp] theorem setView_mail : (s.setView v).mail = s.mail := rfl
@[simp] theorem setView_draws : (s.setView v).draws = s.draws := rfl
@[simp] theorem setView_pending : (s.setView v).pending = s.pending := rfl

end

/-! ### Replacing `enf` -/

section
variable (s : State) (v : EnforcementUnit)

@[simp] theorem setEnf_memory : (s.setEnf v).memory = s.memory := rfl
@[simp] theorem setEnf_path : (s.setEnf v).path = s.path := rfl
@[simp] theorem setEnf_staging : (s.setEnf v).staging = s.staging := rfl
@[simp] theorem setEnf_channels : (s.setEnf v).channels = s.channels := rfl
@[simp] theorem setEnf_alert : (s.setEnf v).alert = s.alert := rfl
@[simp] theorem setEnf_view : (s.setEnf v).view = s.view := rfl
@[simp] theorem setEnf_enf : (s.setEnf v).enf = v := rfl
@[simp] theorem setEnf_setup : (s.setEnf v).setup = s.setup := rfl
@[simp] theorem setEnf_lamps : (s.setEnf v).lamps = s.lamps := rfl
@[simp] theorem setEnf_time : (s.setEnf v).time = s.time := rfl
@[simp] theorem setEnf_lines : (s.setEnf v).lines = s.lines := rfl
@[simp] theorem setEnf_mail : (s.setEnf v).mail = s.mail := rfl
@[simp] theorem setEnf_draws : (s.setEnf v).draws = s.draws := rfl
@[simp] theorem setEnf_pending : (s.setEnf v).pending = s.pending := rfl

end

/-! ### Replacing `setup` -/

section
variable (s : State) (v : SetupUnit)

@[simp] theorem setSetup_memory : (s.setSetup v).memory = s.memory := rfl
@[simp] theorem setSetup_path : (s.setSetup v).path = s.path := rfl
@[simp] theorem setSetup_staging : (s.setSetup v).staging = s.staging := rfl
@[simp] theorem setSetup_channels : (s.setSetup v).channels = s.channels := rfl
@[simp] theorem setSetup_alert : (s.setSetup v).alert = s.alert := rfl
@[simp] theorem setSetup_view : (s.setSetup v).view = s.view := rfl
@[simp] theorem setSetup_enf : (s.setSetup v).enf = s.enf := rfl
@[simp] theorem setSetup_setup : (s.setSetup v).setup = v := rfl
@[simp] theorem setSetup_lamps : (s.setSetup v).lamps = s.lamps := rfl
@[simp] theorem setSetup_time : (s.setSetup v).time = s.time := rfl
@[simp] theorem setSetup_lines : (s.setSetup v).lines = s.lines := rfl
@[simp] theorem setSetup_mail : (s.setSetup v).mail = s.mail := rfl
@[simp] theorem setSetup_draws : (s.setSetup v).draws = s.draws := rfl
@[simp] theorem setSetup_pending : (s.setSetup v).pending = s.pending := rfl

end

/-! ### Replacing `lamps` -/

section
variable (s : State) (v : LampUnit)

@[simp] theorem setLamps_memory : (s.setLamps v).memory = s.memory := rfl
@[simp] theorem setLamps_path : (s.setLamps v).path = s.path := rfl
@[simp] theorem setLamps_staging : (s.setLamps v).staging = s.staging := rfl
@[simp] theorem setLamps_channels : (s.setLamps v).channels = s.channels := rfl
@[simp] theorem setLamps_alert : (s.setLamps v).alert = s.alert := rfl
@[simp] theorem setLamps_view : (s.setLamps v).view = s.view := rfl
@[simp] theorem setLamps_enf : (s.setLamps v).enf = s.enf := rfl
@[simp] theorem setLamps_setup : (s.setLamps v).setup = s.setup := rfl
@[simp] theorem setLamps_lamps : (s.setLamps v).lamps = v := rfl
@[simp] theorem setLamps_time : (s.setLamps v).time = s.time := rfl
@[simp] theorem setLamps_lines : (s.setLamps v).lines = s.lines := rfl
@[simp] theorem setLamps_mail : (s.setLamps v).mail = s.mail := rfl
@[simp] theorem setLamps_draws : (s.setLamps v).draws = s.draws := rfl
@[simp] theorem setLamps_pending : (s.setLamps v).pending = s.pending := rfl

end

/-! ### Replacing `time` -/

section
variable (s : State) (v : Timebase)

@[simp] theorem setTime_memory : (s.setTime v).memory = s.memory := rfl
@[simp] theorem setTime_path : (s.setTime v).path = s.path := rfl
@[simp] theorem setTime_staging : (s.setTime v).staging = s.staging := rfl
@[simp] theorem setTime_channels : (s.setTime v).channels = s.channels := rfl
@[simp] theorem setTime_alert : (s.setTime v).alert = s.alert := rfl
@[simp] theorem setTime_view : (s.setTime v).view = s.view := rfl
@[simp] theorem setTime_enf : (s.setTime v).enf = s.enf := rfl
@[simp] theorem setTime_setup : (s.setTime v).setup = s.setup := rfl
@[simp] theorem setTime_lamps : (s.setTime v).lamps = s.lamps := rfl
@[simp] theorem setTime_time : (s.setTime v).time = v := rfl
@[simp] theorem setTime_lines : (s.setTime v).lines = s.lines := rfl
@[simp] theorem setTime_mail : (s.setTime v).mail = s.mail := rfl
@[simp] theorem setTime_draws : (s.setTime v).draws = s.draws := rfl
@[simp] theorem setTime_pending : (s.setTime v).pending = s.pending := rfl

end

/-! ### Replacing `lines` -/

section
variable (s : State) (v : InputLines)

@[simp] theorem setLines_memory : (s.setLines v).memory = s.memory := rfl
@[simp] theorem setLines_path : (s.setLines v).path = s.path := rfl
@[simp] theorem setLines_staging : (s.setLines v).staging = s.staging := rfl
@[simp] theorem setLines_channels : (s.setLines v).channels = s.channels := rfl
@[simp] theorem setLines_alert : (s.setLines v).alert = s.alert := rfl
@[simp] theorem setLines_view : (s.setLines v).view = s.view := rfl
@[simp] theorem setLines_enf : (s.setLines v).enf = s.enf := rfl
@[simp] theorem setLines_setup : (s.setLines v).setup = s.setup := rfl
@[simp] theorem setLines_lamps : (s.setLines v).lamps = s.lamps := rfl
@[simp] theorem setLines_time : (s.setLines v).time = s.time := rfl
@[simp] theorem setLines_lines : (s.setLines v).lines = v := rfl
@[simp] theorem setLines_mail : (s.setLines v).mail = s.mail := rfl
@[simp] theorem setLines_draws : (s.setLines v).draws = s.draws := rfl
@[simp] theorem setLines_pending : (s.setLines v).pending = s.pending := rfl

end

/-! ### Replacing `mail` -/

section
variable (s : State) (v : Mail)

@[simp] theorem setMail_memory : (s.setMail v).memory = s.memory := rfl
@[simp] theorem setMail_path : (s.setMail v).path = s.path := rfl
@[simp] theorem setMail_staging : (s.setMail v).staging = s.staging := rfl
@[simp] theorem setMail_channels : (s.setMail v).channels = s.channels := rfl
@[simp] theorem setMail_alert : (s.setMail v).alert = s.alert := rfl
@[simp] theorem setMail_view : (s.setMail v).view = s.view := rfl
@[simp] theorem setMail_enf : (s.setMail v).enf = s.enf := rfl
@[simp] theorem setMail_setup : (s.setMail v).setup = s.setup := rfl
@[simp] theorem setMail_lamps : (s.setMail v).lamps = s.lamps := rfl
@[simp] theorem setMail_time : (s.setMail v).time = s.time := rfl
@[simp] theorem setMail_lines : (s.setMail v).lines = s.lines := rfl
@[simp] theorem setMail_mail : (s.setMail v).mail = v := rfl
@[simp] theorem setMail_draws : (s.setMail v).draws = s.draws := rfl
@[simp] theorem setMail_pending : (s.setMail v).pending = s.pending := rfl

end

/-! ### Replacing `draws` -/

section
variable (s : State) (v : Nat)

@[simp] theorem setDraws_memory : (s.setDraws v).memory = s.memory := rfl
@[simp] theorem setDraws_path : (s.setDraws v).path = s.path := rfl
@[simp] theorem setDraws_staging : (s.setDraws v).staging = s.staging := rfl
@[simp] theorem setDraws_channels : (s.setDraws v).channels = s.channels := rfl
@[simp] theorem setDraws_alert : (s.setDraws v).alert = s.alert := rfl
@[simp] theorem setDraws_view : (s.setDraws v).view = s.view := rfl
@[simp] theorem setDraws_enf : (s.setDraws v).enf = s.enf := rfl
@[simp] theorem setDraws_setup : (s.setDraws v).setup = s.setup := rfl
@[simp] theorem setDraws_lamps : (s.setDraws v).lamps = s.lamps := rfl
@[simp] theorem setDraws_time : (s.setDraws v).time = s.time := rfl
@[simp] theorem setDraws_lines : (s.setDraws v).lines = s.lines := rfl
@[simp] theorem setDraws_mail : (s.setDraws v).mail = s.mail := rfl
@[simp] theorem setDraws_draws : (s.setDraws v).draws = v := rfl
@[simp] theorem setDraws_pending : (s.setDraws v).pending = s.pending := rfl

end

/-! ### Replacing `pending` -/

section
variable (s : State) (v : List Instr)

@[simp] theorem setPending_memory : (s.setPending v).memory = s.memory := rfl
@[simp] theorem setPending_path : (s.setPending v).path = s.path := rfl
@[simp] theorem setPending_staging : (s.setPending v).staging = s.staging := rfl
@[simp] theorem setPending_channels : (s.setPending v).channels = s.channels := rfl
@[simp] theorem setPending_alert : (s.setPending v).alert = s.alert := rfl
@[simp] theorem setPending_view : (s.setPending v).view = s.view := rfl
@[simp] theorem setPending_enf : (s.setPending v).enf = s.enf := rfl
@[simp] theorem setPending_setup : (s.setPending v).setup = s.setup := rfl
@[simp] theorem setPending_lamps : (s.setPending v).lamps = s.lamps := rfl
@[simp] theorem setPending_time : (s.setPending v).time = s.time := rfl
@[simp] theorem setPending_lines : (s.setPending v).lines = s.lines := rfl
@[simp] theorem setPending_mail : (s.setPending v).mail = s.mail := rfl
@[simp] theorem setPending_draws : (s.setPending v).draws = s.draws := rfl
@[simp] theorem setPending_pending : (s.setPending v).pending = v := rfl

end

/-! ### Sending a message changes its path alone -/

theorem sendFrame_eq (s : State) (c : Chan) (f : Frame) : s.sendFrame c f = s.setMail { s.mail with frames := s.mail.frames ++ [(c, f)] } := rfl
theorem sendToEvaluator_eq (s : State) (m : ToEvaluator) : s.sendToEvaluator m = s.setMail { s.mail with toEvaluator := s.mail.toEvaluator ++ [m] } := rfl
theorem sendFloorChange_eq (s : State) (b : Bool) : s.sendFloorChange b = s.setMail { s.mail with floor := s.mail.floor ++ [{ asserted := b, next := 0 }] } := rfl
theorem sendSilence_eq (s : State) (cs : List Chan) : s.sendSilence cs = s.setMail { s.mail with silence := s.mail.silence ++ cs } := rfl
theorem sendStall_eq (s : State) (b : Bool) : s.sendStall b = s.setMail { s.mail with stalls := s.mail.stalls ++ [b] } := rfl
theorem sendToList_eq (s : State) (m : ToList) : s.sendToList m = s.setMail { s.mail with toList := s.mail.toList ++ [m] } := rfl
theorem sendToEnforcement_eq (s : State) (m : ToEnforcement) : s.sendToEnforcement m = s.setMail { s.mail with toEnforcement := s.mail.toEnforcement ++ [m] } := rfl
theorem sendToSetup_eq (s : State) (m : ToSetup) : s.sendToSetup m = s.setMail { s.mail with toSetup := s.mail.toSetup ++ [m] } := rfl
theorem sendToLamps_eq (s : State) (w : SetupWords) : s.sendToLamps w = s.setMail { s.mail with toLamps := s.mail.toLamps ++ [w] } := rfl

section
variable (s : State)

@[simp] theorem sendFrame_memory (c : Chan) (f : Frame) : (s.sendFrame c f).memory = s.memory := rfl
@[simp] theorem sendFrame_path (c : Chan) (f : Frame) : (s.sendFrame c f).path = s.path := rfl
@[simp] theorem sendFrame_staging (c : Chan) (f : Frame) : (s.sendFrame c f).staging = s.staging := rfl
@[simp] theorem sendFrame_channels (c : Chan) (f : Frame) : (s.sendFrame c f).channels = s.channels := rfl
@[simp] theorem sendFrame_alert (c : Chan) (f : Frame) : (s.sendFrame c f).alert = s.alert := rfl
@[simp] theorem sendFrame_view (c : Chan) (f : Frame) : (s.sendFrame c f).view = s.view := rfl
@[simp] theorem sendFrame_enf (c : Chan) (f : Frame) : (s.sendFrame c f).enf = s.enf := rfl
@[simp] theorem sendFrame_setup (c : Chan) (f : Frame) : (s.sendFrame c f).setup = s.setup := rfl
@[simp] theorem sendFrame_lamps (c : Chan) (f : Frame) : (s.sendFrame c f).lamps = s.lamps := rfl
@[simp] theorem sendFrame_time (c : Chan) (f : Frame) : (s.sendFrame c f).time = s.time := rfl
@[simp] theorem sendFrame_lines (c : Chan) (f : Frame) : (s.sendFrame c f).lines = s.lines := rfl
@[simp] theorem sendFrame_draws (c : Chan) (f : Frame) : (s.sendFrame c f).draws = s.draws := rfl
@[simp] theorem sendFrame_pending (c : Chan) (f : Frame) : (s.sendFrame c f).pending = s.pending := rfl
@[simp] theorem sendToEvaluator_memory (m : ToEvaluator) : (s.sendToEvaluator m).memory = s.memory := rfl
@[simp] theorem sendToEvaluator_path (m : ToEvaluator) : (s.sendToEvaluator m).path = s.path := rfl
@[simp] theorem sendToEvaluator_staging (m : ToEvaluator) : (s.sendToEvaluator m).staging = s.staging := rfl
@[simp] theorem sendToEvaluator_channels (m : ToEvaluator) : (s.sendToEvaluator m).channels = s.channels := rfl
@[simp] theorem sendToEvaluator_alert (m : ToEvaluator) : (s.sendToEvaluator m).alert = s.alert := rfl
@[simp] theorem sendToEvaluator_view (m : ToEvaluator) : (s.sendToEvaluator m).view = s.view := rfl
@[simp] theorem sendToEvaluator_enf (m : ToEvaluator) : (s.sendToEvaluator m).enf = s.enf := rfl
@[simp] theorem sendToEvaluator_setup (m : ToEvaluator) : (s.sendToEvaluator m).setup = s.setup := rfl
@[simp] theorem sendToEvaluator_lamps (m : ToEvaluator) : (s.sendToEvaluator m).lamps = s.lamps := rfl
@[simp] theorem sendToEvaluator_time (m : ToEvaluator) : (s.sendToEvaluator m).time = s.time := rfl
@[simp] theorem sendToEvaluator_lines (m : ToEvaluator) : (s.sendToEvaluator m).lines = s.lines := rfl
@[simp] theorem sendToEvaluator_draws (m : ToEvaluator) : (s.sendToEvaluator m).draws = s.draws := rfl
@[simp] theorem sendToEvaluator_pending (m : ToEvaluator) : (s.sendToEvaluator m).pending = s.pending := rfl
@[simp] theorem sendFloorChange_memory (b : Bool) : (s.sendFloorChange b).memory = s.memory := rfl
@[simp] theorem sendFloorChange_path (b : Bool) : (s.sendFloorChange b).path = s.path := rfl
@[simp] theorem sendFloorChange_staging (b : Bool) : (s.sendFloorChange b).staging = s.staging := rfl
@[simp] theorem sendFloorChange_channels (b : Bool) : (s.sendFloorChange b).channels = s.channels := rfl
@[simp] theorem sendFloorChange_alert (b : Bool) : (s.sendFloorChange b).alert = s.alert := rfl
@[simp] theorem sendFloorChange_view (b : Bool) : (s.sendFloorChange b).view = s.view := rfl
@[simp] theorem sendFloorChange_enf (b : Bool) : (s.sendFloorChange b).enf = s.enf := rfl
@[simp] theorem sendFloorChange_setup (b : Bool) : (s.sendFloorChange b).setup = s.setup := rfl
@[simp] theorem sendFloorChange_lamps (b : Bool) : (s.sendFloorChange b).lamps = s.lamps := rfl
@[simp] theorem sendFloorChange_time (b : Bool) : (s.sendFloorChange b).time = s.time := rfl
@[simp] theorem sendFloorChange_lines (b : Bool) : (s.sendFloorChange b).lines = s.lines := rfl
@[simp] theorem sendFloorChange_draws (b : Bool) : (s.sendFloorChange b).draws = s.draws := rfl
@[simp] theorem sendFloorChange_pending (b : Bool) : (s.sendFloorChange b).pending = s.pending := rfl
@[simp] theorem sendSilence_memory (cs : List Chan) : (s.sendSilence cs).memory = s.memory := rfl
@[simp] theorem sendSilence_path (cs : List Chan) : (s.sendSilence cs).path = s.path := rfl
@[simp] theorem sendSilence_staging (cs : List Chan) : (s.sendSilence cs).staging = s.staging := rfl
@[simp] theorem sendSilence_channels (cs : List Chan) : (s.sendSilence cs).channels = s.channels := rfl
@[simp] theorem sendSilence_alert (cs : List Chan) : (s.sendSilence cs).alert = s.alert := rfl
@[simp] theorem sendSilence_view (cs : List Chan) : (s.sendSilence cs).view = s.view := rfl
@[simp] theorem sendSilence_enf (cs : List Chan) : (s.sendSilence cs).enf = s.enf := rfl
@[simp] theorem sendSilence_setup (cs : List Chan) : (s.sendSilence cs).setup = s.setup := rfl
@[simp] theorem sendSilence_lamps (cs : List Chan) : (s.sendSilence cs).lamps = s.lamps := rfl
@[simp] theorem sendSilence_time (cs : List Chan) : (s.sendSilence cs).time = s.time := rfl
@[simp] theorem sendSilence_lines (cs : List Chan) : (s.sendSilence cs).lines = s.lines := rfl
@[simp] theorem sendSilence_draws (cs : List Chan) : (s.sendSilence cs).draws = s.draws := rfl
@[simp] theorem sendSilence_pending (cs : List Chan) : (s.sendSilence cs).pending = s.pending := rfl
@[simp] theorem sendStall_memory (b : Bool) : (s.sendStall b).memory = s.memory := rfl
@[simp] theorem sendStall_path (b : Bool) : (s.sendStall b).path = s.path := rfl
@[simp] theorem sendStall_staging (b : Bool) : (s.sendStall b).staging = s.staging := rfl
@[simp] theorem sendStall_channels (b : Bool) : (s.sendStall b).channels = s.channels := rfl
@[simp] theorem sendStall_alert (b : Bool) : (s.sendStall b).alert = s.alert := rfl
@[simp] theorem sendStall_view (b : Bool) : (s.sendStall b).view = s.view := rfl
@[simp] theorem sendStall_enf (b : Bool) : (s.sendStall b).enf = s.enf := rfl
@[simp] theorem sendStall_setup (b : Bool) : (s.sendStall b).setup = s.setup := rfl
@[simp] theorem sendStall_lamps (b : Bool) : (s.sendStall b).lamps = s.lamps := rfl
@[simp] theorem sendStall_time (b : Bool) : (s.sendStall b).time = s.time := rfl
@[simp] theorem sendStall_lines (b : Bool) : (s.sendStall b).lines = s.lines := rfl
@[simp] theorem sendStall_draws (b : Bool) : (s.sendStall b).draws = s.draws := rfl
@[simp] theorem sendStall_pending (b : Bool) : (s.sendStall b).pending = s.pending := rfl
@[simp] theorem sendToList_memory (m : ToList) : (s.sendToList m).memory = s.memory := rfl
@[simp] theorem sendToList_path (m : ToList) : (s.sendToList m).path = s.path := rfl
@[simp] theorem sendToList_staging (m : ToList) : (s.sendToList m).staging = s.staging := rfl
@[simp] theorem sendToList_channels (m : ToList) : (s.sendToList m).channels = s.channels := rfl
@[simp] theorem sendToList_alert (m : ToList) : (s.sendToList m).alert = s.alert := rfl
@[simp] theorem sendToList_view (m : ToList) : (s.sendToList m).view = s.view := rfl
@[simp] theorem sendToList_enf (m : ToList) : (s.sendToList m).enf = s.enf := rfl
@[simp] theorem sendToList_setup (m : ToList) : (s.sendToList m).setup = s.setup := rfl
@[simp] theorem sendToList_lamps (m : ToList) : (s.sendToList m).lamps = s.lamps := rfl
@[simp] theorem sendToList_time (m : ToList) : (s.sendToList m).time = s.time := rfl
@[simp] theorem sendToList_lines (m : ToList) : (s.sendToList m).lines = s.lines := rfl
@[simp] theorem sendToList_draws (m : ToList) : (s.sendToList m).draws = s.draws := rfl
@[simp] theorem sendToList_pending (m : ToList) : (s.sendToList m).pending = s.pending := rfl
@[simp] theorem sendToEnforcement_memory (m : ToEnforcement) : (s.sendToEnforcement m).memory = s.memory := rfl
@[simp] theorem sendToEnforcement_path (m : ToEnforcement) : (s.sendToEnforcement m).path = s.path := rfl
@[simp] theorem sendToEnforcement_staging (m : ToEnforcement) : (s.sendToEnforcement m).staging = s.staging := rfl
@[simp] theorem sendToEnforcement_channels (m : ToEnforcement) : (s.sendToEnforcement m).channels = s.channels := rfl
@[simp] theorem sendToEnforcement_alert (m : ToEnforcement) : (s.sendToEnforcement m).alert = s.alert := rfl
@[simp] theorem sendToEnforcement_view (m : ToEnforcement) : (s.sendToEnforcement m).view = s.view := rfl
@[simp] theorem sendToEnforcement_enf (m : ToEnforcement) : (s.sendToEnforcement m).enf = s.enf := rfl
@[simp] theorem sendToEnforcement_setup (m : ToEnforcement) : (s.sendToEnforcement m).setup = s.setup := rfl
@[simp] theorem sendToEnforcement_lamps (m : ToEnforcement) : (s.sendToEnforcement m).lamps = s.lamps := rfl
@[simp] theorem sendToEnforcement_time (m : ToEnforcement) : (s.sendToEnforcement m).time = s.time := rfl
@[simp] theorem sendToEnforcement_lines (m : ToEnforcement) : (s.sendToEnforcement m).lines = s.lines := rfl
@[simp] theorem sendToEnforcement_draws (m : ToEnforcement) : (s.sendToEnforcement m).draws = s.draws := rfl
@[simp] theorem sendToEnforcement_pending (m : ToEnforcement) : (s.sendToEnforcement m).pending = s.pending := rfl
@[simp] theorem sendToSetup_memory (m : ToSetup) : (s.sendToSetup m).memory = s.memory := rfl
@[simp] theorem sendToSetup_path (m : ToSetup) : (s.sendToSetup m).path = s.path := rfl
@[simp] theorem sendToSetup_staging (m : ToSetup) : (s.sendToSetup m).staging = s.staging := rfl
@[simp] theorem sendToSetup_channels (m : ToSetup) : (s.sendToSetup m).channels = s.channels := rfl
@[simp] theorem sendToSetup_alert (m : ToSetup) : (s.sendToSetup m).alert = s.alert := rfl
@[simp] theorem sendToSetup_view (m : ToSetup) : (s.sendToSetup m).view = s.view := rfl
@[simp] theorem sendToSetup_enf (m : ToSetup) : (s.sendToSetup m).enf = s.enf := rfl
@[simp] theorem sendToSetup_setup (m : ToSetup) : (s.sendToSetup m).setup = s.setup := rfl
@[simp] theorem sendToSetup_lamps (m : ToSetup) : (s.sendToSetup m).lamps = s.lamps := rfl
@[simp] theorem sendToSetup_time (m : ToSetup) : (s.sendToSetup m).time = s.time := rfl
@[simp] theorem sendToSetup_lines (m : ToSetup) : (s.sendToSetup m).lines = s.lines := rfl
@[simp] theorem sendToSetup_draws (m : ToSetup) : (s.sendToSetup m).draws = s.draws := rfl
@[simp] theorem sendToSetup_pending (m : ToSetup) : (s.sendToSetup m).pending = s.pending := rfl
@[simp] theorem sendToLamps_memory (w : SetupWords) : (s.sendToLamps w).memory = s.memory := rfl
@[simp] theorem sendToLamps_path (w : SetupWords) : (s.sendToLamps w).path = s.path := rfl
@[simp] theorem sendToLamps_staging (w : SetupWords) : (s.sendToLamps w).staging = s.staging := rfl
@[simp] theorem sendToLamps_channels (w : SetupWords) : (s.sendToLamps w).channels = s.channels := rfl
@[simp] theorem sendToLamps_alert (w : SetupWords) : (s.sendToLamps w).alert = s.alert := rfl
@[simp] theorem sendToLamps_view (w : SetupWords) : (s.sendToLamps w).view = s.view := rfl
@[simp] theorem sendToLamps_enf (w : SetupWords) : (s.sendToLamps w).enf = s.enf := rfl
@[simp] theorem sendToLamps_setup (w : SetupWords) : (s.sendToLamps w).setup = s.setup := rfl
@[simp] theorem sendToLamps_lamps (w : SetupWords) : (s.sendToLamps w).lamps = s.lamps := rfl
@[simp] theorem sendToLamps_time (w : SetupWords) : (s.sendToLamps w).time = s.time := rfl
@[simp] theorem sendToLamps_lines (w : SetupWords) : (s.sendToLamps w).lines = s.lines := rfl
@[simp] theorem sendToLamps_draws (w : SetupWords) : (s.sendToLamps w).draws = s.draws := rfl
@[simp] theorem sendToLamps_pending (w : SetupWords) : (s.sendToLamps w).pending = s.pending := rfl

end

end Sys2Proof.Machine.State
end

