-- ==== Sys2Proof/Laws/Frames.lean ====
section
/-! SUPPORT. What each shared operation leaves unchanged: one lemma for each that names the parts of the state it can change,
and from it one lemma for each part that it never changes. -/

namespace Sys2Proof.Machine

/-- An event of the alert list unit changes the unit and the lamps (R84). -/
theorem listEvent_frame (f : AlertUnit → AlertUnit) (s : State) :
    ∃ (alert : AlertUnit) (lamps : LampUnit), listEvent f s = { s with alert := alert, lamps := lamps } :=
  ⟨_, _, rfl⟩

section
variable (f : AlertUnit → AlertUnit) (s : State)
@[simp] theorem listEvent_memory : (listEvent f s).memory = s.memory := by obtain ⟨_, _, h⟩ := listEvent_frame f s; rw [h]
@[simp] theorem listEvent_path : (listEvent f s).path = s.path := by obtain ⟨_, _, h⟩ := listEvent_frame f s; rw [h]
@[simp] theorem listEvent_staging : (listEvent f s).staging = s.staging := by obtain ⟨_, _, h⟩ := listEvent_frame f s; rw [h]
@[simp] theorem listEvent_channels : (listEvent f s).channels = s.channels := by obtain ⟨_, _, h⟩ := listEvent_frame f s; rw [h]
@[simp] theorem listEvent_view : (listEvent f s).view = s.view := by obtain ⟨_, _, h⟩ := listEvent_frame f s; rw [h]
@[simp] theorem listEvent_enf : (listEvent f s).enf = s.enf := by obtain ⟨_, _, h⟩ := listEvent_frame f s; rw [h]
@[simp] theorem listEvent_setup : (listEvent f s).setup = s.setup := by obtain ⟨_, _, h⟩ := listEvent_frame f s; rw [h]
@[simp] theorem listEvent_time : (listEvent f s).time = s.time := by obtain ⟨_, _, h⟩ := listEvent_frame f s; rw [h]
@[simp] theorem listEvent_lines : (listEvent f s).lines = s.lines := by obtain ⟨_, _, h⟩ := listEvent_frame f s; rw [h]
@[simp] theorem listEvent_mail : (listEvent f s).mail = s.mail := by obtain ⟨_, _, h⟩ := listEvent_frame f s; rw [h]
@[simp] theorem listEvent_draws : (listEvent f s).draws = s.draws := by obtain ⟨_, _, h⟩ := listEvent_frame f s; rw [h]
@[simp] theorem listEvent_pending : (listEvent f s).pending = s.pending := by obtain ⟨_, _, h⟩ := listEvent_frame f s; rw [h]
end

/-- So does one taken only in ACTIVE (R84). -/
theorem listEventIfActive_frame (f : AlertUnit → AlertUnit) (s : State) :
    ∃ (alert : AlertUnit) (lamps : LampUnit), listEventIfActive f s = { s with alert := alert, lamps := lamps } :=
  by
  unfold listEventIfActive
  split
  · exact listEvent_frame f s
  · exact ⟨_, _, rfl⟩

section
variable (f : AlertUnit → AlertUnit) (s : State)
@[simp] theorem listEventIfActive_memory : (listEventIfActive f s).memory = s.memory := by obtain ⟨_, _, h⟩ := listEventIfActive_frame f s; rw [h]
@[simp] theorem listEventIfActive_path : (listEventIfActive f s).path = s.path := by obtain ⟨_, _, h⟩ := listEventIfActive_frame f s; rw [h]
@[simp] theorem listEventIfActive_staging : (listEventIfActive f s).staging = s.staging := by obtain ⟨_, _, h⟩ := listEventIfActive_frame f s; rw [h]
@[simp] theorem listEventIfActive_channels : (listEventIfActive f s).channels = s.channels := by obtain ⟨_, _, h⟩ := listEventIfActive_frame f s; rw [h]
@[simp] theorem listEventIfActive_view : (listEventIfActive f s).view = s.view := by obtain ⟨_, _, h⟩ := listEventIfActive_frame f s; rw [h]
@[simp] theorem listEventIfActive_enf : (listEventIfActive f s).enf = s.enf := by obtain ⟨_, _, h⟩ := listEventIfActive_frame f s; rw [h]
@[simp] theorem listEventIfActive_setup : (listEventIfActive f s).setup = s.setup := by obtain ⟨_, _, h⟩ := listEventIfActive_frame f s; rw [h]
@[simp] theorem listEventIfActive_time : (listEventIfActive f s).time = s.time := by obtain ⟨_, _, h⟩ := listEventIfActive_frame f s; rw [h]
@[simp] theorem listEventIfActive_lines : (listEventIfActive f s).lines = s.lines := by obtain ⟨_, _, h⟩ := listEventIfActive_frame f s; rw [h]
@[simp] theorem listEventIfActive_mail : (listEventIfActive f s).mail = s.mail := by obtain ⟨_, _, h⟩ := listEventIfActive_frame f s; rw [h]
@[simp] theorem listEventIfActive_draws : (listEventIfActive f s).draws = s.draws := by obtain ⟨_, _, h⟩ := listEventIfActive_frame f s; rw [h]
@[simp] theorem listEventIfActive_pending : (listEventIfActive f s).pending = s.pending := by obtain ⟨_, _, h⟩ := listEventIfActive_frame f s; rw [h]
end

/-- The clearing changes the unit and the lamps (R106). -/
theorem clearAlerts_frame (s : State) :
    ∃ (alert : AlertUnit) (lamps : LampUnit), clearAlerts s = { s with alert := alert, lamps := lamps } :=
  ⟨_, _, rfl⟩

section
variable (s : State)
@[simp] theorem clearAlerts_memory : (clearAlerts s).memory = s.memory := by obtain ⟨_, _, h⟩ := clearAlerts_frame s; rw [h]
@[simp] theorem clearAlerts_path : (clearAlerts s).path = s.path := by obtain ⟨_, _, h⟩ := clearAlerts_frame s; rw [h]
@[simp] theorem clearAlerts_staging : (clearAlerts s).staging = s.staging := by obtain ⟨_, _, h⟩ := clearAlerts_frame s; rw [h]
@[simp] theorem clearAlerts_channels : (clearAlerts s).channels = s.channels := by obtain ⟨_, _, h⟩ := clearAlerts_frame s; rw [h]
@[simp] theorem clearAlerts_view : (clearAlerts s).view = s.view := by obtain ⟨_, _, h⟩ := clearAlerts_frame s; rw [h]
@[simp] theorem clearAlerts_enf : (clearAlerts s).enf = s.enf := by obtain ⟨_, _, h⟩ := clearAlerts_frame s; rw [h]
@[simp] theorem clearAlerts_setup : (clearAlerts s).setup = s.setup := by obtain ⟨_, _, h⟩ := clearAlerts_frame s; rw [h]
@[simp] theorem clearAlerts_time : (clearAlerts s).time = s.time := by obtain ⟨_, _, h⟩ := clearAlerts_frame s; rw [h]
@[simp] theorem clearAlerts_lines : (clearAlerts s).lines = s.lines := by obtain ⟨_, _, h⟩ := clearAlerts_frame s; rw [h]
@[simp] theorem clearAlerts_mail : (clearAlerts s).mail = s.mail := by obtain ⟨_, _, h⟩ := clearAlerts_frame s; rw [h]
@[simp] theorem clearAlerts_draws : (clearAlerts s).draws = s.draws := by obtain ⟨_, _, h⟩ := clearAlerts_frame s; rw [h]
@[simp] theorem clearAlerts_pending : (clearAlerts s).pending = s.pending := by obtain ⟨_, _, h⟩ := clearAlerts_frame s; rw [h]
end

/-- One event of a channel changes the channel table and sends messages (R9). -/
theorem channelEvent_frame (c : Chan) (g : ChannelRecord → ChannelRecord) (s : State) :
    ∃ (channels : Vector ChannelRecord 64) (mail : Mail), channelEvent c g s = { s with channels := channels, mail := mail } :=
  ⟨_, _, rfl⟩

section
variable (c : Chan) (g : ChannelRecord → ChannelRecord) (s : State)
@[simp] theorem channelEvent_memory : (channelEvent c g s).memory = s.memory := by obtain ⟨_, _, h⟩ := channelEvent_frame c g s; rw [h]
@[simp] theorem channelEvent_path : (channelEvent c g s).path = s.path := by obtain ⟨_, _, h⟩ := channelEvent_frame c g s; rw [h]
@[simp] theorem channelEvent_staging : (channelEvent c g s).staging = s.staging := by obtain ⟨_, _, h⟩ := channelEvent_frame c g s; rw [h]
@[simp] theorem channelEvent_alert : (channelEvent c g s).alert = s.alert := by obtain ⟨_, _, h⟩ := channelEvent_frame c g s; rw [h]
@[simp] theorem channelEvent_view : (channelEvent c g s).view = s.view := by obtain ⟨_, _, h⟩ := channelEvent_frame c g s; rw [h]
@[simp] theorem channelEvent_enf : (channelEvent c g s).enf = s.enf := by obtain ⟨_, _, h⟩ := channelEvent_frame c g s; rw [h]
@[simp] theorem channelEvent_setup : (channelEvent c g s).setup = s.setup := by obtain ⟨_, _, h⟩ := channelEvent_frame c g s; rw [h]
@[simp] theorem channelEvent_lamps : (channelEvent c g s).lamps = s.lamps := by obtain ⟨_, _, h⟩ := channelEvent_frame c g s; rw [h]
@[simp] theorem channelEvent_time : (channelEvent c g s).time = s.time := by obtain ⟨_, _, h⟩ := channelEvent_frame c g s; rw [h]
@[simp] theorem channelEvent_lines : (channelEvent c g s).lines = s.lines := by obtain ⟨_, _, h⟩ := channelEvent_frame c g s; rw [h]
@[simp] theorem channelEvent_draws : (channelEvent c g s).draws = s.draws := by obtain ⟨_, _, h⟩ := channelEvent_frame c g s; rw [h]
@[simp] theorem channelEvent_pending : (channelEvent c g s).pending = s.pending := by obtain ⟨_, _, h⟩ := channelEvent_frame c g s; rw [h]
end

/-- So does a membership change (R11, R12). -/
theorem membershipEvent_frame (w : SetupWords) (c : Chan) (s : State) :
    ∃ (channels : Vector ChannelRecord 64) (mail : Mail), membershipEvent w c s = { s with channels := channels, mail := mail } :=
  by
  unfold membershipEvent
  dsimp only
  repeat' split
  all_goals exact ⟨_, _, rfl⟩

section
variable (w : SetupWords) (c : Chan) (s : State)
@[simp] theorem membershipEvent_memory : (membershipEvent w c s).memory = s.memory := by obtain ⟨_, _, h⟩ := membershipEvent_frame w c s; rw [h]
@[simp] theorem membershipEvent_path : (membershipEvent w c s).path = s.path := by obtain ⟨_, _, h⟩ := membershipEvent_frame w c s; rw [h]
@[simp] theorem membershipEvent_staging : (membershipEvent w c s).staging = s.staging := by obtain ⟨_, _, h⟩ := membershipEvent_frame w c s; rw [h]
@[simp] theorem membershipEvent_alert : (membershipEvent w c s).alert = s.alert := by obtain ⟨_, _, h⟩ := membershipEvent_frame w c s; rw [h]
@[simp] theorem membershipEvent_view : (membershipEvent w c s).view = s.view := by obtain ⟨_, _, h⟩ := membershipEvent_frame w c s; rw [h]
@[simp] theorem membershipEvent_enf : (membershipEvent w c s).enf = s.enf := by obtain ⟨_, _, h⟩ := membershipEvent_frame w c s; rw [h]
@[simp] theorem membershipEvent_setup : (membershipEvent w c s).setup = s.setup := by obtain ⟨_, _, h⟩ := membershipEvent_frame w c s; rw [h]
@[simp] theorem membershipEvent_lamps : (membershipEvent w c s).lamps = s.lamps := by obtain ⟨_, _, h⟩ := membershipEvent_frame w c s; rw [h]
@[simp] theorem membershipEvent_time : (membershipEvent w c s).time = s.time := by obtain ⟨_, _, h⟩ := membershipEvent_frame w c s; rw [h]
@[simp] theorem membershipEvent_lines : (membershipEvent w c s).lines = s.lines := by obtain ⟨_, _, h⟩ := membershipEvent_frame w c s; rw [h]
@[simp] theorem membershipEvent_draws : (membershipEvent w c s).draws = s.draws := by obtain ⟨_, _, h⟩ := membershipEvent_frame w c s; rw [h]
@[simp] theorem membershipEvent_pending : (membershipEvent w c s).pending = s.pending := by obtain ⟨_, _, h⟩ := membershipEvent_frame w c s; rw [h]
end

/-- A staging write changes the staging records (R5). -/
theorem takeStagingWrite_frame (c : Chan) (word : FrameWord) (data : Word) (s : State) :
    ∃ (staging : Vector Staging 64), takeStagingWrite c word data s = { s with staging := staging } :=
  by
  unfold takeStagingWrite
  repeat' split
  all_goals exact ⟨_, rfl⟩

section
variable (c : Chan) (word : FrameWord) (data : Word) (s : State)
@[simp] theorem takeStagingWrite_memory : (takeStagingWrite c word data s).memory = s.memory := by obtain ⟨_, h⟩ := takeStagingWrite_frame c word data s; rw [h]
@[simp] theorem takeStagingWrite_path : (takeStagingWrite c word data s).path = s.path := by obtain ⟨_, h⟩ := takeStagingWrite_frame c word data s; rw [h]
@[simp] theorem takeStagingWrite_channels : (takeStagingWrite c word data s).channels = s.channels := by obtain ⟨_, h⟩ := takeStagingWrite_frame c word data s; rw [h]
@[simp] theorem takeStagingWrite_alert : (takeStagingWrite c word data s).alert = s.alert := by obtain ⟨_, h⟩ := takeStagingWrite_frame c word data s; rw [h]
@[simp] theorem takeStagingWrite_view : (takeStagingWrite c word data s).view = s.view := by obtain ⟨_, h⟩ := takeStagingWrite_frame c word data s; rw [h]
@[simp] theorem takeStagingWrite_enf : (takeStagingWrite c word data s).enf = s.enf := by obtain ⟨_, h⟩ := takeStagingWrite_frame c word data s; rw [h]
@[simp] theorem takeStagingWrite_setup : (takeStagingWrite c word data s).setup = s.setup := by obtain ⟨_, h⟩ := takeStagingWrite_frame c word data s; rw [h]
@[simp] theorem takeStagingWrite_lamps : (takeStagingWrite c word data s).lamps = s.lamps := by obtain ⟨_, h⟩ := takeStagingWrite_frame c word data s; rw [h]
@[simp] theorem takeStagingWrite_time : (takeStagingWrite c word data s).time = s.time := by obtain ⟨_, h⟩ := takeStagingWrite_frame c word data s; rw [h]
@[simp] theorem takeStagingWrite_lines : (takeStagingWrite c word data s).lines = s.lines := by obtain ⟨_, h⟩ := takeStagingWrite_frame c word data s; rw [h]
@[simp] theorem takeStagingWrite_mail : (takeStagingWrite c word data s).mail = s.mail := by obtain ⟨_, h⟩ := takeStagingWrite_frame c word data s; rw [h]
@[simp] theorem takeStagingWrite_draws : (takeStagingWrite c word data s).draws = s.draws := by obtain ⟨_, h⟩ := takeStagingWrite_frame c word data s; rw [h]
@[simp] theorem takeStagingWrite_pending : (takeStagingWrite c word data s).pending = s.pending := by obtain ⟨_, h⟩ := takeStagingWrite_frame c word data s; rw [h]
end

/-- A commit changes the staging records and sends a frame (R6, R7). -/
theorem takeCommit_frame (c : Chan) (data : Word) (s : State) :
    ∃ (staging : Vector Staging 64) (mail : Mail), takeCommit c data s = { s with staging := staging, mail := mail } :=
  by
  unfold takeCommit
  repeat' split
  all_goals exact ⟨_, _, rfl⟩

section
variable (c : Chan) (data : Word) (s : State)
@[simp] theorem takeCommit_memory : (takeCommit c data s).memory = s.memory := by obtain ⟨_, _, h⟩ := takeCommit_frame c data s; rw [h]
@[simp] theorem takeCommit_path : (takeCommit c data s).path = s.path := by obtain ⟨_, _, h⟩ := takeCommit_frame c data s; rw [h]
@[simp] theorem takeCommit_channels : (takeCommit c data s).channels = s.channels := by obtain ⟨_, _, h⟩ := takeCommit_frame c data s; rw [h]
@[simp] theorem takeCommit_alert : (takeCommit c data s).alert = s.alert := by obtain ⟨_, _, h⟩ := takeCommit_frame c data s; rw [h]
@[simp] theorem takeCommit_view : (takeCommit c data s).view = s.view := by obtain ⟨_, _, h⟩ := takeCommit_frame c data s; rw [h]
@[simp] theorem takeCommit_enf : (takeCommit c data s).enf = s.enf := by obtain ⟨_, _, h⟩ := takeCommit_frame c data s; rw [h]
@[simp] theorem takeCommit_setup : (takeCommit c data s).setup = s.setup := by obtain ⟨_, _, h⟩ := takeCommit_frame c data s; rw [h]
@[simp] theorem takeCommit_lamps : (takeCommit c data s).lamps = s.lamps := by obtain ⟨_, _, h⟩ := takeCommit_frame c data s; rw [h]
@[simp] theorem takeCommit_time : (takeCommit c data s).time = s.time := by obtain ⟨_, _, h⟩ := takeCommit_frame c data s; rw [h]
@[simp] theorem takeCommit_lines : (takeCommit c data s).lines = s.lines := by obtain ⟨_, _, h⟩ := takeCommit_frame c data s; rw [h]
@[simp] theorem takeCommit_draws : (takeCommit c data s).draws = s.draws := by obtain ⟨_, _, h⟩ := takeCommit_frame c data s; rw [h]
@[simp] theorem takeCommit_pending : (takeCommit c data s).pending = s.pending := by obtain ⟨_, _, h⟩ := takeCommit_frame c data s; rw [h]
end

/-- Raising a claim changes the enforcement unit (R143). -/
theorem claimIfAllowed_frame (s : State) :
    ∃ (enf : EnforcementUnit), claimIfAllowed s = { s with enf := enf } :=
  by
  unfold claimIfAllowed
  repeat' split
  all_goals exact ⟨_, rfl⟩

section
variable (s : State)
@[simp] theorem claimIfAllowed_memory : (claimIfAllowed s).memory = s.memory := by obtain ⟨_, h⟩ := claimIfAllowed_frame s; rw [h]
@[simp] theorem claimIfAllowed_path : (claimIfAllowed s).path = s.path := by obtain ⟨_, h⟩ := claimIfAllowed_frame s; rw [h]
@[simp] theorem claimIfAllowed_staging : (claimIfAllowed s).staging = s.staging := by obtain ⟨_, h⟩ := claimIfAllowed_frame s; rw [h]
@[simp] theorem claimIfAllowed_channels : (claimIfAllowed s).channels = s.channels := by obtain ⟨_, h⟩ := claimIfAllowed_frame s; rw [h]
@[simp] theorem claimIfAllowed_alert : (claimIfAllowed s).alert = s.alert := by obtain ⟨_, h⟩ := claimIfAllowed_frame s; rw [h]
@[simp] theorem claimIfAllowed_view : (claimIfAllowed s).view = s.view := by obtain ⟨_, h⟩ := claimIfAllowed_frame s; rw [h]
@[simp] theorem claimIfAllowed_setup : (claimIfAllowed s).setup = s.setup := by obtain ⟨_, h⟩ := claimIfAllowed_frame s; rw [h]
@[simp] theorem claimIfAllowed_lamps : (claimIfAllowed s).lamps = s.lamps := by obtain ⟨_, h⟩ := claimIfAllowed_frame s; rw [h]
@[simp] theorem claimIfAllowed_time : (claimIfAllowed s).time = s.time := by obtain ⟨_, h⟩ := claimIfAllowed_frame s; rw [h]
@[simp] theorem claimIfAllowed_lines : (claimIfAllowed s).lines = s.lines := by obtain ⟨_, h⟩ := claimIfAllowed_frame s; rw [h]
@[simp] theorem claimIfAllowed_mail : (claimIfAllowed s).mail = s.mail := by obtain ⟨_, h⟩ := claimIfAllowed_frame s; rw [h]
@[simp] theorem claimIfAllowed_draws : (claimIfAllowed s).draws = s.draws := by obtain ⟨_, h⟩ := claimIfAllowed_frame s; rw [h]
@[simp] theorem claimIfAllowed_pending : (claimIfAllowed s).pending = s.pending := by obtain ⟨_, h⟩ := claimIfAllowed_frame s; rw [h]
end

/-- The end of a stall changes the mark and sends a report (R147). -/
theorem endStall_frame (s : State) :
    ∃ (enf : EnforcementUnit) (mail : Mail), endStall s = { s with enf := enf, mail := mail } :=
  by
  unfold endStall
  repeat' split
  all_goals exact ⟨_, _, rfl⟩

section
variable (s : State)
@[simp] theorem endStall_memory : (endStall s).memory = s.memory := by obtain ⟨_, _, h⟩ := endStall_frame s; rw [h]
@[simp] theorem endStall_path : (endStall s).path = s.path := by obtain ⟨_, _, h⟩ := endStall_frame s; rw [h]
@[simp] theorem endStall_staging : (endStall s).staging = s.staging := by obtain ⟨_, _, h⟩ := endStall_frame s; rw [h]
@[simp] theorem endStall_channels : (endStall s).channels = s.channels := by obtain ⟨_, _, h⟩ := endStall_frame s; rw [h]
@[simp] theorem endStall_alert : (endStall s).alert = s.alert := by obtain ⟨_, _, h⟩ := endStall_frame s; rw [h]
@[simp] theorem endStall_view : (endStall s).view = s.view := by obtain ⟨_, _, h⟩ := endStall_frame s; rw [h]
@[simp] theorem endStall_setup : (endStall s).setup = s.setup := by obtain ⟨_, _, h⟩ := endStall_frame s; rw [h]
@[simp] theorem endStall_lamps : (endStall s).lamps = s.lamps := by obtain ⟨_, _, h⟩ := endStall_frame s; rw [h]
@[simp] theorem endStall_time : (endStall s).time = s.time := by obtain ⟨_, _, h⟩ := endStall_frame s; rw [h]
@[simp] theorem endStall_lines : (endStall s).lines = s.lines := by obtain ⟨_, _, h⟩ := endStall_frame s; rw [h]
@[simp] theorem endStall_draws : (endStall s).draws = s.draws := by obtain ⟨_, _, h⟩ := endStall_frame s; rw [h]
@[simp] theorem endStall_pending : (endStall s).pending = s.pending := by obtain ⟨_, _, h⟩ := endStall_frame s; rw [h]
end

/-- The restore-done report is a message (R156). -/
theorem reportIfRestored_frame (s : State) :
    ∃ (mail : Mail), reportIfRestored s = { s with mail := mail } :=
  by
  unfold reportIfRestored
  repeat' split
  all_goals exact ⟨_, rfl⟩

section
variable (s : State)
@[simp] theorem reportIfRestored_memory : (reportIfRestored s).memory = s.memory := by obtain ⟨_, h⟩ := reportIfRestored_frame s; rw [h]
@[simp] theorem reportIfRestored_path : (reportIfRestored s).path = s.path := by obtain ⟨_, h⟩ := reportIfRestored_frame s; rw [h]
@[simp] theorem reportIfRestored_staging : (reportIfRestored s).staging = s.staging := by obtain ⟨_, h⟩ := reportIfRestored_frame s; rw [h]
@[simp] theorem reportIfRestored_channels : (reportIfRestored s).channels = s.channels := by obtain ⟨_, h⟩ := reportIfRestored_frame s; rw [h]
@[simp] theorem reportIfRestored_alert : (reportIfRestored s).alert = s.alert := by obtain ⟨_, h⟩ := reportIfRestored_frame s; rw [h]
@[simp] theorem reportIfRestored_view : (reportIfRestored s).view = s.view := by obtain ⟨_, h⟩ := reportIfRestored_frame s; rw [h]
@[simp] theorem reportIfRestored_enf : (reportIfRestored s).enf = s.enf := by obtain ⟨_, h⟩ := reportIfRestored_frame s; rw [h]
@[simp] theorem reportIfRestored_setup : (reportIfRestored s).setup = s.setup := by obtain ⟨_, h⟩ := reportIfRestored_frame s; rw [h]
@[simp] theorem reportIfRestored_lamps : (reportIfRestored s).lamps = s.lamps := by obtain ⟨_, h⟩ := reportIfRestored_frame s; rw [h]
@[simp] theorem reportIfRestored_time : (reportIfRestored s).time = s.time := by obtain ⟨_, h⟩ := reportIfRestored_frame s; rw [h]
@[simp] theorem reportIfRestored_lines : (reportIfRestored s).lines = s.lines := by obtain ⟨_, h⟩ := reportIfRestored_frame s; rw [h]
@[simp] theorem reportIfRestored_draws : (reportIfRestored s).draws = s.draws := by obtain ⟨_, h⟩ := reportIfRestored_frame s; rw [h]
@[simp] theorem reportIfRestored_pending : (reportIfRestored s).pending = s.pending := by obtain ⟨_, h⟩ := reportIfRestored_frame s; rw [h]
end

/-- The write filter changes the enforcement unit and sends messages (R135). -/
theorem filterWrite_frame (c : Chan) (w : Word) (s : State) :
    ∃ (enf : EnforcementUnit) (mail : Mail), filterWrite c w s = { s with enf := enf, mail := mail } :=
  by
  unfold filterWrite
  dsimp only
  split
  · obtain ⟨m, h⟩ := reportIfRestored_frame ((s.setEnf { s.enf with intended := s.enf.intended.set c w, queue := s.enf.queue.filter (fun d => d ≠ c) }).sendSilence (crossing s.settings.muteCode c s.enf.intended[c] w))
    exact ⟨_, m, h⟩
  · exact ⟨_, _, rfl⟩

section
variable (c : Chan) (w : Word) (s : State)
@[simp] theorem filterWrite_memory : (filterWrite c w s).memory = s.memory := by obtain ⟨_, _, h⟩ := filterWrite_frame c w s; rw [h]
@[simp] theorem filterWrite_path : (filterWrite c w s).path = s.path := by obtain ⟨_, _, h⟩ := filterWrite_frame c w s; rw [h]
@[simp] theorem filterWrite_staging : (filterWrite c w s).staging = s.staging := by obtain ⟨_, _, h⟩ := filterWrite_frame c w s; rw [h]
@[simp] theorem filterWrite_channels : (filterWrite c w s).channels = s.channels := by obtain ⟨_, _, h⟩ := filterWrite_frame c w s; rw [h]
@[simp] theorem filterWrite_alert : (filterWrite c w s).alert = s.alert := by obtain ⟨_, _, h⟩ := filterWrite_frame c w s; rw [h]
@[simp] theorem filterWrite_view : (filterWrite c w s).view = s.view := by obtain ⟨_, _, h⟩ := filterWrite_frame c w s; rw [h]
@[simp] theorem filterWrite_setup : (filterWrite c w s).setup = s.setup := by obtain ⟨_, _, h⟩ := filterWrite_frame c w s; rw [h]
@[simp] theorem filterWrite_lamps : (filterWrite c w s).lamps = s.lamps := by obtain ⟨_, _, h⟩ := filterWrite_frame c w s; rw [h]
@[simp] theorem filterWrite_time : (filterWrite c w s).time = s.time := by obtain ⟨_, _, h⟩ := filterWrite_frame c w s; rw [h]
@[simp] theorem filterWrite_lines : (filterWrite c w s).lines = s.lines := by obtain ⟨_, _, h⟩ := filterWrite_frame c w s; rw [h]
@[simp] theorem filterWrite_draws : (filterWrite c w s).draws = s.draws := by obtain ⟨_, _, h⟩ := filterWrite_frame c w s; rw [h]
@[simp] theorem filterWrite_pending : (filterWrite c w s).pending = s.pending := by obtain ⟨_, _, h⟩ := filterWrite_frame c w s; rw [h]
end

/-- A notice changes the enforcement unit (R138). -/
theorem queueUnderEnforce_frame (c : Chan) (s : State) :
    ∃ (enf : EnforcementUnit), queueUnderEnforce c s = { s with enf := enf } :=
  by
  unfold queueUnderEnforce
  split
  · obtain ⟨v, h⟩ := claimIfAllowed_frame (s.setQueue (addToQueue c s.enf.queue))
    exact ⟨v, h⟩
  · exact ⟨_, rfl⟩

section
variable (c : Chan) (s : State)
@[simp] theorem queueUnderEnforce_memory : (queueUnderEnforce c s).memory = s.memory := by obtain ⟨_, h⟩ := queueUnderEnforce_frame c s; rw [h]
@[simp] theorem queueUnderEnforce_path : (queueUnderEnforce c s).path = s.path := by obtain ⟨_, h⟩ := queueUnderEnforce_frame c s; rw [h]
@[simp] theorem queueUnderEnforce_staging : (queueUnderEnforce c s).staging = s.staging := by obtain ⟨_, h⟩ := queueUnderEnforce_frame c s; rw [h]
@[simp] theorem queueUnderEnforce_channels : (queueUnderEnforce c s).channels = s.channels := by obtain ⟨_, h⟩ := queueUnderEnforce_frame c s; rw [h]
@[simp] theorem queueUnderEnforce_alert : (queueUnderEnforce c s).alert = s.alert := by obtain ⟨_, h⟩ := queueUnderEnforce_frame c s; rw [h]
@[simp] theorem queueUnderEnforce_view : (queueUnderEnforce c s).view = s.view := by obtain ⟨_, h⟩ := queueUnderEnforce_frame c s; rw [h]
@[simp] theorem queueUnderEnforce_setup : (queueUnderEnforce c s).setup = s.setup := by obtain ⟨_, h⟩ := queueUnderEnforce_frame c s; rw [h]
@[simp] theorem queueUnderEnforce_lamps : (queueUnderEnforce c s).lamps = s.lamps := by obtain ⟨_, h⟩ := queueUnderEnforce_frame c s; rw [h]
@[simp] theorem queueUnderEnforce_time : (queueUnderEnforce c s).time = s.time := by obtain ⟨_, h⟩ := queueUnderEnforce_frame c s; rw [h]
@[simp] theorem queueUnderEnforce_lines : (queueUnderEnforce c s).lines = s.lines := by obtain ⟨_, h⟩ := queueUnderEnforce_frame c s; rw [h]
@[simp] theorem queueUnderEnforce_mail : (queueUnderEnforce c s).mail = s.mail := by obtain ⟨_, h⟩ := queueUnderEnforce_frame c s; rw [h]
@[simp] theorem queueUnderEnforce_draws : (queueUnderEnforce c s).draws = s.draws := by obtain ⟨_, h⟩ := queueUnderEnforce_frame c s; rw [h]
@[simp] theorem queueUnderEnforce_pending : (queueUnderEnforce c s).pending = s.pending := by obtain ⟨_, h⟩ := queueUnderEnforce_frame c s; rw [h]
end

/-- A setup word changes the setup copy (R164). -/
theorem takeSetupWord_frame (n : Fin 36) (data : Word) (s : State) :
    ∃ (setup : SetupUnit), takeSetupWord n data s = { s with setup := setup } :=
  ⟨_, rfl⟩

section
variable (n : Fin 36) (data : Word) (s : State)
@[simp] theorem takeSetupWord_memory : (takeSetupWord n data s).memory = s.memory := by obtain ⟨_, h⟩ := takeSetupWord_frame n data s; rw [h]
@[simp] theorem takeSetupWord_path : (takeSetupWord n data s).path = s.path := by obtain ⟨_, h⟩ := takeSetupWord_frame n data s; rw [h]
@[simp] theorem takeSetupWord_staging : (takeSetupWord n data s).staging = s.staging := by obtain ⟨_, h⟩ := takeSetupWord_frame n data s; rw [h]
@[simp] theorem takeSetupWord_channels : (takeSetupWord n data s).channels = s.channels := by obtain ⟨_, h⟩ := takeSetupWord_frame n data s; rw [h]
@[simp] theorem takeSetupWord_alert : (takeSetupWord n data s).alert = s.alert := by obtain ⟨_, h⟩ := takeSetupWord_frame n data s; rw [h]
@[simp] theorem takeSetupWord_view : (takeSetupWord n data s).view = s.view := by obtain ⟨_, h⟩ := takeSetupWord_frame n data s; rw [h]
@[simp] theorem takeSetupWord_enf : (takeSetupWord n data s).enf = s.enf := by obtain ⟨_, h⟩ := takeSetupWord_frame n data s; rw [h]
@[simp] theorem takeSetupWord_lamps : (takeSetupWord n data s).lamps = s.lamps := by obtain ⟨_, h⟩ := takeSetupWord_frame n data s; rw [h]
@[simp] theorem takeSetupWord_time : (takeSetupWord n data s).time = s.time := by obtain ⟨_, h⟩ := takeSetupWord_frame n data s; rw [h]
@[simp] theorem takeSetupWord_lines : (takeSetupWord n data s).lines = s.lines := by obtain ⟨_, h⟩ := takeSetupWord_frame n data s; rw [h]
@[simp] theorem takeSetupWord_mail : (takeSetupWord n data s).mail = s.mail := by obtain ⟨_, h⟩ := takeSetupWord_frame n data s; rw [h]
@[simp] theorem takeSetupWord_draws : (takeSetupWord n data s).draws = s.draws := by obtain ⟨_, h⟩ := takeSetupWord_frame n data s; rw [h]
@[simp] theorem takeSetupWord_pending : (takeSetupWord n data s).pending = s.pending := by obtain ⟨_, h⟩ := takeSetupWord_frame n data s; rw [h]
end

/-- START carried out changes seven blocks' state (R169). -/
theorem beginSession_frame (w : SetupWords) (s : State) :
    ∃ (path : PathUnit) (staging : Vector Staging 64) (view : View) (setup : SetupUnit) (lamps : LampUnit) (time : Timebase) (mail : Mail), beginSession w s = { s with path := path, staging := staging, view := view, setup := setup, lamps := lamps, time := time, mail := mail } :=
  ⟨_, _, _, _, _, _, _, rfl⟩

section
variable (w : SetupWords) (s : State)
@[simp] theorem beginSession_memory : (beginSession w s).memory = s.memory := by obtain ⟨_, _, _, _, _, _, _, h⟩ := beginSession_frame w s; rw [h]
@[simp] theorem beginSession_channels : (beginSession w s).channels = s.channels := by obtain ⟨_, _, _, _, _, _, _, h⟩ := beginSession_frame w s; rw [h]
@[simp] theorem beginSession_alert : (beginSession w s).alert = s.alert := by obtain ⟨_, _, _, _, _, _, _, h⟩ := beginSession_frame w s; rw [h]
@[simp] theorem beginSession_enf : (beginSession w s).enf = s.enf := by obtain ⟨_, _, _, _, _, _, _, h⟩ := beginSession_frame w s; rw [h]
@[simp] theorem beginSession_lines : (beginSession w s).lines = s.lines := by obtain ⟨_, _, _, _, _, _, _, h⟩ := beginSession_frame w s; rw [h]
@[simp] theorem beginSession_draws : (beginSession w s).draws = s.draws := by obtain ⟨_, _, _, _, _, _, _, h⟩ := beginSession_frame w s; rw [h]
@[simp] theorem beginSession_pending : (beginSession w s).pending = s.pending := by obtain ⟨_, _, _, _, _, _, _, h⟩ := beginSession_frame w s; rw [h]
end

/-- A request to the alert list unit (R105, R106). -/
theorem takeToList_frame (m : ToList) (s : State) :
    ∃ (alert : AlertUnit) (lamps : LampUnit),
      takeToList m s = { s with alert := alert, lamps := lamps } := by
  cases m with
  | removal gone => exact ⟨_, _, rfl⟩
  | clearing => exact ⟨_, _, rfl⟩

section
variable (m : ToList) (s : State)
@[simp] theorem takeToList_memory : (takeToList m s).memory = s.memory := by obtain ⟨_, _, h⟩ := takeToList_frame m s; rw [h]
@[simp] theorem takeToList_path : (takeToList m s).path = s.path := by obtain ⟨_, _, h⟩ := takeToList_frame m s; rw [h]
@[simp] theorem takeToList_staging : (takeToList m s).staging = s.staging := by obtain ⟨_, _, h⟩ := takeToList_frame m s; rw [h]
@[simp] theorem takeToList_channels : (takeToList m s).channels = s.channels := by obtain ⟨_, _, h⟩ := takeToList_frame m s; rw [h]
@[simp] theorem takeToList_view : (takeToList m s).view = s.view := by obtain ⟨_, _, h⟩ := takeToList_frame m s; rw [h]
@[simp] theorem takeToList_enf : (takeToList m s).enf = s.enf := by obtain ⟨_, _, h⟩ := takeToList_frame m s; rw [h]
@[simp] theorem takeToList_setup : (takeToList m s).setup = s.setup := by obtain ⟨_, _, h⟩ := takeToList_frame m s; rw [h]
@[simp] theorem takeToList_time : (takeToList m s).time = s.time := by obtain ⟨_, _, h⟩ := takeToList_frame m s; rw [h]
@[simp] theorem takeToList_lines : (takeToList m s).lines = s.lines := by obtain ⟨_, _, h⟩ := takeToList_frame m s; rw [h]
@[simp] theorem takeToList_mail : (takeToList m s).mail = s.mail := by obtain ⟨_, _, h⟩ := takeToList_frame m s; rw [h]
@[simp] theorem takeToList_draws : (takeToList m s).draws = s.draws := by obtain ⟨_, _, h⟩ := takeToList_frame m s; rw [h]
@[simp] theorem takeToList_pending : (takeToList m s).pending = s.pending := by obtain ⟨_, _, h⟩ := takeToList_frame m s; rw [h]
end

/-- The removals taken before an APPLY enrols their channels anew (R105). -/
theorem takeRemovals_frame (cs : List Chan) (ms : List ToList) (s : State) :
    ∃ (alert : AlertUnit) (lamps : LampUnit) (mail : Mail),
      takeRemovals cs ms s = { s with alert := alert, lamps := lamps, mail := mail } := by
  induction ms generalizing s with
  | nil => exact ⟨_, _, _, rfl⟩
  | cons m rest ih =>
    unfold takeRemovals
    split
    · obtain ⟨a, l, h⟩ := takeToList_frame m (s.setMail { s.mail with toList := rest })
      obtain ⟨a', l', m', h'⟩ := ih (takeToList m (s.setMail { s.mail with toList := rest }))
      exact ⟨a', l', m', by rw [h', h]; rfl⟩
    · exact ⟨_, _, _, rfl⟩

section
variable (cs : List Chan) (ms : List ToList) (s : State)
@[simp] theorem takeRemovals_memory : (takeRemovals cs ms s).memory = s.memory := by obtain ⟨_, _, _, h⟩ := takeRemovals_frame cs ms s; rw [h]
@[simp] theorem takeRemovals_path : (takeRemovals cs ms s).path = s.path := by obtain ⟨_, _, _, h⟩ := takeRemovals_frame cs ms s; rw [h]
@[simp] theorem takeRemovals_staging : (takeRemovals cs ms s).staging = s.staging := by obtain ⟨_, _, _, h⟩ := takeRemovals_frame cs ms s; rw [h]
@[simp] theorem takeRemovals_channels : (takeRemovals cs ms s).channels = s.channels := by obtain ⟨_, _, _, h⟩ := takeRemovals_frame cs ms s; rw [h]
@[simp] theorem takeRemovals_view : (takeRemovals cs ms s).view = s.view := by obtain ⟨_, _, _, h⟩ := takeRemovals_frame cs ms s; rw [h]
@[simp] theorem takeRemovals_enf : (takeRemovals cs ms s).enf = s.enf := by obtain ⟨_, _, _, h⟩ := takeRemovals_frame cs ms s; rw [h]
@[simp] theorem takeRemovals_setup : (takeRemovals cs ms s).setup = s.setup := by obtain ⟨_, _, _, h⟩ := takeRemovals_frame cs ms s; rw [h]
@[simp] theorem takeRemovals_time : (takeRemovals cs ms s).time = s.time := by obtain ⟨_, _, _, h⟩ := takeRemovals_frame cs ms s; rw [h]
@[simp] theorem takeRemovals_lines : (takeRemovals cs ms s).lines = s.lines := by obtain ⟨_, _, _, h⟩ := takeRemovals_frame cs ms s; rw [h]
@[simp] theorem takeRemovals_draws : (takeRemovals cs ms s).draws = s.draws := by obtain ⟨_, _, _, h⟩ := takeRemovals_frame cs ms s; rw [h]
@[simp] theorem takeRemovals_pending : (takeRemovals cs ms s).pending = s.pending := by obtain ⟨_, _, _, h⟩ := takeRemovals_frame cs ms s; rw [h]
end

/-- What an APPLY puts in force and sends (R170). -/
theorem sendSetup_frame (w : SetupWords) (s : State) :
    ∃ (staging : Vector Staging 64) (setup : SetupUnit) (mail : Mail),
      sendSetup w s = { s with staging := staging, setup := setup, mail := mail } := by
  unfold sendSetup State.setSetup State.setStaging State.setMail
  generalize deEnrolled s.settings w = gone
  generalize newlyEnrolled s.settings w = fresh
  exact ⟨_, _, _, rfl⟩

section
variable (w : SetupWords) (s : State)
@[simp] theorem sendSetup_memory : (sendSetup w s).memory = s.memory := by obtain ⟨_, _, _, h⟩ := sendSetup_frame w s; rw [h]
@[simp] theorem sendSetup_path : (sendSetup w s).path = s.path := by obtain ⟨_, _, _, h⟩ := sendSetup_frame w s; rw [h]
@[simp] theorem sendSetup_channels : (sendSetup w s).channels = s.channels := by obtain ⟨_, _, _, h⟩ := sendSetup_frame w s; rw [h]
@[simp] theorem sendSetup_alert : (sendSetup w s).alert = s.alert := by obtain ⟨_, _, _, h⟩ := sendSetup_frame w s; rw [h]
@[simp] theorem sendSetup_view : (sendSetup w s).view = s.view := by obtain ⟨_, _, _, h⟩ := sendSetup_frame w s; rw [h]
@[simp] theorem sendSetup_enf : (sendSetup w s).enf = s.enf := by obtain ⟨_, _, _, h⟩ := sendSetup_frame w s; rw [h]
@[simp] theorem sendSetup_lamps : (sendSetup w s).lamps = s.lamps := by obtain ⟨_, _, _, h⟩ := sendSetup_frame w s; rw [h]
@[simp] theorem sendSetup_time : (sendSetup w s).time = s.time := by obtain ⟨_, _, _, h⟩ := sendSetup_frame w s; rw [h]
@[simp] theorem sendSetup_lines : (sendSetup w s).lines = s.lines := by obtain ⟨_, _, _, h⟩ := sendSetup_frame w s; rw [h]
@[simp] theorem sendSetup_draws : (sendSetup w s).draws = s.draws := by obtain ⟨_, _, _, h⟩ := sendSetup_frame w s; rw [h]
@[simp] theorem sendSetup_pending : (sendSetup w s).pending = s.pending := by obtain ⟨_, _, _, h⟩ := sendSetup_frame w s; rw [h]
end

/-- The setup unit after an APPLY is carried out (R170). -/
theorem sendSetup_setup (w : SetupWords) (s : State) :
    (sendSetup w s).setup =
      { s.setup with working := some w, freeze := w.freezeLevel, result := .done, lastCode := 0x02#8 } := by
  unfold sendSetup State.setSetup State.setStaging State.setMail
  generalize deEnrolled s.settings w = gone
  generalize newlyEnrolled s.settings w = fresh
  rfl

theorem applySetup_setup (w : SetupWords) (s : State) :
    (applySetup w s).setup =
      { s.setup with working := some w, freeze := w.freezeLevel, result := .done, lastCode := 0x02#8 } := by
  rw [applySetup, sendSetup_setup, takeRemovals_setup]

/-- APPLY carried out (R105, R170). -/
theorem applySetup_frame (w : SetupWords) (s : State) :
    ∃ (staging : Vector Staging 64) (alert : AlertUnit) (setup : SetupUnit) (lamps : LampUnit) (mail : Mail),
      applySetup w s = { s with staging := staging, alert := alert, setup := setup, lamps := lamps, mail := mail } := by
  obtain ⟨a, l, m, h⟩ := takeRemovals_frame (newlyEnrolled s.settings w) s.mail.toList s
  obtain ⟨v, u, m', h'⟩ := sendSetup_frame w (takeRemovals (newlyEnrolled s.settings w) s.mail.toList s)
  exact ⟨v, a, u, l, m', by rw [applySetup, h', h]⟩

section
variable (w : SetupWords) (s : State)
@[simp] theorem applySetup_memory : (applySetup w s).memory = s.memory := by obtain ⟨_, _, _, _, _, h⟩ := applySetup_frame w s; rw [h]
@[simp] theorem applySetup_path : (applySetup w s).path = s.path := by obtain ⟨_, _, _, _, _, h⟩ := applySetup_frame w s; rw [h]
@[simp] theorem applySetup_channels : (applySetup w s).channels = s.channels := by obtain ⟨_, _, _, _, _, h⟩ := applySetup_frame w s; rw [h]
@[simp] theorem applySetup_view : (applySetup w s).view = s.view := by obtain ⟨_, _, _, _, _, h⟩ := applySetup_frame w s; rw [h]
@[simp] theorem applySetup_enf : (applySetup w s).enf = s.enf := by obtain ⟨_, _, _, _, _, h⟩ := applySetup_frame w s; rw [h]
@[simp] theorem applySetup_time : (applySetup w s).time = s.time := by obtain ⟨_, _, _, _, _, h⟩ := applySetup_frame w s; rw [h]
@[simp] theorem applySetup_lines : (applySetup w s).lines = s.lines := by obtain ⟨_, _, _, _, _, h⟩ := applySetup_frame w s; rw [h]
@[simp] theorem applySetup_draws : (applySetup w s).draws = s.draws := by obtain ⟨_, _, _, _, _, h⟩ := applySetup_frame w s; rw [h]
@[simp] theorem applySetup_pending : (applySetup w s).pending = s.pending := by obtain ⟨_, _, _, _, _, h⟩ := applySetup_frame w s; rw [h]
end

/-- A chair request taken changes the table and its paths (R56). -/
theorem takeChair_frame (c : Chan) (set : Bool) (rest : List ToEvaluator) (s : State) :
    ∃ (channels : Vector ChannelRecord 64) (mail : Mail), takeChair c set rest s = { s with channels := channels, mail := mail } := by
  unfold takeChair
  dsimp only
  split
  · exact ⟨_, _, rfl⟩
  · exact ⟨_, _, rfl⟩

section
variable (c : Chan) (set : Bool) (rest : List ToEvaluator) (s : State)
@[simp] theorem takeChair_memory : (takeChair c set rest s).memory = s.memory := by obtain ⟨_, _, h⟩ := takeChair_frame c set rest s; rw [h]
@[simp] theorem takeChair_path : (takeChair c set rest s).path = s.path := by obtain ⟨_, _, h⟩ := takeChair_frame c set rest s; rw [h]
@[simp] theorem takeChair_staging : (takeChair c set rest s).staging = s.staging := by obtain ⟨_, _, h⟩ := takeChair_frame c set rest s; rw [h]
@[simp] theorem takeChair_alert : (takeChair c set rest s).alert = s.alert := by obtain ⟨_, _, h⟩ := takeChair_frame c set rest s; rw [h]
@[simp] theorem takeChair_view : (takeChair c set rest s).view = s.view := by obtain ⟨_, _, h⟩ := takeChair_frame c set rest s; rw [h]
@[simp] theorem takeChair_enf : (takeChair c set rest s).enf = s.enf := by obtain ⟨_, _, h⟩ := takeChair_frame c set rest s; rw [h]
@[simp] theorem takeChair_setup : (takeChair c set rest s).setup = s.setup := by obtain ⟨_, _, h⟩ := takeChair_frame c set rest s; rw [h]
@[simp] theorem takeChair_lamps : (takeChair c set rest s).lamps = s.lamps := by obtain ⟨_, _, h⟩ := takeChair_frame c set rest s; rw [h]
@[simp] theorem takeChair_time : (takeChair c set rest s).time = s.time := by obtain ⟨_, _, h⟩ := takeChair_frame c set rest s; rw [h]
@[simp] theorem takeChair_lines : (takeChair c set rest s).lines = s.lines := by obtain ⟨_, _, h⟩ := takeChair_frame c set rest s; rw [h]
@[simp] theorem takeChair_draws : (takeChair c set rest s).draws = s.draws := by obtain ⟨_, _, h⟩ := takeChair_frame c set rest s; rw [h]
@[simp] theorem takeChair_pending : (takeChair c set rest s).pending = s.pending := by obtain ⟨_, _, h⟩ := takeChair_frame c set rest s; rw [h]
end

/-- A membership change taken for a channel changes the table and its paths (R11, R12). -/
theorem takeMembership_frame (w : SetupWords) (c : Chan) (rest : List ToEvaluator) (s : State) :
    ∃ (channels : Vector ChannelRecord 64) (mail : Mail), takeMembership w c rest s = { s with channels := channels, mail := mail } := by
  obtain ⟨v, m, h⟩ := membershipEvent_frame w c (s.setMail { s.mail with toEvaluator := membershipAfter w c rest })
  exact ⟨v, m, by rw [takeMembership, h]; rfl⟩

section
variable (w : SetupWords) (c : Chan) (rest : List ToEvaluator) (s : State)
@[simp] theorem takeMembership_memory : (takeMembership w c rest s).memory = s.memory := by obtain ⟨_, _, h⟩ := takeMembership_frame w c rest s; rw [h]
@[simp] theorem takeMembership_path : (takeMembership w c rest s).path = s.path := by obtain ⟨_, _, h⟩ := takeMembership_frame w c rest s; rw [h]
@[simp] theorem takeMembership_staging : (takeMembership w c rest s).staging = s.staging := by obtain ⟨_, _, h⟩ := takeMembership_frame w c rest s; rw [h]
@[simp] theorem takeMembership_alert : (takeMembership w c rest s).alert = s.alert := by obtain ⟨_, _, h⟩ := takeMembership_frame w c rest s; rw [h]
@[simp] theorem takeMembership_view : (takeMembership w c rest s).view = s.view := by obtain ⟨_, _, h⟩ := takeMembership_frame w c rest s; rw [h]
@[simp] theorem takeMembership_enf : (takeMembership w c rest s).enf = s.enf := by obtain ⟨_, _, h⟩ := takeMembership_frame w c rest s; rw [h]
@[simp] theorem takeMembership_setup : (takeMembership w c rest s).setup = s.setup := by obtain ⟨_, _, h⟩ := takeMembership_frame w c rest s; rw [h]
@[simp] theorem takeMembership_lamps : (takeMembership w c rest s).lamps = s.lamps := by obtain ⟨_, _, h⟩ := takeMembership_frame w c rest s; rw [h]
@[simp] theorem takeMembership_time : (takeMembership w c rest s).time = s.time := by obtain ⟨_, _, h⟩ := takeMembership_frame w c rest s; rw [h]
@[simp] theorem takeMembership_lines : (takeMembership w c rest s).lines = s.lines := by obtain ⟨_, _, h⟩ := takeMembership_frame w c rest s; rw [h]
@[simp] theorem takeMembership_draws : (takeMembership w c rest s).draws = s.draws := by obtain ⟨_, _, h⟩ := takeMembership_frame w c rest s; rw [h]
@[simp] theorem takeMembership_pending : (takeMembership w c rest s).pending = s.pending := by obtain ⟨_, _, h⟩ := takeMembership_frame w c rest s; rw [h]
end

/-- The requests on their way to the evaluator, taken, change the table and its paths (R11, R56). -/
theorem takeRequests_frame (ms : List ToEvaluator) (s : State) :
    ∃ (channels : Vector ChannelRecord 64) (mail : Mail), takeRequests ms s = { s with channels := channels, mail := mail } := by
  have sweep : ∀ (w : SetupWords) (cs : List Chan) (rest : List ToEvaluator) (s : State),
      ∃ (channels : Vector ChannelRecord 64) (mail : Mail),
        sweepMembership w cs rest s = { s with channels := channels, mail := mail } := by
    intro w cs rest
    induction cs with
    | nil => exact fun s => ⟨_, _, rfl⟩
    | cons c cs ih =>
      intro s
      obtain ⟨v, m, h⟩ := takeMembership_frame w c rest s
      obtain ⟨v', m', h'⟩ := ih (takeMembership w c rest s)
      exact ⟨v', m', by rw [sweepMembership, h', h]⟩
  induction ms generalizing s with
  | nil => exact ⟨_, _, rfl⟩
  | cons m rest ih =>
    cases m with
    | tableReset c => exact ⟨_, _, rfl⟩
    | chair c set =>
      obtain ⟨v, m, h⟩ := ih (takeChair c set rest s)
      obtain ⟨v', m', h'⟩ := takeChair_frame c set rest s
      exact ⟨v, m, by rw [takeRequests, h, h']⟩
    | membership w c =>
      obtain ⟨v', m', h'⟩ := sweep w (allChannels.drop c.val) rest s
      obtain ⟨v, m, h⟩ := ih (sweepMembership w (allChannels.drop c.val) rest s)
      exact ⟨v, m, by rw [takeRequests, h, h']⟩

/-- HALT carried out leaves nothing of the table that the requests before it have set, only what they have sent (R10, R171). -/
theorem commandHalt_eq (s : State) : ∃ m, commandHalt s = haltSession (s.setMail m) := by
  obtain ⟨v, m, h⟩ := takeRequests_frame s.mail.toEvaluator s
  exact ⟨m, by rw [commandHalt, h]; rfl⟩

/-- HALT carried out resets table and list, changes setup, staging and view and sends HALT on (R171). -/
theorem commandHalt_frame (s : State) :
    ∃ (staging : Vector Staging 64) (channels : Vector ChannelRecord 64) (alert : AlertUnit) (view : View) (setup : SetupUnit)
      (lamps : LampUnit) (mail : Mail),
      commandHalt s = { s with
        staging := staging, channels := channels, alert := alert, view := view, setup := setup, lamps := lamps, mail := mail } := by
  obtain ⟨m, h⟩ := commandHalt_eq s
  exact ⟨_, _, _, _, _, _, _, h⟩

section
variable (s : State)
@[simp] theorem commandHalt_memory : (commandHalt s).memory = s.memory := by
  obtain ⟨_, _, _, _, _, _, _, h⟩ := commandHalt_frame s; rw [h]
@[simp] theorem commandHalt_path : (commandHalt s).path = s.path := by
  obtain ⟨_, _, _, _, _, _, _, h⟩ := commandHalt_frame s; rw [h]
@[simp] theorem commandHalt_enf : (commandHalt s).enf = s.enf := by
  obtain ⟨_, _, _, _, _, _, _, h⟩ := commandHalt_frame s; rw [h]
@[simp] theorem commandHalt_time : (commandHalt s).time = s.time := by
  obtain ⟨_, _, _, _, _, _, _, h⟩ := commandHalt_frame s; rw [h]
@[simp] theorem commandHalt_lines : (commandHalt s).lines = s.lines := by
  obtain ⟨_, _, _, _, _, _, _, h⟩ := commandHalt_frame s; rw [h]
@[simp] theorem commandHalt_draws : (commandHalt s).draws = s.draws := by
  obtain ⟨_, _, _, _, _, _, _, h⟩ := commandHalt_frame s; rw [h]
@[simp] theorem commandHalt_pending : (commandHalt s).pending = s.pending := by
  obtain ⟨_, _, _, _, _, _, _, h⟩ := commandHalt_frame s; rw [h]
end

/-- START (R169). -/
theorem commandStart_frame (s : State) :
    ∃ (path : PathUnit) (staging : Vector Staging 64) (view : View) (setup : SetupUnit) (lamps : LampUnit) (time : Timebase) (mail : Mail), commandStart s = { s with path := path, staging := staging, view := view, setup := setup, lamps := lamps, time := time, mail := mail } :=
  by
  unfold commandStart
  split
  · exact ⟨_, _, _, _, _, _, _, rfl⟩
  · exact beginSession_frame _ s

section
variable (s : State)
@[simp] theorem commandStart_memory : (commandStart s).memory = s.memory := by obtain ⟨_, _, _, _, _, _, _, h⟩ := commandStart_frame s; rw [h]
@[simp] theorem commandStart_channels : (commandStart s).channels = s.channels := by obtain ⟨_, _, _, _, _, _, _, h⟩ := commandStart_frame s; rw [h]
@[simp] theorem commandStart_alert : (commandStart s).alert = s.alert := by obtain ⟨_, _, _, _, _, _, _, h⟩ := commandStart_frame s; rw [h]
@[simp] theorem commandStart_enf : (commandStart s).enf = s.enf := by obtain ⟨_, _, _, _, _, _, _, h⟩ := commandStart_frame s; rw [h]
@[simp] theorem commandStart_lines : (commandStart s).lines = s.lines := by obtain ⟨_, _, _, _, _, _, _, h⟩ := commandStart_frame s; rw [h]
@[simp] theorem commandStart_draws : (commandStart s).draws = s.draws := by obtain ⟨_, _, _, _, _, _, _, h⟩ := commandStart_frame s; rw [h]
@[simp] theorem commandStart_pending : (commandStart s).pending = s.pending := by obtain ⟨_, _, _, _, _, _, _, h⟩ := commandStart_frame s; rw [h]
end

/-- APPLY (R170). -/
theorem commandApply_frame (s : State) :
    ∃ (staging : Vector Staging 64) (alert : AlertUnit) (setup : SetupUnit) (lamps : LampUnit) (mail : Mail),
      commandApply s = { s with staging := staging, alert := alert, setup := setup, lamps := lamps, mail := mail } := by
  unfold commandApply
  split
  · exact ⟨_, _, _, _, _, rfl⟩
  · split
    · exact ⟨_, _, _, _, _, rfl⟩
    · exact applySetup_frame _ s

section
variable (s : State)
@[simp] theorem commandApply_memory : (commandApply s).memory = s.memory := by obtain ⟨_, _, _, _, _, h⟩ := commandApply_frame s; rw [h]
@[simp] theorem commandApply_path : (commandApply s).path = s.path := by obtain ⟨_, _, _, _, _, h⟩ := commandApply_frame s; rw [h]
@[simp] theorem commandApply_channels : (commandApply s).channels = s.channels := by obtain ⟨_, _, _, _, _, h⟩ := commandApply_frame s; rw [h]
@[simp] theorem commandApply_view : (commandApply s).view = s.view := by obtain ⟨_, _, _, _, _, h⟩ := commandApply_frame s; rw [h]
@[simp] theorem commandApply_enf : (commandApply s).enf = s.enf := by obtain ⟨_, _, _, _, _, h⟩ := commandApply_frame s; rw [h]
@[simp] theorem commandApply_time : (commandApply s).time = s.time := by obtain ⟨_, _, _, _, _, h⟩ := commandApply_frame s; rw [h]
@[simp] theorem commandApply_lines : (commandApply s).lines = s.lines := by obtain ⟨_, _, _, _, _, h⟩ := commandApply_frame s; rw [h]
@[simp] theorem commandApply_draws : (commandApply s).draws = s.draws := by obtain ⟨_, _, _, _, _, h⟩ := commandApply_frame s; rw [h]
@[simp] theorem commandApply_pending : (commandApply s).pending = s.pending := by obtain ⟨_, _, _, _, _, h⟩ := commandApply_frame s; rw [h]
end

/-- MUTE and UNMUTE (R173). -/
theorem commandChair_frame (set : Bool) (code channel : BitVec 8) (s : State) :
    ∃ (setup : SetupUnit) (mail : Mail), commandChair set code channel s = { s with setup := setup, mail := mail } :=
  by
  unfold commandChair
  repeat' split
  all_goals exact ⟨_, _, rfl⟩

section
variable (set : Bool) (code channel : BitVec 8) (s : State)
@[simp] theorem commandChair_memory : (commandChair set code channel s).memory = s.memory := by obtain ⟨_, _, h⟩ := commandChair_frame set code channel s; rw [h]
@[simp] theorem commandChair_path : (commandChair set code channel s).path = s.path := by obtain ⟨_, _, h⟩ := commandChair_frame set code channel s; rw [h]
@[simp] theorem commandChair_staging : (commandChair set code channel s).staging = s.staging := by obtain ⟨_, _, h⟩ := commandChair_frame set code channel s; rw [h]
@[simp] theorem commandChair_channels : (commandChair set code channel s).channels = s.channels := by obtain ⟨_, _, h⟩ := commandChair_frame set code channel s; rw [h]
@[simp] theorem commandChair_alert : (commandChair set code channel s).alert = s.alert := by obtain ⟨_, _, h⟩ := commandChair_frame set code channel s; rw [h]
@[simp] theorem commandChair_view : (commandChair set code channel s).view = s.view := by obtain ⟨_, _, h⟩ := commandChair_frame set code channel s; rw [h]
@[simp] theorem commandChair_enf : (commandChair set code channel s).enf = s.enf := by obtain ⟨_, _, h⟩ := commandChair_frame set code channel s; rw [h]
@[simp] theorem commandChair_lamps : (commandChair set code channel s).lamps = s.lamps := by obtain ⟨_, _, h⟩ := commandChair_frame set code channel s; rw [h]
@[simp] theorem commandChair_time : (commandChair set code channel s).time = s.time := by obtain ⟨_, _, h⟩ := commandChair_frame set code channel s; rw [h]
@[simp] theorem commandChair_lines : (commandChair set code channel s).lines = s.lines := by obtain ⟨_, _, h⟩ := commandChair_frame set code channel s; rw [h]
@[simp] theorem commandChair_draws : (commandChair set code channel s).draws = s.draws := by obtain ⟨_, _, h⟩ := commandChair_frame set code channel s; rw [h]
@[simp] theorem commandChair_pending : (commandChair set code channel s).pending = s.pending := by obtain ⟨_, _, h⟩ := commandChair_frame set code channel s; rw [h]
end

/-- ACK_ALL (R173). -/
theorem commandAckAll_frame (s : State) :
    ∃ (alert : AlertUnit) (setup : SetupUnit) (lamps : LampUnit), commandAckAll s = { s with alert := alert, setup := setup, lamps := lamps } :=
  ⟨_, _, _, rfl⟩

section
variable (s : State)
@[simp] theorem commandAckAll_memory : (commandAckAll s).memory = s.memory := by obtain ⟨_, _, _, h⟩ := commandAckAll_frame s; rw [h]
@[simp] theorem commandAckAll_path : (commandAckAll s).path = s.path := by obtain ⟨_, _, _, h⟩ := commandAckAll_frame s; rw [h]
@[simp] theorem commandAckAll_staging : (commandAckAll s).staging = s.staging := by obtain ⟨_, _, _, h⟩ := commandAckAll_frame s; rw [h]
@[simp] theorem commandAckAll_channels : (commandAckAll s).channels = s.channels := by obtain ⟨_, _, _, h⟩ := commandAckAll_frame s; rw [h]
@[simp] theorem commandAckAll_view : (commandAckAll s).view = s.view := by obtain ⟨_, _, _, h⟩ := commandAckAll_frame s; rw [h]
@[simp] theorem commandAckAll_enf : (commandAckAll s).enf = s.enf := by obtain ⟨_, _, _, h⟩ := commandAckAll_frame s; rw [h]
@[simp] theorem commandAckAll_time : (commandAckAll s).time = s.time := by obtain ⟨_, _, _, h⟩ := commandAckAll_frame s; rw [h]
@[simp] theorem commandAckAll_lines : (commandAckAll s).lines = s.lines := by obtain ⟨_, _, _, h⟩ := commandAckAll_frame s; rw [h]
@[simp] theorem commandAckAll_mail : (commandAckAll s).mail = s.mail := by obtain ⟨_, _, _, h⟩ := commandAckAll_frame s; rw [h]
@[simp] theorem commandAckAll_draws : (commandAckAll s).draws = s.draws := by obtain ⟨_, _, _, h⟩ := commandAckAll_frame s; rw [h]
@[simp] theorem commandAckAll_pending : (commandAckAll s).pending = s.pending := by obtain ⟨_, _, _, h⟩ := commandAckAll_frame s; rw [h]
end

/-- A command carried out (R168). -/
theorem carryOut_frame (k : Command) (channel : BitVec 8) (s : State) :
    ∃ (path : PathUnit) (staging : Vector Staging 64) (channels : Vector ChannelRecord 64) (alert : AlertUnit) (view : View) (setup : SetupUnit) (lamps : LampUnit) (time : Timebase) (mail : Mail), carryOut k channel s = { s with path := path, staging := staging, channels := channels, alert := alert, view := view, setup := setup, lamps := lamps, time := time, mail := mail } :=
  by
  unfold carryOut
  split
  · obtain ⟨v0, v1, v2, v3, v4, v5, v6, h⟩ := commandStart_frame s
    exact ⟨v0, v1, s.channels, s.alert, v2, v3, v4, v5, v6, h⟩
  · obtain ⟨v0, v1, v2, v3, v4, h⟩ := commandApply_frame s
    exact ⟨s.path, v0, s.channels, v1, s.view, v2, v3, s.time, v4, h⟩
  · obtain ⟨v0, v1, v2, v3, v4, v5, v6, h⟩ := commandHalt_frame s
    exact ⟨s.path, v0, v1, v2, v3, v4, v5, s.time, v6, h⟩
  · obtain ⟨v0, v1, h⟩ := commandChair_frame _ _ _ s
    exact ⟨s.path, s.staging, s.channels, s.alert, s.view, v0, s.lamps, s.time, v1, h⟩
  · obtain ⟨v0, v1, h⟩ := commandChair_frame _ _ _ s
    exact ⟨s.path, s.staging, s.channels, s.alert, s.view, v0, s.lamps, s.time, v1, h⟩
  · obtain ⟨v0, v1, v2, h⟩ := commandAckAll_frame s
    exact ⟨s.path, s.staging, s.channels, v0, s.view, v1, v2, s.time, s.mail, h⟩

section
variable (k : Command) (channel : BitVec 8) (s : State)
@[simp] theorem carryOut_memory : (carryOut k channel s).memory = s.memory := by obtain ⟨_, _, _, _, _, _, _, _, _, h⟩ := carryOut_frame k channel s; rw [h]
@[simp] theorem carryOut_enf : (carryOut k channel s).enf = s.enf := by obtain ⟨_, _, _, _, _, _, _, _, _, h⟩ := carryOut_frame k channel s; rw [h]
@[simp] theorem carryOut_lines : (carryOut k channel s).lines = s.lines := by obtain ⟨_, _, _, _, _, _, _, _, _, h⟩ := carryOut_frame k channel s; rw [h]
@[simp] theorem carryOut_draws : (carryOut k channel s).draws = s.draws := by obtain ⟨_, _, _, _, _, _, _, _, _, h⟩ := carryOut_frame k channel s; rw [h]
@[simp] theorem carryOut_pending : (carryOut k channel s).pending = s.pending := by obtain ⟨_, _, _, _, _, _, _, _, _, h⟩ := carryOut_frame k channel s; rw [h]
end

/-- A command word (R168). -/
theorem takeCommand_frame (data : Word) (s : State) :
    ∃ (path : PathUnit) (staging : Vector Staging 64) (channels : Vector ChannelRecord 64) (alert : AlertUnit) (view : View) (setup : SetupUnit) (lamps : LampUnit) (time : Timebase) (mail : Mail), takeCommand data s = { s with path := path, staging := staging, channels := channels, alert := alert, view := view, setup := setup, lamps := lamps, time := time, mail := mail } :=
  by
  unfold takeCommand
  split
  · exact ⟨_, _, _, _, _, _, _, _, _, rfl⟩
  · split
    · exact ⟨_, _, _, _, _, _, _, _, _, rfl⟩
    · split
      · exact carryOut_frame _ _ s
      · exact ⟨_, _, _, _, _, _, _, _, _, rfl⟩

section
variable (data : Word) (s : State)
@[simp] theorem takeCommand_memory : (takeCommand data s).memory = s.memory := by obtain ⟨_, _, _, _, _, _, _, _, _, h⟩ := takeCommand_frame data s; rw [h]
@[simp] theorem takeCommand_enf : (takeCommand data s).enf = s.enf := by obtain ⟨_, _, _, _, _, _, _, _, _, h⟩ := takeCommand_frame data s; rw [h]
@[simp] theorem takeCommand_lines : (takeCommand data s).lines = s.lines := by obtain ⟨_, _, _, _, _, _, _, _, _, h⟩ := takeCommand_frame data s; rw [h]
@[simp] theorem takeCommand_draws : (takeCommand data s).draws = s.draws := by obtain ⟨_, _, _, _, _, _, _, _, _, h⟩ := takeCommand_frame data s; rw [h]
@[simp] theorem takeCommand_pending : (takeCommand data s).pending = s.pending := by obtain ⟨_, _, _, _, _, _, _, _, _, h⟩ := takeCommand_frame data s; rw [h]
end

/-- The withdrawal of CLAIM_N changes the enforcement unit (R149). -/
theorem withdrawClaim_frame (s : State) :
    ∃ (enf : EnforcementUnit), withdrawClaim s = { s with enf := enf } :=
  ⟨_, rfl⟩

section
variable (s : State)
@[simp] theorem withdrawClaim_memory : (withdrawClaim s).memory = s.memory := by obtain ⟨_, h⟩ := withdrawClaim_frame s; rw [h]
@[simp] theorem withdrawClaim_path : (withdrawClaim s).path = s.path := by obtain ⟨_, h⟩ := withdrawClaim_frame s; rw [h]
@[simp] theorem withdrawClaim_staging : (withdrawClaim s).staging = s.staging := by obtain ⟨_, h⟩ := withdrawClaim_frame s; rw [h]
@[simp] theorem withdrawClaim_channels : (withdrawClaim s).channels = s.channels := by obtain ⟨_, h⟩ := withdrawClaim_frame s; rw [h]
@[simp] theorem withdrawClaim_alert : (withdrawClaim s).alert = s.alert := by obtain ⟨_, h⟩ := withdrawClaim_frame s; rw [h]
@[simp] theorem withdrawClaim_view : (withdrawClaim s).view = s.view := by obtain ⟨_, h⟩ := withdrawClaim_frame s; rw [h]
@[simp] theorem withdrawClaim_setup : (withdrawClaim s).setup = s.setup := by obtain ⟨_, h⟩ := withdrawClaim_frame s; rw [h]
@[simp] theorem withdrawClaim_lamps : (withdrawClaim s).lamps = s.lamps := by obtain ⟨_, h⟩ := withdrawClaim_frame s; rw [h]
@[simp] theorem withdrawClaim_time : (withdrawClaim s).time = s.time := by obtain ⟨_, h⟩ := withdrawClaim_frame s; rw [h]
@[simp] theorem withdrawClaim_lines : (withdrawClaim s).lines = s.lines := by obtain ⟨_, h⟩ := withdrawClaim_frame s; rw [h]
@[simp] theorem withdrawClaim_mail : (withdrawClaim s).mail = s.mail := by obtain ⟨_, h⟩ := withdrawClaim_frame s; rw [h]
@[simp] theorem withdrawClaim_draws : (withdrawClaim s).draws = s.draws := by obtain ⟨_, h⟩ := withdrawClaim_frame s; rw [h]
@[simp] theorem withdrawClaim_pending : (withdrawClaim s).pending = s.pending := by obtain ⟨_, h⟩ := withdrawClaim_frame s; rw [h]
end

/-- A burst write counted (R151). -/
theorem countWrite_frame (s : State) :
    ∃ (enf : EnforcementUnit), countWrite s = { s with enf := enf } :=
  by
  unfold countWrite
  repeat' split
  all_goals exact ⟨_, rfl⟩

section
variable (s : State)
@[simp] theorem countWrite_memory : (countWrite s).memory = s.memory := by obtain ⟨_, h⟩ := countWrite_frame s; rw [h]
@[simp] theorem countWrite_path : (countWrite s).path = s.path := by obtain ⟨_, h⟩ := countWrite_frame s; rw [h]
@[simp] theorem countWrite_staging : (countWrite s).staging = s.staging := by obtain ⟨_, h⟩ := countWrite_frame s; rw [h]
@[simp] theorem countWrite_channels : (countWrite s).channels = s.channels := by obtain ⟨_, h⟩ := countWrite_frame s; rw [h]
@[simp] theorem countWrite_alert : (countWrite s).alert = s.alert := by obtain ⟨_, h⟩ := countWrite_frame s; rw [h]
@[simp] theorem countWrite_view : (countWrite s).view = s.view := by obtain ⟨_, h⟩ := countWrite_frame s; rw [h]
@[simp] theorem countWrite_setup : (countWrite s).setup = s.setup := by obtain ⟨_, h⟩ := countWrite_frame s; rw [h]
@[simp] theorem countWrite_lamps : (countWrite s).lamps = s.lamps := by obtain ⟨_, h⟩ := countWrite_frame s; rw [h]
@[simp] theorem countWrite_time : (countWrite s).time = s.time := by obtain ⟨_, h⟩ := countWrite_frame s; rw [h]
@[simp] theorem countWrite_lines : (countWrite s).lines = s.lines := by obtain ⟨_, h⟩ := countWrite_frame s; rw [h]
@[simp] theorem countWrite_mail : (countWrite s).mail = s.mail := by obtain ⟨_, h⟩ := countWrite_frame s; rw [h]
@[simp] theorem countWrite_draws : (countWrite s).draws = s.draws := by obtain ⟨_, h⟩ := countWrite_frame s; rw [h]
@[simp] theorem countWrite_pending : (countWrite s).pending = s.pending := by obtain ⟨_, h⟩ := countWrite_frame s; rw [h]
end

/-- The entry to CEDED (R144). -/
theorem enterCeded_frame (s : State) :
    ∃ (enf : EnforcementUnit) (mail : Mail), enterCeded s = { s with enf := enf, mail := mail } :=
  by
  unfold enterCeded
  obtain ⟨e, m, h⟩ := endStall_frame (s.setEnf { s.enf with claim := .ceded, claimTimer := .stopped, burstCount := 0, broken := false })
  exact ⟨e, m, h⟩

section
variable (s : State)
@[simp] theorem enterCeded_memory : (enterCeded s).memory = s.memory := by obtain ⟨_, _, h⟩ := enterCeded_frame s; rw [h]
@[simp] theorem enterCeded_path : (enterCeded s).path = s.path := by obtain ⟨_, _, h⟩ := enterCeded_frame s; rw [h]
@[simp] theorem enterCeded_staging : (enterCeded s).staging = s.staging := by obtain ⟨_, _, h⟩ := enterCeded_frame s; rw [h]
@[simp] theorem enterCeded_channels : (enterCeded s).channels = s.channels := by obtain ⟨_, _, h⟩ := enterCeded_frame s; rw [h]
@[simp] theorem enterCeded_alert : (enterCeded s).alert = s.alert := by obtain ⟨_, _, h⟩ := enterCeded_frame s; rw [h]
@[simp] theorem enterCeded_view : (enterCeded s).view = s.view := by obtain ⟨_, _, h⟩ := enterCeded_frame s; rw [h]
@[simp] theorem enterCeded_setup : (enterCeded s).setup = s.setup := by obtain ⟨_, _, h⟩ := enterCeded_frame s; rw [h]
@[simp] theorem enterCeded_lamps : (enterCeded s).lamps = s.lamps := by obtain ⟨_, _, h⟩ := enterCeded_frame s; rw [h]
@[simp] theorem enterCeded_time : (enterCeded s).time = s.time := by obtain ⟨_, _, h⟩ := enterCeded_frame s; rw [h]
@[simp] theorem enterCeded_lines : (enterCeded s).lines = s.lines := by obtain ⟨_, _, h⟩ := enterCeded_frame s; rw [h]
@[simp] theorem enterCeded_draws : (enterCeded s).draws = s.draws := by obtain ⟨_, _, h⟩ := enterCeded_frame s; rw [h]
@[simp] theorem enterCeded_pending : (enterCeded s).pending = s.pending := by obtain ⟨_, _, h⟩ := enterCeded_frame s; rw [h]
end

/-- A burst write offered (R148). -/
theorem offerBurstWrite_frame (c : Chan) (rest : List Chan) (s : State) :
    ∃ (path : PathUnit) (enf : EnforcementUnit), offerBurstWrite c rest s = { s with path := path, enf := enf } :=
  ⟨_, _, rfl⟩

section
variable (c : Chan) (rest : List Chan) (s : State)
@[simp] theorem offerBurstWrite_memory : (offerBurstWrite c rest s).memory = s.memory := by obtain ⟨_, _, h⟩ := offerBurstWrite_frame c rest s; rw [h]
@[simp] theorem offerBurstWrite_staging : (offerBurstWrite c rest s).staging = s.staging := by obtain ⟨_, _, h⟩ := offerBurstWrite_frame c rest s; rw [h]
@[simp] theorem offerBurstWrite_channels : (offerBurstWrite c rest s).channels = s.channels := by obtain ⟨_, _, h⟩ := offerBurstWrite_frame c rest s; rw [h]
@[simp] theorem offerBurstWrite_alert : (offerBurstWrite c rest s).alert = s.alert := by obtain ⟨_, _, h⟩ := offerBurstWrite_frame c rest s; rw [h]
@[simp] theorem offerBurstWrite_view : (offerBurstWrite c rest s).view = s.view := by obtain ⟨_, _, h⟩ := offerBurstWrite_frame c rest s; rw [h]
@[simp] theorem offerBurstWrite_setup : (offerBurstWrite c rest s).setup = s.setup := by obtain ⟨_, _, h⟩ := offerBurstWrite_frame c rest s; rw [h]
@[simp] theorem offerBurstWrite_lamps : (offerBurstWrite c rest s).lamps = s.lamps := by obtain ⟨_, _, h⟩ := offerBurstWrite_frame c rest s; rw [h]
@[simp] theorem offerBurstWrite_time : (offerBurstWrite c rest s).time = s.time := by obtain ⟨_, _, h⟩ := offerBurstWrite_frame c rest s; rw [h]
@[simp] theorem offerBurstWrite_lines : (offerBurstWrite c rest s).lines = s.lines := by obtain ⟨_, _, h⟩ := offerBurstWrite_frame c rest s; rw [h]
@[simp] theorem offerBurstWrite_mail : (offerBurstWrite c rest s).mail = s.mail := by obtain ⟨_, _, h⟩ := offerBurstWrite_frame c rest s; rw [h]
@[simp] theorem offerBurstWrite_draws : (offerBurstWrite c rest s).draws = s.draws := by obtain ⟨_, _, h⟩ := offerBurstWrite_frame c rest s; rw [h]
@[simp] theorem offerBurstWrite_pending : (offerBurstWrite c rest s).pending = s.pending := by obtain ⟨_, _, h⟩ := offerBurstWrite_frame c rest s; rw [h]
end

/-- A load read offered (R152). -/
theorem offerLoadRead_frame (c : Chan) (s : State) :
    ∃ (path : PathUnit), offerLoadRead c s = { s with path := path } :=
  ⟨_, rfl⟩

section
variable (c : Chan) (s : State)
@[simp] theorem offerLoadRead_memory : (offerLoadRead c s).memory = s.memory := by obtain ⟨_, h⟩ := offerLoadRead_frame c s; rw [h]
@[simp] theorem offerLoadRead_staging : (offerLoadRead c s).staging = s.staging := by obtain ⟨_, h⟩ := offerLoadRead_frame c s; rw [h]
@[simp] theorem offerLoadRead_channels : (offerLoadRead c s).channels = s.channels := by obtain ⟨_, h⟩ := offerLoadRead_frame c s; rw [h]
@[simp] theorem offerLoadRead_alert : (offerLoadRead c s).alert = s.alert := by obtain ⟨_, h⟩ := offerLoadRead_frame c s; rw [h]
@[simp] theorem offerLoadRead_view : (offerLoadRead c s).view = s.view := by obtain ⟨_, h⟩ := offerLoadRead_frame c s; rw [h]
@[simp] theorem offerLoadRead_enf : (offerLoadRead c s).enf = s.enf := by obtain ⟨_, h⟩ := offerLoadRead_frame c s; rw [h]
@[simp] theorem offerLoadRead_setup : (offerLoadRead c s).setup = s.setup := by obtain ⟨_, h⟩ := offerLoadRead_frame c s; rw [h]
@[simp] theorem offerLoadRead_lamps : (offerLoadRead c s).lamps = s.lamps := by obtain ⟨_, h⟩ := offerLoadRead_frame c s; rw [h]
@[simp] theorem offerLoadRead_time : (offerLoadRead c s).time = s.time := by obtain ⟨_, h⟩ := offerLoadRead_frame c s; rw [h]
@[simp] theorem offerLoadRead_lines : (offerLoadRead c s).lines = s.lines := by obtain ⟨_, h⟩ := offerLoadRead_frame c s; rw [h]
@[simp] theorem offerLoadRead_mail : (offerLoadRead c s).mail = s.mail := by obtain ⟨_, h⟩ := offerLoadRead_frame c s; rw [h]
@[simp] theorem offerLoadRead_draws : (offerLoadRead c s).draws = s.draws := by obtain ⟨_, h⟩ := offerLoadRead_frame c s; rw [h]
@[simp] theorem offerLoadRead_pending : (offerLoadRead c s).pending = s.pending := by obtain ⟨_, h⟩ := offerLoadRead_frame c s; rw [h]
end

/-- An intended gain word set (R152). -/
theorem setIntended_frame (c : Chan) (w : Word) (s : State) :
    ∃ (enf : EnforcementUnit), setIntended c w s = { s with enf := enf } :=
  ⟨_, rfl⟩

section
variable (c : Chan) (w : Word) (s : State)
@[simp] theorem setIntended_memory : (setIntended c w s).memory = s.memory := by obtain ⟨_, h⟩ := setIntended_frame c w s; rw [h]
@[simp] theorem setIntended_path : (setIntended c w s).path = s.path := by obtain ⟨_, h⟩ := setIntended_frame c w s; rw [h]
@[simp] theorem setIntended_staging : (setIntended c w s).staging = s.staging := by obtain ⟨_, h⟩ := setIntended_frame c w s; rw [h]
@[simp] theorem setIntended_channels : (setIntended c w s).channels = s.channels := by obtain ⟨_, h⟩ := setIntended_frame c w s; rw [h]
@[simp] theorem setIntended_alert : (setIntended c w s).alert = s.alert := by obtain ⟨_, h⟩ := setIntended_frame c w s; rw [h]
@[simp] theorem setIntended_view : (setIntended c w s).view = s.view := by obtain ⟨_, h⟩ := setIntended_frame c w s; rw [h]
@[simp] theorem setIntended_setup : (setIntended c w s).setup = s.setup := by obtain ⟨_, h⟩ := setIntended_frame c w s; rw [h]
@[simp] theorem setIntended_lamps : (setIntended c w s).lamps = s.lamps := by obtain ⟨_, h⟩ := setIntended_frame c w s; rw [h]
@[simp] theorem setIntended_time : (setIntended c w s).time = s.time := by obtain ⟨_, h⟩ := setIntended_frame c w s; rw [h]
@[simp] theorem setIntended_lines : (setIntended c w s).lines = s.lines := by obtain ⟨_, h⟩ := setIntended_frame c w s; rw [h]
@[simp] theorem setIntended_mail : (setIntended c w s).mail = s.mail := by obtain ⟨_, h⟩ := setIntended_frame c w s; rw [h]
@[simp] theorem setIntended_draws : (setIntended c w s).draws = s.draws := by obtain ⟨_, h⟩ := setIntended_frame c w s; rw [h]
@[simp] theorem setIntended_pending : (setIntended c w s).pending = s.pending := by obtain ⟨_, h⟩ := setIntended_frame c w s; rw [h]
end

/-- The clearings taken before ACTIVE (R106). -/
theorem takeClearings_frame (s : State) :
    ∃ (alert : AlertUnit) (lamps : LampUnit) (mail : Mail),
      takeClearings s = { s with alert := alert, lamps := lamps, mail := mail } := by
  unfold takeClearings
  split
  · exact ⟨_, _, _, rfl⟩
  · exact ⟨_, _, _, rfl⟩

section
variable (s : State)
@[simp] theorem takeClearings_memory : (takeClearings s).memory = s.memory := by obtain ⟨_, _, _, h⟩ := takeClearings_frame s; rw [h]
@[simp] theorem takeClearings_path : (takeClearings s).path = s.path := by obtain ⟨_, _, _, h⟩ := takeClearings_frame s; rw [h]
@[simp] theorem takeClearings_staging : (takeClearings s).staging = s.staging := by obtain ⟨_, _, _, h⟩ := takeClearings_frame s; rw [h]
@[simp] theorem takeClearings_channels : (takeClearings s).channels = s.channels := by obtain ⟨_, _, _, h⟩ := takeClearings_frame s; rw [h]
@[simp] theorem takeClearings_view : (takeClearings s).view = s.view := by obtain ⟨_, _, _, h⟩ := takeClearings_frame s; rw [h]
@[simp] theorem takeClearings_enf : (takeClearings s).enf = s.enf := by obtain ⟨_, _, _, h⟩ := takeClearings_frame s; rw [h]
@[simp] theorem takeClearings_setup : (takeClearings s).setup = s.setup := by obtain ⟨_, _, _, h⟩ := takeClearings_frame s; rw [h]
@[simp] theorem takeClearings_time : (takeClearings s).time = s.time := by obtain ⟨_, _, _, h⟩ := takeClearings_frame s; rw [h]
@[simp] theorem takeClearings_lines : (takeClearings s).lines = s.lines := by obtain ⟨_, _, _, h⟩ := takeClearings_frame s; rw [h]
@[simp] theorem takeClearings_draws : (takeClearings s).draws = s.draws := by obtain ⟨_, _, _, h⟩ := takeClearings_frame s; rw [h]
@[simp] theorem takeClearings_pending : (takeClearings s).pending = s.pending := by obtain ⟨_, _, _, h⟩ := takeClearings_frame s; rw [h]
end

/-- The load-done report (R153). -/
theorem loadDone_frame (s : State) :
    ∃ (setup : SetupUnit), loadDone s = { s with setup := setup } :=
  ⟨_, rfl⟩

section
variable (s : State)
@[simp] theorem loadDone_memory : (loadDone s).memory = s.memory := by obtain ⟨_, h⟩ := loadDone_frame s; rw [h]
@[simp] theorem loadDone_path : (loadDone s).path = s.path := by obtain ⟨_, h⟩ := loadDone_frame s; rw [h]
@[simp] theorem loadDone_staging : (loadDone s).staging = s.staging := by obtain ⟨_, h⟩ := loadDone_frame s; rw [h]
@[simp] theorem loadDone_channels : (loadDone s).channels = s.channels := by obtain ⟨_, h⟩ := loadDone_frame s; rw [h]
@[simp] theorem loadDone_alert : (loadDone s).alert = s.alert := by obtain ⟨_, h⟩ := loadDone_frame s; rw [h]
@[simp] theorem loadDone_view : (loadDone s).view = s.view := by obtain ⟨_, h⟩ := loadDone_frame s; rw [h]
@[simp] theorem loadDone_enf : (loadDone s).enf = s.enf := by obtain ⟨_, h⟩ := loadDone_frame s; rw [h]
@[simp] theorem loadDone_lamps : (loadDone s).lamps = s.lamps := by obtain ⟨_, h⟩ := loadDone_frame s; rw [h]
@[simp] theorem loadDone_time : (loadDone s).time = s.time := by obtain ⟨_, h⟩ := loadDone_frame s; rw [h]
@[simp] theorem loadDone_lines : (loadDone s).lines = s.lines := by obtain ⟨_, h⟩ := loadDone_frame s; rw [h]
@[simp] theorem loadDone_mail : (loadDone s).mail = s.mail := by obtain ⟨_, h⟩ := loadDone_frame s; rw [h]
@[simp] theorem loadDone_draws : (loadDone s).draws = s.draws := by obtain ⟨_, h⟩ := loadDone_frame s; rw [h]
@[simp] theorem loadDone_pending : (loadDone s).pending = s.pending := by obtain ⟨_, h⟩ := loadDone_frame s; rw [h]
end

/-- The restore-done report taken (R171). -/
theorem restoreDone_frame (s : State) :
    ∃ (setup : SetupUnit), restoreDone s = { s with setup := setup } :=
  ⟨_, rfl⟩

section
variable (s : State)
@[simp] theorem restoreDone_memory : (restoreDone s).memory = s.memory := by obtain ⟨_, h⟩ := restoreDone_frame s; rw [h]
@[simp] theorem restoreDone_path : (restoreDone s).path = s.path := by obtain ⟨_, h⟩ := restoreDone_frame s; rw [h]
@[simp] theorem restoreDone_staging : (restoreDone s).staging = s.staging := by obtain ⟨_, h⟩ := restoreDone_frame s; rw [h]
@[simp] theorem restoreDone_channels : (restoreDone s).channels = s.channels := by obtain ⟨_, h⟩ := restoreDone_frame s; rw [h]
@[simp] theorem restoreDone_alert : (restoreDone s).alert = s.alert := by obtain ⟨_, h⟩ := restoreDone_frame s; rw [h]
@[simp] theorem restoreDone_view : (restoreDone s).view = s.view := by obtain ⟨_, h⟩ := restoreDone_frame s; rw [h]
@[simp] theorem restoreDone_enf : (restoreDone s).enf = s.enf := by obtain ⟨_, h⟩ := restoreDone_frame s; rw [h]
@[simp] theorem restoreDone_lamps : (restoreDone s).lamps = s.lamps := by obtain ⟨_, h⟩ := restoreDone_frame s; rw [h]
@[simp] theorem restoreDone_time : (restoreDone s).time = s.time := by obtain ⟨_, h⟩ := restoreDone_frame s; rw [h]
@[simp] theorem restoreDone_lines : (restoreDone s).lines = s.lines := by obtain ⟨_, h⟩ := restoreDone_frame s; rw [h]
@[simp] theorem restoreDone_mail : (restoreDone s).mail = s.mail := by obtain ⟨_, h⟩ := restoreDone_frame s; rw [h]
@[simp] theorem restoreDone_draws : (restoreDone s).draws = s.draws := by obtain ⟨_, h⟩ := restoreDone_frame s; rw [h]
@[simp] theorem restoreDone_pending : (restoreDone s).pending = s.pending := by obtain ⟨_, h⟩ := restoreDone_frame s; rw [h]
end

/-- A report taken changes the setup and command unit (R171, R174). -/
theorem takeReport_frame (m : ToSetup) (s : State) :
    ∃ (setup : SetupUnit), takeReport m s = { s with setup := setup } := by
  unfold takeReport
  repeat' split
  all_goals exact ⟨_, rfl⟩

section
variable (m : ToSetup) (s : State)
@[simp] theorem takeReport_memory : (takeReport m s).memory = s.memory := by obtain ⟨_, h⟩ := takeReport_frame m s; rw [h]
@[simp] theorem takeReport_path : (takeReport m s).path = s.path := by obtain ⟨_, h⟩ := takeReport_frame m s; rw [h]
@[simp] theorem takeReport_staging : (takeReport m s).staging = s.staging := by obtain ⟨_, h⟩ := takeReport_frame m s; rw [h]
@[simp] theorem takeReport_channels : (takeReport m s).channels = s.channels := by obtain ⟨_, h⟩ := takeReport_frame m s; rw [h]
@[simp] theorem takeReport_alert : (takeReport m s).alert = s.alert := by obtain ⟨_, h⟩ := takeReport_frame m s; rw [h]
@[simp] theorem takeReport_view : (takeReport m s).view = s.view := by obtain ⟨_, h⟩ := takeReport_frame m s; rw [h]
@[simp] theorem takeReport_enf : (takeReport m s).enf = s.enf := by obtain ⟨_, h⟩ := takeReport_frame m s; rw [h]
@[simp] theorem takeReport_lamps : (takeReport m s).lamps = s.lamps := by obtain ⟨_, h⟩ := takeReport_frame m s; rw [h]
@[simp] theorem takeReport_time : (takeReport m s).time = s.time := by obtain ⟨_, h⟩ := takeReport_frame m s; rw [h]
@[simp] theorem takeReport_lines : (takeReport m s).lines = s.lines := by obtain ⟨_, h⟩ := takeReport_frame m s; rw [h]
@[simp] theorem takeReport_mail : (takeReport m s).mail = s.mail := by obtain ⟨_, h⟩ := takeReport_frame m s; rw [h]
@[simp] theorem takeReport_draws : (takeReport m s).draws = s.draws := by obtain ⟨_, h⟩ := takeReport_frame m s; rw [h]
@[simp] theorem takeReport_pending : (takeReport m s).pending = s.pending := by obtain ⟨_, h⟩ := takeReport_frame m s; rw [h]
end

/-- So do several. -/
theorem takeEach_frame (ms : List ToSetup) (s : State) :
    ∃ (setup : SetupUnit), takeEach ms s = { s with setup := setup } := by
  induction ms generalizing s with
  | nil => exact ⟨_, rfl⟩
  | cons m rest ih =>
    obtain ⟨u, h⟩ := takeReport_frame m s
    obtain ⟨v, h'⟩ := ih (takeReport m s)
    exact ⟨v, by rw [takeEach, h', h]⟩

section
variable (ms : List ToSetup) (s : State)
@[simp] theorem takeEach_memory : (takeEach ms s).memory = s.memory := by obtain ⟨_, h⟩ := takeEach_frame ms s; rw [h]
@[simp] theorem takeEach_path : (takeEach ms s).path = s.path := by obtain ⟨_, h⟩ := takeEach_frame ms s; rw [h]
@[simp] theorem takeEach_staging : (takeEach ms s).staging = s.staging := by obtain ⟨_, h⟩ := takeEach_frame ms s; rw [h]
@[simp] theorem takeEach_channels : (takeEach ms s).channels = s.channels := by obtain ⟨_, h⟩ := takeEach_frame ms s; rw [h]
@[simp] theorem takeEach_alert : (takeEach ms s).alert = s.alert := by obtain ⟨_, h⟩ := takeEach_frame ms s; rw [h]
@[simp] theorem takeEach_view : (takeEach ms s).view = s.view := by obtain ⟨_, h⟩ := takeEach_frame ms s; rw [h]
@[simp] theorem takeEach_enf : (takeEach ms s).enf = s.enf := by obtain ⟨_, h⟩ := takeEach_frame ms s; rw [h]
@[simp] theorem takeEach_lamps : (takeEach ms s).lamps = s.lamps := by obtain ⟨_, h⟩ := takeEach_frame ms s; rw [h]
@[simp] theorem takeEach_time : (takeEach ms s).time = s.time := by obtain ⟨_, h⟩ := takeEach_frame ms s; rw [h]
@[simp] theorem takeEach_lines : (takeEach ms s).lines = s.lines := by obtain ⟨_, h⟩ := takeEach_frame ms s; rw [h]
@[simp] theorem takeEach_mail : (takeEach ms s).mail = s.mail := by obtain ⟨_, h⟩ := takeEach_frame ms s; rw [h]
@[simp] theorem takeEach_draws : (takeEach ms s).draws = s.draws := by obtain ⟨_, h⟩ := takeEach_frame ms s; rw [h]
@[simp] theorem takeEach_pending : (takeEach ms s).pending = s.pending := by obtain ⟨_, h⟩ := takeEach_frame ms s; rw [h]
end

/-- The reports on their way taken change the unit and leave its path empty. -/
theorem takeReports_frame (s : State) :
    ∃ (setup : SetupUnit) (mail : Mail), takeReports s = { s with setup := setup, mail := mail } := ⟨_, _, (takeEach_frame _ _).choose_spec⟩

section
variable (s : State)
@[simp] theorem takeReports_memory : (takeReports s).memory = s.memory := by obtain ⟨_, _, h⟩ := takeReports_frame s; rw [h]
@[simp] theorem takeReports_path : (takeReports s).path = s.path := by obtain ⟨_, _, h⟩ := takeReports_frame s; rw [h]
@[simp] theorem takeReports_staging : (takeReports s).staging = s.staging := by obtain ⟨_, _, h⟩ := takeReports_frame s; rw [h]
@[simp] theorem takeReports_channels : (takeReports s).channels = s.channels := by obtain ⟨_, _, h⟩ := takeReports_frame s; rw [h]
@[simp] theorem takeReports_alert : (takeReports s).alert = s.alert := by obtain ⟨_, _, h⟩ := takeReports_frame s; rw [h]
@[simp] theorem takeReports_view : (takeReports s).view = s.view := by obtain ⟨_, _, h⟩ := takeReports_frame s; rw [h]
@[simp] theorem takeReports_enf : (takeReports s).enf = s.enf := by obtain ⟨_, _, h⟩ := takeReports_frame s; rw [h]
@[simp] theorem takeReports_lamps : (takeReports s).lamps = s.lamps := by obtain ⟨_, _, h⟩ := takeReports_frame s; rw [h]
@[simp] theorem takeReports_time : (takeReports s).time = s.time := by obtain ⟨_, _, h⟩ := takeReports_frame s; rw [h]
@[simp] theorem takeReports_lines : (takeReports s).lines = s.lines := by obtain ⟨_, _, h⟩ := takeReports_frame s; rw [h]
@[simp] theorem takeReports_draws : (takeReports s).draws = s.draws := by obtain ⟨_, _, h⟩ := takeReports_frame s; rw [h]
@[simp] theorem takeReports_pending : (takeReports s).pending = s.pending := by obtain ⟨_, _, h⟩ := takeReports_frame s; rw [h]
end

/-- The end of RELEASING changes the setup and command unit and its path (R156, R171). -/
theorem endRestore_frame (s : State) :
    ∃ (setup : SetupUnit) (mail : Mail), endRestore s = { s with setup := setup, mail := mail } := by
  unfold endRestore
  split
  · exact takeReports_frame (s.sendToSetup .restoreDone)
  · exact ⟨_, _, rfl⟩

section
variable (s : State)
@[simp] theorem endRestore_memory : (endRestore s).memory = s.memory := by obtain ⟨_, _, h⟩ := endRestore_frame s; rw [h]
@[simp] theorem endRestore_path : (endRestore s).path = s.path := by obtain ⟨_, _, h⟩ := endRestore_frame s; rw [h]
@[simp] theorem endRestore_staging : (endRestore s).staging = s.staging := by obtain ⟨_, _, h⟩ := endRestore_frame s; rw [h]
@[simp] theorem endRestore_channels : (endRestore s).channels = s.channels := by obtain ⟨_, _, h⟩ := endRestore_frame s; rw [h]
@[simp] theorem endRestore_alert : (endRestore s).alert = s.alert := by obtain ⟨_, _, h⟩ := endRestore_frame s; rw [h]
@[simp] theorem endRestore_view : (endRestore s).view = s.view := by obtain ⟨_, _, h⟩ := endRestore_frame s; rw [h]
@[simp] theorem endRestore_enf : (endRestore s).enf = s.enf := by obtain ⟨_, _, h⟩ := endRestore_frame s; rw [h]
@[simp] theorem endRestore_lamps : (endRestore s).lamps = s.lamps := by obtain ⟨_, _, h⟩ := endRestore_frame s; rw [h]
@[simp] theorem endRestore_time : (endRestore s).time = s.time := by obtain ⟨_, _, h⟩ := endRestore_frame s; rw [h]
@[simp] theorem endRestore_lines : (endRestore s).lines = s.lines := by obtain ⟨_, _, h⟩ := endRestore_frame s; rw [h]
@[simp] theorem endRestore_draws : (endRestore s).draws = s.draws := by obtain ⟨_, _, h⟩ := endRestore_frame s; rw [h]
@[simp] theorem endRestore_pending : (endRestore s).pending = s.pending := by obtain ⟨_, _, h⟩ := endRestore_frame s; rw [h]
end

/-- A setup change taken changes the enforcement unit and sends messages (R139). -/
theorem takeSetupChange_frame (old new : SetupWords) (s : State) :
    ∃ (enf : EnforcementUnit) (mail : Mail), takeSetupChange old new s = { s with enf := enf, mail := mail } := by
  unfold takeSetupChange
  dsimp only
  split
  · obtain ⟨e, h⟩ := claimIfAllowed_frame
      ((s.dropToEnforcement.sendSilence (muteCodeCrossings old new s.enf.intended)).setQueue
        (addAllToQueue (enrolledInEither old new) s.enf.queue))
    exact ⟨e, _, h⟩
  · exact ⟨_, _, rfl⟩

section
variable (old new : SetupWords) (s : State)
@[simp] theorem takeSetupChange_memory : (takeSetupChange old new s).memory = s.memory := by obtain ⟨_, _, h⟩ := takeSetupChange_frame old new s; rw [h]
@[simp] theorem takeSetupChange_path : (takeSetupChange old new s).path = s.path := by obtain ⟨_, _, h⟩ := takeSetupChange_frame old new s; rw [h]
@[simp] theorem takeSetupChange_staging : (takeSetupChange old new s).staging = s.staging := by obtain ⟨_, _, h⟩ := takeSetupChange_frame old new s; rw [h]
@[simp] theorem takeSetupChange_channels : (takeSetupChange old new s).channels = s.channels := by obtain ⟨_, _, h⟩ := takeSetupChange_frame old new s; rw [h]
@[simp] theorem takeSetupChange_alert : (takeSetupChange old new s).alert = s.alert := by obtain ⟨_, _, h⟩ := takeSetupChange_frame old new s; rw [h]
@[simp] theorem takeSetupChange_view : (takeSetupChange old new s).view = s.view := by obtain ⟨_, _, h⟩ := takeSetupChange_frame old new s; rw [h]
@[simp] theorem takeSetupChange_setup : (takeSetupChange old new s).setup = s.setup := by obtain ⟨_, _, h⟩ := takeSetupChange_frame old new s; rw [h]
@[simp] theorem takeSetupChange_lamps : (takeSetupChange old new s).lamps = s.lamps := by obtain ⟨_, _, h⟩ := takeSetupChange_frame old new s; rw [h]
@[simp] theorem takeSetupChange_time : (takeSetupChange old new s).time = s.time := by obtain ⟨_, _, h⟩ := takeSetupChange_frame old new s; rw [h]
@[simp] theorem takeSetupChange_lines : (takeSetupChange old new s).lines = s.lines := by obtain ⟨_, _, h⟩ := takeSetupChange_frame old new s; rw [h]
@[simp] theorem takeSetupChange_draws : (takeSetupChange old new s).draws = s.draws := by obtain ⟨_, _, h⟩ := takeSetupChange_frame old new s; rw [h]
@[simp] theorem takeSetupChange_pending : (takeSetupChange old new s).pending = s.pending := by obtain ⟨_, _, h⟩ := takeSetupChange_frame old new s; rw [h]
end

/-- HALT changes the enforcement unit, sends reports and can end RELEASING (R155, R171). -/
theorem takeHalt_frame (s : State) :
    ∃ (enf : EnforcementUnit) (setup : SetupUnit) (mail : Mail), takeHalt s = { s with enf := enf, setup := setup, mail := mail } := by
  unfold takeHalt
  dsimp only
  obtain ⟨e, h⟩ := claimIfAllowed_frame (endRestore
    (let t := if s.mode = .enforce then s.dropToEnforcement.setQueue (addAllToQueue s.workingChannels s.enf.queue)
      else s.dropToEnforcement
    if s.enf.stalled then t.sendToSetup .stall else t))
  rw [h]
  split <;> split
  all_goals
    obtain ⟨u, m, h'⟩ := endRestore_frame _
    rw [h']
    exact ⟨_, _, _, rfl⟩

section
variable (s : State)
@[simp] theorem takeHalt_memory : (takeHalt s).memory = s.memory := by obtain ⟨_, _, _, h⟩ := takeHalt_frame s; rw [h]
@[simp] theorem takeHalt_path : (takeHalt s).path = s.path := by obtain ⟨_, _, _, h⟩ := takeHalt_frame s; rw [h]
@[simp] theorem takeHalt_staging : (takeHalt s).staging = s.staging := by obtain ⟨_, _, _, h⟩ := takeHalt_frame s; rw [h]
@[simp] theorem takeHalt_channels : (takeHalt s).channels = s.channels := by obtain ⟨_, _, _, h⟩ := takeHalt_frame s; rw [h]
@[simp] theorem takeHalt_alert : (takeHalt s).alert = s.alert := by obtain ⟨_, _, _, h⟩ := takeHalt_frame s; rw [h]
@[simp] theorem takeHalt_view : (takeHalt s).view = s.view := by obtain ⟨_, _, _, h⟩ := takeHalt_frame s; rw [h]
@[simp] theorem takeHalt_lamps : (takeHalt s).lamps = s.lamps := by obtain ⟨_, _, _, h⟩ := takeHalt_frame s; rw [h]
@[simp] theorem takeHalt_time : (takeHalt s).time = s.time := by obtain ⟨_, _, _, h⟩ := takeHalt_frame s; rw [h]
@[simp] theorem takeHalt_lines : (takeHalt s).lines = s.lines := by obtain ⟨_, _, _, h⟩ := takeHalt_frame s; rw [h]
@[simp] theorem takeHalt_draws : (takeHalt s).draws = s.draws := by obtain ⟨_, _, _, h⟩ := takeHalt_frame s; rw [h]
@[simp] theorem takeHalt_pending : (takeHalt s).pending = s.pending := by obtain ⟨_, _, _, h⟩ := takeHalt_frame s; rw [h]
end

/-- A snapshot changes the view (R109). -/
theorem takeSnapshot_frame (s : State) :
    ∃ (view : View), takeSnapshot s = { s with view := view } :=
  ⟨_, rfl⟩

section
variable (s : State)
@[simp] theorem takeSnapshot_memory : (takeSnapshot s).memory = s.memory := by obtain ⟨_, h⟩ := takeSnapshot_frame s; rw [h]
@[simp] theorem takeSnapshot_path : (takeSnapshot s).path = s.path := by obtain ⟨_, h⟩ := takeSnapshot_frame s; rw [h]
@[simp] theorem takeSnapshot_staging : (takeSnapshot s).staging = s.staging := by obtain ⟨_, h⟩ := takeSnapshot_frame s; rw [h]
@[simp] theorem takeSnapshot_channels : (takeSnapshot s).channels = s.channels := by obtain ⟨_, h⟩ := takeSnapshot_frame s; rw [h]
@[simp] theorem takeSnapshot_alert : (takeSnapshot s).alert = s.alert := by obtain ⟨_, h⟩ := takeSnapshot_frame s; rw [h]
@[simp] theorem takeSnapshot_enf : (takeSnapshot s).enf = s.enf := by obtain ⟨_, h⟩ := takeSnapshot_frame s; rw [h]
@[simp] theorem takeSnapshot_setup : (takeSnapshot s).setup = s.setup := by obtain ⟨_, h⟩ := takeSnapshot_frame s; rw [h]
@[simp] theorem takeSnapshot_lamps : (takeSnapshot s).lamps = s.lamps := by obtain ⟨_, h⟩ := takeSnapshot_frame s; rw [h]
@[simp] theorem takeSnapshot_time : (takeSnapshot s).time = s.time := by obtain ⟨_, h⟩ := takeSnapshot_frame s; rw [h]
@[simp] theorem takeSnapshot_lines : (takeSnapshot s).lines = s.lines := by obtain ⟨_, h⟩ := takeSnapshot_frame s; rw [h]
@[simp] theorem takeSnapshot_mail : (takeSnapshot s).mail = s.mail := by obtain ⟨_, h⟩ := takeSnapshot_frame s; rw [h]
@[simp] theorem takeSnapshot_draws : (takeSnapshot s).draws = s.draws := by obtain ⟨_, h⟩ := takeSnapshot_frame s; rw [h]
@[simp] theorem takeSnapshot_pending : (takeSnapshot s).pending = s.pending := by obtain ⟨_, h⟩ := takeSnapshot_frame s; rw [h]
end

/-- A served access changes the memory path (R121). -/
theorem serve_frame (a b : Access) (h : Bool) (s : State) :
    ∃ (path : PathUnit), serve a b h s = { s with path := path } :=
  ⟨_, rfl⟩

section
variable (a b : Access) (h : Bool) (s : State)
@[simp] theorem serve_memory : (serve a b h s).memory = s.memory := by obtain ⟨_, h⟩ := serve_frame a b h s; rw [h]
@[simp] theorem serve_staging : (serve a b h s).staging = s.staging := by obtain ⟨_, h⟩ := serve_frame a b h s; rw [h]
@[simp] theorem serve_channels : (serve a b h s).channels = s.channels := by obtain ⟨_, h⟩ := serve_frame a b h s; rw [h]
@[simp] theorem serve_alert : (serve a b h s).alert = s.alert := by obtain ⟨_, h⟩ := serve_frame a b h s; rw [h]
@[simp] theorem serve_view : (serve a b h s).view = s.view := by obtain ⟨_, h⟩ := serve_frame a b h s; rw [h]
@[simp] theorem serve_enf : (serve a b h s).enf = s.enf := by obtain ⟨_, h⟩ := serve_frame a b h s; rw [h]
@[simp] theorem serve_setup : (serve a b h s).setup = s.setup := by obtain ⟨_, h⟩ := serve_frame a b h s; rw [h]
@[simp] theorem serve_lamps : (serve a b h s).lamps = s.lamps := by obtain ⟨_, h⟩ := serve_frame a b h s; rw [h]
@[simp] theorem serve_time : (serve a b h s).time = s.time := by obtain ⟨_, h⟩ := serve_frame a b h s; rw [h]
@[simp] theorem serve_lines : (serve a b h s).lines = s.lines := by obtain ⟨_, h⟩ := serve_frame a b h s; rw [h]
@[simp] theorem serve_mail : (serve a b h s).mail = s.mail := by obtain ⟨_, h⟩ := serve_frame a b h s; rw [h]
@[simp] theorem serve_draws : (serve a b h s).draws = s.draws := by obtain ⟨_, h⟩ := serve_frame a b h s; rw [h]
@[simp] theorem serve_pending : (serve a b h s).pending = s.pending := by obtain ⟨_, h⟩ := serve_frame a b h s; rw [h]
end

/-- An answered access changes the memory path (R128). -/
theorem answered_frame (a : Access) (d : Option Word) (s : State) :
    ∃ (path : PathUnit), answered a d s = { s with path := path } :=
  ⟨_, rfl⟩

section
variable (a : Access) (d : Option Word) (s : State)
@[simp] theorem answered_memory : (answered a d s).memory = s.memory := by obtain ⟨_, h⟩ := answered_frame a d s; rw [h]
@[simp] theorem answered_staging : (answered a d s).staging = s.staging := by obtain ⟨_, h⟩ := answered_frame a d s; rw [h]
@[simp] theorem answered_channels : (answered a d s).channels = s.channels := by obtain ⟨_, h⟩ := answered_frame a d s; rw [h]
@[simp] theorem answered_alert : (answered a d s).alert = s.alert := by obtain ⟨_, h⟩ := answered_frame a d s; rw [h]
@[simp] theorem answered_view : (answered a d s).view = s.view := by obtain ⟨_, h⟩ := answered_frame a d s; rw [h]
@[simp] theorem answered_enf : (answered a d s).enf = s.enf := by obtain ⟨_, h⟩ := answered_frame a d s; rw [h]
@[simp] theorem answered_setup : (answered a d s).setup = s.setup := by obtain ⟨_, h⟩ := answered_frame a d s; rw [h]
@[simp] theorem answered_lamps : (answered a d s).lamps = s.lamps := by obtain ⟨_, h⟩ := answered_frame a d s; rw [h]
@[simp] theorem answered_time : (answered a d s).time = s.time := by obtain ⟨_, h⟩ := answered_frame a d s; rw [h]
@[simp] theorem answered_lines : (answered a d s).lines = s.lines := by obtain ⟨_, h⟩ := answered_frame a d s; rw [h]
@[simp] theorem answered_mail : (answered a d s).mail = s.mail := by obtain ⟨_, h⟩ := answered_frame a d s; rw [h]
@[simp] theorem answered_draws : (answered a d s).draws = s.draws := by obtain ⟨_, h⟩ := answered_frame a d s; rw [h]
@[simp] theorem answered_pending : (answered a d s).pending = s.pending := by obtain ⟨_, h⟩ := answered_frame a d s; rw [h]
end

/-- READY changes the memory path (R120). -/
theorem completeEnded_frame (s : State) :
    ∃ (path : PathUnit), completeEnded s = { s with path := path } :=
  by
  unfold completeEnded
  repeat' split
  all_goals exact ⟨_, rfl⟩

section
variable (s : State)
@[simp] theorem completeEnded_memory : (completeEnded s).memory = s.memory := by obtain ⟨_, h⟩ := completeEnded_frame s; rw [h]
@[simp] theorem completeEnded_staging : (completeEnded s).staging = s.staging := by obtain ⟨_, h⟩ := completeEnded_frame s; rw [h]
@[simp] theorem completeEnded_channels : (completeEnded s).channels = s.channels := by obtain ⟨_, h⟩ := completeEnded_frame s; rw [h]
@[simp] theorem completeEnded_alert : (completeEnded s).alert = s.alert := by obtain ⟨_, h⟩ := completeEnded_frame s; rw [h]
@[simp] theorem completeEnded_view : (completeEnded s).view = s.view := by obtain ⟨_, h⟩ := completeEnded_frame s; rw [h]
@[simp] theorem completeEnded_enf : (completeEnded s).enf = s.enf := by obtain ⟨_, h⟩ := completeEnded_frame s; rw [h]
@[simp] theorem completeEnded_setup : (completeEnded s).setup = s.setup := by obtain ⟨_, h⟩ := completeEnded_frame s; rw [h]
@[simp] theorem completeEnded_lamps : (completeEnded s).lamps = s.lamps := by obtain ⟨_, h⟩ := completeEnded_frame s; rw [h]
@[simp] theorem completeEnded_time : (completeEnded s).time = s.time := by obtain ⟨_, h⟩ := completeEnded_frame s; rw [h]
@[simp] theorem completeEnded_lines : (completeEnded s).lines = s.lines := by obtain ⟨_, h⟩ := completeEnded_frame s; rw [h]
@[simp] theorem completeEnded_mail : (completeEnded s).mail = s.mail := by obtain ⟨_, h⟩ := completeEnded_frame s; rw [h]
@[simp] theorem completeEnded_draws : (completeEnded s).draws = s.draws := by obtain ⟨_, h⟩ := completeEnded_frame s; rw [h]
@[simp] theorem completeEnded_pending : (completeEnded s).pending = s.pending := by obtain ⟨_, h⟩ := completeEnded_frame s; rw [h]
end

/-- The requests up to HALT taken change the two units and their paths (R139, R155). -/
theorem takeUntilHalt_frame (ms : List ToEnforcement) (s : State) :
    ∃ (enf : EnforcementUnit) (setup : SetupUnit) (mail : Mail), takeUntilHalt ms s = { s with enf := enf, setup := setup, mail := mail } := by
  induction ms generalizing s with
  | nil => exact ⟨_, _, _, rfl⟩
  | cons m rest ih =>
    cases m with
    | loadRequest => exact ⟨_, _, _, rfl⟩
    | halt => exact takeHalt_frame s
    | setupChange old new =>
      obtain ⟨e, m, h⟩ := takeSetupChange_frame old new s
      obtain ⟨e', u, m', h'⟩ := ih (takeSetupChange old new s)
      exact ⟨e', u, m', by rw [takeUntilHalt, h', h]⟩

section
variable (ms : List ToEnforcement) (s : State)
@[simp] theorem takeUntilHalt_memory : (takeUntilHalt ms s).memory = s.memory := by obtain ⟨_, _, _, h⟩ := takeUntilHalt_frame ms s; rw [h]
@[simp] theorem takeUntilHalt_path : (takeUntilHalt ms s).path = s.path := by obtain ⟨_, _, _, h⟩ := takeUntilHalt_frame ms s; rw [h]
@[simp] theorem takeUntilHalt_staging : (takeUntilHalt ms s).staging = s.staging := by obtain ⟨_, _, _, h⟩ := takeUntilHalt_frame ms s; rw [h]
@[simp] theorem takeUntilHalt_channels : (takeUntilHalt ms s).channels = s.channels := by obtain ⟨_, _, _, h⟩ := takeUntilHalt_frame ms s; rw [h]
@[simp] theorem takeUntilHalt_alert : (takeUntilHalt ms s).alert = s.alert := by obtain ⟨_, _, _, h⟩ := takeUntilHalt_frame ms s; rw [h]
@[simp] theorem takeUntilHalt_view : (takeUntilHalt ms s).view = s.view := by obtain ⟨_, _, _, h⟩ := takeUntilHalt_frame ms s; rw [h]
@[simp] theorem takeUntilHalt_lamps : (takeUntilHalt ms s).lamps = s.lamps := by obtain ⟨_, _, _, h⟩ := takeUntilHalt_frame ms s; rw [h]
@[simp] theorem takeUntilHalt_time : (takeUntilHalt ms s).time = s.time := by obtain ⟨_, _, _, h⟩ := takeUntilHalt_frame ms s; rw [h]
@[simp] theorem takeUntilHalt_lines : (takeUntilHalt ms s).lines = s.lines := by obtain ⟨_, _, _, h⟩ := takeUntilHalt_frame ms s; rw [h]
@[simp] theorem takeUntilHalt_draws : (takeUntilHalt ms s).draws = s.draws := by obtain ⟨_, _, _, h⟩ := takeUntilHalt_frame ms s; rw [h]
@[simp] theorem takeUntilHalt_pending : (takeUntilHalt ms s).pending = s.pending := by obtain ⟨_, _, _, h⟩ := takeUntilHalt_frame ms s; rw [h]
end

/-- The notices taken change the enforcement unit and their path (R138). -/
theorem takeNotices_frame (ms : List Notice) (s : State) :
    ∃ (enf : EnforcementUnit) (mail : Mail), takeNotices ms s = { s with enf := enf, mail := mail } := by
  induction ms generalizing s with
  | nil => exact ⟨_, _, rfl⟩
  | cons n rest ih =>
    obtain ⟨e, h⟩ := queueUnderEnforce_frame n.channel s.dropNotice
    obtain ⟨e', m', h'⟩ := ih (queueUnderEnforce n.channel s.dropNotice)
    exact ⟨e', m', by rw [takeNotices, h', h]; rfl⟩

section
variable (ms : List Notice) (s : State)
@[simp] theorem takeNotices_memory : (takeNotices ms s).memory = s.memory := by obtain ⟨_, _, h⟩ := takeNotices_frame ms s; rw [h]
@[simp] theorem takeNotices_path : (takeNotices ms s).path = s.path := by obtain ⟨_, _, h⟩ := takeNotices_frame ms s; rw [h]
@[simp] theorem takeNotices_staging : (takeNotices ms s).staging = s.staging := by obtain ⟨_, _, h⟩ := takeNotices_frame ms s; rw [h]
@[simp] theorem takeNotices_channels : (takeNotices ms s).channels = s.channels := by obtain ⟨_, _, h⟩ := takeNotices_frame ms s; rw [h]
@[simp] theorem takeNotices_alert : (takeNotices ms s).alert = s.alert := by obtain ⟨_, _, h⟩ := takeNotices_frame ms s; rw [h]
@[simp] theorem takeNotices_view : (takeNotices ms s).view = s.view := by obtain ⟨_, _, h⟩ := takeNotices_frame ms s; rw [h]
@[simp] theorem takeNotices_setup : (takeNotices ms s).setup = s.setup := by obtain ⟨_, _, h⟩ := takeNotices_frame ms s; rw [h]
@[simp] theorem takeNotices_lamps : (takeNotices ms s).lamps = s.lamps := by obtain ⟨_, _, h⟩ := takeNotices_frame ms s; rw [h]
@[simp] theorem takeNotices_time : (takeNotices ms s).time = s.time := by obtain ⟨_, _, h⟩ := takeNotices_frame ms s; rw [h]
@[simp] theorem takeNotices_lines : (takeNotices ms s).lines = s.lines := by obtain ⟨_, _, h⟩ := takeNotices_frame ms s; rw [h]
@[simp] theorem takeNotices_draws : (takeNotices ms s).draws = s.draws := by obtain ⟨_, _, h⟩ := takeNotices_frame ms s; rw [h]
@[simp] theorem takeNotices_pending : (takeNotices ms s).pending = s.pending := by obtain ⟨_, _, h⟩ := takeNotices_frame ms s; rw [h]
end

/-- A HALT write brought to its result changes the two units, their paths and the memory path (R175). -/
theorem finishHalt_frame (s : State) :
    ∃ (path : PathUnit) (enf : EnforcementUnit) (setup : SetupUnit) (mail : Mail), finishHalt s = { s with path := path, enf := enf, setup := setup, mail := mail } := by
  unfold finishHalt
  split
  · obtain ⟨e₀, m₀, h₀⟩ := takeNotices_frame s.mail.notices s
    obtain ⟨e, u, m, h⟩ := takeUntilHalt_frame s.mail.toEnforcement (takeNotices s.mail.notices s)
    obtain ⟨p, h'⟩ := completeEnded_frame (takeUntilHalt s.mail.toEnforcement (takeNotices s.mail.notices s))
    exact ⟨p, e, u, m, by rw [h', h, h₀]⟩
  · exact ⟨_, _, _, _, rfl⟩

section
variable (s : State)
@[simp] theorem finishHalt_memory : (finishHalt s).memory = s.memory := by obtain ⟨_, _, _, _, h⟩ := finishHalt_frame s; rw [h]
@[simp] theorem finishHalt_staging : (finishHalt s).staging = s.staging := by obtain ⟨_, _, _, _, h⟩ := finishHalt_frame s; rw [h]
@[simp] theorem finishHalt_channels : (finishHalt s).channels = s.channels := by obtain ⟨_, _, _, _, h⟩ := finishHalt_frame s; rw [h]
@[simp] theorem finishHalt_alert : (finishHalt s).alert = s.alert := by obtain ⟨_, _, _, _, h⟩ := finishHalt_frame s; rw [h]
@[simp] theorem finishHalt_view : (finishHalt s).view = s.view := by obtain ⟨_, _, _, _, h⟩ := finishHalt_frame s; rw [h]
@[simp] theorem finishHalt_lamps : (finishHalt s).lamps = s.lamps := by obtain ⟨_, _, _, _, h⟩ := finishHalt_frame s; rw [h]
@[simp] theorem finishHalt_time : (finishHalt s).time = s.time := by obtain ⟨_, _, _, _, h⟩ := finishHalt_frame s; rw [h]
@[simp] theorem finishHalt_lines : (finishHalt s).lines = s.lines := by obtain ⟨_, _, _, _, h⟩ := finishHalt_frame s; rw [h]
@[simp] theorem finishHalt_draws : (finishHalt s).draws = s.draws := by obtain ⟨_, _, _, _, h⟩ := finishHalt_frame s; rw [h]
@[simp] theorem finishHalt_pending : (finishHalt s).pending = s.pending := by obtain ⟨_, _, _, _, h⟩ := finishHalt_frame s; rw [h]
end

/-- A read mark delivered changes the unit and the lamps (R113). -/
theorem deliverReadMark_frame (e : Option AlertEntry) (s : State) :
    ∃ (alert : AlertUnit) (lamps : LampUnit), deliverReadMark e s = { s with alert := alert, lamps := lamps } :=
  by
  unfold deliverReadMark
  split
  · exact ⟨_, _, rfl⟩
  · exact listEventIfActive_frame _ s

section
variable (e : Option AlertEntry) (s : State)
@[simp] theorem deliverReadMark_memory : (deliverReadMark e s).memory = s.memory := by obtain ⟨_, _, h⟩ := deliverReadMark_frame e s; rw [h]
@[simp] theorem deliverReadMark_path : (deliverReadMark e s).path = s.path := by obtain ⟨_, _, h⟩ := deliverReadMark_frame e s; rw [h]
@[simp] theorem deliverReadMark_staging : (deliverReadMark e s).staging = s.staging := by obtain ⟨_, _, h⟩ := deliverReadMark_frame e s; rw [h]
@[simp] theorem deliverReadMark_channels : (deliverReadMark e s).channels = s.channels := by obtain ⟨_, _, h⟩ := deliverReadMark_frame e s; rw [h]
@[simp] theorem deliverReadMark_view : (deliverReadMark e s).view = s.view := by obtain ⟨_, _, h⟩ := deliverReadMark_frame e s; rw [h]
@[simp] theorem deliverReadMark_enf : (deliverReadMark e s).enf = s.enf := by obtain ⟨_, _, h⟩ := deliverReadMark_frame e s; rw [h]
@[simp] theorem deliverReadMark_setup : (deliverReadMark e s).setup = s.setup := by obtain ⟨_, _, h⟩ := deliverReadMark_frame e s; rw [h]
@[simp] theorem deliverReadMark_time : (deliverReadMark e s).time = s.time := by obtain ⟨_, _, h⟩ := deliverReadMark_frame e s; rw [h]
@[simp] theorem deliverReadMark_lines : (deliverReadMark e s).lines = s.lines := by obtain ⟨_, _, h⟩ := deliverReadMark_frame e s; rw [h]
@[simp] theorem deliverReadMark_mail : (deliverReadMark e s).mail = s.mail := by obtain ⟨_, _, h⟩ := deliverReadMark_frame e s; rw [h]
@[simp] theorem deliverReadMark_draws : (deliverReadMark e s).draws = s.draws := by obtain ⟨_, _, h⟩ := deliverReadMark_frame e s; rw [h]
@[simp] theorem deliverReadMark_pending : (deliverReadMark e s).pending = s.pending := by obtain ⟨_, _, h⟩ := deliverReadMark_frame e s; rw [h]
end

/-- A capture release is one event of its channel (R115). -/
theorem deliverCaptureRelease_frame (c : Chan) (s : State) :
    ∃ (channels : Vector ChannelRecord 64) (mail : Mail), deliverCaptureRelease c s = { s with channels := channels, mail := mail } :=
  ⟨_, _, rfl⟩

section
variable (c : Chan) (s : State)
@[simp] theorem deliverCaptureRelease_memory : (deliverCaptureRelease c s).memory = s.memory := by obtain ⟨_, _, h⟩ := deliverCaptureRelease_frame c s; rw [h]
@[simp] theorem deliverCaptureRelease_path : (deliverCaptureRelease c s).path = s.path := by obtain ⟨_, _, h⟩ := deliverCaptureRelease_frame c s; rw [h]
@[simp] theorem deliverCaptureRelease_staging : (deliverCaptureRelease c s).staging = s.staging := by obtain ⟨_, _, h⟩ := deliverCaptureRelease_frame c s; rw [h]
@[simp] theorem deliverCaptureRelease_alert : (deliverCaptureRelease c s).alert = s.alert := by obtain ⟨_, _, h⟩ := deliverCaptureRelease_frame c s; rw [h]
@[simp] theorem deliverCaptureRelease_view : (deliverCaptureRelease c s).view = s.view := by obtain ⟨_, _, h⟩ := deliverCaptureRelease_frame c s; rw [h]
@[simp] theorem deliverCaptureRelease_enf : (deliverCaptureRelease c s).enf = s.enf := by obtain ⟨_, _, h⟩ := deliverCaptureRelease_frame c s; rw [h]
@[simp] theorem deliverCaptureRelease_setup : (deliverCaptureRelease c s).setup = s.setup := by obtain ⟨_, _, h⟩ := deliverCaptureRelease_frame c s; rw [h]
@[simp] theorem deliverCaptureRelease_lamps : (deliverCaptureRelease c s).lamps = s.lamps := by obtain ⟨_, _, h⟩ := deliverCaptureRelease_frame c s; rw [h]
@[simp] theorem deliverCaptureRelease_time : (deliverCaptureRelease c s).time = s.time := by obtain ⟨_, _, h⟩ := deliverCaptureRelease_frame c s; rw [h]
@[simp] theorem deliverCaptureRelease_lines : (deliverCaptureRelease c s).lines = s.lines := by obtain ⟨_, _, h⟩ := deliverCaptureRelease_frame c s; rw [h]
@[simp] theorem deliverCaptureRelease_draws : (deliverCaptureRelease c s).draws = s.draws := by obtain ⟨_, _, h⟩ := deliverCaptureRelease_frame c s; rw [h]
@[simp] theorem deliverCaptureRelease_pending : (deliverCaptureRelease c s).pending = s.pending := by obtain ⟨_, _, h⟩ := deliverCaptureRelease_frame c s; rw [h]
end

/-- A write to the alert window changes the unit and the lamps (R116, R118). -/
theorem answerWrite_frame (seen : State) (offset : Nat) (value : Word) (s : State) :
    ∃ (alert : AlertUnit) (lamps : LampUnit), answerWrite seen offset value s = { s with alert := alert, lamps := lamps } :=
  by
  unfold answerWrite
  split
  · exact listEventIfActive_frame _ s
  all_goals exact ⟨_, _, rfl⟩

section
variable (seen : State) (offset : Nat) (value : Word) (s : State)
@[simp] theorem answerWrite_memory : (answerWrite seen offset value s).memory = s.memory := by obtain ⟨_, _, h⟩ := answerWrite_frame seen offset value s; rw [h]
@[simp] theorem answerWrite_path : (answerWrite seen offset value s).path = s.path := by obtain ⟨_, _, h⟩ := answerWrite_frame seen offset value s; rw [h]
@[simp] theorem answerWrite_staging : (answerWrite seen offset value s).staging = s.staging := by obtain ⟨_, _, h⟩ := answerWrite_frame seen offset value s; rw [h]
@[simp] theorem answerWrite_channels : (answerWrite seen offset value s).channels = s.channels := by obtain ⟨_, _, h⟩ := answerWrite_frame seen offset value s; rw [h]
@[simp] theorem answerWrite_view : (answerWrite seen offset value s).view = s.view := by obtain ⟨_, _, h⟩ := answerWrite_frame seen offset value s; rw [h]
@[simp] theorem answerWrite_enf : (answerWrite seen offset value s).enf = s.enf := by obtain ⟨_, _, h⟩ := answerWrite_frame seen offset value s; rw [h]
@[simp] theorem answerWrite_setup : (answerWrite seen offset value s).setup = s.setup := by obtain ⟨_, _, h⟩ := answerWrite_frame seen offset value s; rw [h]
@[simp] theorem answerWrite_time : (answerWrite seen offset value s).time = s.time := by obtain ⟨_, _, h⟩ := answerWrite_frame seen offset value s; rw [h]
@[simp] theorem answerWrite_lines : (answerWrite seen offset value s).lines = s.lines := by obtain ⟨_, _, h⟩ := answerWrite_frame seen offset value s; rw [h]
@[simp] theorem answerWrite_mail : (answerWrite seen offset value s).mail = s.mail := by obtain ⟨_, _, h⟩ := answerWrite_frame seen offset value s; rw [h]
@[simp] theorem answerWrite_draws : (answerWrite seen offset value s).draws = s.draws := by obtain ⟨_, _, h⟩ := answerWrite_frame seen offset value s; rw [h]
@[simp] theorem answerWrite_pending : (answerWrite seen offset value s).pending = s.pending := by obtain ⟨_, _, h⟩ := answerWrite_frame seen offset value s; rw [h]
end

/-- Bus reset changes six blocks' state (R13, R108, R131, R158, R175). -/
theorem busReset_frame (s : State) :
    ∃ (path : PathUnit) (staging : Vector Staging 64) (view : View) (enf : EnforcementUnit) (setup : SetupUnit) (mail : Mail), busReset s = { s with path := path, staging := staging, view := view, enf := enf, setup := setup, mail := mail } :=
  by
  unfold busReset
  dsimp only
  obtain ⟨e, m, h⟩ := endStall_frame s
  rw [h]
  exact ⟨_, _, _, _, _, _, rfl⟩

section
variable (s : State)
@[simp] theorem busReset_memory : (busReset s).memory = s.memory := by obtain ⟨_, _, _, _, _, _, h⟩ := busReset_frame s; rw [h]
@[simp] theorem busReset_channels : (busReset s).channels = s.channels := by obtain ⟨_, _, _, _, _, _, h⟩ := busReset_frame s; rw [h]
@[simp] theorem busReset_alert : (busReset s).alert = s.alert := by obtain ⟨_, _, _, _, _, _, h⟩ := busReset_frame s; rw [h]
@[simp] theorem busReset_lamps : (busReset s).lamps = s.lamps := by obtain ⟨_, _, _, _, _, _, h⟩ := busReset_frame s; rw [h]
@[simp] theorem busReset_time : (busReset s).time = s.time := by obtain ⟨_, _, _, _, _, _, h⟩ := busReset_frame s; rw [h]
@[simp] theorem busReset_lines : (busReset s).lines = s.lines := by obtain ⟨_, _, _, _, _, _, h⟩ := busReset_frame s; rw [h]
@[simp] theorem busReset_draws : (busReset s).draws = s.draws := by obtain ⟨_, _, _, _, _, _, h⟩ := busReset_frame s; rw [h]
@[simp] theorem busReset_pending : (busReset s).pending = s.pending := by obtain ⟨_, _, _, _, _, _, h⟩ := busReset_frame s; rw [h]
end

/-- The withdrawal of an access at power reset changes memory and the count of free values (R132). -/
theorem withdrawAccess_frame (s : State) :
    ∃ (memory : Memory) (draws : Nat), withdrawAccess s = { s with memory := memory, draws := draws } :=
  by
  unfold withdrawAccess
  split <;> exact ⟨_, _, rfl⟩

section
variable (s : State)
@[simp] theorem withdrawAccess_path : (withdrawAccess s).path = s.path := by obtain ⟨_, _, h⟩ := withdrawAccess_frame s; rw [h]
@[simp] theorem withdrawAccess_staging : (withdrawAccess s).staging = s.staging := by obtain ⟨_, _, h⟩ := withdrawAccess_frame s; rw [h]
@[simp] theorem withdrawAccess_channels : (withdrawAccess s).channels = s.channels := by obtain ⟨_, _, h⟩ := withdrawAccess_frame s; rw [h]
@[simp] theorem withdrawAccess_alert : (withdrawAccess s).alert = s.alert := by obtain ⟨_, _, h⟩ := withdrawAccess_frame s; rw [h]
@[simp] theorem withdrawAccess_view : (withdrawAccess s).view = s.view := by obtain ⟨_, _, h⟩ := withdrawAccess_frame s; rw [h]
@[simp] theorem withdrawAccess_enf : (withdrawAccess s).enf = s.enf := by obtain ⟨_, _, h⟩ := withdrawAccess_frame s; rw [h]
@[simp] theorem withdrawAccess_setup : (withdrawAccess s).setup = s.setup := by obtain ⟨_, _, h⟩ := withdrawAccess_frame s; rw [h]
@[simp] theorem withdrawAccess_lamps : (withdrawAccess s).lamps = s.lamps := by obtain ⟨_, _, h⟩ := withdrawAccess_frame s; rw [h]
@[simp] theorem withdrawAccess_time : (withdrawAccess s).time = s.time := by obtain ⟨_, _, h⟩ := withdrawAccess_frame s; rw [h]
@[simp] theorem withdrawAccess_lines : (withdrawAccess s).lines = s.lines := by obtain ⟨_, _, h⟩ := withdrawAccess_frame s; rw [h]
@[simp] theorem withdrawAccess_mail : (withdrawAccess s).mail = s.mail := by obtain ⟨_, _, h⟩ := withdrawAccess_frame s; rw [h]
@[simp] theorem withdrawAccess_pending : (withdrawAccess s).pending = s.pending := by obtain ⟨_, _, h⟩ := withdrawAccess_frame s; rw [h]
end

/-- The restore-done report at the release of BUSRST_N is a message (R156). -/
theorem reportAtRelease_frame (s : State) :
    ∃ (mail : Mail), reportAtRelease s = { s with mail := mail } :=
  by
  unfold reportAtRelease
  split
  · exact ⟨_, rfl⟩
  · exact reportIfRestored_frame s

section
variable (s : State)
@[simp] theorem reportAtRelease_memory : (reportAtRelease s).memory = s.memory := by obtain ⟨_, h⟩ := reportAtRelease_frame s; rw [h]
@[simp] theorem reportAtRelease_path : (reportAtRelease s).path = s.path := by obtain ⟨_, h⟩ := reportAtRelease_frame s; rw [h]
@[simp] theorem reportAtRelease_staging : (reportAtRelease s).staging = s.staging := by obtain ⟨_, h⟩ := reportAtRelease_frame s; rw [h]
@[simp] theorem reportAtRelease_channels : (reportAtRelease s).channels = s.channels := by obtain ⟨_, h⟩ := reportAtRelease_frame s; rw [h]
@[simp] theorem reportAtRelease_alert : (reportAtRelease s).alert = s.alert := by obtain ⟨_, h⟩ := reportAtRelease_frame s; rw [h]
@[simp] theorem reportAtRelease_view : (reportAtRelease s).view = s.view := by obtain ⟨_, h⟩ := reportAtRelease_frame s; rw [h]
@[simp] theorem reportAtRelease_enf : (reportAtRelease s).enf = s.enf := by obtain ⟨_, h⟩ := reportAtRelease_frame s; rw [h]
@[simp] theorem reportAtRelease_setup : (reportAtRelease s).setup = s.setup := by obtain ⟨_, h⟩ := reportAtRelease_frame s; rw [h]
@[simp] theorem reportAtRelease_lamps : (reportAtRelease s).lamps = s.lamps := by obtain ⟨_, h⟩ := reportAtRelease_frame s; rw [h]
@[simp] theorem reportAtRelease_time : (reportAtRelease s).time = s.time := by obtain ⟨_, h⟩ := reportAtRelease_frame s; rw [h]
@[simp] theorem reportAtRelease_lines : (reportAtRelease s).lines = s.lines := by obtain ⟨_, h⟩ := reportAtRelease_frame s; rw [h]
@[simp] theorem reportAtRelease_draws : (reportAtRelease s).draws = s.draws := by obtain ⟨_, h⟩ := reportAtRelease_frame s; rw [h]
@[simp] theorem reportAtRelease_pending : (reportAtRelease s).pending = s.pending := by obtain ⟨_, h⟩ := reportAtRelease_frame s; rw [h]
end

/-- A tick changes counts, timers and phases (R184). -/
theorem millisecondTick_frame (s : State) :
    ∃ (channels : Vector ChannelRecord 64) (enf : EnforcementUnit) (setup : SetupUnit) (lamps : LampUnit) (time : Timebase), millisecondTick s = { s with channels := channels, enf := enf, setup := setup, lamps := lamps, time := time } :=
  by
  unfold millisecondTick
  all_goals exact ⟨_, _, _, _, _, rfl⟩

section
variable (s : State)
@[simp] theorem millisecondTick_memory : (millisecondTick s).memory = s.memory := by obtain ⟨_, _, _, _, _, h⟩ := millisecondTick_frame s; rw [h]
@[simp] theorem millisecondTick_path : (millisecondTick s).path = s.path := by obtain ⟨_, _, _, _, _, h⟩ := millisecondTick_frame s; rw [h]
@[simp] theorem millisecondTick_staging : (millisecondTick s).staging = s.staging := by obtain ⟨_, _, _, _, _, h⟩ := millisecondTick_frame s; rw [h]
@[simp] theorem millisecondTick_alert : (millisecondTick s).alert = s.alert := by obtain ⟨_, _, _, _, _, h⟩ := millisecondTick_frame s; rw [h]
@[simp] theorem millisecondTick_view : (millisecondTick s).view = s.view := by obtain ⟨_, _, _, _, _, h⟩ := millisecondTick_frame s; rw [h]
@[simp] theorem millisecondTick_lines : (millisecondTick s).lines = s.lines := by obtain ⟨_, _, _, _, _, h⟩ := millisecondTick_frame s; rw [h]
@[simp] theorem millisecondTick_mail : (millisecondTick s).mail = s.mail := by obtain ⟨_, _, _, _, _, h⟩ := millisecondTick_frame s; rw [h]
@[simp] theorem millisecondTick_draws : (millisecondTick s).draws = s.draws := by obtain ⟨_, _, _, _, _, h⟩ := millisecondTick_frame s; rw [h]
@[simp] theorem millisecondTick_pending : (millisecondTick s).pending = s.pending := by obtain ⟨_, _, _, _, _, h⟩ := millisecondTick_frame s; rw [h]
end

/-- So does one REFCLK period (R184). -/
theorem refclkPeriod_frame (s : State) :
    ∃ (channels : Vector ChannelRecord 64) (enf : EnforcementUnit) (setup : SetupUnit) (lamps : LampUnit) (time : Timebase), refclkPeriod s = { s with channels := channels, enf := enf, setup := setup, lamps := lamps, time := time } :=
  by
  unfold refclkPeriod
  split
  · exact ⟨_, _, _, _, _, rfl⟩
  · split
    · exact ⟨_, _, _, _, _, rfl⟩
    · exact millisecondTick_frame s

section
variable (s : State)
@[simp] theorem refclkPeriod_memory : (refclkPeriod s).memory = s.memory := by obtain ⟨_, _, _, _, _, h⟩ := refclkPeriod_frame s; rw [h]
@[simp] theorem refclkPeriod_path : (refclkPeriod s).path = s.path := by obtain ⟨_, _, _, _, _, h⟩ := refclkPeriod_frame s; rw [h]
@[simp] theorem refclkPeriod_staging : (refclkPeriod s).staging = s.staging := by obtain ⟨_, _, _, _, _, h⟩ := refclkPeriod_frame s; rw [h]
@[simp] theorem refclkPeriod_alert : (refclkPeriod s).alert = s.alert := by obtain ⟨_, _, _, _, _, h⟩ := refclkPeriod_frame s; rw [h]
@[simp] theorem refclkPeriod_view : (refclkPeriod s).view = s.view := by obtain ⟨_, _, _, _, _, h⟩ := refclkPeriod_frame s; rw [h]
@[simp] theorem refclkPeriod_lines : (refclkPeriod s).lines = s.lines := by obtain ⟨_, _, _, _, _, h⟩ := refclkPeriod_frame s; rw [h]
@[simp] theorem refclkPeriod_mail : (refclkPeriod s).mail = s.mail := by obtain ⟨_, _, _, _, _, h⟩ := refclkPeriod_frame s; rw [h]
@[simp] theorem refclkPeriod_draws : (refclkPeriod s).draws = s.draws := by obtain ⟨_, _, _, _, _, h⟩ := refclkPeriod_frame s; rw [h]
@[simp] theorem refclkPeriod_pending : (refclkPeriod s).pending = s.pending := by obtain ⟨_, _, _, _, _, h⟩ := refclkPeriod_frame s; rw [h]
end

/-- The memory, the input lines, the model's count of free values and the queue of commands are the same: what only the ends
of memory accesses, the lines' own commands and the step change. -/
def SameOutside (s t : State) : Prop :=
  t.memory = s.memory ∧ t.lines = s.lines ∧ t.draws = s.draws ∧ t.pending = s.pending

theorem SameOutside.refl (s : State) : SameOutside s s := ⟨rfl, rfl, rfl, rfl⟩

theorem SameOutside.trans {s t u : State} (h : SameOutside s t) (h' : SameOutside t u) : SameOutside s u :=
  ⟨h'.1.trans h.1, h'.2.1.trans h.2.1, h'.2.2.1.trans h.2.2.1, h'.2.2.2.trans h.2.2.2⟩

theorem answerRead_outside (seen : State) (offset : Nat) (s : State) : SameOutside s (answerRead seen offset s).1 := by
  unfold answerRead
  split
  all_goals first
    | exact ⟨rfl, rfl, rfl, rfl⟩
    | exact ⟨by simp, by simp, by simp, by simp⟩

/-- The course of an access (R124). -/
theorem takeCourse_outside (a : Access) (s : State) : SameOutside s (takeCourse a s) := by
  unfold takeCourse
  split
  case h_8 offset _ => exact (answerRead_outside s offset s).trans ⟨by simp, by simp, by simp, by simp⟩
  all_goals exact ⟨by simp, by simp, by simp, by simp⟩

section
variable (a : Access) (s : State)
@[simp] theorem takeCourse_memory : (takeCourse a s).memory = s.memory := (takeCourse_outside a s).1
@[simp] theorem takeCourse_lines : (takeCourse a s).lines = s.lines := (takeCourse_outside a s).2.1
@[simp] theorem takeCourse_draws : (takeCourse a s).draws = s.draws := (takeCourse_outside a s).2.2.1
@[simp] theorem takeCourse_pending : (takeCourse a s).pending = s.pending := (takeCourse_outside a s).2.2.2
end

/-- The arrival of an access (R120). -/
theorem arrive_outside (a : Access) (s : State) : SameOutside s (arrive a s) := by
  unfold arrive
  split
  · exact ⟨rfl, rfl, rfl, rfl⟩
  · exact takeCourse_outside a s

section
variable (a : Access) (s : State)
@[simp] theorem arrive_memory : (arrive a s).memory = s.memory := (arrive_outside a s).1
@[simp] theorem arrive_lines : (arrive a s).lines = s.lines := (arrive_outside a s).2.1
@[simp] theorem arrive_draws : (arrive a s).draws = s.draws := (arrive_outside a s).2.2.1
@[simp] theorem arrive_pending : (arrive a s).pending = s.pending := (arrive_outside a s).2.2.2
end

/-- The arrival of the access that stayed presented (R131). -/
theorem takePresented_outside (s : State) : SameOutside s (takePresented s) := by
  unfold takePresented
  split
  · exact .refl s
  · split
    · exact arrive_outside _ (s.setPath _)
    · exact .refl s

section
variable (s : State)
@[simp] theorem takePresented_memory : (takePresented s).memory = s.memory := (takePresented_outside s).1
@[simp] theorem takePresented_lines : (takePresented s).lines = s.lines := (takePresented_outside s).2.1
@[simp] theorem takePresented_draws : (takePresented s).draws = s.draws := (takePresented_outside s).2.2.1
@[simp] theorem takePresented_pending : (takePresented s).pending = s.pending := (takePresented_outside s).2.2.2
end

/-- The answer of an access that HALT has overtaken (R119). -/
theorem answerOvertaken_outside (w : Answering) (s : State) : SameOutside s (answerOvertaken w s) := by
  unfold answerOvertaken
  dsimp only
  split
  · have h := answerRead_outside ((s.setPath { s.path with answering := none }).seenBy w) ‹Nat›
      (s.setPath { s.path with answering := none })
    exact ⟨h.1, h.2.1, h.2.2.1, h.2.2.2⟩
  · exact ⟨by simp, by simp, by simp, by simp⟩
  all_goals exact ⟨rfl, rfl, rfl, rfl⟩

section
variable (w : Answering) (s : State)
@[simp] theorem answerOvertaken_memory : (answerOvertaken w s).memory = s.memory := (answerOvertaken_outside w s).1
@[simp] theorem answerOvertaken_lines : (answerOvertaken w s).lines = s.lines := (answerOvertaken_outside w s).2.1
@[simp] theorem answerOvertaken_draws : (answerOvertaken w s).draws = s.draws := (answerOvertaken_outside w s).2.2.1
@[simp] theorem answerOvertaken_pending : (answerOvertaken w s).pending = s.pending := (answerOvertaken_outside w s).2.2.2
end

/-- The word at an offset of the alert window is formed without a change of the memory path, the enforcement unit or the setup and
command unit. -/
theorem answerRead_units (seen : State) (offset : Nat) (s : State) :
    (answerRead seen offset s).1.path = s.path ∧ (answerRead seen offset s).1.enf = s.enf ∧
      (answerRead seen offset s).1.setup = s.setup := by
  unfold answerRead
  split <;> first | exact ⟨rfl, rfl, rfl⟩ | exact ⟨by simp, by simp, by simp⟩

/-- The answer of an access that HALT has overtaken ends its wait and may complete it, and changes neither the enforcement unit
nor the setup and command unit. -/
theorem answerOvertaken_units (w : Answering) (s : State) :
    (∃ c, (answerOvertaken w s).path = { s.path with answering := none, completion := c }) ∧
      (answerOvertaken w s).enf = s.enf ∧ (answerOvertaken w s).setup = s.setup := by
  unfold answerOvertaken
  dsimp only
  generalize (s.setPath { s.path with answering := none }).seenBy w = r
  split
  · obtain ⟨h1, h2, h3⟩ := answerRead_units r ‹Nat› (s.setPath { s.path with answering := none })
    have hc : ∀ d (u : State), ∃ c, (answered w.access d u).path = { u.path with completion := c } := fun _ _ => ⟨_, rfl⟩
    obtain ⟨c, hc⟩ := hc (some (answerRead r ‹Nat› (s.setPath { s.path with answering := none })).2)
      (answerRead r ‹Nat› (s.setPath { s.path with answering := none })).1
    exact ⟨⟨c, hc.trans (by rw [h1]; rfl)⟩, h2, h3⟩
  · refine ⟨⟨some { access := w.access, data := none }, ?_⟩, by simp [answered], by simp [answered]⟩
    simp [answered]
  all_goals exact ⟨⟨s.path.completion, rfl⟩, rfl, rfl⟩

/-- The answer of the access that waits for one (R119, R131). -/
theorem finishAnswer_outside (s : State) : SameOutside s (finishAnswer s) := by
  unfold finishAnswer
  split
  · exact .refl s
  · exact answerOvertaken_outside _ s

section
variable (s : State)
@[simp] theorem finishAnswer_memory : (finishAnswer s).memory = s.memory := (finishAnswer_outside s).1
@[simp] theorem finishAnswer_lines : (finishAnswer s).lines = s.lines := (finishAnswer_outside s).2.1
@[simp] theorem finishAnswer_draws : (finishAnswer s).draws = s.draws := (finishAnswer_outside s).2.2.1
@[simp] theorem finishAnswer_pending : (finishAnswer s).pending = s.pending := (finishAnswer_outside s).2.2.2
end

/-- Once the access that waits for its answer, if any, is answered, none waits; the rest of the processor port stands. -/
theorem finishAnswer_units (s : State) :
    (∃ c, (finishAnswer s).path = { s.path with answering := none, completion := c }) ∧
      (finishAnswer s).enf = s.enf ∧ (finishAnswer s).setup = s.setup := by
  unfold finishAnswer
  split
  · next h => exact ⟨⟨s.path.completion, by rw [← h]⟩, rfl, rfl⟩
  · exact answerOvertaken_units _ s

/-- An access presented (R120). -/
theorem present_outside (a : Access) (s : State) : SameOutside s (present a s) := by
  unfold present
  split
  · exact arrive_outside a s
  · split
    · exact (answerOvertaken_outside _ s).trans (takePresented_outside _)
    · exact ⟨rfl, rfl, rfl, rfl⟩

section
variable (a : Access) (s : State)
@[simp] theorem present_memory : (present a s).memory = s.memory := (present_outside a s).1
@[simp] theorem present_lines : (present a s).lines = s.lines := (present_outside a s).2.1
@[simp] theorem present_draws : (present a s).draws = s.draws := (present_outside a s).2.2.1
@[simp] theorem present_pending : (present a s).pending = s.pending := (present_outside a s).2.2.2
end

/-- The release of the held access (R129). -/
theorem releaseHeld_outside (s : State) : SameOutside s (releaseHeld s) := by
  unfold releaseHeld
  split
  · exact .refl s
  · exact takeCourse_outside _ (s.setPath _)

section
variable (s : State)
@[simp] theorem releaseHeld_memory : (releaseHeld s).memory = s.memory := (releaseHeld_outside s).1
@[simp] theorem releaseHeld_lines : (releaseHeld s).lines = s.lines := (releaseHeld_outside s).2.1
@[simp] theorem releaseHeld_draws : (releaseHeld s).draws = s.draws := (releaseHeld_outside s).2.2.1
@[simp] theorem releaseHeld_pending : (releaseHeld s).pending = s.pending := (releaseHeld_outside s).2.2.2
end

/-- The end of a burst (R149). -/
theorem endBurst_outside (s : State) : SameOutside s (endBurst s) := by
  unfold endBurst
  exact ⟨by simp, by simp, by simp, by simp⟩

section
variable (s : State)
@[simp] theorem endBurst_memory : (endBurst s).memory = s.memory := (endBurst_outside s).1
@[simp] theorem endBurst_lines : (endBurst s).lines = s.lines := (endBurst_outside s).2.1
@[simp] theorem endBurst_draws : (endBurst s).draws = s.draws := (endBurst_outside s).2.2.1
@[simp] theorem endBurst_pending : (endBurst s).pending = s.pending := (endBurst_outside s).2.2.2
end

/-- The end of a broken cede (R145). -/
theorem endBrokenCede_outside (s : State) : SameOutside s (endBrokenCede s) := by
  unfold endBrokenCede
  exact ⟨by simp, by simp, by simp, by simp⟩

section
variable (s : State)
@[simp] theorem endBrokenCede_memory : (endBrokenCede s).memory = s.memory := (endBrokenCede_outside s).1
@[simp] theorem endBrokenCede_lines : (endBrokenCede s).lines = s.lines := (endBrokenCede_outside s).2.1
@[simp] theorem endBrokenCede_draws : (endBrokenCede s).draws = s.draws := (endBrokenCede_outside s).2.2.1
@[simp] theorem endBrokenCede_pending : (endBrokenCede s).pending = s.pending := (endBrokenCede_outside s).2.2.2
end

/-- Steps 1 and 2 of the end of the load (R153). -/
theorem leaveLoading_frame (s : State) :
    ∃ (alert : AlertUnit) (enf : EnforcementUnit) (setup : SetupUnit) (lamps : LampUnit) (mail : Mail),
      leaveLoading s = { s with alert := alert, enf := enf, setup := setup, lamps := lamps, mail := mail } := by
  obtain ⟨a, l, m, h⟩ := takeClearings_frame s
  unfold leaveLoading
  obtain ⟨u, m', h'⟩ := takeReports_frame (withdrawClaim ((takeClearings s).setEnf { (takeClearings s).enf with loadPosition := none }))
  dsimp only
  exact ⟨a, _, _, l, m', by rw [h', h]; rfl⟩

section
variable (s : State)
@[simp] theorem leaveLoading_memory : (leaveLoading s).memory = s.memory := by obtain ⟨_, _, _, _, _, h⟩ := leaveLoading_frame s; rw [h]
@[simp] theorem leaveLoading_path : (leaveLoading s).path = s.path := by obtain ⟨_, _, _, _, _, h⟩ := leaveLoading_frame s; rw [h]
@[simp] theorem leaveLoading_staging : (leaveLoading s).staging = s.staging := by obtain ⟨_, _, _, _, _, h⟩ := leaveLoading_frame s; rw [h]
@[simp] theorem leaveLoading_channels : (leaveLoading s).channels = s.channels := by obtain ⟨_, _, _, _, _, h⟩ := leaveLoading_frame s; rw [h]
@[simp] theorem leaveLoading_view : (leaveLoading s).view = s.view := by obtain ⟨_, _, _, _, _, h⟩ := leaveLoading_frame s; rw [h]
@[simp] theorem leaveLoading_time : (leaveLoading s).time = s.time := by obtain ⟨_, _, _, _, _, h⟩ := leaveLoading_frame s; rw [h]
@[simp] theorem leaveLoading_lines : (leaveLoading s).lines = s.lines := by obtain ⟨_, _, _, _, _, h⟩ := leaveLoading_frame s; rw [h]
@[simp] theorem leaveLoading_draws : (leaveLoading s).draws = s.draws := by obtain ⟨_, _, _, _, _, h⟩ := leaveLoading_frame s; rw [h]
@[simp] theorem leaveLoading_pending : (leaveLoading s).pending = s.pending := by obtain ⟨_, _, _, _, _, h⟩ := leaveLoading_frame s; rw [h]
end

/-- Step 3 of the end of the load (R153). -/
theorem queueEnforced_frame (s : State) :
    ∃ (enf : EnforcementUnit),
      queueEnforced s = { s with enf := enf } := by
  unfold queueEnforced
  split
  · exact ⟨_, rfl⟩
  · exact ⟨_, rfl⟩

section
variable (s : State)
@[simp] theorem queueEnforced_memory : (queueEnforced s).memory = s.memory := by obtain ⟨_, h⟩ := queueEnforced_frame s; rw [h]
@[simp] theorem queueEnforced_path : (queueEnforced s).path = s.path := by obtain ⟨_, h⟩ := queueEnforced_frame s; rw [h]
@[simp] theorem queueEnforced_staging : (queueEnforced s).staging = s.staging := by obtain ⟨_, h⟩ := queueEnforced_frame s; rw [h]
@[simp] theorem queueEnforced_channels : (queueEnforced s).channels = s.channels := by obtain ⟨_, h⟩ := queueEnforced_frame s; rw [h]
@[simp] theorem queueEnforced_alert : (queueEnforced s).alert = s.alert := by obtain ⟨_, h⟩ := queueEnforced_frame s; rw [h]
@[simp] theorem queueEnforced_view : (queueEnforced s).view = s.view := by obtain ⟨_, h⟩ := queueEnforced_frame s; rw [h]
@[simp] theorem queueEnforced_setup : (queueEnforced s).setup = s.setup := by obtain ⟨_, h⟩ := queueEnforced_frame s; rw [h]
@[simp] theorem queueEnforced_lamps : (queueEnforced s).lamps = s.lamps := by obtain ⟨_, h⟩ := queueEnforced_frame s; rw [h]
@[simp] theorem queueEnforced_time : (queueEnforced s).time = s.time := by obtain ⟨_, h⟩ := queueEnforced_frame s; rw [h]
@[simp] theorem queueEnforced_lines : (queueEnforced s).lines = s.lines := by obtain ⟨_, h⟩ := queueEnforced_frame s; rw [h]
@[simp] theorem queueEnforced_mail : (queueEnforced s).mail = s.mail := by obtain ⟨_, h⟩ := queueEnforced_frame s; rw [h]
@[simp] theorem queueEnforced_draws : (queueEnforced s).draws = s.draws := by obtain ⟨_, h⟩ := queueEnforced_frame s; rw [h]
@[simp] theorem queueEnforced_pending : (queueEnforced s).pending = s.pending := by obtain ⟨_, h⟩ := queueEnforced_frame s; rw [h]
end

/-- The end of the load (R153). -/
theorem endLoad_outside (b : Bool) (s : State) : SameOutside s (endLoad b s) := by
  unfold endLoad
  dsimp only
  split <;> exact ⟨by simp, by simp, by simp, by simp⟩

section
variable (b : Bool) (s : State)
@[simp] theorem endLoad_memory : (endLoad b s).memory = s.memory := (endLoad_outside b s).1
@[simp] theorem endLoad_lines : (endLoad b s).lines = s.lines := (endLoad_outside b s).2.1
@[simp] theorem endLoad_draws : (endLoad b s).draws = s.draws := (endLoad_outside b s).2.2.1
@[simp] theorem endLoad_pending : (endLoad b s).pending = s.pending := (endLoad_outside b s).2.2.2
end

/-- What follows in CEDED (R148, R149, R152). -/
theorem proceed_outside (s : State) : SameOutside s (proceed s) := by
  unfold proceed
  repeat' split
  all_goals exact ⟨by simp, by simp, by simp, by simp⟩

section
variable (s : State)
@[simp] theorem proceed_memory : (proceed s).memory = s.memory := (proceed_outside s).1
@[simp] theorem proceed_lines : (proceed s).lines = s.lines := (proceed_outside s).2.1
@[simp] theorem proceed_draws : (proceed s).draws = s.draws := (proceed_outside s).2.2.1
@[simp] theorem proceed_pending : (proceed s).pending = s.pending := (proceed_outside s).2.2.2
end

/-- The end of an access whose claim was dropped (R158). -/
theorem proceedAfterOrphan_outside (s : State) : SameOutside s (proceedAfterOrphan s) := by
  unfold proceedAfterOrphan
  repeat' split
  all_goals exact ⟨by simp, by simp, by simp, by simp⟩

section
variable (s : State)
@[simp] theorem proceedAfterOrphan_memory : (proceedAfterOrphan s).memory = s.memory := (proceedAfterOrphan_outside s).1
@[simp] theorem proceedAfterOrphan_lines : (proceedAfterOrphan s).lines = s.lines := (proceedAfterOrphan_outside s).2.1
@[simp] theorem proceedAfterOrphan_draws : (proceedAfterOrphan s).draws = s.draws := (proceedAfterOrphan_outside s).2.2.1
@[simp] theorem proceedAfterOrphan_pending : (proceedAfterOrphan s).pending = s.pending := (proceedAfterOrphan_outside s).2.2.2
end

/-- What follows the end of an own access. -/
theorem afterOwnAccess_outside (s : State) : SameOutside s (afterOwnAccess s) := by
  unfold afterOwnAccess
  repeat' split
  all_goals exact ⟨by simp, by simp, by simp, by simp⟩

section
variable (s : State)
@[simp] theorem afterOwnAccess_memory : (afterOwnAccess s).memory = s.memory := (afterOwnAccess_outside s).1
@[simp] theorem afterOwnAccess_lines : (afterOwnAccess s).lines = s.lines := (afterOwnAccess_outside s).2.1
@[simp] theorem afterOwnAccess_draws : (afterOwnAccess s).draws = s.draws := (afterOwnAccess_outside s).2.2.1
@[simp] theorem afterOwnAccess_pending : (afterOwnAccess s).pending = s.pending := (afterOwnAccess_outside s).2.2.2
end

/-- The load goes on (R152). -/
theorem advanceLoad_outside (b : Bool) (c : Chan) (s : State) : SameOutside s (advanceLoad b c s) := by
  unfold advanceLoad
  repeat' split
  all_goals exact ⟨by simp, by simp, by simp, by simp⟩

section
variable (b : Bool) (c : Chan) (s : State)
@[simp] theorem advanceLoad_memory : (advanceLoad b c s).memory = s.memory := (advanceLoad_outside b c s).1
@[simp] theorem advanceLoad_lines : (advanceLoad b c s).lines = s.lines := (advanceLoad_outside b c s).2.1
@[simp] theorem advanceLoad_draws : (advanceLoad b c s).draws = s.draws := (advanceLoad_outside b c s).2.2.1
@[simp] theorem advanceLoad_pending : (advanceLoad b c s).pending = s.pending := (advanceLoad_outside b c s).2.2.2
end

/-- The burst or load begins (R144). -/
theorem beginCeded_outside (s : State) : SameOutside s (beginCeded s) := by
  unfold beginCeded
  split
  · exact .refl s
  · exact proceed_outside s

section
variable (s : State)
@[simp] theorem beginCeded_memory : (beginCeded s).memory = s.memory := (beginCeded_outside s).1
@[simp] theorem beginCeded_lines : (beginCeded s).lines = s.lines := (beginCeded_outside s).2.1
@[simp] theorem beginCeded_draws : (beginCeded s).draws = s.draws := (beginCeded_outside s).2.2.1
@[simp] theorem beginCeded_pending : (beginCeded s).pending = s.pending := (beginCeded_outside s).2.2.2
end

/-- Power reset of every block (R162). -/
theorem resetBlocks_outside (s : State) : SameOutside s (resetBlocks s) := ⟨rfl, rfl, rfl, rfl⟩

section
variable (s : State)
@[simp] theorem resetBlocks_memory : (resetBlocks s).memory = s.memory := (resetBlocks_outside s).1
@[simp] theorem resetBlocks_lines : (resetBlocks s).lines = s.lines := (resetBlocks_outside s).2.1
@[simp] theorem resetBlocks_draws : (resetBlocks s).draws = s.draws := (resetBlocks_outside s).2.2.1
@[simp] theorem resetBlocks_pending : (resetBlocks s).pending = s.pending := (resetBlocks_outside s).2.2.2
end

/-- The release of power reset (R163). -/
theorem releasePower_outside (straps : Straps) (s : State) : SameOutside s (releasePower straps s) := by
  unfold releasePower
  exact ⟨by simp, by simp, by simp, by simp⟩

section
variable (straps : Straps) (s : State)
@[simp] theorem releasePower_memory : (releasePower straps s).memory = s.memory := (releasePower_outside straps s).1
@[simp] theorem releasePower_lines : (releasePower straps s).lines = s.lines := (releasePower_outside straps s).2.1
@[simp] theorem releasePower_draws : (releasePower straps s).draws = s.draws := (releasePower_outside straps s).2.2.1
@[simp] theorem releasePower_pending : (releasePower straps s).pending = s.pending := (releasePower_outside straps s).2.2.2
end

end Sys2Proof.Machine
end

