-- ==== Sys2Proof/Laws/Operations.lean ====
section
/-! SUPPORT. One lemma for each shared operation that says once everything it can do, in the words of Safety.lean. -/

namespace Sys2Proof.Machine

/-! ## The ports -/

/-- The arrival of an access that stayed presented (R120, R131). -/
theorem takePresented_arrived (u : State) : Arrived u (takePresented u) := by
  constructor
  · rintro (h | h)
    · simp [takePresented, h]
    · unfold takePresented; cases u.path.presented <;> simp [h]
  · intro a ha ht
    have ht' : State.portTakes { u with path := { u.path with presented := none } } = true := ht
    simp only [exec, execForward, present, ht', takePresented, ha, ht, if_true]
    rfl

/-- The release of the held access (R129). -/
theorem releaseHeld_released (u : State) : Released u (releaseHeld u) := by
  unfold releaseHeld
  constructor
  · intro h; rw [h]
  · intro a h; rw [h]; rfl

/-- The release of the held access, and then the arrival of one that stayed presented. -/
theorem takePresented_releaseHeld_returned (u : State) : BusReturned u (takePresented (releaseHeld u)) :=
  ⟨_, releaseHeld_released u, takePresented_arrived _⟩

/-- The completion of an access that memory has ended (R120, R171). -/
theorem completeEnded_completed (u : State) : Completed u (completeEnded u) := by
  unfold completeEnded
  constructor
  · intro p hp he hw
    rw [hp]
    have : p.ended = true ∧ ¬(p.awaitsHalt = true ∧ u.haltPending = true) :=
      ⟨he, by rcases hw with hw | hw <;> rw [hw] <;> simp⟩
    simp only [if_pos this]; rfl
  · intro hn
    split
    · rename_i p hp
      have : ¬(p.ended = true ∧ ¬(p.awaitsHalt = true ∧ u.haltPending = true)) := by
        rcases hn p hp with h | h
        · rw [h]; simp
        · simp [h.1, h.2]
      simp only [if_neg this]
    · rfl

/-- The outputs of the memory port for an access (R121, R183). -/
theorem drive_eq (p : PortAccess) (l : PortLines) : p.drive l = p.outputs l := by
  rcases p with (_ | _) | _ | _ <;> rfl

/-- An access goes to the memory port (R120, R121). -/
theorem serve_served (a toMemory : Access) (awaitsHalt : Bool) (s : State) :
    Served a toMemory awaitsHalt s (serve a toMemory awaitsHalt s) := by
  unfold serve Served PathUnit.offer
  cases h : s.path.port <;> simp [drive_eq]

theorem serve_only (a toMemory : Access) (awaitsHalt : Bool) (s : State) :
    serve a toMemory awaitsHalt s = { s with path := (serve a toMemory awaitsHalt s).path } := rfl

/-- An access of the enforcement unit's own is offered to the memory port (R121). -/
theorem offer_offered (p : PortAccess) (u : State) : Offered p u (u.setPath (u.path.offer p)) := by
  refine ⟨rfl, ?_, ?_⟩
  · intro h; simp [PathUnit.offer, h, drive_eq]
  · intro h
    cases h' : u.path.port with
    | none => exact absurd h' h
    | some q => simp [PathUnit.offer, h']

/-- An access presented while the port takes accesses and the bus is not ceded takes its course (R120, R124). -/
theorem present_taking (a : Access) (s : State) (h : s.Taking) : present a s = takeCourse a s := by
  simp [present, h.1, arrive, h.2]

/-- The end of an access at the memory port (R121). -/
theorem portEnded_eq (u : PathUnit) :
    u.portEnded = { u with port := u.waiting, waiting := none, lines := u.outputsAfter } := by
  unfold PathUnit.portEnded PathUnit.outputsAfter
  cases h : u.waiting with
  | none => rcases u with ⟨_, _, _, _, _, _, _, _, _⟩; simp_all
  | some p => simp [drive_eq]

/-! ## Claims, stalls and restores -/

/-- Raising a claim (R143). -/
theorem claimIfAllowed_claims (u : State) : Claims u (claimIfAllowed u) := by
  unfold claimIfAllowed State.claimPurpose Claims State.MayClaim
  constructor
  · intro p h hw
    rw [if_pos h]
    cases p with
    | burst =>
      obtain ⟨h1 | h1, h2⟩ := hw <;> simp [h1, h2] <;> rfl
    | load =>
      obtain ⟨h1, h2⟩ := hw
      simp [h1, Option.isSome_iff_ne_none, h2]; rfl
  · intro h
    by_cases hm : u.enf.claim = .idle ∧ u.lines.busrst = false ∧ u.lines.cede = false
    · rw [if_pos hm]
      have hw : ∀ p, ¬u.Work p := fun p hp => h ⟨hm, p, hp⟩
      have hb := hw .burst
      have hl := hw .load
      simp only [State.Work] at hb hl
      cases hpart : u.setup.part <;> simp [hpart] at hb hl ⊢ <;> simp [hb, hl]
    · rw [if_neg hm]

theorem restoreDue_iff (u : State) : u.restoreDue = true ↔ u.Restored := by
  simp [State.restoreDue, State.haltPending, State.Restored, and_assoc]

/-- The restore-done report (R156). -/
theorem reportIfRestored_reports (u : State) : ReportsRestore u (reportIfRestored u) := by
  unfold ReportsRestore reportIfRestored
  constructor
  · intro h; rw [if_pos ((restoreDue_iff u).2 h)]; rfl
  · intro h; rw [if_neg (fun h' => h ((restoreDue_iff u).1 h'))]

/-- The end of a stall (R147). -/
theorem endStall_eq (u : State) : endStall u = u.stallEnded := by
  unfold endStall State.stallEnded
  cases h : u.enf.stalled
  · rcases u with ⟨_, _, _, _, _, _, ⟨_, _, _, _, _, _, _, _, _, _⟩, _, _, _, _, _, _, _⟩
    simp_all
  · by_cases hp : u.setup.part = .active <;>
      simp [hp, State.sendStall, State.sendToSetup, State.setMail, State.setEnf]

theorem withdrawClaim_eq (u : State) : withdrawClaim u = { u with enf := u.enf.withdrawn u.lines.cede } := rfl

/-- Reports without a restore-done report, taken in their order (R174). -/
theorem takeEach_eq (ms : List ToSetup) : ∀ s : State, ToSetup.restoreDone ∉ ms →
    takeEach ms s = s.setSetup { s.setup with stalledFlag := flagAfter ms s.setup.stalledFlag } := by
  induction ms with
  | nil => intro s _; rfl
  | cons m rest ih =>
    intro s h
    simp only [List.mem_cons, not_or] at h
    cases m with
    | restoreDone => exact absurd rfl h.1
    | stall => exact ih _ h.2
    | stallEnd => exact ih _ h.2

theorem takeEach_append (ms ns : List ToSetup) : ∀ s : State, takeEach (ms ++ ns) s = takeEach ns (takeEach ms s) := by
  induction ms with
  | nil => intro s; rfl
  | cons m rest ih => intro s; exact ih (takeReport m s)

/-- Reports of any kind, taken in their order: beside the stalled flag they change at most what ends RELEASING. -/
theorem takeEach_frame_setup (ms : List ToSetup) : ∀ s : State, ∃ part result busy,
    takeEach ms s = s.setSetup { s.setup with
      part := part, result := result, busyFlag := busy, stalledFlag := flagAfter ms s.setup.stalledFlag } := by
  induction ms with
  | nil => intro s; exact ⟨s.setup.part, s.setup.result, s.setup.busyFlag, rfl⟩
  | cons m rest ih =>
    intro s
    obtain ⟨part, result, busy, h⟩ := ih (takeReport m s)
    cases m with
    | stall | stallEnd => exact ⟨part, result, busy, h⟩
    | restoreDone =>
      refine ⟨part, result, busy, h.trans ?_⟩
      by_cases hp : s.setup.part = .releasing
      · rw [takeReport, if_pos hp]; rfl
      · rw [takeReport, if_neg hp]; rfl

/-- The load-done report after the reports before it on its path (R153, R174). -/
theorem loadDone_takeReports (s : State) :
    loadDone (takeReports s) = { s with
      mail := { s.mail with toSetup := [] }
      setup := { s.setup with
        part := .active, result := .done, busyFlag := false
        stalledFlag := flagAfter s.mail.toSetup s.setup.stalledFlag } } := by
  unfold takeReports
  obtain ⟨part, result, busy, h⟩ := takeEach_frame_setup s.mail.toSetup (s.setMail { s.mail with toSetup := [] })
  rw [h]
  rfl

/-- Steps 1 and 2 of the end of the load (R153, R174). -/
theorem leaveLoading_eq (s : State) :
    leaveLoading s = { takeClearings s with
      enf := EnforcementUnit.withdrawn s.lines.cede { s.enf with loadPosition := none }
      mail := { (takeClearings s).mail with toSetup := [] }
      setup := { s.setup with
        part := .active, result := .done, busyFlag := false
        stalledFlag := flagAfter s.mail.toSetup s.setup.stalledFlag } } := by
  have h : (takeClearings s).mail.toSetup = s.mail.toSetup := by unfold takeClearings; split <;> rfl
  rw [← takeClearings_enf s, ← takeClearings_setup s, ← takeClearings_lines s, ← h]
  unfold leaveLoading
  dsimp only
  rw [loadDone_takeReports]
  rfl

/-- A held gain write (R127). -/
theorem holdsGainWrite_iff (s : State) : s.holdsGainWrite = true ↔ s.HoldsGainWrite := by
  unfold State.holdsGainWrite State.HoldsGainWrite
  cases s.path.held with
  | none => simp
  | some a =>
    rw [Option.map_some]
    cases h : s.classify a <;> simp [h]

/-- The end of RELEASING with the event that ends it (R129, R156, R171). -/
theorem endRestore_ended (u : State) : RestoreEnded u (endRestore u) := by
  unfold RestoreEnded endRestore
  constructor
  · intro h
    rw [if_pos ((restoreDue_iff u).2 h)]
    show takeEach (u.mail.toSetup ++ [.restoreDone]) _ = _
    rw [takeEach_append, takeEach_eq _ _ h.2.2.2.2]
    exact if_pos (c := u.setup.part = .releasing) h.1
  · intro h; rw [if_neg (fun h' => h ((restoreDue_iff u).1 h'))]

/-- The end of a broken cede (R129, R145, R154, R156). -/
theorem endBrokenCede_ended (u : State) : BrokenCedeEnded u (endBrokenCede u) :=
  ⟨_, _, _, endRestore_ended _, releaseHeld_released _, claimIfAllowed_claims _, takePresented_arrived _⟩

theorem endBurst_returned (u : State) : BusReturned { u with enf := u.enf.withdrawn u.lines.cede } (endBurst u) :=
  takePresented_releaseHeld_returned _

/-! ## The rewrite queue and the stored word -/

theorem addToQueue_joins (c : Chan) (q : List Chan) : Joins [c] q (addToQueue c q) := by
  unfold Joins addToQueue
  by_cases h : c ∈ q <;> simp [h]

/-- Several channels, none twice, join at the tail, each only if absent (R137). -/
theorem addAllToQueue_joins (cs : List Chan) : ∀ q : List Chan, cs.Nodup → Joins cs q (addAllToQueue cs q) := by
  induction cs with
  | nil => intro q _; simp [Joins, addAllToQueue]
  | cons c cs ih =>
    intro q h
    obtain ⟨hc, hn⟩ := List.nodup_cons.1 h
    have := ih (addToQueue c q) hn
    unfold Joins at this ⊢
    rw [addAllToQueue, this]
    have e : ∀ d ∈ cs, (!(addToQueue c q).contains d) = !q.contains d := by
      intro d hd
      have : d ≠ c := by rintro rfl; exact hc hd
      unfold addToQueue
      by_cases hq : c ∈ q <;> simp [hq, this]
    rw [List.filter_congr e]
    by_cases hq : c ∈ q <;> simp [addToQueue, hq]

theorem finRange_filter_nodup (p : Chan → Bool) : ((List.finRange 64).filter p).Nodup :=
  (List.nodup_finRange 64).filter _

/-- Step 3 of the end of the load (R153). -/
theorem queueEnforced_queued (s : State) : EnforcedQueued s (queueEnforced s) := by
  unfold EnforcedQueued queueEnforced
  by_cases h : s.mode = .enforce
  · rw [if_pos h]
    exact ⟨_, rfl, fun _ => addAllToQueue_joins _ _ (finRange_filter_nodup _), fun h' => absurd h h'⟩
  · rw [if_neg h]
    exact ⟨_, rfl, fun h' => absurd h' h, fun _ => rfl⟩

/-- The effective gain word (R134). -/
theorem effectiveWord_stored (s : State) (c : Chan) : s.StoredWord c s.enf.intended[c] (s.effectiveWord c) := by
  unfold State.StoredWord State.effectiveWord State.muteApplied ChannelRecord.enforced
  constructor
  · rintro ⟨h1, h2, h3, h4⟩
    have : (s.channels[c].chairCause || s.channels[c].floorCause || s.channels[c].squelchCause) = true := by
      rcases h4 with h | h | h <;> rw [h] <;> simp
    simp only [h1, h2, h3, this]; rfl
  · intro h
    rw [if_neg]
    intro h'
    simp only [Bool.and_eq_true, decide_eq_true_eq, Bool.or_eq_true] at h'
    exact h ⟨h'.1.1, h'.1.2, h'.2.1, or_assoc.1 h'.2.2⟩

/-- HALT at the enforcement unit (R155). -/
theorem takeHalt_taken (s : State) : HaltTaken s (takeHalt s) := by
  unfold HaltTaken takeHalt
  refine ⟨if s.mode = .enforce then addAllToQueue s.workingChannels s.enf.queue else s.enf.queue, _,
    fun h => ?_, fun h => ?_, ?_, claimIfAllowed_claims _⟩
  · rw [if_pos h]; exact addAllToQueue_joins _ _ (finRange_filter_nodup _)
  · rw [if_neg h]
  · have of_eq : ∀ u v : State, v = u → RestoreEnded u (endRestore v) := fun u v h => h ▸ endRestore_ended u
    apply of_eq
    obtain ⟨_, _, _, _, _, _, ⟨_, _, _, _, _, _, _, _, _, _⟩, _, _, _, _, _, _, _⟩ := s
    split <;> split <;> simp_all [State.dropToEnforcement, State.sendToSetup, State.setQueue, State.setMail, State.setEnf]

theorem takeSetupChange_toEnforcement (old new : SetupWords) (s : State) :
    (takeSetupChange old new s).mail.toEnforcement = s.mail.toEnforcement.tail := by
  unfold takeSetupChange
  dsimp only
  split
  · rw [claimIfAllowed_mail]; rfl
  · rfl

/-- The channels whose silence a changed mute code may change (R63). -/
theorem muteCodeCrossings_eq (old new : SetupWords) (v : Vector Word 64) :
    muteCodeCrossings old new v = (List.finRange 64).filter fun c => new.enrols c &&
      (decide ((v[c].extractLsb' 0 8).toNat ≤ old.muteCode) != decide ((v[c].extractLsb' 0 8).toNat ≤ new.muteCode)) := by
  have h : ∀ (a b : Nat) (w : Word), decide (gainSilent a w ≠ gainSilent b w) =
      (decide ((w.extractLsb' 0 8).toNat ≤ a) != decide ((w.extractLsb' 0 8).toNat ≤ b)) := by
    intro a b w
    show decide (decide ((w.extractLsb' 0 8).toNat ≤ a) ≠ decide ((w.extractLsb' 0 8).toNat ≤ b)) = _
    cases decide ((w.extractLsb' 0 8).toNat ≤ a) <;> cases decide ((w.extractLsb' 0 8).toNat ≤ b) <;> rfl
  unfold muteCodeCrossings allChannels
  simp only [h]

/-- A setup change at the enforcement unit (R139). -/
theorem takeSetupChange_taken (old new : SetupWords) (s : State) : SetupChangeTaken old new s (takeSetupChange old new s) := by
  have hq : setupChangeQueues s.path.straps old new = true ↔
      (old.effectiveMode s.path.straps ≠ new.effectiveMode s.path.straps ∨
        (old.effectiveMode s.path.straps = .enforce ∧ old.muteCode ≠ new.muteCode)) := by
    simp [setupChangeQueues]
  unfold takeSetupChange
  simp only [muteCodeCrossings_eq]
  refine ⟨_, rfl, fun h => ?_, fun h => ?_⟩
  · rw [if_pos (hq.2 h)]
    exact ⟨_, addAllToQueue_joins _ _ (finRange_filter_nodup _), claimIfAllowed_claims _⟩
  · exact if_neg fun h' => h (hq.1 h')

/-- The requests before HALT, and HALT (R139, R155). -/
theorem takeUntilHalt_reached (ms : List ToEnforcement) : ∀ s : State, s.mail.toEnforcement = ms →
    HaltReached ms s (takeUntilHalt ms s) := by
  induction ms with
  | nil => intro s _; rfl
  | cons m rest ih =>
    intro s h
    cases m with
    | loadRequest => rfl
    | halt => exact takeHalt_taken s
    | setupChange old new =>
      refine ⟨takeSetupChange old new s, takeSetupChange_taken old new s, ih _ ?_⟩
      rw [takeSetupChange_toEnforcement, h]; rfl

/-- The notices taken, each by its row (R138). -/
theorem takeNotices_taken (ms : List Notice) : ∀ s : State, s.mail.notices = ms →
    NoticesTaken ms s (takeNotices ms s) ∧ (takeNotices ms s).mail.toEnforcement = s.mail.toEnforcement := by
  induction ms with
  | nil => intro s _; exact ⟨rfl, rfl⟩
  | cons m rest ih =>
    intro s h
    have hn : (queueUnderEnforce m.channel s.dropNotice).mail.notices = rest := by
      rw [queueUnderEnforce_mail]; show s.mail.notices.tail = rest; rw [h]; rfl
    obtain ⟨h1, h2⟩ := ih _ hn
    refine ⟨⟨queueUnderEnforce m.channel s.dropNotice, ?_, h1⟩, h2.trans ?_⟩
    · cases m with
      | causeChange c => show execCauseChangeNotice s = _; rw [execCauseChangeNotice, h]; rfl
      | enrolment c => show execEnrolmentChange s = _; rw [execEnrolmentChange, h]; rfl
    · rw [queueUnderEnforce_mail]; rfl

/-- A HALT write in progress brought to its result (R175). -/
theorem finishHalt_finished (s : State) :
    (ToEnforcement.halt ∉ s.mail.toEnforcement → finishHalt s = s) ∧
    (ToEnforcement.halt ∈ s.mail.toEnforcement →
      ∃ n v, NoticesTaken s.mail.notices s n ∧ HaltReached s.mail.toEnforcement n v ∧ Completed v (finishHalt s)) := by
  obtain ⟨h1, h2⟩ := takeNotices_taken s.mail.notices s rfl
  unfold finishHalt State.haltPending
  exact ⟨fun h => if_neg (by simpa using h), fun h => by
    rw [if_pos (by simpa using h)]
    exact ⟨_, _, h1, takeUntilHalt_reached _ _ h2, completeEnded_completed _⟩⟩

/-- What a notice finds at the unit (R138, R139, R155). -/
theorem queueUnderEnforce_iff (s : State) : (s.noticeInSession = true ∧ s.noticeUnderEnforce = true) ↔
    (s.setup.part = .active ∨ ToEnforcement.halt ∈ s.mail.toEnforcement) ∧ s.FindsEnforce := by
  have h : ∀ m : ToEnforcement, m.endsEnforce s.path.straps = true ↔
      ∃ old new, m = .setupChange old new ∧ old.effectiveMode s.path.straps = .enforce := by
    intro m; cases m <;> simp [ToEnforcement.endsEnforce]
  unfold State.noticeInSession State.noticeUnderEnforce State.haltPending State.FindsEnforce
  simp only [Bool.or_eq_true, decide_eq_true_eq, List.any_eq_true, h]
  refine and_congr_right fun _ => or_congr_right ⟨?_, ?_⟩
  · rintro ⟨m, hm, old, new, rfl, ho⟩; exact ⟨old, new, hm, ho⟩
  · rintro ⟨old, new, hm, ho⟩; exact ⟨_, hm, old, new, rfl, ho⟩

/-- A membership change yet to de-enrol a channel (R11). -/
theorem deEnrolling_iff (c : Chan) (s : State) : s.deEnrolling c = true ↔ s.DeEnrolling c := by
  have h : ∀ m : ToEvaluator, m.deEnrols c = true ↔ ∃ w next, m = .membership w next ∧ next ≤ c ∧ w.enrols c = false := by
    intro m; cases m <;> simp [ToEvaluator.deEnrols]
  unfold State.deEnrolling State.DeEnrolling
  simp only [Bool.and_eq_true, List.any_eq_true, h]
  refine and_congr_right fun _ => ⟨?_, ?_⟩
  · rintro ⟨m, hm, w, next, rfl, h⟩; exact ⟨w, next, hm, h⟩
  · rintro ⟨w, next, hm, h⟩; exact ⟨_, hm, w, next, rfl, h⟩

/-- An enrolment change still to be taken (R11). -/
theorem enrolmentOwed_iff (c : Chan) (s : State) : s.enrolmentOwed c = true ↔ s.EnrolmentOwed c := by
  unfold State.enrolmentOwed State.EnrolmentOwed
  simp only [Bool.or_eq_true, decide_eq_true_eq, deEnrolling_iff]

/-- A switch that waits (R138, R141). -/
theorem switchWaits_iff (old new : SetupWords) (s : State) : s.switchWaits old new = true ↔ s.SwitchWaits old new := by
  unfold State.switchWaits State.SwitchWaits
  simp only [Bool.and_eq_true, decide_eq_true_eq, List.any_eq_true, enrolmentOwed_iff, Bool.not_eq_true', Bool.or_eq_false_iff,
    and_assoc]
  simp [allChannels]

/-- HALT that waits (R138, R141, R155). -/
theorem haltWaits_iff (s : State) : s.haltWaits = true ↔ s.HaltWaits := by
  unfold State.haltWaits State.HaltWaits
  simp only [Bool.and_eq_true, decide_eq_true_eq, List.any_eq_true, enrolmentOwed_iff, Bool.not_eq_true']
  simp [allChannels]

/-- The evaluator caught up with the requests that wait (R11, R56). -/
theorem takeRequests_caughtUp (ms : List ToEvaluator) : ∀ s : State, s.mail.toEvaluator = ms →
    CaughtUp s (takeRequests ms s) := by
  have event : ∀ w c (s : State), (membershipEvent w c s).mail.toEvaluator = s.mail.toEvaluator := by
    intro w c s; unfold membershipEvent; dsimp only; split
    · rfl
    · rfl
    · split <;> rfl
    · rfl
  have go : ∀ (w : SetupWords) (rest : List ToEvaluator) (t : State) (n : Nat) (c : Chan), 64 - c.val = n →
      ∀ s : State, s.mail.toEvaluator = .membership w c :: rest →
        (sweepMembership w (allChannels.drop c.val) rest s).mail.toEvaluator = rest ∧
        (CaughtUp (sweepMembership w (allChannels.drop c.val) rest s) t → CaughtUp s t) := by
    intro w rest t n
    induction n with
    | zero => intro c hc; have := c.isLt; omega
    | succ n ih =>
      intro c hc s hs
      have hd : allChannels.drop c.val = c :: allChannels.drop (c.val + 1) := by
        unfold allChannels
        rw [List.drop_eq_getElem_cons (by simp)]
        simp
      have hx : exec .membershipChange s = .next (takeMembership w c rest s) := by
        show execMembershipChange s = _; rw [execMembershipChange, hs]
      rw [hd, sweepMembership]
      by_cases h : c.val + 1 < 64
      · have hm : (takeMembership w c rest s).mail.toEvaluator = .membership w ⟨c.val + 1, h⟩ :: rest := by
          rw [takeMembership, event]
          show membershipAfter w c rest = _
          simp [membershipAfter, nextChannel, h]
        obtain ⟨h1, h2⟩ := ih ⟨c.val + 1, h⟩ (by simp; omega) _ hm
        exact ⟨h1, fun h3 => .membership hs hx (h2 h3)⟩
      · have hm : (takeMembership w c rest s).mail.toEvaluator = rest := by
          rw [takeMembership, event]
          show membershipAfter w c rest = _
          simp [membershipAfter, nextChannel, h]
        have he : allChannels.drop (c.val + 1) = [] := by
          unfold allChannels; exact List.drop_eq_nil_of_le (by simp; omega)
        rw [he]
        exact ⟨hm, fun h3 => .membership hs hx h3⟩
  induction ms with
  | nil => intro s h; exact .done (by simp [h]) (by simp [h])
  | cons m rest ih =>
    intro s h
    cases m with
    | tableReset c => exact .done (by simp [h]) (by simp [h])
    | chair c set =>
      have hx : exec .chairRequest s = .next (takeChair c set rest s) := by
        show execChairRequest s = _; rw [execChairRequest, h]
      refine .chair h hx (ih _ ?_)
      unfold takeChair; dsimp only; split <;> rfl
    | membership w c =>
      obtain ⟨h1, h2⟩ := go w rest (takeRequests rest (sweepMembership w (allChannels.drop c.val) rest s)) _ c rfl s h
      exact h2 (ih _ h1)

/-- What the unit does in CEDED (R145, R148, R149, R152, R154). -/
theorem proceed_proceeds (u : State) : Proceeds u (proceed u) := by
  unfold proceed Proceeds
  refine ⟨fun h => ?_, fun h hp c hc => ?_, fun h hp => ⟨fun c rest hq hn => ?_, fun hq => ?_⟩⟩
  · rw [if_pos h]; exact endBrokenCede_ended u
  · rw [if_neg (by simp [h]), hp, hc]
    exact ⟨_, fun b hb => by rw [hb]; rfl, offer_offered _ _⟩
  · rw [if_neg (by simp [h]), hp, hq]
    exact ⟨(u.path.bases.map (·.gain)).getD 0, _, fun b hb => by rw [hb]; rfl, effectiveWord_stored u c, by
      simp only [Config.burstLimit, hn, if_true]; exact offer_offered _ (u.setQueue rest)⟩
  · rw [if_neg (by simp [h]), hp]
    cases hl : u.enf.queue with
    | nil => exact endBurst_returned u
    | cons c rest =>
      have hn : ¬u.enf.burstCount < 64 := by
        rcases hq with hq | hq
        · simp [hl] at hq
        · omega
      simp only [Config.burstLimit, hn, if_false]
      exact endBurst_returned u

/-! ## The answer of an access that HALT has overtaken (R119) -/

/-- An event of the alert list sees nothing of the memory path. -/
theorem listEventIfActive_setPath (f : AlertUnit → AlertUnit) (s : State) (v : PathUnit) :
    listEventIfActive f (s.setPath v) = (listEventIfActive f s).setPath v := by
  unfold listEventIfActive
  rw [State.setPath_setup]
  split <;> rfl

/-- The word at an offset of the alert window, and what its read changes, see nothing of the memory path but the straps. -/
theorem answerRead_setPath (r : State) (u : PathUnit) (o : Nat) (s : State) (v : PathUnit) (hv : u.straps = r.path.straps) :
    answerRead (r.setPath u) o (s.setPath v) = ((answerRead r o s).1.setPath v, (answerRead r o s).2) := by
  have hm : (r.setPath u).mode = r.mode := by unfold State.mode; rw [State.setPath_path, hv]; rfl
  have hh : ∀ n, headerWord (r.setPath u) n = headerWord r n := by
    intro n; unfold headerWord; rw [hm]; rfl
  unfold answerRead
  split
  · rfl
  · rw [hh]
  · next i _ =>
    refine Prod.ext ?_ rfl
    show deliverReadMark r.view.entries[i] (s.setPath v) = (deliverReadMark r.view.entries[i] s).setPath v
    cases r.view.entries[i] with
    | none => rfl
    | some x => exact listEventIfActive_setPath _ _ _
  all_goals rfl

/-- A write to the alert window sees nothing of the memory path. -/
theorem answerWrite_setPath (r : State) (u : PathUnit) (o : Nat) (w : Word) (s : State) (v : PathUnit) :
    answerWrite (r.setPath u) o w (s.setPath v) = (answerWrite r o w s).setPath v := by
  unfold answerWrite
  split
  · exact listEventIfActive_setPath _ _ _
  all_goals rfl

/-- The answer of an access that HALT has overtaken sees nothing of the access that stays presented. -/
theorem answerOvertaken_setPresented (w : Answering) (s : State) (p : Option Access) :
    answerOvertaken w (s.setPath { s.path with presented := p }) =
      (answerOvertaken w s).setPath { (answerOvertaken w s).path with presented := p } := by
  have hs : ∀ v : PathUnit, (s.setPath v).seenBy w = (s.seenBy w).setPath v := fun _ => rfl
  unfold answerOvertaken
  dsimp only [State.setPath_path]
  split
  · rename_i n _
    have h : ∀ v : PathUnit, v.straps = s.path.straps → answerRead ((s.setPath v).seenBy w) n (s.setPath v) =
        ((answerRead (s.seenBy w) n s).1.setPath v, (answerRead (s.seenBy w) n s).2) := fun v hv =>
      answerRead_setPath (s.seenBy w) v n s v hv
    show answered w.access (some (answerRead ((s.setPath _).seenBy w) n (s.setPath _)).2)
      (answerRead ((s.setPath _).seenBy w) n (s.setPath _)).1 = _
    rw [h { s.path with presented := p, answering := none } rfl, h { s.path with answering := none } rfl]
    rfl
  · rename_i n x _
    show answered w.access none (answerWrite ((s.setPath _).seenBy w) n x (s.setPath _)) = _
    rw [hs, hs, answerWrite_setPath, answerWrite_setPath]
    rfl
  all_goals rfl

/-- An access that waits for its answer and is presented again is answered, and one that stayed presented arrives (R119). -/
theorem present_answering {w : Answering} {s : State} (h : s.path.answering = some w) (hr : s.powerReset = false)
    (hb : s.lines.busrst = false) : present w.access s = takePresented (answerOvertaken w s) := by
  have h1 : s.portTakes = false := by simp [State.portTakes, h]
  have h2 : s.awaitedAnswer w.access = some w := by simp [State.awaitedAnswer, h, hr, hb]
  rw [present, h1, h2]
  rfl

/-- An access that is not the one that waits for its answer, or comes during a reset, stays presented if the port takes none. -/
theorem present_stays {a : Access} {s : State} (h : s.portTakes = false)
    (ha : (∀ w, s.path.answering = some w → w.access ≠ a) ∨ s.powerReset = true ∨ s.lines.busrst = true) :
    present a s = s.setPath { s.path with presented := some a } := by
  have h2 : s.awaitedAnswer a = none := by
    unfold State.awaitedAnswer
    rcases ha with h | h | h
    · cases hw : s.path.answering with
      | none => simp
      | some w => simp [h w hw]
    · simp [h]
    · simp [h]
  rw [present, h, h2]
  rfl

/-- HALT presents its write; `answering` may leave one access waiting for its answer, and changes nothing else (R119). -/
theorem execHalt_presents (low : BitVec 8) (s : State) (answering : Option Overtaken) :
    ∃ o, execHalt low s answering =
      .next ((present (.write (pastBase (setupBase s.path.straps) 36) (0x03#8 ++ low)) s).setPath
        { (present (.write (pastBase (setupBase s.path.straps) 36) (0x03#8 ++ low)) s).path with answering := o }) := by
  cases answering with
  | none => exact ⟨(present (.write (pastBase (setupBase s.path.straps) 36) (0x03#8 ++ low)) s).path.answering, rfl⟩
  | some a =>
    unfold execHalt
    simp only
    split
    · exact ⟨some (Answering.of a s), rfl⟩
    · exact ⟨(present (.write (pastBase (setupBase s.path.straps) 36) (0x03#8 ++ low)) s).path.answering, rfl⟩

/-! ## Events of the alert list unit and the lamps -/

theorem takeMode_mode (m : LampMode) (l : LampState) : (l.takeMode m).mode = m := by
  unfold LampState.takeMode
  split
  · next h => exact h.symm
  · rfl

/-- A lamp takes a derived mode (R176, R178). -/
theorem takeMode_taken (m : LampMode) (l : LampState) : LampTaken l (l.takeMode m) := by
  unfold LampTaken LampState.takeMode
  by_cases h : m = l.mode
  · simp only [if_pos h, true_and, implies_true]
    exact fun h' => absurd rfl h'
  · simp only [if_neg h]
    refine ⟨fun h' => absurd h' h, fun _ => ?_⟩
    cases hp : l.pending <;> cases hu : l.inUse <;> simp [LampState.patternsAtBoundary, hp, hu]

theorem derive_taken (list : List AlertEntry) (u : LampUnit) (l : Lamp) : LampTaken (u.get l) ((u.derive list).get l) := by
  cases l <;> exact takeMode_taken _ _

/-- An event of the alert list unit (R84, R176). -/
theorem listEvent_onlyAlerts (f : AlertUnit → AlertUnit) (s : State) : OnlyAlerts s (listEvent f s) :=
  ⟨rfl, derive_taken _ _⟩

theorem OnlyAlerts.refl (s : State) : OnlyAlerts s s :=
  ⟨rfl, fun _ => ⟨fun _ => rfl, fun h => absurd rfl h⟩⟩

theorem listEventIfActive_onlyAlerts (f : AlertUnit → AlertUnit) (s : State) : OnlyAlerts s (listEventIfActive f s) := by
  unfold listEventIfActive
  split
  · exact listEvent_onlyAlerts f s
  · exact .refl s

/-- A condition event that the unit takes (R84). -/
theorem takeCondition_listening {c : Chan} {s : State} (f : AlertUnit → AlertUnit) (h : s.setup.part = .active)
    (he : s.workingEnrols c = true) (hd : ¬s.DeEnrolling c) : takeCondition c f s = listEvent f s := by
  unfold takeCondition listEventIfActive
  rw [if_pos ⟨he, fun h' => hd ((deEnrolling_iff c s).1 h')⟩, if_pos h]

/-- A condition event that the unit discards (R84, R105). -/
theorem takeCondition_discards {c : Chan} {s : State} (f : AlertUnit → AlertUnit)
    (h : s.setup.part ≠ .active ∨ s.workingEnrols c = false ∨ s.DeEnrolling c) : takeCondition c f s = s := by
  unfold takeCondition listEventIfActive
  rcases h with h | h | h
  · rw [if_neg h, ite_self]
  · rw [if_neg (by simp [h])]
  · rw [if_neg (fun h' => h'.2 ((deEnrolling_iff c s).2 h))]

theorem clearAlerts_onlyAlerts (s : State) : OnlyAlerts s (clearAlerts s) := ⟨rfl, derive_taken _ _⟩

/-- Of the messages, only the requests to the alert list unit change. -/
theorem takeRemovals_mail (cs : List Chan) (ms : List ToList) : ∀ s : State,
    (takeRemovals cs ms s).mail = { s.mail with toList := (takeRemovals cs ms s).mail.toList } := by
  induction ms with
  | nil => intro s; rfl
  | cons m rest ih =>
    intro s
    unfold takeRemovals
    split
    · rw [ih, takeToList_mail]; rfl
    · rfl

/-- The removals taken before an APPLY enrols their channels anew (R105). -/
theorem takeRemovals_taken (cs : List Chan) (ms : List ToList) : ∀ s : State, s.mail.toList = ms →
    RemovalsTaken cs ms s (takeRemovals cs ms s) := by
  have hn : ∀ l : List ToList, l.any (ToList.names cs) = true ↔ ∃ gone c, ToList.removal gone ∈ l ∧ c ∈ gone ∧ c ∈ cs := by
    intro l
    rw [List.any_eq_true]
    constructor
    · rintro ⟨m, hm, h⟩
      cases m with
      | clearing => cases h
      | removal gone =>
        obtain ⟨c, hc, h⟩ := List.any_eq_true.1 h
        exact ⟨gone, c, hm, hc, List.contains_iff_mem.1 h⟩
    · rintro ⟨gone, c, hm, hc, h⟩
      exact ⟨_, hm, List.any_eq_true.2 ⟨c, hc, List.contains_iff_mem.2 h⟩⟩
  induction ms with
  | nil => intro s _; rfl
  | cons m rest ih =>
    intro s hs
    refine ⟨fun h => ?_, fun h => ?_⟩
    · refine ⟨takeToList m (s.setMail { s.mail with toList := rest }), ?_, ?_⟩
      · have hd : s.dropToList = s.setMail { s.mail with toList := rest } := by rw [State.dropToList, hs]; rfl
        cases m with
        | removal gone => show execRemoval s = _; rw [execRemoval, hs, ← hd]
        | clearing => show execAlertListClearing s = _; rw [execAlertListClearing, hs, ← hd]
      · rw [takeRemovals, if_pos ((hn _).2 h)]
        exact ih _ (by rw [takeToList_mail]; rfl)
    · rw [takeRemovals, if_neg]
      intro h'
      obtain ⟨gone, c, h1, h2, h3⟩ := (hn _).1 h'
      exact h gone c h1 h2 h3

/-- The clearings taken before ACTIVE (R106). -/
theorem takeClearings_taken (s : State) : ClearingsTaken s (takeClearings s) := by
  unfold ClearingsTaken takeClearings
  constructor
  · intro h; rw [if_neg h]
  · intro h
    rw [if_pos h]
    exact ⟨clearAlerts_onlyAlerts _, rfl, fun l => by cases l <;> exact takeMode_mode _ _⟩

/-- Patterns taken into use at once (R176, R178). -/
theorem startPatterns_usingNow (p : Patterns) (l : LampState) : l.startPatterns p = l.usingNow p := by
  unfold LampState.startPatterns LampState.usingNow
  cases h : l.inUse <;> simp

end Sys2Proof.Machine
end

