-- ==== Sys2Proof/Laws/ClaimsKept.lean ====
section
/-! SUPPORT. Every shared operation keeps the law of the enforcement unit (R137, R142, R146): most change nothing that it sees,
and the withdrawal of the claim keeps it from CEDED. -/

namespace Sys2Proof.Machine

/-- The law of the enforcement unit, as a property of the state. -/
def ClaimsLawful (s : State) : Prop := s.enf.Lawful

/-- From `s` to `t` nothing that the law of the enforcement unit sees has changed, but channels may have joined or left the
queue. -/
def SameForClaims (s t : State) : Prop :=
  t.enf.claim = s.enf.claim ∧ t.enf.purpose = s.enf.purpose ∧ t.enf.stalled = s.enf.stalled ∧
  t.enf.claimTimer = s.enf.claimTimer ∧ t.enf.broken = s.enf.broken ∧ (s.enf.queue.Nodup → t.enf.queue.Nodup)

theorem SameForClaims.keep {s t : State} (h : SameForClaims s t) (hp : ClaimsLawful s) : ClaimsLawful t := by
  obtain ⟨h1, h2, h3, h4, h5, h6⟩ := h
  obtain ⟨a, b, c, d, e⟩ := hp
  exact ⟨h6 a, by rw [h4, h1]; exact b, by rw [h3, h1]; exact c, by rw [h5, h1]; exact d, by rw [h2, h1]; exact e⟩

theorem SameForClaims.of {s t : State} (h : t.enf = s.enf) :
    SameForClaims s t := ⟨by rw [h], by rw [h], by rw [h], by rw [h], by rw [h], by rw [h]; exact id⟩

theorem SameForClaims.trans {s t u : State} (h : SameForClaims s t) (h' : SameForClaims t u) : SameForClaims s u := by
  obtain ⟨a, b, c, d, e, f⟩ := h
  obtain ⟨a', b', c', d', e', f'⟩ := h'
  exact ⟨a'.trans a, b'.trans b, c'.trans c, d'.trans d, e'.trans e, fun h => f' (f h)⟩

theorem filterWrite_sameForClaims (c w) (s : State) : SameForClaims s (filterWrite c w s) := by
  unfold filterWrite; simp only
  split
  · refine SameForClaims.trans (t := (s.setEnf { s.enf with intended := s.enf.intended.set c w, queue := s.enf.queue.filter (fun d => decide (d ≠ c)) }).sendSilence
      (crossing s.settings.muteCode c s.enf.intended[c] w)) ⟨rfl, rfl, rfl, rfl, rfl, fun h => h.filter _⟩ (SameForClaims.of (by simp))
  · exact ⟨rfl, rfl, rfl, rfl, rfl, fun h => h.filter _⟩

theorem takeCourse_sameForClaims (a) (s : State) : SameForClaims s (takeCourse a s) := by
  unfold Machine.takeCourse
  split
  · exact SameForClaims.of rfl
  · exact SameForClaims.of rfl
  · exact SameForClaims.of (by simp)
  · exact SameForClaims.of (by simp)
  · exact SameForClaims.of (by simp)
  · exact SameForClaims.trans (filterWrite_sameForClaims _ _ _) (SameForClaims.of rfl)
  · exact SameForClaims.of rfl
  · refine SameForClaims.of ?_
    simp only [answered, State.setPath_enf]
    unfold answerRead
    split <;> first | rfl | simp
  · exact SameForClaims.of (by simp)

theorem arrive_sameForClaims (a) (s : State) : SameForClaims s (arrive a s) := by
  unfold arrive; split
  · exact SameForClaims.of rfl
  · exact takeCourse_sameForClaims _ _

theorem takePresented_sameForClaims (s : State) : SameForClaims s (takePresented s) := by
  unfold takePresented; split
  · exact SameForClaims.of rfl
  · split
    · exact arrive_sameForClaims _ (s.setPath _)
    · exact SameForClaims.of rfl

theorem present_sameForClaims (a) (s : State) : SameForClaims s (present a s) := by
  unfold present; split
  · exact arrive_sameForClaims _ _
  · split
    · exact SameForClaims.trans (.of (answerOvertaken_units _ s).2.1) (takePresented_sameForClaims _)
    · exact SameForClaims.of rfl

theorem finishAnswer_sameForClaims (s : State) : SameForClaims s (finishAnswer s) := .of (finishAnswer_units s).2.1

theorem releaseHeld_sameForClaims (s : State) : SameForClaims s (releaseHeld s) := by
  unfold releaseHeld; split
  · exact SameForClaims.of rfl
  · exact takeCourse_sameForClaims _ (s.setPath _)

theorem addToQueue_nodup (c) (q : List Chan) (h : q.Nodup) : (addToQueue c q).Nodup := by
  unfold addToQueue; split
  · exact h
  · rename_i hc
    rw [List.nodup_append]; simp [h]; intro a ha; rintro rfl; exact hc ha

theorem addAllToQueue_nodup (cs) : ∀ (q : List Chan), q.Nodup → (addAllToQueue cs q).Nodup := by
  induction cs with
  | nil => intro q h; exact h
  | cons c cs ih => intro q h; exact ih _ (addToQueue_nodup c q h)

theorem claimIfAllowed_claimsLawful (s : State) (hp : ClaimsLawful s) : ClaimsLawful (claimIfAllowed s) := by
  unfold claimIfAllowed; split
  · split
    · rename_i hh _ _ _
      obtain ⟨a, b, c, d, e⟩ := hp
      refine ⟨a, fun _ => rfl, fun _ => rfl, fun h => ?_, ?_⟩
      · have := d h; rw [hh.1] at this; cases this
      · constructor <;> intro h <;> cases h
    · exact hp
  · exact hp

theorem reportIfRestored_sameForClaims (s : State) :
    SameForClaims s (reportIfRestored s) := SameForClaims.of (by simp)

theorem endRestore_sameForClaims (s : State) : SameForClaims s (endRestore s) := SameForClaims.of (by simp)

theorem withdrawClaim_claimsLawful (s : State) (hc : s.enf.claim = .ceded) (hp : ClaimsLawful s) :
    ClaimsLawful (withdrawClaim s) := by
  obtain ⟨a, b, c, d, e⟩ := hp
  unfold withdrawClaim
  refine ⟨a, ?_, ?_, ?_, ?_⟩
  · intro h; have := b h; rw [hc] at this; cases this
  · intro h; have := c h; rw [hc] at this; cases this
  · intro h; cases h
  · show (if _ then _ else _) = _ ↔ (if _ then _ else _) = _
    cases s.lines.cede
    · simp
    · simp; rw [e, hc]; simp

theorem endBurst_claimsLawful (s : State) (hc : s.enf.claim = .ceded) (hp : ClaimsLawful s) :
    ClaimsLawful (endBurst s) :=
  (takePresented_sameForClaims _).keep ((releaseHeld_sameForClaims _).keep (withdrawClaim_claimsLawful s hc hp))

theorem endBrokenCede_claimsLawful (s : State) (hc : s.enf.claim = .ceded) (hp : ClaimsLawful s) :
    ClaimsLawful (endBrokenCede s) := by
  unfold endBrokenCede
  refine (takePresented_sameForClaims _).keep (claimIfAllowed_claimsLawful _ ((releaseHeld_sameForClaims _).keep
    ((endRestore_sameForClaims _).keep (withdrawClaim_claimsLawful _ hc ?_))))
  exact SameForClaims.keep (s := s) ⟨rfl, rfl, rfl, rfl, rfl, id⟩ hp

theorem leaveLoading_claimsLawful (s : State) (hc : s.enf.claim = .ceded) (hp : ClaimsLawful s) :
    ClaimsLawful (leaveLoading s) := by
  unfold leaveLoading
  replace hc : (takeClearings s).enf.claim = .ceded := by rw [takeClearings_enf]; exact hc
  replace hp : ClaimsLawful (takeClearings s) := SameForClaims.keep (SameForClaims.of (by simp)) hp
  generalize takeClearings s = s at hc hp ⊢
  dsimp only
  refine SameForClaims.keep (SameForClaims.of (by simp)) (withdrawClaim_claimsLawful (s.setEnf { s.enf with loadPosition := none }) hc ?_)
  exact SameForClaims.keep (s := s) ⟨rfl, rfl, rfl, rfl, rfl, id⟩ hp

theorem queueEnforced_claimsLawful (s : State) (hp : ClaimsLawful s) : ClaimsLawful (queueEnforced s) := by
  unfold queueEnforced; split
  · exact SameForClaims.keep (s := s) ⟨rfl, rfl, rfl, rfl, rfl, addAllToQueue_nodup _ _⟩ hp
  · exact hp

theorem endLoad_claimsLawful (b) (s : State) (hc : s.enf.claim = .ceded) (hp : ClaimsLawful s) :
    ClaimsLawful (endLoad b s) := by
  unfold endLoad
  dsimp only
  split
  · exact (takePresented_sameForClaims _).keep (queueEnforced_claimsLawful _ ((releaseHeld_sameForClaims _).keep
      (leaveLoading_claimsLawful s hc hp)))
  · exact (takePresented_sameForClaims _).keep ((releaseHeld_sameForClaims _).keep (queueEnforced_claimsLawful _
      (leaveLoading_claimsLawful s hc hp)))

theorem proceed_claimsLawful (s : State) (hc : s.enf.claim = .ceded) (hp : ClaimsLawful s) :
    ClaimsLawful (proceed s) := by
  unfold proceed
  split
  · exact endBrokenCede_claimsLawful s hc hp
  · split
    · exact SameForClaims.keep (SameForClaims.of rfl) hp
    all_goals
      split
      · rename_i hq
        split
        · exact SameForClaims.keep (s := s) ⟨rfl, rfl, rfl, rfl, rfl, fun h => by rw [hq] at h; exact (List.nodup_cons.1 h).2⟩ hp
        · exact endBurst_claimsLawful s hc hp
      · exact endBurst_claimsLawful s hc hp

theorem proceedAfterOrphan_claimsLawful (s : State) (hp : ClaimsLawful s) : ClaimsLawful (proceedAfterOrphan s) := by
  unfold proceedAfterOrphan; split
  · exact proceed_claimsLawful s (by assumption) hp
  · split
    · exact hp
    · exact (reportIfRestored_sameForClaims _).keep hp
  all_goals exact hp

theorem afterOwnAccess_claimsLawful (s : State) (hp : ClaimsLawful s) : ClaimsLawful (afterOwnAccess s) := by
  unfold afterOwnAccess; split
  · exact proceedAfterOrphan_claimsLawful _ (SameForClaims.keep (s := s) ⟨rfl, rfl, rfl, rfl, rfl, id⟩ hp)
  · split
    · exact proceed_claimsLawful _ (by assumption) hp
    · exact hp

theorem advanceLoad_claimsLawful (b c) (s : State) (hc : s.enf.claim = .ceded) (hp : ClaimsLawful s) :
    ClaimsLawful (advanceLoad b c s) := by
  unfold advanceLoad; split
  · exact endBrokenCede_claimsLawful s hc hp
  · split
    · exact SameForClaims.keep (s := s) ⟨rfl, rfl, rfl, rfl, rfl, id⟩ hp
    · exact endLoad_claimsLawful b s hc hp

theorem queueUnderEnforce_claimsLawful (c) (s : State) (hp : ClaimsLawful s) :
    ClaimsLawful (queueUnderEnforce c s) := by
  unfold queueUnderEnforce; split
  · exact claimIfAllowed_claimsLawful _ (SameForClaims.keep (s := s) ⟨rfl, rfl, rfl, rfl, rfl, addToQueue_nodup _ _⟩ hp)
  · exact hp

theorem completeEnded_sameForClaims (s : State) : SameForClaims s (completeEnded s) := SameForClaims.of (by simp)

theorem takeSetupChange_claimsLawful (old new) (s : State) (hp : ClaimsLawful s) :
    ClaimsLawful (takeSetupChange old new s) := by
  unfold takeSetupChange
  simp only
  split
  · exact claimIfAllowed_claimsLawful _ (SameForClaims.keep (s := s) ⟨rfl, rfl, rfl, rfl, rfl, addAllToQueue_nodup _ _⟩ hp)
  · exact hp

theorem takeHalt_claimsLawful (s : State) (hp : ClaimsLawful s) : ClaimsLawful (takeHalt s) := by
  unfold takeHalt
  refine claimIfAllowed_claimsLawful _ ((endRestore_sameForClaims _).keep ?_)
  have h1 : ClaimsLawful (if s.mode = .enforce then s.dropToEnforcement.setQueue (addAllToQueue s.workingChannels s.enf.queue) else s.dropToEnforcement) := by
    split
    · exact SameForClaims.keep (s := s) ⟨rfl, rfl, rfl, rfl, rfl, addAllToQueue_nodup _ _⟩ hp
    · exact hp
  revert h1
  generalize (if s.mode = .enforce then s.dropToEnforcement.setQueue (addAllToQueue s.workingChannels s.enf.queue) else s.dropToEnforcement) = u
  intro h1
  split
  · exact h1
  · exact h1

theorem takeUntilHalt_claimsLawful (ms) (s : State) (hp : ClaimsLawful s) : ClaimsLawful (takeUntilHalt ms s) := by
  induction ms generalizing s with
  | nil => exact hp
  | cons m rest ih =>
    cases m with
    | loadRequest => exact hp
    | halt => exact takeHalt_claimsLawful s hp
    | setupChange old new => exact ih _ (takeSetupChange_claimsLawful _ _ s hp)

theorem takeNotices_claimsLawful (ms) (s : State) (hp : ClaimsLawful s) : ClaimsLawful (takeNotices ms s) := by
  induction ms generalizing s with
  | nil => exact hp
  | cons m rest ih => exact ih _ (queueUnderEnforce_claimsLawful _ s.dropNotice hp)

theorem finishHalt_claimsLawful (s : State) (hp : ClaimsLawful s) : ClaimsLawful (finishHalt s) := by
  unfold finishHalt; split
  · exact (completeEnded_sameForClaims _).keep (takeUntilHalt_claimsLawful _ _ (takeNotices_claimsLawful _ s hp))
  · exact hp

theorem enterCeded_enf (s : State) :
    (enterCeded s).enf =
      { s.enf with claim := .ceded, claimTimer := .stopped, burstCount := 0, broken := false, stalled := false } := by
  unfold enterCeded; rw [endStall_eq]; rfl

theorem enterCeded_claimsLawful (s : State) (hc : s.enf.claim = .claiming) (hp : ClaimsLawful s) :
    ClaimsLawful (enterCeded s) := by
  obtain ⟨a, b, c, d, e⟩ := hp
  unfold ClaimsLawful; rw [enterCeded_enf]
  refine ⟨a, fun h => absurd rfl h, fun h => (by cases h), fun _ => rfl, ?_⟩
  show s.enf.purpose = none ↔ ClaimState.ceded = .idle
  rw [e, hc]; constructor <;> intro h <;> cases h

end Sys2Proof.Machine
end

