-- ==== Sys2Proof/Laws/Kept.lean ====
section
/-! SUPPORT. What every shared operation keeps of the memory, the records, the alert list and the lamps: one lemma for each
operation, over any property of those parts. -/

namespace Sys2Proof.Machine

/-- A property that sees at most the memory, the records, the alert list unit and the lamps, and that an event of the alert
list, a capture release, the patterns of START, and HALT's clearing and reset of the table keep. Every shared operation below keeps it. -/
structure Kept (P : State → Prop) : Prop where
  path : ∀ s v, P s → P (s.setPath v)
  enf : ∀ s v, P s → P (s.setEnf v)
  setup : ∀ s v, P s → P (s.setSetup v)
  mail : ∀ s v, P s → P (s.setMail v)
  view : ∀ s v, P s → P (s.setView v)
  staging : ∀ s v, P s → P (s.setStaging v)
  time : ∀ s v, P s → P (s.setTime v)
  lines : ∀ s v, P s → P (s.setLines v)
  draws : ∀ s v, P s → P (s.setDraws v)
  pending : ∀ s v, P s → P (s.setPending v)
  ev : ∀ s f, (s.alert.Orderly → (f s.alert).Orderly) → P s → P (listEvent f s)
  rel : ∀ s c, P s → P (channelEvent c ChannelRecord.release s)
  start : ∀ s w, P s → P (s.setLamps (s.lamps.startSettings w))
  clear : ∀ s, P s → P (clearAlerts s)
  table : ∀ s, P s → P (s.setChannels (Vector.replicate 64 .powerReset))

namespace Kept
variable {P : State → Prop} (K : Kept P)
include K

theorem evIf (s f) (h : s.alert.Orderly → (f s.alert).Orderly) (hp : P s) : P (listEventIfActive f s) := by
  unfold listEventIfActive; split
  · exact K.ev _ _ h hp
  · exact hp

theorem serve (a b : Access) (h : Bool) (s) (hp : P s) : P (serve a b h s) := K.path _ _ hp

theorem answered (a d s) (hp : P s) : P (answered a d s) := K.path _ _ hp

theorem withResult (s : State) (c r) (hp : P s) : P (s.withResult c r) := K.setup _ _ hp

theorem beginSession (w) (s : State) (hp : P s) : P (beginSession w s) := by
  unfold Machine.beginSession
  refine K.mail _ _ ?_
  refine K.start ((((s.setSetup _).setPath _).setStaging _).setView _ |>.setTime _) w ?_
  exact K.time _ _ (K.view _ _ (K.staging _ _ (K.path _ _ (K.setup _ _ hp))))

theorem commandHalt (s : State) (hp : P s) : P (commandHalt s) := by
  obtain ⟨m, h⟩ := commandHalt_eq s
  rw [h]
  exact K.mail _ _ (K.view _ _ (K.staging _ _ (K.setup _ _ (K.table _ (K.clear _ (K.mail s m hp))))))

theorem takeToList (m) (s : State) (hp : P s) : P (takeToList m s) := by
  cases m with
  | removal gone => exact K.ev _ _ (fun h => AlertUnit.remove_orderly h _) hp
  | clearing => exact K.clear _ hp

theorem takeRemovals (cs ms) (s : State) (hp : P s) : P (takeRemovals cs ms s) := by
  induction ms generalizing s with
  | nil => exact hp
  | cons m rest ih =>
    unfold Machine.takeRemovals; split
    · exact ih _ (K.takeToList _ _ (K.mail _ _ hp))
    · exact hp

theorem takeCommand (d) (s : State) (hp : P s) : P (takeCommand d s) := by
  unfold Machine.takeCommand
  split
  · exact K.setup _ _ hp
  · split
    · exact K.setup _ _ hp
    · split
      · unfold carryOut
        split
        · unfold commandStart; split
          · exact K.setup _ _ hp
          · exact K.beginSession _ _ hp
        · unfold commandApply; split
          · exact K.setup _ _ hp
          · split
            · exact K.setup _ _ hp
            · exact K.mail _ _ (K.staging _ _ (K.setup _ _ (K.takeRemovals _ _ _ hp)))
        · exact K.commandHalt _ hp
        · unfold commandChair; split
          · exact K.setup _ _ hp
          · exact K.mail _ _ (K.setup _ _ hp)
        · unfold commandChair; split
          · exact K.setup _ _ hp
          · exact K.mail _ _ (K.setup _ _ hp)
        · exact K.setup _ _ (K.ev _ _ AlertUnit.ackAll_orderly hp)
      · exact K.setup _ _ hp

theorem claimIf (s) (hp : P s) : P (claimIfAllowed s) := by
  unfold claimIfAllowed; split
  · split
    · exact K.enf _ _ hp
    · exact hp
  · exact hp

theorem report (s) (hp : P s) : P (reportIfRestored s) := by
  unfold reportIfRestored; split
  · exact K.mail _ _ hp
  · exact hp

theorem filter (c w s) (hp : P s) : P (filterWrite c w s) := by
  unfold filterWrite; simp only; split
  · exact K.report _ (K.mail _ _ (K.enf _ _ hp))
  · exact K.mail _ _ (K.enf _ _ hp)

theorem answerRead (r o) (s) (hp : P s) : P (answerRead r o s).1 := by
  unfold Machine.answerRead
  split
  · exact K.view _ _ hp
  · exact hp
  · unfold deliverReadMark; split
    · exact hp
    · exact K.evIf _ _ (fun h => AlertUnit.readMark_orderly h _) hp
  · exact hp
  · exact K.rel _ _ hp
  · exact hp
  · exact hp

theorem answerWrite (r o v) (s) (hp : P s) : P (answerWrite r o v s) := by
  unfold Machine.answerWrite
  split
  · exact K.evIf _ _ (fun h => AlertUnit.acknowledgementWrite_orderly h _ _) hp
  all_goals exact hp

theorem takeCourse (a) (s) (hp : P s) : P (takeCourse a s) := by
  unfold Machine.takeCourse
  split
  · exact K.serve _ _ _ _ hp
  · exact K.serve _ _ _ _ (K.setup _ _ hp)
  · exact K.serve _ _ _ _ (K.takeCommand _ _ hp)
  · refine K.serve _ _ _ _ ?_
    unfold takeStagingWrite; split
    · exact K.staging _ _ hp
    · exact hp
  · refine K.serve _ _ _ _ ?_
    unfold takeCommit
    repeat' split
    all_goals first | exact hp | exact K.mail _ _ (K.staging _ _ hp) | exact K.staging _ _ hp
  · exact K.serve _ _ _ _ (K.filter _ _ _ hp)
  · exact K.answered _ _ _ hp
  · exact K.answered _ _ _ (K.answerRead _ _ _ hp)
  · exact K.answered _ _ _ (K.answerWrite _ _ _ _ hp)

theorem arrive (a) (s) (hp : P s) : P (arrive a s) := by
  unfold Machine.arrive; split
  · exact K.path _ _ hp
  · exact K.takeCourse _ _ hp

theorem takePresented (s) (hp : P s) : P (takePresented s) := by
  unfold Machine.takePresented; split
  · exact hp
  · split
    · exact K.arrive _ _ (K.path _ _ hp)
    · exact hp

theorem answerOvertaken (a) (s) (hp : P s) : P (answerOvertaken a s) := by
  have h : P (s.setPath { s.path with answering := none }) := K.path _ _ hp
  unfold Machine.answerOvertaken
  dsimp only
  split
  · exact K.answered _ _ _ (K.answerRead _ _ _ h)
  · exact K.answered _ _ _ (K.answerWrite _ _ _ _ h)
  all_goals exact h

theorem finishAnswer (s) (hp : P s) : P (finishAnswer s) := by
  unfold Machine.finishAnswer; split
  · exact hp
  · exact K.answerOvertaken _ _ hp

theorem present (a) (s) (hp : P s) : P (present a s) := by
  unfold Machine.present; split
  · exact K.arrive _ _ hp
  · split
    · exact K.takePresented _ (K.answerOvertaken _ _ hp)
    · exact K.path _ _ hp

theorem releaseHeld (s) (hp : P s) : P (releaseHeld s) := by
  unfold Machine.releaseHeld; split
  · exact hp
  · exact K.takeCourse _ _ (K.path _ _ hp)

theorem complete (s) (hp : P s) : P (completeEnded s) := by
  unfold completeEnded; split
  · split
    · exact K.path _ _ hp
    · exact hp
  · exact hp

theorem endBurst (s) (hp : P s) : P (endBurst s) := K.takePresented _ (K.releaseHeld _ (K.enf _ _ hp))

theorem takeEach (ms s) (hp : P s) : P (takeEach ms s) := by
  induction ms generalizing s with
  | nil => exact hp
  | cons m rest ih =>
    refine ih _ ?_
    cases m with
    | restoreDone =>
      by_cases h : s.setup.part = .releasing
      · rw [takeReport, if_pos h]; exact K.setup _ _ hp
      · rw [takeReport, if_neg h]; exact hp
    | stall | stallEnd => exact K.setup _ _ hp

theorem takeReports (s) (hp : P s) : P (takeReports s) := K.takeEach _ _ (K.mail _ _ hp)

theorem endRestore (s) (hp : P s) : P (endRestore s) := by
  unfold Machine.endRestore; split
  · exact K.takeReports _ (K.mail _ _ hp)
  · exact hp

theorem endBroken (s) (hp : P s) : P (endBrokenCede s) :=
  K.takePresented _ (K.claimIf _ (K.releaseHeld _ (K.endRestore _ (K.enf _ _ (K.enf _ _ hp)))))

theorem takeClearings (s) (hp : P s) : P (takeClearings s) := by
  unfold Machine.takeClearings; split
  · exact K.clear _ (K.mail _ _ hp)
  · exact hp

theorem leaveLoading (s) (hp : P s) : P (leaveLoading s) :=
  K.setup _ _ (K.takeReports _ (K.enf _ _ (K.enf _ _ (K.takeClearings s hp))))

theorem queueEnforced (s) (hp : P s) : P (queueEnforced s) := by
  unfold Machine.queueEnforced; split
  · exact K.enf _ _ hp
  · exact hp

theorem endLoad (b s) (hp : P s) : P (endLoad b s) := by
  unfold Machine.endLoad
  dsimp only
  split
  · exact K.takePresented _ (K.queueEnforced _ (K.releaseHeld _ (K.leaveLoading _ hp)))
  · exact K.takePresented _ (K.releaseHeld _ (K.queueEnforced _ (K.leaveLoading _ hp)))

theorem proceed (s) (hp : P s) : P (proceed s) := by
  unfold Machine.proceed
  split
  · exact K.endBroken _ hp
  · split
    · exact K.path _ _ hp
    all_goals
      split
      · split
        · exact K.path _ _ (K.enf _ _ hp)
        · exact K.endBurst _ hp
      · exact K.endBurst _ hp

theorem orphan (s) (hp : P s) : P (proceedAfterOrphan s) := by
  unfold proceedAfterOrphan; split
  · exact K.proceed _ hp
  · split
    · exact hp
    · exact K.report _ hp
  all_goals exact hp

theorem afterOwn (s) (hp : P s) : P (afterOwnAccess s) := by
  unfold afterOwnAccess; split
  · exact K.orphan _ (K.enf _ _ hp)
  · split
    · exact K.proceed _ hp
    · exact hp

theorem endStall (s) (hp : P s) : P (endStall s) := by
  unfold Machine.endStall
  split
  · split
    · exact K.mail _ _ (K.enf _ _ hp)
    · exact K.mail _ _ (K.enf _ _ hp)
  · exact hp

theorem beginCeded (s) (hp : P s) : P (beginCeded s) := by
  unfold Machine.beginCeded; split
  · exact hp
  · exact K.proceed _ hp

theorem queueUnder (c s) (hp : P s) : P (queueUnderEnforce c s) := by
  unfold queueUnderEnforce; split
  · exact K.claimIf _ (K.enf _ _ hp)
  · exact hp

theorem advance (b c s) (hp : P s) : P (advanceLoad b c s) := by
  unfold advanceLoad; split
  · exact K.endBroken _ hp
  · split
    · exact K.path _ _ (K.enf _ _ hp)
    · exact K.endLoad _ _ hp

theorem count (s) (hp : P s) : P (countWrite s) := by
  unfold countWrite; split
  · exact hp
  · exact K.enf _ _ hp

theorem takeSetupChange (old new s) (hp : P s) : P (takeSetupChange old new s) := by
  unfold Machine.takeSetupChange
  have h : P (s.dropToEnforcement.sendSilence (muteCodeCrossings old new s.enf.intended)) := K.mail _ _ (K.mail _ _ hp)
  simp only
  split
  · exact K.claimIf _ (K.enf _ _ h)
  · exact h

theorem takeHalt (s) (hp : P s) : P (takeHalt s) := by
  unfold Machine.takeHalt
  refine K.claimIf _ (K.endRestore _ ?_)
  have h : P s.dropToEnforcement := K.mail _ _ hp
  split <;> split
  · exact K.mail _ _ (K.enf _ _ h)
  · exact K.mail _ _ h
  · exact K.enf _ _ h
  · exact h

theorem takeUntilHalt (ms s) (hp : P s) : P (takeUntilHalt ms s) := by
  induction ms generalizing s with
  | nil => exact hp
  | cons m rest ih =>
    cases m with
    | loadRequest => exact hp
    | halt => exact K.takeHalt _ hp
    | setupChange old new => exact ih _ (K.takeSetupChange _ _ _ hp)

theorem takeNotices (ms s) (hp : P s) : P (takeNotices ms s) := by
  induction ms generalizing s with
  | nil => exact hp
  | cons m rest ih => exact ih _ (K.queueUnder _ _ (K.mail _ _ hp))

theorem finishHalt (s) (hp : P s) : P (finishHalt s) := by
  unfold Machine.finishHalt; split
  · exact K.complete _ (K.takeUntilHalt _ _ (K.takeNotices _ _ hp))
  · exact hp

end Kept

end Sys2Proof.Machine
end

