-- ==== Sys2Proof/Laws/LampsKept.lean ====
section
/-! SUPPORT. Every operation of the lamp driver keeps what a lamp shows: dark in OFF and without patterns, lit in STEADY (R176,
R177). -/

namespace Sys2Proof.Machine

/-- What a lamp shows at all times beside its pattern (R176, R177). -/
def LampState.Shown (l : LampState) : Prop :=
  (l.mode = .off → l.lit = false) ∧ (l.mode = .steady → l.inUse ≠ none → l.lit = true) ∧ (l.inUse = none → l.lit = false)

theorem lampModeOf_asked (f : Family) (l : List AlertEntry) : ModeAsked f l (lampModeOf f l) := by
  have fast : ((l.any fun e => decide (e.family = f) && decide (e.state = .new) && decide (e.severity = 3)) ||
      partListed [.new, .seen] l) = true ↔ AsksFast f l := by
    simp [partListed, AsksFast, and_assoc]
  have slow : familyListed f [.new, .seen] l = true ↔ AsksSlow f l := by
    simp [familyListed, AsksSlow]
  have light : (familyListed f [.new, .seen, .acked, .cleared] l || partListed [.new, .seen, .acked, .cleared] l) = true ↔
      AsksLight f l := by
    simp only [familyListed, partListed, AsksLight, Bool.or_eq_true, List.any_eq_true, Bool.and_eq_true, decide_eq_true_eq]
    constructor
    · rintro (⟨e, he, hf, _⟩ | ⟨e, he, hf, _⟩)
      · exact ⟨e, he, .inl hf⟩
      · exact ⟨e, he, .inr hf⟩
    · rintro ⟨e, he, hf | hf⟩
      · exact .inl ⟨e, he, hf, by cases e.state <;> decide⟩
      · exact .inr ⟨e, he, hf, by cases e.state <;> decide⟩
  unfold ModeAsked lampModeOf
  rw [← fast, ← slow, ← light]
  refine ⟨fun h => if_pos h, fun h h2 => ?_, fun h h2 h3 => ?_, fun h h2 h3 => ?_⟩
  · rw [if_neg h, if_pos h2]
  · rw [if_neg h, if_neg h2, if_pos h3]
  · rw [if_neg h, if_neg h2, if_neg h3]

theorem takeMode_shown (m : LampMode) {l : LampState} (h : l.Shown) : (l.takeMode m).Shown := by
  unfold LampState.takeMode
  split
  · exact h
  · refine ⟨fun hm => ?_, fun hm hp => ?_, fun hp => ?_⟩
    · have hm : m = .off := hm
      simp [hm]
    · have hm : m = .steady := hm
      simp [hm, Option.isSome_iff_ne_none, hp]
    · have hp : l.patternsAtBoundary = none := hp
      simp [hp]

theorem startPatterns_shown (p : Patterns) {l : LampState} (h : l.Shown) : (l.startPatterns p).Shown := by
  obtain ⟨h1, h2, h3⟩ := h
  refine ⟨fun hm => ?_, fun hm _ => ?_, fun hp => by cases hp⟩
  · have hm : l.mode = .off := hm
    show (l.lit || (l.inUse.isNone && decide (l.mode ≠ .off))) = false
    rw [hm, h1 hm]; simp
  · have hm : l.mode = .steady := hm
    show (l.lit || (l.inUse.isNone && decide (l.mode ≠ .off))) = true
    cases hu : l.inUse with
    | none => rw [hm]; simp
    | some q => rw [h2 hm (by rw [hu]; simp)]; rfl

theorem applyPatterns_shown (p : Patterns) {l : LampState} (h : l.Shown) : (l.applyPatterns p).Shown := by
  unfold LampState.applyPatterns
  split
  · exact h
  · exact h
  · exact startPatterns_shown p h
  · exact startPatterns_shown p h

theorem tick_shown {l : LampState} (h : l.Shown) : l.tick.Shown := by
  unfold LampState.tick; split <;> exact h

/-- A lamp whose pattern runs is in SLOW or FAST. -/
theorem running_mode {l : LampState} (h : l.running ≠ none) : (l.mode = .slow ∨ l.mode = .fast) ∧ l.inUse ≠ none := by
  revert h
  unfold LampState.running
  cases l.inUse <;> cases l.mode <;> simp

theorem boundary_shown {l : LampState} (hd : l.boundaryDue = true) : l.boundary.Shown := by
  have hr : l.running ≠ none := by
    unfold LampState.boundaryDue at hd
    cases h : l.running <;> rw [h] at hd <;> simp at hd ⊢
  obtain ⟨hm, hu⟩ := running_mode hr
  refine ⟨fun h => ?_, fun _ _ => rfl, fun h => ?_⟩
  · have h : l.mode = .off := h
    rcases hm with hm | hm <;> rw [hm] at h <;> cases h
  · have h : l.patternsAtBoundary = none := h
    unfold LampState.patternsAtBoundary at h
    cases hp : l.pending <;> rw [hp] at h
    · exact absurd h hu
    · cases h

theorem onTimeEnd_shown {l : LampState} (hd : l.onTimeDue = true) : LampState.Shown { l with lit := false } := by
  have hr : l.running ≠ none := by
    unfold LampState.onTimeDue at hd
    cases h : l.running <;> rw [h] at hd <;> simp at hd ⊢
  obtain ⟨hm, _⟩ := running_mode hr
  refine ⟨fun _ => rfl, fun h _ => ?_, fun _ => rfl⟩
  have h : l.mode = .steady := h
  rcases hm with hm | hm <;> rw [hm] at h <;> cases h

theorem get_put (u : LampUnit) (l k : Lamp) (x : LampState) : (u.put l x).get k = if k = l then x else u.get k := by
  cases l <;> cases k <;> rfl

/-- The lamps derived from a list follow it (R176, R177). -/
theorem derive_follows (list : List AlertEntry) (u : LampUnit) (h : ∀ l, (u.get l).Shown) (l : Lamp) :
    ModeAsked (lampFamily l) list ((u.derive list).get l).mode ∧ ((u.derive list).get l).Shown := by
  have hl := h l
  cases l
  all_goals
    refine ⟨?_, takeMode_shown _ hl⟩
    exact Eq.mpr (congrArg (ModeAsked _ list) (takeMode_mode _ _)) (lampModeOf_asked _ _)

theorem State.LampsFollow.iff (s : State) :
    s.LampsFollow ↔ ∀ l, ModeAsked (lampFamily l) s.alert.list (s.lamps.get l).mode ∧ (s.lamps.get l).Shown := Iff.rfl

/-- Where the list and the modes stand, the lamps follow the list if each still shows what it must. -/
theorem State.LampsFollow.of_shown {s t : State} (h : s.LampsFollow) (ha : t.alert.list = s.alert.list)
    (hl : ∀ l, (t.lamps.get l).mode = (s.lamps.get l).mode ∧ (t.lamps.get l).Shown) : t.LampsFollow := by
  intro l
  rw [ha, (hl l).1]
  obtain ⟨h1, h2, h3⟩ := (hl l).2
  rw [(hl l).1] at h1 h2
  exact ⟨(h l).1, h1, h2, h3⟩

end Sys2Proof.Machine
end

