-- ==== Sys2Proof/Laws/Memory.lean ====
section
/-! SUPPORT. The static memory: what a word reads as after a write, and that a write keeps the canonical form. -/

namespace Sys2Proof.Machine.Memory

theorem wf_cons (k : Nat) (v : Word) (rest : Memory) :
    wf ((k, v) :: rest) = true ↔
      v ≠ Config.memoryDefault ∧ (∀ p ∈ rest, k < p.1) ∧ wf rest = true := by
  simp [wf, and_assoc]

/-- An address listed nowhere reads as the default. -/
theorem read_unlisted (m : Memory) (a : Nat) (h : ∀ p ∈ m, p.1 ≠ a) : m.read a = Config.memoryDefault := by
  induction m with
  | nil => rfl
  | cons p rest ih =>
    obtain ⟨k, v⟩ := p
    have hk : k ≠ a := h (k, v) (by simp)
    simp only [read, hk, if_false]
    exact ih fun q hq => h q (by simp [hq])

/-- A word written reads as written (R121). -/
theorem read_write_same (m : Memory) (a : Nat) (w : Word) (h : m.wf = true) : (m.write a w).read a = w := by
  induction m with
  | nil => by_cases hw : w = Config.memoryDefault <;> simp [write, read, hw]
  | cons p rest ih =>
    obtain ⟨k, v⟩ := p
    obtain ⟨-, hlt, hrest⟩ := (wf_cons k v rest).1 h
    have below : a ≤ k → read rest a = Config.memoryDefault := fun hak =>
      read_unlisted rest a fun q hq => by have := hlt q hq; omega
    rcases lt_trichotomy a k with hak | rfl | hak
    · by_cases hw : w = Config.memoryDefault
      · simp [write, read, hak, hw, Nat.ne_of_gt hak, below hak.le]
      · simp [write, read, hak, hw]
    · by_cases hw : w = Config.memoryDefault <;> simp [write, read, hw, below le_rfl]
    · simp [write, read, Nat.not_lt.2 hak.le, Nat.ne_of_gt hak, Nat.ne_of_lt hak, ih hrest]

/-- Every other word reads as before (R121). -/
theorem read_write_other (m : Memory) (a b : Nat) (w : Word) (hab : b ≠ a) (h : m.wf = true) :
    (m.write a w).read b = m.read b := by
  induction m with
  | nil => by_cases hw : w = Config.memoryDefault <;> simp [write, read, hw, Ne.symm hab]
  | cons p rest ih =>
    obtain ⟨k, v⟩ := p
    obtain ⟨-, -, hrest⟩ := (wf_cons k v rest).1 h
    by_cases h1 : a < k
    · by_cases hw : w = Config.memoryDefault <;> simp [write, read, h1, hw, Ne.symm hab]
    · by_cases h2 : a = k
      · subst h2
        by_cases hw : w = Config.memoryDefault <;> simp [write, read, hw, Ne.symm hab]
      · simp [write, read, h1, h2, ih hrest]

/-- A write lists no address that was not listed, but its own. -/
theorem write_listed (m : Memory) (a : Nat) (w : Word) : ∀ p ∈ m.write a w, p.1 = a ∨ p ∈ m := by
  induction m with
  | nil => by_cases hw : w = Config.memoryDefault <;> simp [write, hw]
  | cons q rest ih =>
    obtain ⟨k, v⟩ := q
    intro p hp
    by_cases h1 : a < k
    · by_cases hw : w = Config.memoryDefault <;> simp [write, h1, hw] at hp ⊢ <;> aesop
    · by_cases h2 : a = k
      · by_cases hw : w = Config.memoryDefault <;> simp [write, h2, hw] at hp ⊢ <;> aesop
      · simp only [write, h1, h2, if_false, List.mem_cons] at hp ⊢
        rcases hp with rfl | hp
        · simp
        · rcases ih p hp with h | h <;> simp [h]

/-- A write keeps the canonical form. -/
theorem write_wf (m : Memory) (a : Nat) (w : Word) (h : m.wf = true) : (m.write a w).wf = true := by
  induction m with
  | nil => by_cases hw : w = Config.memoryDefault <;> simp [write, wf, hw]
  | cons p rest ih =>
    obtain ⟨k, v⟩ := p
    obtain ⟨hv, hlt, hrest⟩ := (wf_cons k v rest).1 h
    by_cases h1 : a < k
    · by_cases hw : w = Config.memoryDefault
      · simpa [write, h1, hw] using h
      · simp only [write, h1, hw, if_true, if_false]
        refine (wf_cons _ _ _).2 ⟨hw, ?_, h⟩
        rintro q hq
        rcases List.mem_cons.1 hq with rfl | hq
        · exact h1
        · exact h1.trans (hlt q hq)
    · by_cases h2 : a = k
      · by_cases hw : w = Config.memoryDefault
        · simpa [write, h2, hw] using hrest
        · subst h2
          simp only [write, h1, hw, if_true, if_false]
          exact (wf_cons _ _ _).2 ⟨hw, hlt, hrest⟩
      · simp only [write, h1, h2, if_false]
        refine (wf_cons _ _ _).2 ⟨hv, fun q hq => ?_, ih hrest⟩
        rcases write_listed rest a w q hq with h | h
        · omega
        · exact hlt q h

/-- The memory of the machine at reset is in canonical form. -/
theorem reset_wf : State.reset.memory.wf = true := rfl

end Sys2Proof.Machine.Memory

namespace Sys2Proof.Machine

/-- An access at memory keeps the canonical form (R121). -/
theorem storeAt_wf (a : Access) (m : Memory) (h : m.wf = true) : (storeAt a m).wf = true := by
  cases a with
  | read _ => exact h
  | write x w => exact Memory.write_wf m x.toNat w h

/-- The withdrawal of an access by power reset keeps the canonical form, whatever the free value (R132). -/
theorem withdrawAccess_wf (s : State) (h : s.memory.wf = true) : (withdrawAccess s).memory.wf = true := by
  unfold withdrawAccess
  split
  · exact h
  · show Memory.wf (if _ then _ else _) = true
    split
    · exact Memory.write_wf _ _ _ h
    · exact h

end Sys2Proof.Machine
end

