-- ==== Sys2Proof/Laws/Parts.lean ====
section
/-! SUPPORT. How each stage of an event acts on the parts of a channel record, and what an event of a channel leaves. -/

namespace Sys2Proof.Machine

/-! ## What each operation leaves unchanged -/

section
variable (r : ChannelRecord)

@[simp] theorem stopIdle_linkPart : r.stopIdle.linkPart = r.linkPart := rfl
@[simp] theorem stopIdle_batteryPart : r.stopIdle.batteryPart = r.batteryPart := rfl
@[simp] theorem stopIdle_memberPart : r.stopIdle.memberPart = r.memberPart := rfl
@[simp] theorem stopIdle_speechPart : r.stopIdle.speechPart = r.speechPart := rfl
@[simp] theorem stopIdle_idlePart : r.stopIdle.idlePart = .atRest := rfl

variable (muteCode : Nat) (intended : Word)

theorem stopIdle_silent : r.stopIdle.silent muteCode intended = r.silent muteCode intended := rfl

@[simp] theorem settleSilence_linkPart : (r.settleSilence muteCode intended).linkPart = r.linkPart := by
  unfold ChannelRecord.settleSilence; split <;> rfl
@[simp] theorem settleSilence_batteryPart : (r.settleSilence muteCode intended).batteryPart = r.batteryPart := by
  unfold ChannelRecord.settleSilence; split <;> rfl
@[simp] theorem settleSilence_memberPart : (r.settleSilence muteCode intended).memberPart = r.memberPart := by
  unfold ChannelRecord.settleSilence; split <;> rfl
@[simp] theorem settleSilence_speechPart : (r.settleSilence muteCode intended).speechPart = r.speechPart := by
  unfold ChannelRecord.settleSilence; split <;> rfl

/-- The silence judgement does not change silence itself (R61, R62). -/
theorem settleSilence_silent (mc : Nat) (w : Word) :
    (r.settleSilence muteCode intended).silent mc w = r.silent mc w := by
  unfold ChannelRecord.settleSilence; split <;> rfl

theorem settleSilence_of_silent (h : r.silent muteCode intended = true) :
    (r.settleSilence muteCode intended).idlePart = .atRest := by
  simp [ChannelRecord.settleSilence, h]

theorem settleSilence_of_not_silent (h : ¬r.silent muteCode intended = true) :
    (r.settleSilence muteCode intended).idlePart = r.idlePart := by
  simp [ChannelRecord.settleSilence, h]

end

section
variable (w : SetupWords) (now : Millis) (intended : Word) (r : ChannelRecord)

@[simp] theorem batteryStage_linkPart (b : BatteryWord) : (r.batteryStage w b).linkPart = r.linkPart := by
  unfold ChannelRecord.batteryStage; split <;> rfl
@[simp] theorem batteryStage_memberPart (b : BatteryWord) : (r.batteryStage w b).memberPart = r.memberPart := by
  unfold ChannelRecord.batteryStage; split <;> rfl
@[simp] theorem batteryStage_speechPart (b : BatteryWord) : (r.batteryStage w b).speechPart = r.speechPart := by
  unfold ChannelRecord.batteryStage; split <;> rfl
@[simp] theorem batteryStage_idlePart (b : BatteryWord) : (r.batteryStage w b).idlePart = r.idlePart := by
  unfold ChannelRecord.batteryStage; split <;> rfl

@[simp] theorem speechStep_linkPart (s : Bool) (a : Nat) : (r.speechStep w s a).linkPart = r.linkPart := by
  simp only [ChannelRecord.speechStep]; split <;> [rfl; split <;> rfl]
@[simp] theorem speechStep_batteryPart (s : Bool) (a : Nat) : (r.speechStep w s a).batteryPart = r.batteryPart := by
  simp only [ChannelRecord.speechStep]; split <;> [rfl; split <;> rfl]
@[simp] theorem speechStep_memberPart (s : Bool) (a : Nat) : (r.speechStep w s a).memberPart = r.memberPart := by
  simp only [ChannelRecord.speechStep]; split <;> [rfl; split <;> rfl]
@[simp] theorem speechStep_idlePart (s : Bool) (a : Nat) : (r.speechStep w s a).idlePart = r.idlePart := by
  simp only [ChannelRecord.speechStep]; split <;> [rfl; split <;> rfl]

@[simp] theorem idleStep_linkPart (a : Nat) : (r.idleStep w now a).linkPart = r.linkPart := by
  simp only [ChannelRecord.idleStep]; split <;> [(split <;> rfl); rfl]
@[simp] theorem idleStep_batteryPart (a : Nat) : (r.idleStep w now a).batteryPart = r.batteryPart := by
  simp only [ChannelRecord.idleStep]; split <;> [(split <;> rfl); rfl]
@[simp] theorem idleStep_memberPart (a : Nat) : (r.idleStep w now a).memberPart = r.memberPart := by
  simp only [ChannelRecord.idleStep]; split <;> [(split <;> rfl); rfl]
@[simp] theorem idleStep_speechPart (a : Nat) : (r.idleStep w now a).speechPart = r.speechPart := by
  simp only [ChannelRecord.idleStep]; split <;> [(split <;> rfl); rfl]

@[simp] theorem muteStage_linkPart (sw : SwitchWord) : (r.muteStage w now intended sw).linkPart = r.linkPart := by
  simp only [ChannelRecord.muteStage]; split <;> simp <;> rfl
@[simp] theorem muteStage_batteryPart (sw : SwitchWord) : (r.muteStage w now intended sw).batteryPart = r.batteryPart := by
  simp only [ChannelRecord.muteStage]; split <;> simp <;> rfl
@[simp] theorem muteStage_memberPart (sw : SwitchWord) : (r.muteStage w now intended sw).memberPart = r.memberPart := by
  simp only [ChannelRecord.muteStage]; split <;> simp <;> rfl

end

/-! ## The parts that the link stage leaves -/

section
variable (w : SetupWords) (now : Millis) (r : ChannelRecord)

/-- The battery part, the membership, the speech detector and the open-idle watch are the same: what only their own stages
change. -/
def SameBesidesLink (r t : ChannelRecord) : Prop :=
  t.batteryPart = r.batteryPart ∧ t.memberPart = r.memberPart ∧ t.speechPart = r.speechPart ∧ t.idlePart = r.idlePart

theorem SameBesidesLink.refl (r : ChannelRecord) : SameBesidesLink r r := ⟨rfl, rfl, rfl, rfl⟩

theorem SameBesidesLink.trans {r t u : ChannelRecord} (h : SameBesidesLink r t) (h' : SameBesidesLink t u) :
    SameBesidesLink r u :=
  ⟨h'.1.trans h.1, h'.2.1.trans h.2.1, h'.2.2.1.trans h.2.2.1, h'.2.2.2.trans h.2.2.2⟩

theorem offer_besides (rec : CaptureRecord) : SameBesidesLink r (r.offer rec) := by
  unfold ChannelRecord.offer; split <;> exact ⟨rfl, rfl, rfl, rfl⟩
theorem countDropout_besides : SameBesidesLink r (r.countDropout w now) := ⟨rfl, rfl, rfl, rfl⟩
theorem place_besides (rf : BitVec 7) : SameBesidesLink r (r.place w rf) := by
  unfold ChannelRecord.place; split <;> exact ⟨rfl, rfl, rfl, rfl⟩

theorem linkStage_besides (f : Frame) : SameBesidesLink r (r.linkStage w now f) := by
  simp only [ChannelRecord.linkStage]
  split
  · simp only [ChannelRecord.linkLocked]
    split
    · exact (SameBesidesLink.trans ⟨rfl, rfl, rfl, rfl⟩ (place_besides _ _ _))
    · simp only [ChannelRecord.countFade]
      split <;> [(split <;> exact ⟨rfl, rfl, rfl, rfl⟩); exact ⟨rfl, rfl, rfl, rfl⟩]
    · simp only [ChannelRecord.countRecovery]
      split <;> [(split <;> exact ⟨rfl, rfl, rfl, rfl⟩); exact ⟨rfl, rfl, rfl, rfl⟩]
    · unfold ChannelRecord.endDropout
      refine .trans ?_ (place_besides _ _ _)
      refine .trans ?_ (countDropout_besides _ _ _)
      refine .trans ?_ (offer_besides _ _)
      exact ⟨rfl, rfl, rfl, rfl⟩
    · exact (SameBesidesLink.trans ⟨rfl, rfl, rfl, rfl⟩ (place_besides _ _ _))
    · exact (SameBesidesLink.trans ⟨rfl, rfl, rfl, rfl⟩ (place_besides _ _ _))
  · split
    · exact ⟨rfl, rfl, rfl, rfl⟩
    all_goals
      simp only [ChannelRecord.linkUnlocked]
      split <;> exact ⟨rfl, rfl, rfl, rfl⟩

theorem dropoutExpiry_besides : SameBesidesLink r (r.dropoutExpiry w now) := by
  simp only [ChannelRecord.dropoutExpiry]
  split
  · simp only [ChannelRecord.offer]
    split <;> exact ⟨rfl, rfl, rfl, rfl⟩
  all_goals exact ⟨rfl, rfl, rfl, rfl⟩

theorem freshnessExpiry_besides : SameBesidesLink r r.freshnessExpiry := by
  simp only [ChannelRecord.freshnessExpiry]
  split <;> exact ⟨rfl, rfl, rfl, rfl⟩

theorem windowExpiry_besides : SameBesidesLink r (r.windowExpiry w now) := by
  simp only [ChannelRecord.windowExpiry]
  split <;> exact ⟨rfl, rfl, rfl, rfl⟩

theorem evaluate_linkPart (intended : Word) (f : Frame) :
    (r.evaluate w now intended f).linkPart = (r.linkStage w now f).linkPart := by
  simp only [ChannelRecord.evaluate]
  cases f.battery <;> cases f.switch <;> simp

theorem evaluate_memberPart (intended : Word) (f : Frame) :
    (r.evaluate w now intended f).memberPart = r.memberPart := by
  simp only [ChannelRecord.evaluate]
  have := (linkStage_besides w now r f).2.1
  cases f.battery <;> cases f.switch <;> simp [this]

/-- The battery part after a frame: what its battery stage, if it runs, makes of it (R8, R42). -/
theorem evaluate_batteryPart (intended : Word) (f : Frame) :
    (r.evaluate w now intended f).batteryPart =
      (match f.battery with
       | some b => (r.linkStage w now f).batteryStage w b
       | none => r.linkStage w now f).batteryPart := by
  simp only [ChannelRecord.evaluate]
  cases f.battery <;> cases f.switch <;> simp

end

/-! ## One event of a channel (R9, R62, R72) -/

theorem familyEvent_report (c : Chan) (f : Family) (before after : Option Kind) :
    FamilyReport c f before after (familyEvent c f before after) := by
  unfold FamilyReport familyEvent
  cases before with
  | none =>
    cases after with
    | none => simp
    | some k => simp
  | some k =>
    cases after with
    | none => simp
    | some k' =>
      by_cases h : k = k'
      · subst h; simp
      · simp [h]

theorem familyEvent_family (c : Chan) (f : Family) (before after : Option Kind) :
    ∀ ev ∈ familyEvent c f before after, ev.family = f := by
  unfold familyEvent
  cases before <;> cases after <;> simp [ConditionEvent.family]

/-- An event of a channel reports what changed, to the unit and to the enforcement unit (R9, R72); `s` is the state before
the event, `u` the same with the event's message taken. -/
theorem channelEvent_reported (c : Chan) (g : ChannelRecord → ChannelRecord) (s u : State)
    (hc : u.channels = s.channels) (hm : u.mail.conditions = s.mail.conditions) (hn : u.mail.notices = s.mail.notices) :
    ChangeReported c s (channelEvent c g u) := by
  have hr : (channelEvent c g u).channels[c] = eventRecord c g u := by simp [channelEvent]
  unfold ChangeReported
  rw [hr]
  have e1 : (channelEvent c g u).mail.conditions =
      s.mail.conditions ++ conditionEvents c s.channels[c].active (eventRecord c g u).active := by
    simp [channelEvent, reported, hm, hc]
  have e2 : (channelEvent c g u).mail.notices =
      s.mail.notices ++ (if causesDiffer s.channels[c] (eventRecord c g u) then [.causeChange c] else []) := by
    simp [channelEvent, reported, hn, hc]
  rw [e1, e2]
  refine ⟨⟨_, _, _, rfl, familyEvent_report _ _ _ _, familyEvent_report _ _ _ _, familyEvent_report _ _ _ _⟩, ?_, ?_⟩
  · rintro ⟨h1, h2, h3⟩
    rw [if_neg]; simp
    unfold causesDiffer
    rw [h1, h2, h3]; simp
  · intro h
    rw [if_pos]
    unfold causesDiffer
    rcases h with h | h | h
    · rw [decide_eq_true (Ne.symm h)]; simp
    · rw [decide_eq_true (p := s.channels[c].floorCause ≠ _) (Ne.symm h)]; simp
    · rw [decide_eq_true (p := s.channels[c].squelchCause ≠ _) (Ne.symm h)]; simp

/-- The silence judgement at the end of an event that does not touch the open-idle watch itself (R62). -/
theorem channelEvent_judged (c : Chan) (g : ChannelRecord → ChannelRecord) (s u : State) (hc : u.channels = s.channels)
    (hg : (g s.channels[c]).idlePart = s.channels[c].idlePart) : WatchJudged c s (channelEvent c g u) := by
  have hr : (channelEvent c g u).channels[c] = eventRecord c g u := by simp [channelEvent]
  have hs : (channelEvent c g u).settings = u.settings := rfl
  have he : (channelEvent c g u).enf = u.enf := rfl
  unfold WatchJudged State.SilentIn
  rw [hr, hs, he]
  unfold eventRecord
  rw [settleSilence_silent, hc]
  exact ⟨settleSilence_of_silent _ _ _, fun h => (settleSilence_of_not_silent _ _ _ h).trans hg⟩

theorem channelEvent_linkPart (c : Chan) (g : ChannelRecord → ChannelRecord) (s : State) :
    (channelEvent c g s).channels[c].linkPart = (g s.channels[c]).linkPart := by
  have hr : (channelEvent c g s).channels[c] = eventRecord c g s := by simp [channelEvent]
  rw [hr]; simp [eventRecord]

theorem channelEvent_batteryPart (c : Chan) (g : ChannelRecord → ChannelRecord) (s : State) :
    (channelEvent c g s).channels[c].batteryPart = (g s.channels[c]).batteryPart := by
  have hr : (channelEvent c g s).channels[c] = eventRecord c g s := by simp [channelEvent]
  rw [hr]; simp [eventRecord]

theorem channelEvent_memberPart (c : Chan) (g : ChannelRecord → ChannelRecord) (s : State) :
    (channelEvent c g s).channels[c].memberPart = (g s.channels[c]).memberPart := by
  have hr : (channelEvent c g s).channels[c] = eventRecord c g s := by simp [channelEvent]
  rw [hr]; simp [eventRecord]

theorem channelEvent_speechPart (c : Chan) (g : ChannelRecord → ChannelRecord) (s : State) :
    (channelEvent c g s).channels[c].speechPart = (g s.channels[c]).speechPart := by
  have hr : (channelEvent c g s).channels[c] = eventRecord c g s := by simp [channelEvent]
  rw [hr]; simp [eventRecord]

/-! ## The first frame of a channel -/

theorem takeFrame_some (c : Chan) (f : Frame) (before after : List (Chan × Frame)) (h : ∀ p ∈ before, p.1 ≠ c) :
    takeFrame c (before ++ (c, f) :: after) = some (f, before ++ after) := by
  induction before with
  | nil => simp [takeFrame]
  | cons p rest ih =>
    obtain ⟨d, g⟩ := p
    have hd : d ≠ c := h (d, g) (by simp)
    simp [takeFrame, hd, ih (fun q hq => h q (by simp [hq]))]

/-- In ACTIVE the frame that waits first for an enrolled channel is taken (R1, R7, R8). -/
theorem execFrameEvaluation_next (c : Chan) (f : Frame) (before after : List (Chan × Frame)) (s : State)
    (hm : s.mail.frames = before ++ (c, f) :: after) (hb : ∀ p ∈ before, p.1 ≠ c)
    (he : s.channels[c].enrolled = true ∧ s.setup.part = .active) :
    execFrameEvaluation c s =
      .next (channelEvent c (ChannelRecord.evaluate s.settings s.time.ticks s.enf.intended[c] f)
        (s.setMail { s.mail with frames := before ++ after })) := by
  unfold execFrameEvaluation
  rw [hm, takeFrame_some c f before after hb]
  exact if_pos he

end Sys2Proof.Machine
end

