-- ==== Sys2Proof/Laws/PortsKept.lean ====
section
/-! SUPPORT. Every shared operation keeps the law of the two ports (R120, R121, R129). -/

namespace Sys2Proof.Machine

/-- The law of the two ports, as a property of the state. -/
def PortsLawful (s : State) : Prop := s.path.Lawful

/-- From `s` to `t` nothing that the law of the two ports sees has changed. -/
def SameForPorts (s t : State) : Prop :=
  t.path.port = s.path.port ∧ t.path.waiting = s.path.waiting ∧ t.path.processor = s.path.processor ∧
  t.path.held = s.path.held

theorem SameForPorts.keep {s t : State} (h : SameForPorts s t) (hp : PortsLawful s) : PortsLawful t := by
  obtain ⟨h1, h2, h3, h4⟩ := h
  obtain ⟨a, b, c, d⟩ := hp
  exact ⟨by rw [h1, h2]; exact a, by rw [h1, h2]; exact b, by rw [h1, h2, h3]; exact c, by rw [h3, h4]; exact d⟩

theorem SameForPorts.of {s t : State} (h : t.path = s.path) :
    SameForPorts s t := ⟨by rw [h], by rw [h], by rw [h], by rw [h]⟩

/-- A processor access reaches the memory port while none is in progress (R120, R121). -/
theorem serve_portsLawful (a b h) (s : State) (hn : s.path.processor = none) (hh : s.path.held = none)
    (hp : PortsLawful s) :
    PortsLawful (serve a b h s) := by
  obtain ⟨w, so, se, si⟩ := hp
  unfold serve PortsLawful
  show (PathUnit.offer _ _).Lawful
  unfold PathUnit.offer
  rw [hn] at se
  simp only [Option.any_none, Bool.or_eq_false_iff] at se
  obtain ⟨se1, se2⟩ := se
  cases hport : s.path.port with
  | none =>
    have hw : s.path.waiting = none := by
      by_contra hh; exact w hh hport
    refine ⟨fun h => absurd hw h, fun p q _ hq => ?_, ?_, fun _ => hh⟩
    · have : s.path.waiting = some q := hq
      rw [hw] at this; cases this
    · show (Option.any _ (some (PortAccess.processor b)) || Option.any _ s.path.waiting) = _
      rw [hw]; rfl
  | some q =>
    have hq : q.own = true := by
      rw [hport] at se1
      simpa [PortAccess.ofProcessor] using se1
    refine ⟨fun _ => ?_, fun p r hp' hr => ?_, ?_, fun _ => hh⟩
    · show some q ≠ none
      simp
    · have h1 : some q = some p := hp'
      have h2 : r = .processor b := by cases hr; rfl
      cases h1
      rw [hq, h2]; exact Bool.noConfusion
    · show (Option.any _ (some q) || Option.any _ (some (PortAccess.processor b))) = Option.any _ (some _)
      simp [PortAccess.ofProcessor, PortAccess.own]

/-- An access of the enforcement unit's own reaches it while none is in progress (R121). -/
theorem offerOwn_portsLawful (p : PortAccess) (ho : p.own = true) (s : State) (hn : s.path.ownInProgress = false)
    (hp : PortsLawful s) :
    PortsLawful (s.setPath (s.path.offer p)) := by
  obtain ⟨w, so, se, si⟩ := hp
  show (PathUnit.offer _ _).Lawful
  unfold PathUnit.offer
  simp only [PathUnit.ownInProgress, Bool.or_eq_false_iff] at hn
  obtain ⟨n1, n2⟩ := hn
  cases hport : s.path.port with
  | none =>
    have hw : s.path.waiting = none := by
      by_contra hh; exact w hh hport
    refine ⟨fun h => absurd hw h, fun p q _ hq => ?_, ?_, si⟩
    · have : s.path.waiting = some q := hq
      rw [hw] at this; cases this
    · show (Option.any _ (some p) || Option.any _ s.path.waiting) = s.path.processor.any _
      rw [← se, hport, hw]; simp [PortAccess.ofProcessor, ho]
  | some q =>
    have hq : q.own = false := by rw [hport] at n1; simpa using n1
    have hw : s.path.waiting = none := by
      cases hh : s.path.waiting with
      | none => rfl
      | some r =>
        have := so q r hport hh
        rw [hh] at n2
        have n2 : r.own = false := by simpa using n2
        rw [hq, n2] at this; exact absurd rfl this
    refine ⟨fun _ => ?_, fun p' r hp' hr => ?_, ?_, si⟩
    · show some q ≠ none
      simp
    · have h1 : some q = some p' := hp'
      have h2 : r = p := by cases hr; rfl
      cases h1
      rw [hq, h2, ho]; decide
    · show (Option.any _ (some q) || Option.any _ (some p)) = s.path.processor.any _
      rw [← se, hw, hport]; simp [PortAccess.ofProcessor, ho]

theorem takeCommand_sameForPorts (d) (s : State) : SameForPorts s (takeCommand d s) := by
  unfold takeCommand
  split
  · exact SameForPorts.of rfl
  · split
    · exact SameForPorts.of rfl
    · split
      · rename_i k _ _
        cases k
        · show SameForPorts s (commandStart s); unfold commandStart; split
          · exact SameForPorts.of rfl
          · exact ⟨rfl, rfl, rfl, rfl⟩
        · show SameForPorts s (commandApply s); exact SameForPorts.of (by simp)
        · show SameForPorts s (commandHalt s); exact SameForPorts.of (by simp)
        · show SameForPorts s (commandChair _ _ _ s); exact SameForPorts.of (by simp)
        · show SameForPorts s (commandChair _ _ _ s); exact SameForPorts.of (by simp)
        · show SameForPorts s (commandAckAll s); exact SameForPorts.of (by simp)
      · exact SameForPorts.of rfl

theorem serve_portsLawful_of_same {s u : State} (a b h) (hu : SameForPorts s u) (hn : s.path.processor = none)
    (hh : s.path.held = none) (hp : PortsLawful s) :
    PortsLawful (serve a b h u) :=
  serve_portsLawful a b h u (by rw [hu.2.2.1]; exact hn) (by rw [hu.2.2.2]; exact hh) (hu.keep hp)

theorem answered_portsLawful (a d) {s u : State} (hu : SameForPorts s u) (hp : PortsLawful s) :
    PortsLawful (answered a d u) :=
  SameForPorts.keep (s := s) ⟨hu.1, hu.2.1, hu.2.2.1, hu.2.2.2⟩ hp

theorem takeCourse_portsLawful (a) (s : State) (hn : s.path.processor = none) (hh : s.path.held = none)
    (hp : PortsLawful s) :
    PortsLawful (takeCourse a s) := by
  unfold takeCourse
  split
  · exact serve_portsLawful_of_same _ _ _ (SameForPorts.of rfl) hn hh hp
  · exact serve_portsLawful_of_same _ _ _ (SameForPorts.of (by simp)) hn hh hp
  · exact serve_portsLawful_of_same _ _ _ (takeCommand_sameForPorts _ _) hn hh hp
  · exact serve_portsLawful_of_same _ _ _ (SameForPorts.of (by simp)) hn hh hp
  · exact serve_portsLawful_of_same _ _ _ (SameForPorts.of (by simp)) hn hh hp
  · exact serve_portsLawful_of_same _ _ _ (SameForPorts.of (by simp)) hn hh hp
  · exact answered_portsLawful _ _ (SameForPorts.of rfl) hp
  · refine answered_portsLawful _ _ (SameForPorts.of ?_) hp
    unfold answerRead
    split <;> first | rfl | simp
  · exact answered_portsLawful _ _ (SameForPorts.of (by simp)) hp

theorem portTakes_free (s : State) (h : s.portTakes = true) : s.path.processor = none ∧ s.path.held = none := by
  unfold State.portTakes at h
  simp only [Bool.and_eq_true, Option.isNone_iff_eq_none] at h
  exact ⟨h.1.1.2, h.1.2⟩

theorem arrive_portsLawful (a) (s : State) (hn : s.path.processor = none) (hh : s.path.held = none)
    (hp : PortsLawful s) :
    PortsLawful (arrive a s) := by
  unfold arrive; split
  · obtain ⟨w, so, se, si⟩ := hp
    exact ⟨w, so, se, fun h => absurd hn h⟩
  · exact takeCourse_portsLawful _ _ hn hh hp

theorem takePresented_portsLawful (s : State) (hp : PortsLawful s) : PortsLawful (takePresented s) := by
  unfold takePresented; split
  · exact hp
  · split
    · obtain ⟨h1, h2⟩ := portTakes_free s (by assumption)
      exact arrive_portsLawful _ (s.setPath _) h1 h2 (SameForPorts.keep (s := s) ⟨rfl, rfl, rfl, rfl⟩ hp)
    · exact hp

theorem answerOvertaken_portsLawful (a) (s : State) (hp : PortsLawful s) : PortsLawful (answerOvertaken a s) := by
  obtain ⟨⟨c, h⟩, _⟩ := answerOvertaken_units a s
  exact SameForPorts.keep (s := s) ⟨by rw [h], by rw [h], by rw [h], by rw [h]⟩ hp

theorem finishAnswer_portsLawful (s : State) (hp : PortsLawful s) : PortsLawful (finishAnswer s) := by
  obtain ⟨⟨c, h⟩, _⟩ := finishAnswer_units s
  exact SameForPorts.keep (s := s) ⟨by rw [h], by rw [h], by rw [h], by rw [h]⟩ hp

theorem present_portsLawful (a) (s : State) (hp : PortsLawful s) : PortsLawful (present a s) := by
  unfold present; split
  · obtain ⟨h1, h2⟩ := portTakes_free s (by assumption)
    exact arrive_portsLawful _ _ h1 h2 hp
  · split
    · exact takePresented_portsLawful _ (answerOvertaken_portsLawful _ _ hp)
    · exact SameForPorts.keep (s := s) ⟨rfl, rfl, rfl, rfl⟩ hp

theorem releaseHeld_portsLawful (s : State) (hp : PortsLawful s) : PortsLawful (releaseHeld s) := by
  unfold releaseHeld; split
  · exact hp
  · rename_i a ha
    obtain ⟨w, so, se, si⟩ := hp
    have hn : s.path.processor = none := by
      by_contra h
      rw [si h] at ha; cases ha
    exact takeCourse_portsLawful _ (s.setPath _) hn rfl ⟨w, so, se, fun _ => rfl⟩

theorem completeEnded_portsLawful (s : State) (hp : PortsLawful s) : PortsLawful (completeEnded s) := by
  unfold completeEnded; split
  · rename_i p hpr
    split
    · rename_i hh
      obtain ⟨w, so, se, si⟩ := hp
      refine ⟨w, so, ?_, fun h => absurd rfl h⟩
      show (Option.any _ s.path.port || Option.any _ s.path.waiting) = _
      rw [se, hpr]; simp [hh.1]
    · exact hp
  · exact hp

theorem ofPath_portsLawful (s t : State) (h : t.path = s.path) (hp : PortsLawful s) :
    PortsLawful t := (SameForPorts.of h).keep hp

theorem endBurst_portsLawful (s : State) (hp : PortsLawful s) :
    PortsLawful (endBurst s) := takePresented_portsLawful _ (releaseHeld_portsLawful _ hp)

theorem reportIfRestored_portsLawful (s : State) (hp : PortsLawful s) :
    PortsLawful (reportIfRestored s) := ofPath_portsLawful s _ (by simp) hp

theorem claimIfAllowed_portsLawful (s : State) (hp : PortsLawful s) :
    PortsLawful (claimIfAllowed s) := ofPath_portsLawful s _ (by simp) hp

theorem endBrokenCede_portsLawful (s : State) (hp : PortsLawful s) :
    PortsLawful (endBrokenCede s) :=
  takePresented_portsLawful _ (claimIfAllowed_portsLawful _ (releaseHeld_portsLawful _
    (ofPath_portsLawful _ _ (endRestore_path _) hp)))

theorem endLoad_portsLawful (b) (s : State) (hp : PortsLawful s) : PortsLawful (endLoad b s) := by
  unfold endLoad
  dsimp only
  have h : PortsLawful (leaveLoading s) := ofPath_portsLawful s _ (by simp) hp
  split
  · exact takePresented_portsLawful _ (ofPath_portsLawful _ _ (by simp) (releaseHeld_portsLawful _ h))
  · exact takePresented_portsLawful _ (releaseHeld_portsLawful _ (ofPath_portsLawful _ _ (by simp) h))

theorem finishHalt_portsLawful (s : State) (hp : PortsLawful s) : PortsLawful (finishHalt s) := by
  unfold finishHalt; split
  · exact completeEnded_portsLawful _ (ofPath_portsLawful s _ (by simp) hp)
  · exact hp

theorem proceed_portsLawful (s : State) (hn : s.path.ownInProgress = false) (hp : PortsLawful s) :
    PortsLawful (proceed s) := by
  unfold proceed
  split
  · exact endBrokenCede_portsLawful s hp
  · split
    · exact offerOwn_portsLawful _ rfl s hn hp
    all_goals
      split
      · split
        · exact offerOwn_portsLawful (.burstWrite _ _ _) rfl (s.setQueue _) hn hp
        · exact endBurst_portsLawful s hp
      · exact endBurst_portsLawful s hp

theorem proceedAfterOrphan_portsLawful (s : State) (hn : s.path.ownInProgress = false) (hp : PortsLawful s) :
    PortsLawful (proceedAfterOrphan s) := by
  unfold proceedAfterOrphan; split
  · exact proceed_portsLawful s hn hp
  · split
    · exact hp
    · exact reportIfRestored_portsLawful _ hp
  all_goals exact hp

theorem afterOwnAccess_portsLawful (s : State) (hn : s.path.ownInProgress = false) (hp : PortsLawful s) :
    PortsLawful (afterOwnAccess s) := by
  unfold afterOwnAccess; split
  · exact proceedAfterOrphan_portsLawful (s.setEnf _) hn hp
  · split
    · exact proceed_portsLawful s hn hp
    · exact hp

theorem advanceLoad_portsLawful (b c) (s : State) (hn : s.path.ownInProgress = false) (hp : PortsLawful s) :
    PortsLawful (advanceLoad b c s) := by
  unfold advanceLoad; split
  · exact endBrokenCede_portsLawful s hp
  · split
    · exact offerOwn_portsLawful _ rfl (s.setEnf _) hn hp
    · exact endLoad_portsLawful b s hp

theorem beginCeded_portsLawful (s : State) (hp : PortsLawful s) : PortsLawful (beginCeded s) := by
  unfold beginCeded; split
  · exact hp
  · rename_i hh
    cases ho : s.path.ownInProgress with
    | false => exact proceed_portsLawful s ho hp
    | true =>
      have : s.enf.purpose = some .burst ∧ s.enf.queue = [] := by
        by_contra h; exact hh ⟨ho, h⟩
      unfold proceed
      split
      · exact endBrokenCede_portsLawful s hp
      · rw [this.1, this.2]
        exact endBurst_portsLawful s hp

/-- An own access at the port has ended: the law stands, and no own access is in progress (R121). -/
theorem portEnded_portsLawful (p) (ho : PortAccess.own p = true) (s : State) (hport : s.path.port = some p) (hp :
    PortsLawful s) :
    (s.path.portEnded).Lawful ∧ s.path.portEnded.ownInProgress = false := by
  obtain ⟨w, so, se, si⟩ := hp
  have e := portEnded_eq s.path
  have hwo : ∀ q, s.path.waiting = some q → q.own = false := by
    intro q hq
    have := so p q hport hq
    rw [ho] at this
    cases h : q.own
    · rfl
    · rw [h] at this; exact absurd rfl this
  constructor
  · rw [e]
    refine ⟨fun h => absurd rfl h, (by intro p q _ hq; cases hq), ?_, si⟩
    show (Option.any _ s.path.waiting || Option.any _ none) = s.path.processor.any _
    rw [← se, hport]
    simp [PortAccess.ofProcessor, ho]
  · rw [e]
    show (Option.any _ s.path.waiting || Option.any _ none) = _
    cases hh : s.path.waiting with
    | none => rfl
    | some q => simp [hwo q hh]

end Sys2Proof.Machine
end

