-- ==== Sys2Proof/Laws/Presented.lean ====
section
/-! SUPPORT. Which operations bring an access to the processor port: apart from the arrival of a presented one and the release of
the held one, none does, and none makes an access stay presented (R120, R129, R131). -/

namespace Sys2Proof.Machine

/-- No access stays presented; and where none was held, none is, and an access in progress at the processor port is the one that
was in progress `before`. -/
def PortQuiet (unheld : Prop) (before : Option InProgress) (s : State) : Prop :=
  s.path.presented = none ∧
  (unheld → s.path.held = none ∧ ∀ p, s.path.processor = some p → ∃ q, before = some q ∧ p.access = q.access)

theorem State.portQuiet (s : State) (h : s.path.presented = none) :
    PortQuiet (s.path.held = none) s.path.processor s := ⟨h, fun hh => ⟨hh, fun p hp => ⟨p, hp, rfl⟩⟩⟩

variable {unheld : Prop} {before : Option InProgress}

theorem PortQuiet.of_same {s t : State} (hp : PortQuiet unheld before s) (h1 : t.path.presented = s.path.presented)
    (h2 : t.path.held = s.path.held) (h3 : t.path.processor = s.path.processor) : PortQuiet unheld before t := by
  unfold PortQuiet
  rw [h1, h2, h3]
  exact hp

theorem PortQuiet.of_path {s t : State} (hp : PortQuiet unheld before s) (h : t.path = s.path) : PortQuiet unheld before t :=
  hp.of_same (by rw [h]) (by rw [h]) (by rw [h])

theorem offer_same (p : PortAccess) (u : PathUnit) :
    (u.offer p).presented = u.presented ∧ (u.offer p).held = u.held ∧ (u.offer p).processor = u.processor := by
  unfold PathUnit.offer; split <;> exact ⟨rfl, rfl, rfl⟩

theorem offer_portQuiet (p : PortAccess) (s : State) (hp : PortQuiet unheld before s) :
    PortQuiet unheld before (s.setPath (s.path.offer p)) :=
  hp.of_same (offer_same p s.path).1 (offer_same p s.path).2.1 (offer_same p s.path).2.2

theorem portEnded_portQuiet (s : State) (hp : PortQuiet unheld before s) :
    PortQuiet unheld before (s.setPath s.path.portEnded) := by
  rw [portEnded_eq]; exact hp.of_same rfl rfl rfl

theorem takeCommand_presented (data : Word) (s : State) : (takeCommand data s).path.presented = s.path.presented := by
  unfold takeCommand
  split
  · rfl
  · split
    · rfl
    · split
      · unfold carryOut
        split
        · unfold commandStart; split <;> rfl
        all_goals simp
      · rfl

theorem takeCourse_presented (a : Access) (s : State) : (takeCourse a s).path.presented = s.path.presented := by
  have served : ∀ b h (t : State), (serve a b h t).path.presented = t.path.presented := fun b h t => (offer_same _ _).1
  have reply : ∀ d (t : State), (answered a d t).path.presented = t.path.presented := fun d t => rfl
  unfold takeCourse
  split
  · exact served _ _ _
  · rw [served]; simp
  · rw [served]; exact takeCommand_presented _ _
  · rw [served]; simp
  · rw [served]; simp
  · rw [served]; simp
  · exact reply _ _
  · rw [reply]
    unfold answerRead
    split <;> first | rfl | simp
  · rw [reply]; simp

theorem takePresented_portQuiet (s : State) (hp : PortQuiet unheld before s) : PortQuiet unheld before (takePresented s) := by
  unfold takePresented
  rw [hp.1]
  exact hp

theorem releaseHeld_portQuiet (s : State) (hp : PortQuiet unheld before s) : PortQuiet unheld before (releaseHeld s) := by
  unfold releaseHeld
  split
  · exact hp
  · next a ha =>
    refine ⟨(takeCourse_presented _ _).trans hp.1, fun h => ?_⟩
    rw [(hp.2 h).1] at ha
    cases ha

theorem completeEnded_portQuiet (s : State) (hp : PortQuiet unheld before s) : PortQuiet unheld before (completeEnded s) := by
  unfold completeEnded
  split
  · split
    · exact ⟨hp.1, fun h => ⟨(hp.2 h).1, fun p hpr => by cases hpr⟩⟩
    · exact hp
  · exact hp

theorem endBurst_portQuiet (s : State) (hp : PortQuiet unheld before s) : PortQuiet unheld before (endBurst s) :=
  takePresented_portQuiet _ (releaseHeld_portQuiet _ (hp.of_path rfl))

theorem endBrokenCede_portQuiet (s : State) (hp : PortQuiet unheld before s) : PortQuiet unheld before (endBrokenCede s) :=
  takePresented_portQuiet _ (PortQuiet.of_path (releaseHeld_portQuiet _ (PortQuiet.of_path hp (by rw [endRestore_path]; rfl)))
    (claimIfAllowed_path _))

theorem endLoad_portQuiet (b : Bool) (s : State) (hp : PortQuiet unheld before s) :
    PortQuiet unheld before (endLoad b s) := by
  unfold endLoad
  dsimp only
  have h : PortQuiet unheld before (leaveLoading s) := hp.of_path (by simp)
  split
  · exact takePresented_portQuiet _ ((releaseHeld_portQuiet _ h).of_path (by simp))
  · exact takePresented_portQuiet _ (releaseHeld_portQuiet _ (h.of_path (by simp)))

theorem proceed_portQuiet (s : State) (hp : PortQuiet unheld before s) : PortQuiet unheld before (proceed s) := by
  unfold proceed
  split
  · exact endBrokenCede_portQuiet s hp
  · split
    · exact offer_portQuiet _ s hp
    all_goals
      split
      · split
        · exact offer_portQuiet _ (s.setQueue _) hp
        · exact endBurst_portQuiet s hp
      · exact endBurst_portQuiet s hp

theorem afterOwnAccess_portQuiet (s : State) (hp : PortQuiet unheld before s) : PortQuiet unheld before (afterOwnAccess s) := by
  unfold afterOwnAccess proceedAfterOrphan
  split
  · split
    · exact proceed_portQuiet (s.setEnf _) hp
    · split
      · exact hp
      · exact PortQuiet.of_path (s := s) hp (by simp)
    all_goals exact hp
  · split
    · exact proceed_portQuiet s hp
    · exact hp

theorem advanceLoad_portQuiet (b : Bool) (c : Chan) (s : State) (hp : PortQuiet unheld before s) :
    PortQuiet unheld before (advanceLoad b c s) := by
  unfold advanceLoad
  split
  · exact endBrokenCede_portQuiet s hp
  · split
    · exact offer_portQuiet _ (s.setEnf _) hp
    · exact endLoad_portQuiet b s hp

theorem beginCeded_portQuiet (s : State) (hp : PortQuiet unheld before s) : PortQuiet unheld before (beginCeded s) := by
  unfold beginCeded
  split
  · exact hp
  · exact proceed_portQuiet s hp

theorem finishAnswer_portQuiet (s : State) (hp : PortQuiet unheld before s) : PortQuiet unheld before (finishAnswer s) := by
  obtain ⟨⟨c, h⟩, _⟩ := finishAnswer_units s
  exact hp.of_same (by rw [h]) (by rw [h]) (by rw [h])

theorem finishHalt_portQuiet (s : State) (hp : PortQuiet unheld before s) : PortQuiet unheld before (finishHalt s) := by
  unfold finishHalt
  split
  · exact completeEnded_portQuiet _ (hp.of_path (by simp))
  · exact hp

end Sys2Proof.Machine
end

