-- ==== Sys2Proof/Laws/Ranking.lean ====
section
/-! SUPPORT. What each operation of the alert list unit does, in the words of Safety.lean: placing, fresh sequences, entries
made NEW, the most severe pair, and the ranking rule at rest, after a removal of one entry, after a displacement, and
filling the places free; then each event of the unit over a lawful list. -/

namespace Sys2Proof.Machine

variable {u v w : AlertUnit} {stamp : Word}

/-! ## At rest -/

theorem AlertUnit.Lawful.rankStep (h : u.Lawful) (stamp : Word) : u.rankStep stamp = none := by
  unfold AlertUnit.rankStep
  split
  · rfl
  · next p hp =>
    have hm := (mostSevere_some hp).1
    have hl := h.full (List.ne_nil_of_mem hm)
    rw [if_neg (by omega)]
    split
    · rfl
    · next e he => rw [if_neg (not_lt.2 (h.outranked p hm e (List.mem_of_getLast? he)))]

theorem AlertUnit.Lawful.rankFor (h : u.Lawful) (stamp : Word) (tries : Nat) : u.rankFor stamp tries = u := by
  cases tries with
  | zero => rfl
  | succ k => unfold AlertUnit.rankFor; rw [h.rankStep stamp]

/-- A lawful list is at rest under the ranking rule (R93). -/
theorem AlertUnit.Lawful.rank (h : u.Lawful) (stamp : Word) : u.rank stamp = u := h.rankFor stamp _

/-- One step of the ranking rule that restores the law is all that the rule takes (R93). -/
theorem AlertUnit.rank_of_step (hs : u.rankStep stamp = some v) (hv : v.Lawful) : u.rank stamp = v := by
  unfold AlertUnit.rank Config.rankingTries AlertUnit.rankFor
  rw [hs]
  exact hv.rankFor stamp _

/-! ## Events and the live generation (R102) -/

theorem AlertUnit.event_same {f : AlertUnit → AlertUnit} (hr : (f u).rank stamp = v) (hl : v.list = u.list) :
    u.event stamp f = v := by
  unfold AlertUnit.event
  simp only [hr]
  rw [if_pos hl]

theorem AlertUnit.event_changed {f : AlertUnit → AlertUnit} (hr : (f u).rank stamp = v) (hl : v.list ≠ u.list) :
    u.event stamp f = { v with gen := v.gen + 1 } := by
  unfold AlertUnit.event
  simp only [hr]
  rw [if_neg hl]

/-! ## Placing and sequences (R78, R82) -/

theorem placeEntry_placedIn (e : AlertEntry) (l : List AlertEntry)
    (h : l.Pairwise fun x y => y.severity ≤ x.severity) : PlacedIn e l (placeEntry e l) := by
  induction l with
  | nil => exact ⟨[], [], rfl, rfl, by simp, by simp⟩
  | cons x rest ih =>
    obtain ⟨hx, hrest⟩ := List.pairwise_cons.1 h
    unfold placeEntry
    split
    · next hlt =>
      refine ⟨[], x :: rest, rfl, rfl, by simp, fun y hy => ?_⟩
      rcases List.mem_cons.1 hy with rfl | hy
      · exact hlt
      · exact lt_of_le_of_lt (hx y hy) hlt
    · next hge =>
      obtain ⟨front, back, h1, h2, h3, h4⟩ := ih hrest
      refine ⟨x :: front, back, by rw [h1]; rfl, by rw [h2]; rfl, fun y hy => ?_, h4⟩
      rcases List.mem_cons.1 hy with rfl | hy
      · exact not_lt.1 hge
      · exact h3 y hy

theorem PlacedIn.mem {e : AlertEntry} {old new : List AlertEntry} (h : PlacedIn e old new) : e ∈ new := by
  obtain ⟨front, back, _, h2, _⟩ := h
  rw [h2]
  exact List.mem_append_right _ List.mem_cons_self

/-- Where a pair has been made NEW there is an entry of the pair. -/
theorem MadeNew.listed {ch : AlertChannel} {f : Family} {k : Kind} {others : List AlertEntry}
    (h : MadeNew stamp ch f k others u v) : ∃ x ∈ v.list, x.isPair ch f = true := by
  obtain ⟨⟨q, _, hp, _⟩, _⟩ := h
  exact ⟨_, hp.mem, (AlertEntry.isPair_iff _ _ _).2 rfl⟩

theorem freeSeq_seqLater (held : List Word) (tries : Nat) (n : Word) :
    ∃ k ≤ tries, freeSeq held tries n = seqLater k n ∧ ∀ j < k, seqLater j n ∈ held := by
  induction tries generalizing n with
  | zero => exact ⟨0, le_rfl, rfl, fun j hj => absurd hj (Nat.not_lt_zero j)⟩
  | succ t ih =>
    unfold freeSeq
    split
    · next hn =>
      obtain ⟨k, hk, h1, h2⟩ := ih (seqAfter n)
      refine ⟨k + 1, by omega, h1, fun j hj => ?_⟩
      cases j with
      | zero => exact hn
      | succ j => exact h2 j (by omega)
    · exact ⟨0, by omega, rfl, fun j hj => absurd hj (Nat.not_lt_zero j)⟩

theorem AlertUnit.Orderly.givesSeq (h : u.Orderly) : u.GivesSeq u.freshSeq := by
  refine ⟨AlertUnit.freshSeq_ne_zero h, AlertUnit.freshSeq_fresh h, ?_⟩
  obtain ⟨k, hk, h1, h2⟩ := freeSeq_seqLater (u.list.map (·.seq)) u.list.length u.nextSeq
  refine ⟨k, hk, h1, fun j hj => ?_⟩
  obtain ⟨e, he, hs⟩ := List.mem_map.1 (h2 j hj)
  exact ⟨e, he, hs⟩

/-! ## The list without a pair -/

theorem dropPair_of_none {ch : AlertChannel} {f : Family} {l : List AlertEntry}
    (h : ∀ e ∈ l, e.isPair ch f = false) : dropPair ch f l = l :=
  List.filter_eq_self.2 fun e he => by rw [h e he]; rfl

theorem AlertUnit.Orderly.dropPair (h : u.Orderly) {ch : AlertChannel} {f : Family} {e : AlertEntry} (he : e ∈ u.list)
    (hp : e.isPair ch f = true) : dropPair ch f u.list = u.list.filter fun x => decide (x ≠ e) := by
  unfold Sys2Proof.Machine.dropPair
  refine List.filter_congr fun x hx => ?_
  by_cases hxe : x = e
  · subst hxe; simp [hp]
  · have : x.isPair ch f = false := by
      rw [Bool.eq_false_iff]; intro hxp; exact hxe (h.pair_unique hx he hxp hp)
    simp [this, hxe]

theorem AlertUnit.Orderly.mapPair (h : u.Orderly) {ch : AlertChannel} {f : Family} {e : AlertEntry} (he : e ∈ u.list)
    (hp : e.isPair ch f = true) (g : AlertEntry → AlertEntry) :
    mapPair ch f g u.list = u.list.map fun x => if x = e then g e else x := by
  unfold Sys2Proof.Machine.mapPair
  refine List.map_congr_left fun x hx => ?_
  by_cases hxe : x = e
  · subst hxe; simp [hp]
  · have : x.isPair ch f = false := by
      rw [Bool.eq_false_iff]; intro hxp; exact hxe (h.pair_unique hx he hxp hp)
    simp [this, hxe]

theorem AlertUnit.Orderly.seq_unique (h : u.Orderly) {x y : AlertEntry} (hx : x ∈ u.list) (hy : y ∈ u.list)
    (hs : x.seq = y.seq) : x = y := List.inj_on_of_nodup_map h.sequences hx hy hs

theorem AlertUnit.Orderly.mapSeq (h : u.Orderly) {e : AlertEntry} (he : e ∈ u.list) (g : AlertEntry → AlertEntry) :
    mapSeq e.seq g u.list = u.list.map fun x => if x = e then g e else x := by
  unfold Sys2Proof.Machine.mapSeq
  refine List.map_congr_left fun x hx => ?_
  by_cases hxe : x = e
  · subst hxe; simp
  · rw [if_neg hxe, if_neg fun hs => hxe (h.seq_unique hx he hs)]

theorem AlertUnit.Orderly.entryOf (h : u.Orderly) {ch : AlertChannel} {f : Family} {e : AlertEntry} (he : e ∈ u.list)
    (hp : e.isPair ch f = true) : u.entryOf ch f = some e := by
  rcases hx : u.entryOf ch f with _ | x
  · have := AlertUnit.entryOf_none hx e he
    rw [hp] at this; cases this
  · obtain ⟨h1, h2⟩ := AlertUnit.entryOf_some hx
    rw [h.pair_unique h1 he h2 hp]

theorem AlertUnit.entryOf_eq_none {ch : AlertChannel} {f : Family} (h : ∀ e ∈ u.list, e.isPair ch f = false) :
    u.entryOf ch f = none := List.find?_eq_none.2 fun e he => by rw [h e he]; simp

theorem AlertUnit.Orderly.entryAt (h : u.Orderly) {e : AlertEntry} (he : e ∈ u.list) : u.entryAt e.seq = some e := by
  rcases hx : u.entryAt e.seq with _ | x
  · have := List.find?_eq_none.1 hx e he
    simp at this
  · have h1 := List.mem_of_find?_eq_some hx
    have h2 : x.seq = e.seq := by simpa using List.find?_some hx
    rw [h.seq_unique h1 he h2]

theorem AlertUnit.entryAt_eq_none {q : Word} (h : ∀ e ∈ u.list, e.seq ≠ q) : u.entryAt q = none :=
  List.find?_eq_none.2 fun e he => by simpa using h e he

/-- A list that a change in place has changed differs from the list before it. -/
theorem map_one_ne {l : List AlertEntry} {e e' : AlertEntry} (he : e ∈ l) (hne : e' ≠ e) :
    (l.map fun x => if x = e then e' else x) ≠ l := by
  intro h
  have := List.map_eq_map_iff.1 (h.trans (List.map_id l).symm) e he
  rw [if_pos rfl] at this
  exact hne this

theorem map_one_same {l : List AlertEntry} {e : AlertEntry} : (l.map fun x => if x = e then e else x) = l := by
  refine (List.map_congr_left (g := id) fun x _ => ?_).trans (List.map_id l)
  split
  · next h => exact h.symm
  · rfl

/-! ## Entries made NEW (R85 to R87, R95) -/

/-- The unit with the pair made NEW. -/
theorem AlertUnit.Orderly.becameNew (h : u.Orderly) (stamp : Word) (ch : AlertChannel) (f : Family) (k : Kind) :
    BecameNew stamp ch f k (Sys2Proof.Machine.dropPair ch f u.list) u (u.makeNew stamp ch f k) :=
  ⟨u.freshSeq, h.givesSeq, placeEntry_placedIn _ _ (h.ranked.sublist List.filter_sublist), rfl, rfl⟩

/-- The unit with the pair made NEW, and the live generation raised. -/
theorem AlertUnit.Orderly.makeNew (h : u.Orderly) (stamp : Word) (ch : AlertChannel) (f : Family) (k : Kind) :
    MadeNew stamp ch f k (Sys2Proof.Machine.dropPair ch f u.list) u
      { u.makeNew stamp ch f k with gen := u.gen + 1 } :=
  ⟨h.becameNew stamp ch f k, rfl, rfl, rfl⟩

theorem mem_placeEntry (e : AlertEntry) (l : List AlertEntry) (x : AlertEntry) :
    x ∈ placeEntry e l ↔ x = e ∨ x ∈ l := by
  rw [(placeEntry_perm e l).mem_iff, List.mem_cons]

theorem length_placeEntry (e : AlertEntry) (l : List AlertEntry) : (placeEntry e l).length = l.length + 1 :=
  (placeEntry_perm e l).length_eq

/-- The list has changed when a pair was made NEW: its sequence is held by no entry before. -/
theorem AlertUnit.Orderly.makeNew_ne (h : u.Orderly) (stamp : Word) (ch : AlertChannel) (f : Family) (k : Kind)
    {l : List AlertEntry} (hl : ∀ e ∈ l, e ∈ u.list ∨ e.seq ≠ u.freshSeq) : (u.makeNew stamp ch f k).list ≠ l := by
  intro he
  have hm : { channel := ch, family := f, kind := k, state := .new, seq := u.freshSeq, stamp := stamp } ∈ l := by
    rw [← he]; exact (mem_placeEntry _ _ _).2 (.inl rfl)
  rcases hl _ hm with h1 | h1
  · exact AlertUnit.freshSeq_fresh h _ h1 rfl
  · exact h1 rfl

/-! ## The unlisted set (R81, R93) -/

theorem UnlistedPair.key_inj (p q : UnlistedPair) : p.key = q.key ↔ p.channel = q.channel ∧ p.family = q.family := by
  refine ⟨UnlistedPair.key_eq p q, fun ⟨h1, h2⟩ => ?_⟩
  unfold UnlistedPair.key
  rw [h1, h2]

theorem self_mem_joinUnlisted (p : UnlistedPair) (l : List UnlistedPair) : p ∈ joinUnlisted p l := by
  induction l with
  | nil => simp [joinUnlisted]
  | cons x rest ih =>
    unfold joinUnlisted
    split
    · simp
    · split
      · simp
      · exact List.mem_cons_of_mem _ ih

theorem joinUnlisted_replaces (p : UnlistedPair) (l : List UnlistedPair) (hl : l.Pairwise fun p q => p.key < q.key)
    (q : UnlistedPair) (hq : q ∈ joinUnlisted p l) : q = p ∨ q.key ≠ p.key := by
  have hs := joinUnlisted_keys p l hl
  by_cases h : q = p
  · exact .inl h
  · right
    intro hk
    have hp := self_mem_joinUnlisted p l
    have nodup : ((joinUnlisted p l).map UnlistedPair.key).Nodup :=
      List.Pairwise.map _ (fun a b hab => ne_of_lt hab) hs
    exact h (List.inj_on_of_nodup_map nodup hq hp hk)

/-- The members after a pair joined (R81, R90). -/
theorem mem_joinUnlisted_iff (p : UnlistedPair) (l : List UnlistedPair) (hl : l.Pairwise fun p q => p.key < q.key)
    (q : UnlistedPair) :
    q ∈ joinUnlisted p l ↔ q = p ∨ (q ∈ l ∧ ¬(q.channel = p.channel ∧ q.family = p.family)) := by
  rw [← UnlistedPair.key_inj]
  constructor
  · intro h
    rcases joinUnlisted_replaces p l hl q h with h1 | h1
    · exact .inl h1
    · rcases mem_joinUnlisted p l q h with h2 | h2
      · exact .inl h2
      · exact .inr ⟨h2, h1⟩
  · rintro (rfl | ⟨h1, h2⟩)
    · exact self_mem_joinUnlisted _ _
    · exact mem_joinUnlisted_of_ne p l q h1 h2

theorem MostSevereIn.unique {p q : UnlistedPair} {l : List UnlistedPair} (hp : MostSevereIn p l) (hq : MostSevereIn q l) :
    p = q := by
  rcases hp.2 q hq.1 with h | h | ⟨h, h'⟩
  · exact h.symm
  all_goals
    rcases hq.2 p hp.1 with g | g | ⟨g, g'⟩
    · exact g
    all_goals omega

theorem mostSevere_mostSevereIn {l : List UnlistedPair} (hl : l.Pairwise fun p q => p.key < q.key) {p : UnlistedPair}
    (h : mostSevere l = some p) : MostSevereIn p l := by
  induction l generalizing p with
  | nil => simp [mostSevere] at h
  | cons x rest ih =>
    obtain ⟨hx, hrest⟩ := List.pairwise_cons.1 hl
    unfold mostSevere at h
    split at h
    · next hn =>
      cases h
      rw [mostSevere_none hn]
      exact ⟨by simp, by simp⟩
    · next q hq =>
      obtain ⟨h1, h2⟩ := ih hrest hq
      split at h
      · next hlt =>
        cases h
        refine ⟨List.mem_cons_of_mem _ h1, fun y hy => ?_⟩
        rcases List.mem_cons.1 hy with rfl | hy
        · exact .inr (.inl hlt)
        · exact h2 y hy
      · next hge =>
        cases h
        refine ⟨List.mem_cons_self, fun y hy => ?_⟩
        rcases List.mem_cons.1 hy with rfl | hy
        · exact .inl rfl
        · right
          have := hx y hy
          rcases h2 y hy with rfl | g | ⟨g, _⟩ <;> omega

theorem MostSevereIn.mostSevere {l : List UnlistedPair} (hl : l.Pairwise fun p q => p.key < q.key) {p : UnlistedPair}
    (h : MostSevereIn p l) : mostSevere l = some p := by
  rcases hm : Sys2Proof.Machine.mostSevere l with _ | q
  · rw [mostSevere_none hm] at h; cases h.1
  · rw [(mostSevere_mostSevereIn hl hm).unique h]

/-- A member without its pair's place in the set is another member (R81). -/
theorem AlertUnit.Orderly.mem_leave (h : u.Orderly) {p : UnlistedPair} (hp : p ∈ u.unlisted) (q : UnlistedPair) :
    q ∈ leaveUnlisted p.channel p.family u.unlisted ↔ q ∈ u.unlisted ∧ q ≠ p := by
  rw [mem_leaveUnlisted]
  refine and_congr_right fun hq => not_congr ⟨fun hk => ?_, fun hk => by rw [hk]⟩
  have nodup : (u.unlisted.map UnlistedPair.key).Nodup := List.Pairwise.map _ (fun a b hab => ne_of_lt hab) h.keys
  have hk' := Prod.mk.inj hk
  exact List.inj_on_of_nodup_map nodup hq hp ((UnlistedPair.key_inj q p).2 hk')

/-! ## A promotion into a free place (R93 step (a), R95) -/

/-- No unlisted pair is more severe than an entry. -/
def AlertUnit.Outranked (u : AlertUnit) : Prop := ∀ p ∈ u.unlisted, ∀ e ∈ u.list, p.severity ≤ e.severity

theorem AlertUnit.promote_dropPair (h : u.Orderly) {p : UnlistedPair} (hp : p ∈ u.unlisted) :
    dropPair (.mic p.channel) p.family u.list = u.list := dropPair_of_none fun e he => h.apart p hp e he

theorem AlertUnit.promote_outranked (h : u.Orderly) (ho : u.Outranked) {p : UnlistedPair}
    (hp : mostSevere u.unlisted = some p) : (u.promote stamp p).Outranked := by
  obtain ⟨hm, hmax⟩ := mostSevere_some hp
  intro q hq e he
  have hq' : q ∈ u.unlisted := (mem_leaveUnlisted _ _ _ _).1 hq |>.1
  have he' : e ∈ placeEntry _ (dropPair (.mic p.channel) p.family u.list) := he
  rw [AlertUnit.promote_dropPair h hm] at he'
  rcases (mem_placeEntry _ _ _).1 he' with rfl | he'
  · exact hmax q hq'
  · exact ho q hq' e he'

theorem AlertUnit.promote_length (h : u.Orderly) {p : UnlistedPair} (hp : p ∈ u.unlisted) :
    (u.promote stamp p).list.length = u.list.length + 1 := by
  show (placeEntry _ (dropPair (.mic p.channel) p.family u.list)).length = _
  rw [AlertUnit.promote_dropPair h hp, length_placeEntry]

/-- A promotion of the most severe pair: it is made NEW, and leaves the set (R95). -/
theorem AlertUnit.promote_spec (h : u.Orderly) {p : UnlistedPair} (hp : p ∈ u.unlisted) (stamp : Word) :
    BecameNew stamp (.mic p.channel) p.family p.kind u.list u (u.promote stamp p) ∧
      ∀ q, q ∈ (u.promote stamp p).unlisted ↔ q ∈ u.unlisted ∧ q ≠ p := by
  have left : AlertUnit.Orderly { u with unlisted := leaveUnlisted p.channel p.family u.unlisted } :=
    h.of_sublist (.refl _) List.filter_sublist _ rfl rfl rfl
  have hm := left.becameNew stamp (.mic p.channel) p.family p.kind
  refine ⟨?_, h.mem_leave hp⟩
  have hd : dropPair (.mic p.channel) p.family u.list = u.list := AlertUnit.promote_dropPair h hp
  obtain ⟨q, h1, h2, h3, h4⟩ := hm
  exact ⟨q, h1, by rw [← hd]; exact h2, h3, h4⟩

theorem AlertUnit.promote_madeNew (h : u.Orderly) {p : UnlistedPair} (hp : p ∈ u.unlisted) (stamp : Word) :
    MadeNew stamp (.mic p.channel) p.family p.kind u.list u { u.promote stamp p with gen := u.gen + 1 } :=
  ⟨(AlertUnit.promote_spec h hp stamp).1, rfl, rfl, rfl⟩

/-! ## An entry taken out (R91, R93, R98) -/

theorem AlertUnit.Lawful.without (h : u.Lawful) (e : AlertEntry) (w : AlertUnit)
    (hl : w.list = u.list.filter fun x => decide (x ≠ e)) (hu : w.unlisted = u.unlisted) (hs : w.nextSeq = u.nextSeq) :
    w.Orderly ∧ w.Outranked := by
  refine ⟨h.toOrderly.of_sublist List.filter_sublist (.refl _) _ hl hu hs, fun p hp x hx => ?_⟩
  rw [hu] at hp
  rw [hl] at hx
  exact h.outranked p hp x (List.mem_filter.1 hx).1

/-- The ranking rule after an entry of a lawful list was taken out: the most severe unlisted pair, if there is one, is
promoted into its place. -/
theorem AlertUnit.Lawful.takenOut (h : u.Lawful) {e : AlertEntry} (he : e ∈ u.list) (stamp : Word) (w : AlertUnit)
    (hl : w = { u with list := u.list.filter fun x => decide (x ≠ e) }) :
    TakenOut stamp e u { w.rank stamp with gen := u.gen + 1 } ∧ (w.rank stamp).list ≠ u.list ∧
      (w.rank stamp).gen = u.gen := by
  obtain ⟨ho, hr⟩ := h.without e w (by rw [hl]) (by rw [hl]) (by rw [hl])
  have hwl : w.list = u.list.filter fun x => decide (x ≠ e) := by rw [hl]
  have hwu : w.unlisted = u.unlisted := by rw [hl]
  rcases hm : mostSevere u.unlisted with _ | p
  · have hn := mostSevere_none hm
    have hw : w.rank stamp = w := AlertUnit.rank_of_unlisted_nil stamp (hwu.trans hn)
    rw [hw]
    refine ⟨⟨fun _ => by rw [hl], fun p hp => by rw [hn] at hp; cases hp.1⟩, fun hc => ?_, by rw [hl]⟩
    rw [hwl] at hc
    have := hc ▸ he
    simp at this
  · have hin := mostSevere_mostSevereIn h.keys hm
    have hpw : p ∈ w.unlisted := by rw [hwu]; exact hin.1
    have hlen : u.list.length = Config.listCapacity := h.full (List.ne_nil_of_mem hin.1)
    have hlt : w.list.length < Config.listCapacity := by
      rw [hwl, ← hlen]
      refine lt_of_le_of_ne (List.length_filter_le _ _) fun hc => ?_
      have := List.filter_sublist.eq_of_length hc
      rw [← this] at he
      simp at he
    have hlen' : w.list.length + 1 = Config.listCapacity := by
      have h1 : u.list.Nodup := List.Nodup.of_map _ h.pairs
      have h2 : (u.list.filter fun x => decide (x ≠ e)).length + 1 = u.list.length := by
        have h3 : u.list.filter (fun x => decide (x ≠ e)) = u.list.erase e := by
          rw [h1.erase_eq_filter]
          refine List.filter_congr fun x _ => ?_
          by_cases hx : x = e <;> simp [hx]
        rw [h3, List.length_erase_of_mem he]
        have := List.length_pos_of_mem he
        omega
      rw [hwl, h2, hlen]
    have hstep : w.rankStep stamp = some (w.promote stamp p) := by
      unfold AlertUnit.rankStep
      rw [hwu, hm]
      simp only [hlt, if_true]
    have hord := AlertUnit.promote_orderly ho stamp p hlt
    have hout : (w.promote stamp p).Outranked := AlertUnit.promote_outranked ho hr (by rw [hwu]; exact hm)
    have hlaw : (w.promote stamp p).Lawful :=
      { hord with
        full := fun _ => by rw [AlertUnit.promote_length ho hpw, hlen']
        outranked := hout }
    rw [AlertUnit.rank_of_step hstep hlaw]
    have h1 := AlertUnit.promote_madeNew ho hpw stamp
    have h2 := (AlertUnit.promote_spec ho hpw stamp).2
    have hwg : w.gen = u.gen := by rw [hl]
    refine ⟨⟨fun hn => ?_, fun p' hp' => ?_⟩, fun hc => ?_, hwg⟩
    · rw [hn] at hin; cases hin.1
    · obtain rfl := hp'.unique hin
      rw [hwl, hwg] at h1
      refine ⟨?_, fun q => ?_⟩
      · subst hl
        exact h1
      · rw [← hwu]; exact h2 q
    · obtain ⟨x, hx, hxp⟩ := h1.listed
      rw [h.apart p hin.1 x (hc ▸ hx)] at hxp
      cases hxp

/-! ## A displacement (R93 step (b), R94) -/

theorem AlertUnit.Orderly.mem_evictLast (h : u.Orderly) {front : List AlertEntry} {last : AlertEntry}
    (hl : u.list = front ++ [last]) (q : UnlistedPair) :
    q ∈ u.evictLast.unlisted ↔ q ∈ u.unlisted ∨
      (last.state ≠ .cleared ∧ last.channel = .mic q.channel ∧ last.family = q.family ∧ last.kind = q.kind) := by
  have hlast : u.list.getLast? = some last := by rw [hl]; simp
  have hmem : last ∈ u.list := by rw [hl]; simp
  have joins : ∀ c, last.channel = .mic c →
      (q ∈ joinUnlisted { channel := c, family := last.family, kind := last.kind } u.unlisted ↔ q ∈ u.unlisted ∨
        (last.channel = .mic q.channel ∧ last.family = q.family ∧ last.kind = q.kind)) := by
    intro c hc
    rw [mem_joinUnlisted_iff _ _ h.keys, hc]
    constructor
    · rintro (rfl | ⟨h1, _⟩)
      · exact .inr ⟨rfl, rfl, rfl⟩
      · exact .inl h1
    · rintro (h1 | ⟨h1, h2, h3⟩)
      · refine .inr ⟨h1, fun hk => ?_⟩
        have := h.apart q h1 last hmem
        rw [hk.1, hk.2] at this
        simp [AlertEntry.isPair, hc] at this
      · left
        cases h1
        rw [h2, h3]
  unfold AlertUnit.evictLast
  rw [hlast]
  rcases hs : last.state <;> rcases hc : last.channel with c | _ <;> simp [hs, hc] <;>
    simpa [hc] using joins c hc

theorem AlertUnit.evictLast_gen (u : AlertUnit) : u.evictLast.gen = u.gen := by
  unfold AlertUnit.evictLast; split <;> rfl

theorem AlertUnit.evictLast_ack (u : AlertUnit) :
    u.evictLast.ackResult = u.ackResult ∧ u.evictLast.ackValue = u.ackValue := by
  unfold AlertUnit.evictLast; split <;> exact ⟨rfl, rfl⟩

/-- What a unit with the last entry evicted gives a pair made NEW. -/
theorem MadeNew.of_evictLast {ch : AlertChannel} {f : Family} {k : Kind} {front : List AlertEntry} {last : AlertEntry}
    (hl : u.list = front ++ [last]) (h : MadeNew stamp ch f k front u.evictLast v) :
    MadeNew stamp ch f k front { u with list := front } v := by
  obtain ⟨⟨q, ⟨a1, a2, a3⟩, b, c, d⟩, e, g, i⟩ := h
  have hf : u.evictLast.list = front := by rw [AlertUnit.evictLast_list, hl]; simp
  rw [hf] at a2 a3
  rw [AlertUnit.evictLast_nextSeq] at a3
  refine ⟨⟨q, ⟨a1, a2, a3⟩, b, c, d⟩, ?_, ?_, ?_⟩
  · rw [e, AlertUnit.evictLast_gen]
  · rw [g, (AlertUnit.evictLast_ack u).1]
  · rw [i, (AlertUnit.evictLast_ack u).2]

/-- The ranking rule over a full list in which an unlisted pair outranks the last entry and no other unlisted pair an entry
before it: the last entry is evicted and the most severe pair promoted. -/
theorem AlertUnit.Orderly.displaced (h : u.Orderly) (stamp : Word) {front : List AlertEntry} {last : AlertEntry}
    {p : UnlistedPair} (hl : u.list = front ++ [last]) (hlen : u.list.length = Config.listCapacity)
    (hmost : MostSevereIn p u.unlisted) (hlt : last.severity < p.severity)
    (hrest : ∀ q ∈ u.unlisted, q ≠ p → ∀ e ∈ front, q.severity ≤ e.severity) :
    MadeNew stamp (.mic p.channel) p.family p.kind front { u with list := front }
        { u.rank stamp with gen := u.gen + 1 } ∧
      (u.rank stamp).list ≠ u.list ∧ (u.rank stamp).gen = u.gen ∧
      ∀ q, q ∈ (u.rank stamp).unlisted ↔ (q ∈ u.unlisted ∧ q ≠ p) ∨
        (last.state ≠ .cleared ∧ last.channel = .mic q.channel ∧ last.family = q.family ∧ last.kind = q.kind) := by
  have hlast : u.list.getLast? = some last := by rw [hl]; simp
  have hmem : last ∈ u.list := by rw [hl]; simp
  have hfront : u.evictLast.list = front := by rw [AlertUnit.evictLast_list, hl]; simp
  have hflen : front.length + 1 = Config.listCapacity := by rw [← hlen, hl]; simp
  have hp := hmost.1
  have hev := AlertUnit.evictLast_orderly h
  have below : ∀ q ∈ u.evictLast.unlisted, q = p ∨ (∀ e ∈ front, q.severity ≤ e.severity) := by
    intro q hq
    rcases (h.mem_evictLast hl q).1 hq with h1 | ⟨_, _, _, hk⟩
    · by_cases hqp : q = p
      · exact .inl hqp
      · exact .inr (hrest q h1 hqp)
    · refine .inr fun e he => ?_
      have hr := h.ranked
      rw [hl] at hr
      have := (List.pairwise_append.1 hr).2.2 e he last (by simp)
      unfold UnlistedPair.severity
      unfold AlertEntry.severity at this
      rw [← hk]
      exact this
  have hpe : p ∈ u.evictLast.unlisted := (h.mem_evictLast hl p).2 (.inl hp)
  have top : MostSevereIn p u.evictLast.unlisted := by
    refine ⟨hpe, fun q hq => ?_⟩
    rcases (h.mem_evictLast hl q).1 hq with h1 | ⟨_, _, _, hk⟩
    · exact hmost.2 q h1
    · refine .inr (.inl ?_)
      unfold UnlistedPair.severity AlertEntry.severity at *
      rw [← hk]
      exact hlt
  have hstep : u.rankStep stamp = some (u.evictLast.promote stamp p) := by
    unfold AlertUnit.rankStep
    rw [hmost.mostSevere h.keys]
    simp only
    rw [if_neg (by omega), hlast]
    simp only
    rw [if_pos hlt, top.mostSevere hev.keys]
  have hroom : u.evictLast.list.length < Config.listCapacity := by rw [hfront]; omega
  have hleave := hev.mem_leave hpe
  have hlaw : (u.evictLast.promote stamp p).Lawful :=
    { AlertUnit.promote_orderly hev stamp p hroom with
      full := fun _ => by rw [AlertUnit.promote_length hev hpe, hfront, hflen]
      outranked := by
        intro q hq e he
        obtain ⟨h1, h2⟩ := (hleave q).1 hq
        have he' : e ∈ placeEntry _ (Sys2Proof.Machine.dropPair (.mic p.channel) p.family u.evictLast.list) := he
        rw [AlertUnit.promote_dropPair hev hpe] at he'
        rcases (mem_placeEntry _ _ _).1 he' with rfl | he'
        · rcases top.2 q h1 with h3 | h3 | h3
          · exact absurd h3 h2
          · exact h3.le
          · exact h3.1.le
        · rw [hfront] at he'
          exact (below q h1).resolve_left h2 e he' }
  rw [AlertUnit.rank_of_step hstep hlaw]
  have h1 := AlertUnit.promote_madeNew hev hpe stamp
  have h2 := (AlertUnit.promote_spec hev hpe stamp).2
  rw [hfront] at h1
  refine ⟨?_, fun hc => ?_, AlertUnit.evictLast_gen u, fun q => ?_⟩
  · have := h1.of_evictLast hl
    rw [AlertUnit.evictLast_gen] at this
    exact this
  · obtain ⟨x, hx, hxp⟩ := h1.listed
    rw [h.apart p hp x (hc ▸ hx)] at hxp
    cases hxp
  · rw [h2, h.mem_evictLast hl, or_and_right]
    refine or_congr_right ⟨fun h => h.1, fun h' => ⟨h', fun hqp => ?_⟩⟩
    have := h.apart p hp last hmem
    rw [← hqp] at this
    simp [AlertEntry.isPair, h'.2.1, h'.2.2.1] at this

/-! ## Free places filled (R93 step (a), R95) -/

theorem AlertUnit.rankFor_promoted (stamp : Word) (tries : Nat) (h : u.Orderly) (ho : u.Outranked) :
    (∃ ps, Promoted stamp ps u (u.rankFor stamp tries)) ∧ (u.rankFor stamp tries).gen = u.gen := by
  induction tries generalizing u with
  | zero => exact ⟨⟨[], rfl⟩, rfl⟩
  | succ k ih =>
    unfold AlertUnit.rankFor
    split
    · exact ⟨⟨[], rfl⟩, rfl⟩
    · next v hs =>
      have hv := (AlertUnit.rankStep_some h stamp hs).1
      unfold AlertUnit.rankStep at hs
      split at hs
      · cases hs
      · next p hp =>
        have hm := mostSevere_mostSevereIn h.keys hp
        split at hs
        · next hlen =>
          cases hs
          obtain ⟨⟨ps, hps⟩, hg⟩ := ih hv (AlertUnit.promote_outranked h ho hp)
          obtain ⟨h1, h2⟩ := AlertUnit.promote_spec h hm.1 stamp
          exact ⟨⟨p :: ps, hlen, hm, _, h1, h2, rfl, rfl, rfl, hps⟩, hg⟩
        · split at hs
          · cases hs
          · next e he =>
            rw [if_neg (not_lt.2 (ho p hm.1 e (List.mem_of_getLast? he)))] at hs
            cases hs

theorem Filled.with_gen (h : Filled stamp u v) (n : Nat) : Filled stamp u { v with gen := n } := by
  obtain ⟨ps, w, h1, h2, h3⟩ := h
  exact ⟨ps, w, h1, h2, by rw [h3]⟩

/-- The ranking rule fills the places free in a list that no unlisted pair outranks. -/
theorem AlertUnit.rank_filled (stamp : Word) (h : u.Orderly) (ho : u.Outranked) :
    Filled stamp u (u.rank stamp) ∧ (u.rank stamp).gen = u.gen := by
  obtain ⟨⟨ps, hps⟩, hg⟩ := AlertUnit.rankFor_promoted stamp Config.rankingTries h ho
  have hl := AlertUnit.rank_lawful stamp h
  refine ⟨⟨ps, _, hps, ?_, rfl⟩, hg⟩
  by_cases hn : (u.rank stamp).unlisted = []
  · exact .inl hn
  · exact .inr (hl.full hn)

/-! ## Events of a lawful list -/

theorem AlertUnit.Lawful.event_id (h : u.Lawful) (stamp : Word) {g : AlertUnit → AlertUnit} (hg : g u = u) :
    u.event stamp g = u := AlertUnit.event_same (by rw [hg]; exact h.rank stamp) rfl

/-- An event that makes one pair NEW and leaves the list at rest. -/
theorem AlertUnit.Lawful.event_new (h : u.Lawful) (stamp : Word) {ch : AlertChannel} {f : Family} {k : Kind}
    {g : AlertUnit → AlertUnit} (hg : g u = u.makeNew stamp ch f k) (hl : (u.makeNew stamp ch f k).Lawful)
    {others : List AlertEntry} (ho : dropPair ch f u.list = others) :
    MadeNew stamp ch f k others u (u.event stamp g) ∧ (u.event stamp g).unlisted = u.unlisted := by
  have hne := h.toOrderly.makeNew_ne stamp ch f k (l := u.list) (fun e he => .inl he)
  rw [AlertUnit.event_changed (v := u.makeNew stamp ch f k) (by rw [hg]; exact hl.rank stamp) hne]
  subst ho
  exact ⟨h.toOrderly.makeNew stamp ch f k, rfl⟩

theorem AlertUnit.Lawful.makeNew_lawful (h : u.Lawful) (stamp : Word) (ch : AlertChannel) (f : Family) (k : Kind)
    (ho : (u.makeNew stamp ch f k).Orderly)
    (hlen : u.unlisted ≠ [] → (u.makeNew stamp ch f k).list.length = Config.listCapacity)
    (hk : ∀ q ∈ u.unlisted, q.severity ≤ k.severity) : (u.makeNew stamp ch f k).Lawful :=
  { ho with
    full := hlen
    outranked := by
      intro p hp e he
      have he' : e ∈ placeEntry _ (Sys2Proof.Machine.dropPair ch f u.list) := he
      rcases (mem_placeEntry _ _ _).1 he' with rfl | he'
      · exact hk p hp
      · exact h.outranked p hp e ((mem_dropPair _ _ _ _).1 he').1 }

theorem AlertUnit.Orderly.length_dropPair (h : u.Orderly) {ch : AlertChannel} {f : Family} {e : AlertEntry}
    (he : e ∈ u.list) (hp : e.isPair ch f = true) :
    (Sys2Proof.Machine.dropPair ch f u.list).length + 1 = u.list.length := by
  rw [h.dropPair he hp]
  have h1 : u.list.Nodup := List.Nodup.of_map _ h.pairs
  have h3 : u.list.filter (fun x => decide (x ≠ e)) = u.list.erase e := by
    rw [h1.erase_eq_filter]
    refine List.filter_congr fun x _ => ?_
    by_cases hx : x = e <;> simp [hx]
  rw [h3, List.length_erase_of_mem he]
  have := List.length_pos_of_mem he
  omega

/-- A listed pair made NEW at a kind that no unlisted pair outranks leaves the list at rest. -/
theorem AlertUnit.Lawful.renew_lawful (h : u.Lawful) (stamp : Word) {ch : AlertChannel} {f : Family} {k : Kind}
    {e : AlertEntry} (he : e ∈ u.list) (hp : e.isPair ch f = true) (hk : ∀ q ∈ u.unlisted, q.severity ≤ k.severity) :
    (u.makeNew stamp ch f k).Lawful := by
  refine h.makeNew_lawful stamp ch f k (AlertUnit.makeNew_orderly h.toOrderly stamp ch f k (.inl ⟨e, he, hp⟩)
    (AlertUnit.pair_not_unlisted h.toOrderly he hp)) (fun hne => ?_) hk
  show (placeEntry _ (Sys2Proof.Machine.dropPair ch f u.list)).length = _
  rw [length_placeEntry, h.toOrderly.length_dropPair he hp]
  exact h.full hne

/-- A pair joins the unlisted set and no entry is below it: the list stands. -/
theorem AlertUnit.Lawful.event_joined (h : u.Lawful) (stamp : Word) {p : UnlistedPair} {g : AlertUnit → AlertUnit}
    (hg : g u = { u with unlisted := joinUnlisted p u.unlisted })
    (hn : ∀ e ∈ u.list, e.isPair (.mic p.channel) p.family = false) (hlen : u.list.length = Config.listCapacity)
    (hk : ∀ e ∈ u.list, p.severity ≤ e.severity) :
    u.event stamp g = { u with unlisted := joinUnlisted p u.unlisted } := by
  refine AlertUnit.event_same ?_ rfl
  rw [hg]
  refine AlertUnit.Lawful.rank ?_ stamp
  exact { h.toOrderly.join p hn with
    full := fun _ => hlen
    outranked := by
      intro q hq e he
      rcases mem_joinUnlisted _ _ _ hq with rfl | hq
      · exact hk e he
      · exact h.outranked q hq e he }

/-- A pair joins the unlisted set and the last entry is below it: it displaces that entry. -/
theorem AlertUnit.Lawful.event_displaced (h : u.Lawful) (stamp : Word) {p : UnlistedPair} {g : AlertUnit → AlertUnit}
    (hg : g u = { u with unlisted := joinUnlisted p u.unlisted })
    (hn : ∀ e ∈ u.list, e.isPair (.mic p.channel) p.family = false) (hlen : u.list.length = Config.listCapacity)
    {front : List AlertEntry} {last : AlertEntry} (hl : u.list = front ++ [last]) (hlt : last.severity < p.severity) :
    MadeNew stamp (.mic p.channel) p.family p.kind front { u with list := front } (u.event stamp g) ∧
      EvictedInto last (some (p.channel, p.family)) u (u.event stamp g) := by
  have ho := h.toOrderly.join p hn
  obtain ⟨h1, h2, h3, h4⟩ := ho.displaced stamp (front := front) (last := last) (p := p) hl hlen
    ⟨self_mem_joinUnlisted _ _, fun q hq => by
      rcases mem_joinUnlisted _ _ _ hq with rfl | hq
      · exact .inl rfl
      · exact .inr (.inl (lt_of_le_of_lt (h.outranked q hq last (by rw [hl]; simp)) hlt))⟩ hlt
    (fun q hq hne e he => by
      rcases mem_joinUnlisted _ _ _ hq with rfl | hq
      · exact absurd rfl hne
      · exact h.outranked q hq e (by rw [hl]; simp [he]))
  have he : u.event stamp g = { (AlertUnit.rank stamp { u with unlisted := joinUnlisted p u.unlisted }) with
      gen := u.gen + 1 } := by
    rw [AlertUnit.event_changed (u := u) (f := g) (by rw [hg]) h2, h3]
  rw [he]
  refine ⟨h1, fun q => ?_⟩
  refine (h4 q).trans (or_congr_left ?_)
  rw [mem_joinUnlisted_iff _ _ h.keys]
  constructor
  · rintro ⟨rfl | ⟨a, b⟩, d⟩
    · exact absurd rfl d
    · refine ⟨a, fun hh => b ?_⟩
      have := Prod.mk.inj (Option.some.inj hh)
      exact ⟨this.1.symm, this.2.symm⟩
  · rintro ⟨a, b⟩
    have hb : ¬(q.channel = p.channel ∧ q.family = p.family) := fun hh => b (by rw [hh.1, hh.2])
    exact ⟨.inr ⟨a, hb⟩, fun hh => hb (by rw [hh]; exact ⟨rfl, rfl⟩)⟩

theorem placeEntry_last (e : AlertEntry) (l : List AlertEntry) (h : ∀ x ∈ l, e.severity ≤ x.severity) :
    placeEntry e l = l ++ [e] := by
  induction l with
  | nil => rfl
  | cons x rest ih =>
    unfold placeEntry
    rw [if_neg (not_lt.2 (h x List.mem_cons_self)), ih fun y hy => h y (List.mem_cons_of_mem _ hy)]
    rfl

/-- An event that leaves a full list with its last entry below an unlisted pair: that entry is evicted and the most severe
unlisted pair promoted. -/
theorem AlertUnit.Lawful.event_lowered (h : u.Lawful) (stamp : Word) {g : AlertUnit → AlertUnit} {w : AlertUnit}
    (hg : g u = w) (ho : w.Orderly) (hgen : w.gen = u.gen) (hun : w.unlisted = u.unlisted) {front : List AlertEntry}
    {x : AlertEntry} (hl : w.list = front ++ [x]) (hlen : w.list.length = Config.listCapacity)
    (hfront : ∀ e ∈ front, e ∈ u.list) {c : Chan} {f : Family} (hx : x.isPair (.mic c) f = true) (hs : x.state ≠ .cleared)
    (hlow : ∃ q ∈ u.unlisted, x.severity < q.severity) : Displaced stamp c f x.kind x w (u.event stamp g) := by
  intro p hp
  have hpu : MostSevereIn p u.unlisted := by rw [← hun]; exact hp
  have hlt : x.severity < p.severity := by
    obtain ⟨q, hq, hlt⟩ := hlow
    rcases hpu.2 q hq with rfl | h1 | h1 <;> omega
  obtain ⟨h1, _, h3, h4⟩ := ho.displaced stamp hl hlen hp hlt fun q hq _ e he =>
    h.outranked q (by rw [← hun]; exact hq) e (hfront e he)
  have hne : (w.rank stamp).list ≠ u.list := by
    intro hc
    obtain ⟨y, hy, hyp⟩ := h1.listed
    rw [h.apart p hpu.1 y (hc ▸ hy)] at hyp
    cases hyp
  have hev : u.event stamp g = { w.rank stamp with gen := w.gen + 1 } := by
    rw [AlertUnit.event_changed (u := u) (f := g) (by rw [hg]) hne, h3, hgen]
  have hwl : w.list.filter (fun y => decide (y ≠ x)) = front := by
    have hn : w.list.Nodup := List.Nodup.of_map _ ho.pairs
    rw [hl] at hn ⊢
    rw [List.filter_append, List.filter_eq_self.2 fun y hy => ?_]
    · simp
    · have := (List.nodup_append.1 hn).2.2 y hy x (by simp)
      simpa using this
  rw [hev, hwl]
  refine ⟨h1, fun q => (h4 q).trans (or_congr_right ?_)⟩
  obtain ⟨hc, hf⟩ := Prod.mk.inj ((AlertEntry.isPair_iff _ _ _).1 hx)
  rw [hc, hf]
  constructor
  · rintro ⟨_, h5, h6, h7⟩
    cases h5
    rw [h6, h7]
  · rintro rfl
    exact ⟨hs, rfl, rfl, rfl⟩

theorem AlertUnit.Lawful.unlisted_nil (h : u.Lawful) (hl : u.list.length < Config.listCapacity) : u.unlisted = [] := by
  by_contra hne
  have := h.full hne
  omega

theorem AlertUnit.Orderly.not_listed (h : u.Orderly) {c : Chan} {f : Family} (hu : isUnlisted c f u.unlisted = true) :
    ∀ e ∈ u.list, e.isPair (.mic c) f = false := by
  obtain ⟨p, hp, hq⟩ := List.any_eq_true.1 hu
  simp only [Bool.and_eq_true, decide_eq_true_eq] at hq
  intro e he
  have := h.apart p hp e he
  rwa [hq.1, hq.2] at this

/-! ## Raises (R85, R86, R92) -/

theorem AlertUnit.raise_room (stamp : Word) {c : Chan} {f : Family} (k : Kind) (hn : ∀ e ∈ u.list, e.isPair (.mic c) f = false)
    (hu : isUnlisted c f u.unlisted = false) (hl : u.list.length < Config.listCapacity) :
    u.raise stamp c f k = u.makeNew stamp (.mic c) f k := by
  unfold AlertUnit.raise
  rw [AlertUnit.entryOf_eq_none hn]
  simp only [hu, hl, if_true, Bool.false_eq_true, if_false]

theorem AlertUnit.raise_full (stamp : Word) {c : Chan} {f : Family} (k : Kind) (hn : ∀ e ∈ u.list, e.isPair (.mic c) f = false)
    (hu : isUnlisted c f u.unlisted = false) (hl : u.list.length = Config.listCapacity) :
    u.raise stamp c f k =
      { u with unlisted := joinUnlisted { channel := c, family := f, kind := k } u.unlisted } := by
  unfold AlertUnit.raise
  rw [AlertUnit.entryOf_eq_none hn]
  simp only [hu, hl, lt_irrefl, Bool.false_eq_true, if_false]

theorem AlertUnit.Orderly.raise_renews (h : u.Orderly) (stamp : Word) {c : Chan} {f : Family} (k : Kind) {e : AlertEntry}
    (he : e ∈ u.list) (hp : e.isPair (.mic c) f = true) (hs : e.state = .cleared) :
    u.raise stamp c f k = u.makeNew stamp (.mic c) f k := by
  unfold AlertUnit.raise
  rw [h.entryOf he hp]
  simp only [hs]

theorem AlertUnit.Orderly.raise_active (h : u.Orderly) (stamp : Word) {c : Chan} {f : Family} (k : Kind)
    (ha : isUnlisted c f u.unlisted = true ∨ ∃ e ∈ u.list, e.isPair (.mic c) f = true ∧ e.state ≠ .cleared) :
    u.raise stamp c f k = u := by
  unfold AlertUnit.raise
  rcases ha with ha | ⟨e, he, hp, hs⟩
  · rw [AlertUnit.entryOf_eq_none (h.not_listed ha)]
    simp only [ha, if_true]
  · rw [h.entryOf he hp]
    rcases hc : e.state with _ | _ | _ | _
    · simp only [hc]
    · simp only [hc]
    · simp only [hc]
    · exact absurd hc hs

/-! ## Kind changes (R87 to R90, R92) -/

theorem AlertUnit.Orderly.changeKind_listed (h : u.Orderly) (stamp : Word) {c : Chan} {f : Family} (k : Kind)
    {e : AlertEntry} (he : e ∈ u.list) (hp : e.isPair (.mic c) f = true) (hs : e.state ≠ .cleared) :
    u.changeKind stamp c f k = u.changeListed stamp c f k e := by
  unfold AlertUnit.changeKind
  rw [h.entryOf he hp]
  rcases hc : e.state with _ | _ | _ | _
  · simp only [hc]
  · simp only [hc]
  · simp only [hc]
  · exact absurd hc hs

theorem AlertUnit.Orderly.changeKind_unlisted (h : u.Orderly) (stamp : Word) {c : Chan} {f : Family} (k : Kind)
    (hu : isUnlisted c f u.unlisted = true) :
    u.changeKind stamp c f k =
      { u with unlisted := joinUnlisted { channel := c, family := f, kind := k } u.unlisted } := by
  unfold AlertUnit.changeKind
  rw [AlertUnit.entryOf_eq_none (h.not_listed hu)]
  simp only [hu, if_true]

theorem AlertUnit.changeKind_inactive (stamp : Word) {c : Chan} {f : Family} (k : Kind)
    (hu : isUnlisted c f u.unlisted = false) (hc : ∀ e ∈ u.list, e.isPair (.mic c) f = true → e.state = .cleared) :
    u.changeKind stamp c f k = u := by
  unfold AlertUnit.changeKind
  split
  · next e he =>
    obtain ⟨h1, h2⟩ := AlertUnit.entryOf_some he
    rw [hc e h1 h2]
  · simp only [hu, Bool.false_eq_true, if_false]

/-! ## Clearings (R91, R92) -/

/-- A clearing of a listed entry of any pair, over a lawful list. -/
theorem AlertUnit.Lawful.clearListed (h : u.Lawful) (stamp : Word) {ch : AlertChannel} {f : Family} {e : AlertEntry}
    (he : e ∈ u.list) (hp : e.isPair ch f = true) {g : AlertUnit → AlertUnit} (hg : g u = u.clearListed ch f e) :
    EntryCleared stamp e u (u.event stamp g) := by
  refine ⟨fun hs => ?_, fun hs => ?_, fun hs => ?_⟩
  · have hm := h.toOrderly.mapPair he hp fun x => { x with state := .cleared }
    have hc : u.clearListed ch f e =
        { u with list := u.list.map fun x => if x = e then { e with state := .cleared } else x } := by
      unfold AlertUnit.clearListed
      rcases hs with hs | hs <;> simp only [hs] <;> rw [hm]
    have hlaw : (u.clearListed ch f e).Lawful := by
      have ho := AlertUnit.clearListed_orderly h.toOrderly ch f e
      rw [hc] at ho ⊢
      refine { ho with full := fun hne => ?_, outranked := fun p hp x hx => ?_ }
      · rw [List.length_map]; exact h.full hne
      · obtain ⟨y, hy, rfl⟩ := List.mem_map.1 hx
        by_cases hye : y = e
        · rw [if_pos hye]; exact h.outranked p hp e he
        · rw [if_neg hye]; exact h.outranked p hp y hy
    have hne : (u.clearListed ch f e).list ≠ u.list := by
      rw [hc]
      refine map_one_ne he fun hh => ?_
      have := congrArg AlertEntry.state hh
      rcases hs with hs | hs <;> rw [hs] at this <;> cases this
    unfold StateTaken
    rw [AlertUnit.event_changed (v := u.clearListed ch f e) (by rw [hg]; exact hlaw.rank stamp) hne, hc]
  · have hc : u.clearListed ch f e = { u with list := u.list.filter fun x => decide (x ≠ e) } := by
      unfold AlertUnit.clearListed
      simp only [hs]
      rw [h.toOrderly.dropPair he hp]
    obtain ⟨h1, h2, h3⟩ := h.takenOut he stamp _ hc
    rw [AlertUnit.event_changed (u := u) (f := g) (by rw [hg]) h2, h3]
    exact h1
  · refine h.event_id stamp ?_
    rw [hg]
    unfold AlertUnit.clearListed
    simp only [hs]

theorem AlertUnit.Orderly.clearPair_listed (h : u.Orderly) {c : Chan} {f : Family} {e : AlertEntry} (he : e ∈ u.list)
    (hp : e.isPair (.mic c) f = true) : u.clearPair c f = u.clearListed (.mic c) f e := by
  unfold AlertUnit.clearPair
  rw [h.entryOf he hp]

theorem AlertUnit.clearPair_unlisted {c : Chan} {f : Family} (hn : ∀ e ∈ u.list, e.isPair (.mic c) f = false) :
    u.clearPair c f = { u with unlisted := leaveUnlisted c f u.unlisted } := by
  unfold AlertUnit.clearPair
  rw [AlertUnit.entryOf_eq_none hn]

theorem leaveUnlisted_of_not {c : Chan} {f : Family} {l : List UnlistedPair} (h : isUnlisted c f l = false) :
    leaveUnlisted c f l = l := by
  refine List.filter_eq_self.2 fun p hp => ?_
  have := not_isUnlisted h p hp
  by_cases h1 : p.channel = c <;> by_cases h2 : p.family = f <;> simp [h1, h2]
  exact this (by rw [h1, h2])

/-- A pair that leaves the unlisted set leaves the list at rest. -/
theorem AlertUnit.Lawful.event_left (h : u.Lawful) (stamp : Word) {c : Chan} {f : Family} {g : AlertUnit → AlertUnit}
    (hg : g u = { u with unlisted := leaveUnlisted c f u.unlisted }) :
    u.event stamp g = { u with unlisted := leaveUnlisted c f u.unlisted } := by
  refine AlertUnit.event_same ?_ rfl
  rw [hg]
  refine AlertUnit.Lawful.rank ?_ stamp
  have ho : AlertUnit.Orderly { u with unlisted := leaveUnlisted c f u.unlisted } :=
    h.toOrderly.of_sublist (.refl _) List.filter_sublist _ rfl rfl rfl
  exact { ho with
    full := fun hne => h.full fun hn => hne (by show leaveUnlisted c f u.unlisted = []; rw [hn]; rfl)
    outranked := fun p hp => h.outranked p ((mem_leaveUnlisted _ _ _ _).1 hp).1 }

/-! ## Changes of state in place (R97, R98) -/

/-- An event that gives one entry another state and leaves the rest. -/
theorem AlertUnit.Lawful.event_state (h : u.Lawful) (stamp : Word) {e : AlertEntry} (he : e ∈ u.list) {st : EntryState}
    (hs : e.state ≠ st) {g : AlertUnit → AlertUnit} (w : AlertUnit) (hw : w.list = u.list) (hu : w.unlisted = u.unlisted)
    (hq : w.nextSeq = u.nextSeq)
    (hg : g u = { w with list := u.list.map fun x => if x = e then { e with state := st } else x }) :
    StateTaken st e w (u.event stamp g) := by
  have ho : AlertUnit.Orderly { w with list := u.list.map fun x => if x = e then { e with state := st } else x } :=
    h.toOrderly.of_map (fun x => if x = e then { e with state := st } else x)
      (fun x _ => by
        by_cases hx : x = e
        · subst hx; simp only [if_true]; rfl
        · simp only [hx, if_false]) _ rfl hu hq
  have hlaw : (g u).Lawful := by
    rw [hg]
    refine { ho with full := fun hne => ?_, outranked := fun p hp x hx => ?_ }
    · rw [List.length_map]; exact h.full (by rw [← hu]; exact hne)
    · have hp' : p ∈ u.unlisted := by rw [← hu]; exact hp
      obtain ⟨y, hy, rfl⟩ := List.mem_map.1 hx
      by_cases hye : y = e
      · rw [if_pos hye]; exact h.outranked p hp' e he
      · rw [if_neg hye]; exact h.outranked p hp' y hy
  have hne : (g u).list ≠ u.list := by
    rw [hg]
    exact map_one_ne he fun hh => hs (congrArg AlertEntry.state hh).symm
  unfold StateTaken
  rw [AlertUnit.event_changed (v := g u) (hlaw.rank stamp) hne, hg, hw]

/-- An event that changes neither list nor unlisted set. -/
theorem AlertUnit.Lawful.event_besides (h : u.Lawful) (stamp : Word) {g : AlertUnit → AlertUnit} {w : AlertUnit} (hg : g u = w)
    (hl : w.list = u.list) (hu : w.unlisted = u.unlisted) (hq : w.nextSeq = u.nextSeq) : u.event stamp g = w := by
  have hlaw : w.Lawful :=
    { h.toOrderly.of_sublist (l := w.list) (un := w.unlisted) (by rw [hl]) (by rw [hu]) w rfl rfl hq with
      full := by rw [hl, hu]; exact h.full
      outranked := by rw [hl, hu]; exact h.outranked }
  exact AlertUnit.event_same (by rw [hg]; exact hlaw.rank stamp) hl

/-- An event that takes one entry out, beside fields that the ranking rule does not read. -/
theorem AlertUnit.Lawful.event_takenOut (h : u.Lawful) (stamp : Word) {e : AlertEntry} (he : e ∈ u.list)
    {g : AlertUnit → AlertUnit} (w : AlertUnit) (hw : w.list = u.list) (hu : w.unlisted = u.unlisted)
    (hq : w.nextSeq = u.nextSeq)
    (hg : g u = { w with list := u.list.filter fun x => decide (x ≠ e) }) : TakenOut stamp e w (u.event stamp g) := by
  have hlaw : w.Lawful :=
    { h.toOrderly.of_sublist (l := w.list) (un := w.unlisted) (by rw [hw]) (by rw [hu]) w rfl rfl hq with
      full := by rw [hw, hu]; exact h.full
      outranked := by rw [hw, hu]; exact h.outranked }
  rw [← hw] at hg he
  obtain ⟨h1, h2, h3⟩ := hlaw.takenOut he stamp _ hg
  rw [AlertUnit.event_changed (u := u) (f := g) rfl (by rw [← hw]; exact h2), h3]
  exact h1

end Sys2Proof.Machine
end

