-- ==== Sys2Proof/Laws/RestKept.lean ====
section
/-! SUPPORT. Every shared operation keeps the law of the session: outside ACTIVE the alert list is empty and every record still
(R63, R106, R169). -/

namespace Sys2Proof.Machine

/-! ## Records -/

theorem ChannelRecord.powerReset_still : ChannelRecord.powerReset.Still := ⟨rfl, rfl, rfl, rfl, rfl⟩

/-- The record of START is still (R10). -/
theorem startRecord_still (w : SetupWords) (b : Bool) (c : Chan) : (startRecord w b c).Still := by
  unfold startRecord; split <;> exact ⟨rfl, rfl, rfl, rfl, rfl⟩

theorem ChannelRecord.release_still {r : ChannelRecord} (h : r.Still) : r.release.Still := h

/-- A still record is still after the silence judgement that ends an event (R62). -/
theorem ChannelRecord.settleSilence_still {r : ChannelRecord} (h : r.Still) (code : Nat) (w : Word) :
    (r.settleSilence code w).Still := by
  unfold ChannelRecord.settleSilence
  split
  · obtain ⟨h1, h2, h3, _, h5⟩ := h
    refine ⟨h1, h2, h3, rfl, ?_⟩
    show { r.active with openIdle := false } = _
    rw [h5]
  · exact h

/-- No timer of a still record expires at a tick (R15). -/
theorem ChannelRecord.tick_still {r : ChannelRecord} (h : r.Still) (now : Millis) : (r.tick now).Still := by
  obtain ⟨h1, h2, h3, h4, h5⟩ := h
  exact ⟨by simp [ChannelRecord.tick, h1, Timer.tick], by simp [ChannelRecord.tick, h2, Timer.tick],
    by simp [ChannelRecord.tick, h3, Timer.tick], by simp [ChannelRecord.tick, h4, Timer.tick], h5⟩

/-- A table with one record replaced by a still one is still if it was. -/
theorem set_still {v : Vector ChannelRecord 64} (hv : ∀ c : Chan, v[c].Still) {r : ChannelRecord} (hr : r.Still) (c : Chan) :
    ∀ d : Chan, (v.set c r)[d].Still := by
  intro d
  by_cases h : c.val = d.val
  · simp only [Fin.getElem_fin, Vector.getElem_set, h, if_true]; exact hr
  · simp only [Fin.getElem_fin, Vector.getElem_set, if_neg h]; exact hv d

/-! ## Operations that see nothing of it -/

/-- From `s` to `t` nothing that the law sees has changed, unless `t` is in ACTIVE. -/
def SameForRest (s t : State) : Prop :=
  t.setup.part ≠ .active →
    s.setup.part ≠ .active ∧ t.alert = s.alert ∧ t.channels = s.channels ∧ t.mail.toEvaluator = s.mail.toEvaluator ∧
    t.mail.toList = s.mail.toList

theorem SameForRest.keep {s t : State} (h : SameForRest s t) (hp : s.EmptyOutsideActive) : t.EmptyOutsideActive := by
  intro ht
  obtain ⟨hs, h1, h2, h3, h4⟩ := h ht
  obtain ⟨a, b, c, d⟩ := hp hs
  exact ⟨h1.trans a, by rw [h2]; exact b, by rw [h3]; exact c, by rw [h4]; exact d⟩

theorem SameForRest.trans {s t u : State} (h : SameForRest s t) (h' : SameForRest t u) : SameForRest s u := by
  intro hu
  obtain ⟨ht, a', b', c', d'⟩ := h' hu
  obtain ⟨hs, a, b, c, d⟩ := h ht
  exact ⟨hs, a'.trans a, b'.trans b, c'.trans c, d'.trans d⟩

theorem SameForRest.of {s t : State} (h : t.setup.part = s.setup.part) (ha : t.alert = s.alert) (hc : t.channels = s.channels)
    (he : t.mail.toEvaluator = s.mail.toEvaluator) (hl : t.mail.toList = s.mail.toList) : SameForRest s t :=
  fun ht => ⟨h ▸ ht, ha, hc, he, hl⟩

theorem SameForRest.refl (s : State) : SameForRest s s := .of rfl rfl rfl rfl rfl

theorem SameForRest.active {s t : State} (h : t.setup.part = .active) : SameForRest s t := fun ht => absurd h ht

/-- Outside ACTIVE no event reaches the alert list (R84). -/
theorem listEventIfActive_sameForRest (f) (s : State) : SameForRest s (listEventIfActive f s) := by
  unfold listEventIfActive; split
  · next h => exact .active h
  · exact .refl s

theorem claimIfAllowed_sameForRest (s : State) : SameForRest s (claimIfAllowed s) := by
  unfold claimIfAllowed; split
  · split
    · exact .of rfl rfl rfl rfl rfl
    · exact .refl s
  · exact .refl s

theorem reportIfRestored_sameForRest (s : State) : SameForRest s (reportIfRestored s) := by
  unfold reportIfRestored; split
  · exact .of rfl rfl rfl rfl rfl
  · exact .refl s

theorem takeReport_sameForRest (m) (s : State) : SameForRest s (takeReport m s) := by
  cases m with
  | stall | stallEnd => exact .of rfl rfl rfl rfl rfl
  | restoreDone =>
    by_cases h : s.setup.part = .releasing
    · rw [takeReport, if_pos h]
      exact fun _ => ⟨by rw [h]; decide, rfl, rfl, rfl, rfl⟩
    · rw [takeReport, if_neg h]; exact .refl s

theorem takeEach_sameForRest (ms) (s : State) : SameForRest s (takeEach ms s) := by
  induction ms generalizing s with
  | nil => exact .refl s
  | cons m rest ih => exact (takeReport_sameForRest m s).trans (ih _)

theorem takeReports_sameForRest (s : State) : SameForRest s (takeReports s) :=
  SameForRest.trans (t := s.setMail { s.mail with toSetup := [] }) (.of rfl rfl rfl rfl rfl) (takeEach_sameForRest _ _)

theorem endRestore_sameForRest (s : State) : SameForRest s (endRestore s) := by
  unfold endRestore; split
  · exact SameForRest.trans (t := s.sendToSetup .restoreDone) (.of rfl rfl rfl rfl rfl) (takeReports_sameForRest _)
  · exact .refl s

theorem endStall_sameForRest (s : State) : SameForRest s (endStall s) := by
  unfold endStall
  split
  · split <;> exact .of rfl rfl rfl rfl rfl
  · exact .refl s

theorem completeEnded_sameForRest (s : State) : SameForRest s (completeEnded s) := by
  unfold completeEnded; split
  · split
    · exact .of rfl rfl rfl rfl rfl
    · exact .refl s
  · exact .refl s

theorem queueUnderEnforce_sameForRest (c) (s : State) : SameForRest s (queueUnderEnforce c s) := by
  unfold queueUnderEnforce; split
  · exact SameForRest.trans (t := s.setQueue _) (.of rfl rfl rfl rfl rfl) (claimIfAllowed_sameForRest _)
  · exact .refl s

theorem takeSetupChange_sameForRest (old new) (s : State) : SameForRest s (takeSetupChange old new s) := by
  unfold takeSetupChange
  simp only
  split
  · exact SameForRest.trans (t := (s.dropToEnforcement.sendSilence (muteCodeCrossings old new s.enf.intended)).setQueue _)
      (.of rfl rfl rfl rfl rfl) (claimIfAllowed_sameForRest _)
  · exact .of rfl rfl rfl rfl rfl

theorem takeHalt_sameForRest (s : State) : SameForRest s (takeHalt s) := by
  unfold takeHalt
  refine SameForRest.trans ?_ ((endRestore_sameForRest _).trans (claimIfAllowed_sameForRest _))
  split <;> split <;> exact .of rfl rfl rfl rfl rfl

theorem takeUntilHalt_sameForRest (ms) (s : State) : SameForRest s (takeUntilHalt ms s) := by
  induction ms generalizing s with
  | nil => exact .refl s
  | cons m rest ih =>
    cases m with
    | loadRequest => exact .refl s
    | halt => exact takeHalt_sameForRest s
    | setupChange old new => exact (takeSetupChange_sameForRest _ _ _).trans (ih _)

theorem takeNotices_sameForRest (ms) (s : State) : SameForRest s (takeNotices ms s) := by
  induction ms generalizing s with
  | nil => exact .refl s
  | cons m rest ih =>
    exact SameForRest.trans (t := s.dropNotice) (.of rfl rfl rfl rfl rfl) ((queueUnderEnforce_sameForRest _ _).trans (ih _))

theorem finishHalt_sameForRest (s : State) : SameForRest s (finishHalt s) := by
  unfold finishHalt; split
  · exact ((takeNotices_sameForRest _ _).trans (takeUntilHalt_sameForRest _ _)).trans (completeEnded_sameForRest _)
  · exact .refl s

theorem filterWrite_sameForRest (c w) (s : State) : SameForRest s (filterWrite c w s) := by
  unfold filterWrite; simp only
  split
  · exact SameForRest.trans (t := (s.setEnf { s.enf with
      intended := s.enf.intended.set c w, queue := s.enf.queue.filter (fun d => decide (d ≠ c)) }).sendSilence
      (crossing s.settings.muteCode c s.enf.intended[c] w)) (.of rfl rfl rfl rfl rfl) (reportIfRestored_sameForRest _)
  · exact .of rfl rfl rfl rfl rfl

/-! ## The operations of the law -/

/-- A channel event whose own change leaves a still record still keeps the law: it reports no condition. -/
theorem channelEvent_emptyOutsideActive (c g) (s : State) (hg : s.channels[c].Still → (g s.channels[c]).Still)
    (hp : s.EmptyOutsideActive) : (channelEvent c g s).EmptyOutsideActive := by
  intro ht
  obtain ⟨a, b, e, d⟩ := hp ht
  exact ⟨a, set_still b (ChannelRecord.settleSilence_still (hg (b c)) _ _) c, e, d⟩

/-- The clearing of the list keeps the law (R106). -/
theorem clearAlerts_emptyOutsideActive (s : State) (hp : s.EmptyOutsideActive) : (clearAlerts s).EmptyOutsideActive := by
  intro ht
  obtain ⟨_, b, c, d⟩ := hp ht
  exact ⟨rfl, b, c, d⟩

/-- START comes from PASSIVE, where nothing of a session is left, and sends its reset and its clearing (R169). -/
theorem beginSession_emptyOutsideActive (w) (s : State) (h : s.setup.part ≠ .active) (hp : s.EmptyOutsideActive) :
    (beginSession w s).EmptyOutsideActive := by
  intro _
  obtain ⟨a, b, c, d⟩ := hp h
  refine ⟨a, b, fun m hm => ?_, fun m hm => ?_⟩
  · rcases List.mem_append.1 hm with h | h
    · exact c m h
    · exact ⟨0, List.mem_singleton.1 h⟩
  · rcases List.mem_append.1 hm with h | h
    · exact d m h
    · exact List.mem_singleton.1 h

/-- HALT leaves nothing of the session (R10, R106, R171). -/
theorem commandHalt_emptied (s : State) : (commandHalt s).Emptied := by
  refine ⟨rfl, fun c => ?_, fun m hm => (by cases hm), fun m hm => (by cases hm)⟩
  show ((Vector.replicate 64 ChannelRecord.powerReset)[c]).Still
  simp only [Fin.getElem_fin, Vector.getElem_replicate]
  exact ChannelRecord.powerReset_still

theorem withResult_sameForRest (s : State) (c r) : SameForRest s (s.withResult c r) := .of rfl rfl rfl rfl rfl

/-- The commands other than START and HALT are carried out in ACTIVE and stay there. -/
theorem takeCommand_emptyOutsideActive (d) (s : State) (hp : s.EmptyOutsideActive) : (takeCommand d s).EmptyOutsideActive := by
  unfold takeCommand
  split
  · exact SameForRest.keep (s := s) (.of rfl rfl rfl rfl rfl) hp
  · split
    · exact (withResult_sameForRest s _ _).keep hp
    · split
      · rename_i k hk hpart
        cases k
        · show (commandStart s).EmptyOutsideActive
          unfold commandStart; split
          · exact (withResult_sameForRest s _ _).keep hp
          · exact beginSession_emptyOutsideActive _ s (by rw [hpart]; decide) hp
        · refine fun ht => absurd ?_ ht
          show (commandApply s).setup.part = .active
          unfold commandApply
          split
          · exact hpart
          · split
            · exact hpart
            · rw [applySetup_setup]; exact hpart
        · exact fun _ => commandHalt_emptied s
        all_goals
          refine fun ht => absurd ?_ ht
          first
          | exact hpart
          | (show (commandChair _ _ _ s).setup.part = .active
             unfold commandChair; split <;> exact hpart)
      · exact (withResult_sameForRest s _ _).keep hp

theorem answerRead_emptyOutsideActive (r o) (s : State) (hp : s.EmptyOutsideActive) :
    (answerRead r o s).1.EmptyOutsideActive := by
  unfold answerRead
  split
  · exact SameForRest.keep (s := s) (.of rfl rfl rfl rfl rfl) hp
  · exact hp
  · unfold deliverReadMark; split
    · exact hp
    · exact (listEventIfActive_sameForRest _ _).keep hp
  · exact hp
  · exact channelEvent_emptyOutsideActive _ _ s ChannelRecord.release_still hp
  · exact hp
  · exact hp

theorem answerWrite_sameForRest (r o v) (s : State) : SameForRest s (answerWrite r o v s) := by
  unfold answerWrite
  split
  · exact listEventIfActive_sameForRest _ _
  all_goals exact .refl s

theorem serve_emptyOutsideActive (a b h) (s : State) (hp : s.EmptyOutsideActive) : (serve a b h s).EmptyOutsideActive :=
  SameForRest.keep (s := s) (.of rfl rfl rfl rfl rfl) hp

theorem answered_emptyOutsideActive (a d) (s : State) (hp : s.EmptyOutsideActive) : (answered a d s).EmptyOutsideActive :=
  SameForRest.keep (s := s) (.of rfl rfl rfl rfl rfl) hp

theorem takeCourse_emptyOutsideActive (a) (s : State) (hp : s.EmptyOutsideActive) : (takeCourse a s).EmptyOutsideActive := by
  unfold takeCourse
  split
  · exact serve_emptyOutsideActive _ _ _ _ hp
  · exact serve_emptyOutsideActive _ _ _ _ (SameForRest.keep (s := s) (.of rfl rfl rfl rfl rfl) hp)
  · exact serve_emptyOutsideActive _ _ _ _ (takeCommand_emptyOutsideActive _ _ hp)
  · refine serve_emptyOutsideActive _ _ _ _ (SameForRest.keep (s := s) ?_ hp)
    unfold takeStagingWrite; split
    · exact .of rfl rfl rfl rfl rfl
    · exact .refl s
  · refine serve_emptyOutsideActive _ _ _ _ (SameForRest.keep (s := s) ?_ hp)
    unfold takeCommit
    repeat' split
    all_goals exact .of rfl rfl rfl rfl rfl
  · exact serve_emptyOutsideActive _ _ _ _ ((filterWrite_sameForRest _ _ _).keep hp)
  · exact answered_emptyOutsideActive _ _ _ hp
  · exact answered_emptyOutsideActive _ _ _ (answerRead_emptyOutsideActive _ _ _ hp)
  · exact answered_emptyOutsideActive _ _ _ ((answerWrite_sameForRest _ _ _ _).keep hp)

theorem arrive_emptyOutsideActive (a) (s : State) (hp : s.EmptyOutsideActive) : (arrive a s).EmptyOutsideActive := by
  unfold arrive; split
  · exact SameForRest.keep (s := s) (.of rfl rfl rfl rfl rfl) hp
  · exact takeCourse_emptyOutsideActive _ _ hp

theorem takePresented_emptyOutsideActive (s : State) (hp : s.EmptyOutsideActive) :
    (takePresented s).EmptyOutsideActive := by
  unfold takePresented; split
  · exact hp
  · split
    · exact arrive_emptyOutsideActive _ _ (SameForRest.keep (s := s) (.of rfl rfl rfl rfl rfl) hp)
    · exact hp

theorem answerOvertaken_emptyOutsideActive (a) (s : State) (hp : s.EmptyOutsideActive) :
    (answerOvertaken a s).EmptyOutsideActive := by
  have h : (s.setPath { s.path with answering := none }).EmptyOutsideActive :=
    SameForRest.keep (s := s) (.of rfl rfl rfl rfl rfl) hp
  unfold answerOvertaken
  dsimp only
  split
  · exact answered_emptyOutsideActive _ _ _ (answerRead_emptyOutsideActive _ _ _ h)
  · exact answered_emptyOutsideActive _ _ _ ((answerWrite_sameForRest _ _ _ _).keep h)
  all_goals exact h

theorem finishAnswer_emptyOutsideActive (s : State) (hp : s.EmptyOutsideActive) : (finishAnswer s).EmptyOutsideActive := by
  unfold finishAnswer; split
  · exact hp
  · exact answerOvertaken_emptyOutsideActive _ _ hp

theorem present_emptyOutsideActive (a) (s : State) (hp : s.EmptyOutsideActive) : (present a s).EmptyOutsideActive := by
  unfold present; split
  · exact arrive_emptyOutsideActive _ _ hp
  · split
    · exact takePresented_emptyOutsideActive _ (answerOvertaken_emptyOutsideActive _ _ hp)
    · exact SameForRest.keep (s := s) (.of rfl rfl rfl rfl rfl) hp

theorem releaseHeld_emptyOutsideActive (s : State) (hp : s.EmptyOutsideActive) : (releaseHeld s).EmptyOutsideActive := by
  unfold releaseHeld; split
  · exact hp
  · exact takeCourse_emptyOutsideActive _ _ (SameForRest.keep (s := s) (.of rfl rfl rfl rfl rfl) hp)

/-! ## The claim cycle -/

theorem setEnf_emptyOutsideActive (s : State) (v) (hp : s.EmptyOutsideActive) : (s.setEnf v).EmptyOutsideActive :=
  SameForRest.keep (s := s) (.of rfl rfl rfl rfl rfl) hp

theorem setPath_emptyOutsideActive (s : State) (v) (hp : s.EmptyOutsideActive) : (s.setPath v).EmptyOutsideActive :=
  SameForRest.keep (s := s) (.of rfl rfl rfl rfl rfl) hp

theorem endBurst_emptyOutsideActive (s : State) (hp : s.EmptyOutsideActive) : (endBurst s).EmptyOutsideActive :=
  takePresented_emptyOutsideActive _ (releaseHeld_emptyOutsideActive _ (setEnf_emptyOutsideActive _ _ hp))

theorem endBrokenCede_emptyOutsideActive (s : State) (hp : s.EmptyOutsideActive) : (endBrokenCede s).EmptyOutsideActive :=
  takePresented_emptyOutsideActive _ ((claimIfAllowed_sameForRest _).keep (releaseHeld_emptyOutsideActive _
    ((endRestore_sameForRest _).keep (setEnf_emptyOutsideActive _ _ (setEnf_emptyOutsideActive _ _ hp)))))

/-- Steps 1 and 2 of the end of the load enter ACTIVE (R153). -/
theorem leaveLoading_emptyOutsideActive (s : State) : (leaveLoading s).EmptyOutsideActive := fun ht => absurd rfl ht

theorem queueEnforced_emptyOutsideActive (s : State) (hp : s.EmptyOutsideActive) : (queueEnforced s).EmptyOutsideActive := by
  unfold queueEnforced; split
  · exact setEnf_emptyOutsideActive _ _ hp
  · exact hp

/-- The end of the load (R153). -/
theorem endLoad_emptyOutsideActive (b) (s : State) : (endLoad b s).EmptyOutsideActive := by
  unfold endLoad
  dsimp only
  split
  · exact takePresented_emptyOutsideActive _ (queueEnforced_emptyOutsideActive _ (releaseHeld_emptyOutsideActive _
      (leaveLoading_emptyOutsideActive s)))
  · exact takePresented_emptyOutsideActive _ (releaseHeld_emptyOutsideActive _ (queueEnforced_emptyOutsideActive _
      (leaveLoading_emptyOutsideActive s)))

theorem proceed_emptyOutsideActive (s : State) (hp : s.EmptyOutsideActive) : (proceed s).EmptyOutsideActive := by
  unfold proceed
  split
  · exact endBrokenCede_emptyOutsideActive _ hp
  · split
    · exact setPath_emptyOutsideActive _ _ hp
    all_goals
      split
      · split
        · exact setPath_emptyOutsideActive _ _ (setEnf_emptyOutsideActive _ _ hp)
        · exact endBurst_emptyOutsideActive _ hp
      · exact endBurst_emptyOutsideActive _ hp

theorem afterOwnAccess_emptyOutsideActive (s : State) (hp : s.EmptyOutsideActive) :
    (afterOwnAccess s).EmptyOutsideActive := by
  have h : (s.setEnf { s.enf with orphan := false }).EmptyOutsideActive := setEnf_emptyOutsideActive _ _ hp
  unfold afterOwnAccess proceedAfterOrphan
  split
  · split
    · exact proceed_emptyOutsideActive _ h
    · split
      · exact h
      · exact (reportIfRestored_sameForRest _).keep h
    all_goals exact h
  · split
    · exact proceed_emptyOutsideActive _ hp
    · exact hp

theorem beginCeded_emptyOutsideActive (s : State) (hp : s.EmptyOutsideActive) : (beginCeded s).EmptyOutsideActive := by
  unfold beginCeded; split
  · exact hp
  · exact proceed_emptyOutsideActive _ hp

theorem advanceLoad_emptyOutsideActive (b c) (s : State) (hp : s.EmptyOutsideActive) :
    (advanceLoad b c s).EmptyOutsideActive := by
  unfold advanceLoad; split
  · exact endBrokenCede_emptyOutsideActive _ hp
  · split
    · exact setPath_emptyOutsideActive _ _ (setEnf_emptyOutsideActive _ _ hp)
    · exact endLoad_emptyOutsideActive _ _

/-! ## Resets and time -/

/-- Power reset leaves nothing of a session (R162). -/
theorem resetBlocks_emptied (s : State) : (resetBlocks s).Emptied := by
  refine ⟨rfl, fun c => ?_, fun m hm => (by cases hm), fun m hm => (by cases hm)⟩
  show ((Vector.replicate 64 ChannelRecord.powerReset)[c]).Still
  simp only [Fin.getElem_fin, Vector.getElem_replicate]
  exact ChannelRecord.powerReset_still

/-- Bus reset abandons LOADING and changes nothing else that the law sees (R175). -/
theorem busReset_emptyOutsideActive (s : State) (hp : s.EmptyOutsideActive) : (busReset s).EmptyOutsideActive := by
  have part : s.setup.busReset.part ≠ .active → s.setup.part ≠ .active := by
    intro ht ha
    apply ht
    unfold SetupUnit.busReset
    rw [ha]
  have hp : (endStall s).EmptyOutsideActive := (endStall_sameForRest s).keep hp
  have hs : (endStall s).setup = s.setup := by simp
  have h : (busReset s).setup = s.setup.busReset ∧ (busReset s).alert = (endStall s).alert ∧
      (busReset s).channels = (endStall s).channels ∧ (busReset s).mail.toEvaluator = (endStall s).mail.toEvaluator ∧
      (busReset s).mail.toList = (endStall s).mail.toList := by
    unfold busReset
    generalize endStall s = t
    exact ⟨rfl, rfl, rfl, rfl, rfl⟩
  obtain ⟨h1, h2, h3, h4, h5⟩ := h
  exact SameForRest.keep (fun ht => ⟨by rw [hs]; exact part (h1 ▸ ht), h2, h3, h4, h5⟩) hp

theorem membershipEvent_part (w c) (s : State) : (membershipEvent w c s).setup = s.setup := by
  unfold membershipEvent
  simp only
  repeat' split
  all_goals rfl

/-- Time passes over a table that is still (R15, R63). -/
theorem refclkPeriod_emptyOutsideActive (s : State) (hp : s.EmptyOutsideActive) : (refclkPeriod s).EmptyOutsideActive := by
  unfold refclkPeriod
  split
  · exact hp
  · split
    · exact SameForRest.keep (s := s) (.of rfl rfl rfl rfl rfl) hp
    · intro ht
      obtain ⟨a, b, c, d⟩ := hp ht
      refine ⟨a, fun k => ?_, c, d⟩
      show ((s.channels.map (ChannelRecord.tick _))[k]).Still
      simp only [Fin.getElem_fin, Vector.getElem_map]
      exact ChannelRecord.tick_still (b k) _

end Sys2Proof.Machine
end

