-- ==== Sys2Proof/Laws/Windows.lean ====
section
/-! SUPPORT. Addresses and windows: which window an address of one lies in, and the classification that follows (R122 to
R124). -/

namespace Sys2Proof.Machine

theorem pastBase_toNat (base : Addr) (n : Nat) (h : base.toNat + n < 0x100000) :
    (pastBase base n).toNat = base.toNat + n := by
  unfold pastBase
  rw [BitVec.toNat_add, BitVec.toNat_ofNat]
  omega

theorem inWindow_pastBase (base : Addr) (len n : Nat) (hn : n < len) (h : base.toNat + len ≤ 0x100000) :
    inWindow base len (pastBase base n) = some n := by
  unfold inWindow
  rw [pastBase_toNat base n (by omega), if_pos (by omega)]
  simp

/-- An address of one window lies in no window apart from it. -/
theorem inWindow_apart (base other : Addr) (len len' n : Nat) (hn : n < len') (h : other.toNat + len' ≤ 0x100000)
    (ha : windowsMeet (base.toNat, len) (other.toNat, len') = false) :
    inWindow base len (pastBase other n) = none := by
  unfold inWindow
  rw [pastBase_toNat other n (by omega), if_neg]
  simp only [windowsMeet, Bool.and_eq_false_iff, decide_eq_false_iff_not] at ha
  omega

theorem inWindow_none (base : Addr) (len : Nat) (a : Addr) (h : ∀ n < len, a ≠ pastBase base n) :
    inWindow base len a = none := by
  unfold inWindow
  rw [if_neg]
  rintro ⟨h1, h2⟩
  refine h (a.toNat - base.toNat) (by omega) ?_
  apply BitVec.eq_of_toNat_eq
  have := a.isLt
  rw [pastBase_toNat base _ (by omega)]
  omega

theorem windowsMeet_symm (v w : Nat × Nat) : windowsMeet v w = windowsMeet w v := by
  unfold windowsMeet; rw [Bool.and_comm]

/-- The setup window lies within the address space whatever the straps select (R122). -/
theorem setupBase_fits (straps : Straps) : (setupBase straps).toNat + 37 ≤ 0x100000 := by
  rcases straps with ⟨_ | _, _ | _, _⟩ <;> simp [setupBase]

theorem inWindow_setup (straps : Straps) (n : Nat) (hn : n < 37) :
    inWindow (setupBase straps) 37 (pastBase (setupBase straps) n) = some n :=
  inWindow_pastBase _ _ _ hn (setupBase_fits straps)

/-- What it means that the windows are apart, window by window (R123). -/
theorem Bases.Apart.each {straps : Straps} {b : Bases} (h : b.Apart straps) :
    (windowsMeet ((setupBase straps).toNat, 37) (b.telemetry.toNat, 256) = false ∧
      windowsMeet ((setupBase straps).toNat, 37) (b.gain.toNat, 64) = false ∧
      windowsMeet ((setupBase straps).toNat, 37) (b.alert.toNat, 512) = false ∧
      windowsMeet (b.telemetry.toNat, 256) (b.gain.toNat, 64) = false ∧
      windowsMeet (b.telemetry.toNat, 256) (b.alert.toNat, 512) = false ∧
      windowsMeet (b.gain.toNat, 64) (b.alert.toNat, 512) = false) ∧
    b.telemetry.toNat + 256 ≤ 0x100000 ∧ b.gain.toNat + 64 ≤ 0x100000 ∧ b.alert.toNat + 512 ≤ 0x100000 := by
  obtain ⟨h1, h2⟩ := h
  simp only [Bases.windows, List.pairwise_cons, List.mem_cons, List.not_mem_nil, or_false, forall_eq_or_imp, forall_eq,
    List.Pairwise.nil, and_true, false_implies, implies_true] at h1 h2
  exact ⟨⟨h1.1.1, h1.1.2.1, h1.1.2.2, h1.2.1.1, h1.2.1.2, h1.2.2⟩, h2.2.1, h2.2.2.1, h2.2.2.2⟩

section
variable (s : State)

theorem classify_settling (a : Access) (h : s.setup.part = .settling) : s.classify a = .forward := by
  simp [State.classify, h]

/-- An access to the setup window outside SETTLING (R124). -/
theorem classify_setup (a : Access) (n : Nat) (hn : n < 37) (ha : a.addr = pastBase (setupBase s.path.straps) n)
    (h : s.setup.part ≠ .settling) : s.classify a = setupCourse n a := by
  simp [State.classify, h, ha, inWindow_setup _ _ hn]

/-- An access outside the setup window (R124). -/
theorem classify_outside (a : Access) (ha : inWindow (setupBase s.path.straps) 37 a.addr = none)
    (h : s.setup.part ≠ .settling) : s.classify a = sessionCourse s.setup.part s.path.bases a := by
  simp [State.classify, h, ha]

/-- An access to the gain window in ACTIVE or RELEASING (R124). -/
theorem classify_gain (b : Bases) (a : Access) (n : Nat) (hn : n < 64) (hb : s.path.bases = some b)
    (hw : b.Apart s.path.straps) (hp : s.setup.part = .active ∨ s.setup.part = .releasing)
    (ha : a.addr = pastBase b.gain n) : s.classify a = gainCourse n a := by
  obtain ⟨⟨_, h1, _, _, _, _⟩, _, h2, _⟩ := hw.each
  have h3 := inWindow_apart (setupBase s.path.straps) b.gain 37 64 n hn h2 h1
  have h4 := inWindow_pastBase b.gain 64 n hn h2
  rw [classify_outside s a (by rw [ha, h3]) (by rcases hp with h | h <;> simp [h])]
  rcases hp with h | h <;> simp [sessionCourse, hb, h, ha, h4]

/-- An access to the telemetry window in ACTIVE (R124). -/
theorem classify_telemetry (b : Bases) (a : Access) (n : Nat) (hn : n < 256) (h : s.InSession b)
    (ha : a.addr = pastBase b.telemetry n) :
    s.classify a = match a with | .read _ => .forward | .write _ data => telemetryCourse n data := by
  obtain ⟨hp, hb, hw⟩ := h
  obtain ⟨⟨h1, _, _, h3, _, _⟩, h2, _, _⟩ := hw.each
  have h4 := inWindow_apart (setupBase s.path.straps) b.telemetry 37 256 n hn h2 h1
  have h5 := inWindow_apart b.gain b.telemetry 64 256 n hn h2 (by rw [windowsMeet_symm]; exact h3)
  have h6 := inWindow_pastBase b.telemetry 256 n hn h2
  rw [classify_outside s a (by rw [ha, h4]) (by simp [hp])]
  simp only [sessionCourse, hb, hp, ha, h5, activeCourse, h6]
  cases a <;> rfl

/-- The course of an access to the alert window that arrives in ACTIVE (R124). -/
theorem sessionCourse_alert {straps : Straps} (b : Bases) (a : Access) (n : Nat) (hn : n < 512) (hw : b.Apart straps)
    (ha : a.addr = pastBase b.alert n) :
    sessionCourse .active (some b) a = match a with | .read _ => .answerRead n | .write _ data => .answerWrite n data := by
  obtain ⟨⟨_, _, _, _, h3, h4⟩, _, _, h2⟩ := hw.each
  have h6 := inWindow_apart b.gain b.alert 64 512 n hn h2 h4
  have h7 := inWindow_apart b.telemetry b.alert 256 512 n hn h2 h3
  have h8 := inWindow_pastBase b.alert 512 n hn h2
  simp only [sessionCourse, ha, h6, activeCourse, h7, h8]
  cases a <;> rfl

/-- An access to the alert window in ACTIVE (R124). -/
theorem classify_alert (b : Bases) (a : Access) (n : Nat) (hn : n < 512) (h : s.InSession b)
    (ha : a.addr = pastBase b.alert n) :
    s.classify a = match a with | .read _ => .answerRead n | .write _ data => .answerWrite n data := by
  obtain ⟨hp, hb, hw⟩ := h
  obtain ⟨⟨_, _, h1, _⟩, _, _, h2⟩ := hw.each
  have h5 := inWindow_apart (setupBase s.path.straps) b.alert 37 512 n hn h2 h1
  rw [classify_outside s a (by rw [ha, h5]) (by simp [hp]), hp, hb]
  exact sessionCourse_alert b a n hn hw ha

end

/-- The place of W0, W1 or W2 of a channel in the telemetry window (R3, R126). -/
theorem telemetryCourse_word (c : Chan) (word : FrameWord) (data : Word) :
    telemetryCourse (4 * c.val + word.offset) data = .snoopFrameWord c word data := by
  have hc := c.isLt
  have hd : (4 * c.val + word.offset) / 4 = c.val := by cases word <;> simp [FrameWord.offset] <;> omega
  have hm : (4 * c.val + word.offset) % 4 = word.offset := by cases word <;> simp [FrameWord.offset]
  unfold telemetryCourse
  simp only [hd, hm, hc, dif_pos]
  cases word <;> rfl

/-- The place of W3 of a channel (R3, R126). -/
theorem telemetryCourse_commit (c : Chan) (data : Word) :
    telemetryCourse (4 * c.val + 3) data = .snoopCommit c data := by
  have hc := c.isLt
  have hd : (4 * c.val + 3) / 4 = c.val := by omega
  have hm : (4 * c.val + 3) % 4 = 3 := by omega
  unfold telemetryCourse
  simp only [hd, hm, hc, dif_pos]

/-- The regions of the alert window by offset. -/
theorem regionOf_entry (i : Fin 32) (word : Fin 4) : regionOf (16 + 4 * i.val + word.val) = .entry i word.val := by
  have h1 := i.isLt
  have h2 := word.isLt
  unfold regionOf
  rw [if_neg (by omega), dif_pos (by omega)]
  have hd : (16 + 4 * i.val + word.val - 16) / 4 = i.val := by omega
  have hm : (16 + 4 * i.val + word.val - 16) % 4 = word.val := by omega
  simp only [hd, hm]

theorem regionOf_detail (c : Chan) (word : Fin 4) : regionOf (144 + 4 * c.val + word.val) = .detail c word.val := by
  have h1 := c.isLt
  have h2 := word.isLt
  unfold regionOf
  rw [if_neg (by omega), dif_neg (by omega), dif_pos (by omega)]
  have hd : (144 + 4 * c.val + word.val - 144) / 4 = c.val := by omega
  have hm : (144 + 4 * c.val + word.val - 144) % 4 = word.val := by omega
  simp only [hd, hm]

end Sys2Proof.Machine
end

