-- ==== Sys2Proof/Laws/SetupKept.lean ====
section
/-! SUPPORT. Every shared operation keeps the law of the setup and command unit (R123, R165, R166, R168). -/

namespace Sys2Proof.Machine

/-- From `s` to `t` nothing that the law of the setup and command unit sees has changed, but the held access may have gone. -/
def SameForSetup (s t : State) : Prop :=
  t.setup.result = s.setup.result ∧ t.setup.part = s.setup.part ∧ t.setup.freeze = s.setup.freeze ∧
  t.setup.working = s.setup.working ∧
  t.path.straps = s.path.straps ∧ t.path.bases = s.path.bases ∧ t.powerReset = s.powerReset ∧
  (t.path.held = s.path.held ∨ t.path.held = none ∨ s.powerReset = false)

/-- The law is kept where nothing it sees has changed. -/
theorem State.SetupLawful.of_same {s t : State} (hp : s.SetupLawful) (h : SameForSetup s t) : t.SetupLawful := by
  obtain ⟨h1, h2, h3, h4, h5, h6, h7, h8⟩ := h
  obtain ⟨a, b, c, d, e⟩ := hp
  constructor
  · rw [h1, h2]; exact a
  · rw [h3, h4]; exact b
  · rw [h4, h5]; exact c
  · rw [h6, h5]; exact d
  · rw [h7, h4, h6]
    intro hr
    obtain ⟨e1, e2, e3⟩ := e hr
    refine ⟨e1, e2, ?_⟩
    rcases h8 with h | h | h
    · rw [h]; exact e3
    · exact h
    · rw [h] at hr; cases hr

theorem offer_setupLawful (s : State) (p) (u : PathUnit)
    (hu : u.straps = s.path.straps ∧ u.bases = s.path.bases ∧ u.held = s.path.held) (h : s.SetupLawful) :
    (s.setPath (u.offer p)).SetupLawful := by
  refine State.SetupLawful.of_same h ?_
  have : (u.offer p).straps = u.straps ∧ (u.offer p).bases = u.bases ∧ (u.offer p).held = u.held := by unfold PathUnit.offer; split <;> exact ⟨rfl, rfl, rfl⟩
  exact ⟨rfl, rfl, rfl, rfl, this.1.trans hu.1, this.2.1.trans hu.2.1, rfl, .inl (this.2.2.trans hu.2.2)⟩

theorem serve_setupLawful (a b h) (s : State) (hp : s.SetupLawful) :
    (serve a b h s).SetupLawful := offer_setupLawful s _ _ ⟨rfl, rfl, rfl⟩ hp

theorem withResult_setupLawful (s : State) (c r) (hr : r ≠ .inProgress) (hn : s.setup.result ≠ .inProgress)
    (hp : s.SetupLawful) :
    (s.withResult c r).SetupLawful := by
  obtain ⟨a, b, cc, d, e⟩ := hp
  refine ⟨?_, b, cc, d, e⟩
  constructor
  · intro h; exact absurd h hr
  · intro h; exact absurd (a.2 h) hn

/-- A setup that validation accepts is in range and its windows do not overlap (R165). -/
theorem validate_ok {straps marks w v} (h : validate straps marks w v = none) :
    w.inRange = true ∧ w.overlaps straps = false := by
  unfold validate at h
  split at h
  · cases h
  split at h
  · cases h
  split at h
  · cases h
  split at h
  · cases h
  split at h
  · cases h
  split at h
  · cases h
  rename_i h1 h2 h3 h4
  exact ⟨by simpa using h2, by simpa using h4⟩

theorem within_iff (a b n : Nat) : within a b n = true ↔ a ≤ n ∧ n ≤ b := by simp [within]

/-- The windows of such a setup are apart (R123, R165). -/
theorem bases_apart (straps : Straps) (w : SetupWords) (h : w.inRange = true) (ho : w.overlaps straps = false) :
    w.bases.Apart straps := by
  have h1 : w.telemetryBlock ≤ 4095 ∧ w.gainBlock ≤ 16383 ∧ w.alertBlock ≤ 2047 := by
    unfold SetupWords.inRange at h
    simp only [Bool.and_eq_true, within_iff] at h
    omega
  obtain ⟨a, b, c⟩ := h1
  have ta : (w.bases.telemetry).toNat = w.telemetryBlock * 256 := by simp [SetupWords.bases]; omega
  have ga : (w.bases.gain).toNat = w.gainBlock * 64 := by simp [SetupWords.bases]; omega
  have aa : (w.bases.alert).toNat = w.alertBlock * 512 := by simp [SetupWords.bases]; omega
  unfold SetupWords.overlaps at ho
  simp only [Bool.or_eq_false_iff] at ho
  obtain ⟨⟨⟨⟨⟨o1, o2⟩, o3⟩, o4⟩, o5⟩, o6⟩ := ho
  constructor
  · simp only [Bases.windows, ta, ga, aa, List.pairwise_cons, List.mem_cons, List.not_mem_nil, or_false, forall_eq_or_imp, forall_eq, List.Pairwise.nil, and_true, false_implies, implies_true]
    refine ⟨⟨?_, ?_, ?_⟩, ⟨?_, ?_⟩, ?_⟩
    · rw [windowsMeet_symm]; exact o4
    · rw [windowsMeet_symm]; exact o5
    · rw [windowsMeet_symm]; exact o6
    · rw [windowsMeet_symm, windowsMeet_symm]; exact o1
    · exact o2
    · exact o3
  · intro v hv
    simp only [Bases.windows, ta, ga, aa, List.mem_cons, List.not_mem_nil, or_false] at hv
    have := setupBase_fits straps
    rcases hv with rfl | rfl | rfl | rfl <;> simp only <;> omega

theorem beginSession_setupLawful (w) (s : State) (hr : s.powerReset = false)
    (hv : w.inRange = true ∧ w.overlaps s.path.straps = false) :
    (beginSession w s).SetupLawful := by
  refine ⟨?_, ?_, ?_, ?_, ?_⟩
  · exact ⟨fun _ => .inl rfl, fun _ => rfl⟩
  · intro _ h; cases h
  · intro v hv'; cases hv'; exact hv
  · intro b hb; cases hb; exact bases_apart _ _ hv.1 hv.2
  · intro h
    have : (beginSession w s).powerReset = s.powerReset := rfl
    rw [this, hr] at h; cases h

theorem commandStart_setupLawful (s : State) (hr : s.powerReset = false) (hn : s.setup.result ≠ .inProgress)
    (hp : s.SetupLawful) :
    (commandStart s).SetupLawful := by
  unfold commandStart; split
  · exact withResult_setupLawful s _ _ (by simp) hn hp
  · rename_i w hw
    refine beginSession_setupLawful w s hr ?_
    unfold State.startSetup at hw
    split at hw
    · rename_i hf
      cases hw
      have := hp.frozen hf
      obtain ⟨v, hv⟩ := Option.ne_none_iff_exists'.1 this
      have e : s.settings = v := by unfold State.settings; rw [hv]; rfl
      rw [e]; exact hp.valid v hv
    · split at hw
      · cases hw
      · rename_i hval
        cases hw; exact validate_ok hval

theorem commandApply_setupLawful (s : State) (hr : s.powerReset = false) (hpa : s.setup.part = .active)
    (hn : s.setup.result ≠ .inProgress) (hp : s.SetupLawful) :
    (commandApply s).SetupLawful := by
  unfold commandApply; split
  · exact withResult_setupLawful s _ _ (by simp) hn hp
  · split
    · exact withResult_setupLawful s _ _ (by simp) hn hp
    · rename_i hval
      obtain ⟨a, b, c, d, e⟩ := hp
      refine ⟨?_, ?_, ?_, ?_, ?_⟩
      · rw [applySetup_setup]
        show (CommandResult.done = _) ↔ (s.setup.part = _ ∨ s.setup.part = _)
        rw [hpa]; simp
      · rw [applySetup_setup]; intro _ h; cases h
      · rw [applySetup_setup, applySetup_path]; intro v hv; cases hv; exact validate_ok hval
      · rw [applySetup_path]; exact d
      · intro h
        have : (applySetup s.setup.copy s).powerReset = s.powerReset := by unfold State.powerReset; rw [show (applySetup s.setup.copy s).lines = s.lines from applySetup_lines _ _]
        rw [this, hr] at h; cases h

theorem commandHalt_setupLawful (s : State) (hp : s.SetupLawful) : (commandHalt s).SetupLawful := by
  obtain ⟨a, b, c, d, e⟩ := hp
  obtain ⟨m, h⟩ := commandHalt_eq s
  rw [h]
  refine ⟨⟨fun _ => .inr rfl, fun _ => rfl⟩, fun h => b ?_, c, d, e⟩
  revert h
  show s.setup.freeze.afterHalt = _ → _
  cases s.setup.freeze <;> simp [Freeze.afterHalt]

theorem sendToEvaluator_setupLawful (s : State) (m) (hp : s.SetupLawful) : (s.sendToEvaluator m).SetupLawful :=
  hp.of_same ⟨rfl, rfl, rfl, rfl, rfl, rfl, rfl, .inl rfl⟩

theorem commandChair_setupLawful (b code ch) (s : State) (hn : s.setup.result ≠ .inProgress) (hp : s.SetupLawful) :
    (commandChair b code ch s).SetupLawful := by
  unfold commandChair; split
  · exact withResult_setupLawful s _ _ (by simp) hn hp
  · exact sendToEvaluator_setupLawful _ _ (withResult_setupLawful s _ _ (by simp) hn hp)

theorem listEvent_setupLawful (f) (s : State) (hp : s.SetupLawful) : (listEvent f s).SetupLawful :=
  hp.of_same ⟨rfl, rfl, rfl, rfl, rfl, rfl, rfl, .inl rfl⟩

theorem commandAckAll_setupLawful (s : State) (hn : s.setup.result ≠ .inProgress) (hp : s.SetupLawful) :
    (commandAckAll s).SetupLawful :=
  withResult_setupLawful (listEvent AlertUnit.ackAll s) _ _ (by simp) hn (listEvent_setupLawful _ _ hp)

theorem takeCommand_setupLawful (d) (s : State) (hr : s.powerReset = false) (hp : s.SetupLawful) :
    (takeCommand d s).SetupLawful := by
  unfold takeCommand
  split
  · exact hp.of_same ⟨rfl, rfl, rfl, rfl, rfl, rfl, rfl, .inl rfl⟩
  · rename_i hn
    split
    · exact withResult_setupLawful s _ _ (by simp) hn hp
    · split
      · rename_i k hk hpart
        cases k
        · exact commandStart_setupLawful s hr hn hp
        · exact commandApply_setupLawful s hr hpart hn hp
        · exact commandHalt_setupLawful s hp
        · exact commandChair_setupLawful _ _ _ s hn hp
        · exact commandChair_setupLawful _ _ _ s hn hp
        · exact commandAckAll_setupLawful s hn hp
      · exact withResult_setupLawful s _ _ (by simp) hn hp

theorem reportIfRestored_setupLawful (s : State) (hp : s.SetupLawful) : (reportIfRestored s).SetupLawful := by
  unfold reportIfRestored; split
  · exact hp.of_same ⟨rfl, rfl, rfl, rfl, rfl, rfl, rfl, .inl rfl⟩
  · exact hp

theorem claimIfAllowed_setupLawful (s : State) (hp : s.SetupLawful) : (claimIfAllowed s).SetupLawful := by
  unfold claimIfAllowed; split
  · split
    · exact hp.of_same ⟨rfl, rfl, rfl, rfl, rfl, rfl, rfl, .inl rfl⟩
    · exact hp
  · exact hp

theorem listEventIfActive_setupLawful (f) (s : State) (hp : s.SetupLawful) : (listEventIfActive f s).SetupLawful := by
  unfold listEventIfActive; split
  · exact hp.of_same ⟨rfl, rfl, rfl, rfl, rfl, rfl, rfl, .inl rfl⟩
  · exact hp

theorem channelEvent_setupLawful (c g) (s : State) (hp : s.SetupLawful) : (channelEvent c g s).SetupLawful :=
  hp.of_same ⟨rfl, rfl, rfl, rfl, rfl, rfl, rfl, .inl rfl⟩

theorem answered_setupLawful (a d) (s : State) (hp : s.SetupLawful) : (answered a d s).SetupLawful :=
  hp.of_same ⟨rfl, rfl, rfl, rfl, rfl, rfl, rfl, .inl rfl⟩

theorem answerRead_setupLawful (r o) (s : State) (hp : s.SetupLawful) : (answerRead r o s).1.SetupLawful := by
  unfold answerRead
  split
  · exact hp.of_same ⟨rfl, rfl, rfl, rfl, rfl, rfl, rfl, .inl rfl⟩
  · exact hp
  · unfold deliverReadMark; split
    · exact hp
    · exact listEventIfActive_setupLawful _ _ hp
  · exact hp
  · exact channelEvent_setupLawful _ _ _ hp
  · exact hp
  · exact hp

theorem answerWrite_setupLawful (r o v) (s : State) (hp : s.SetupLawful) : (answerWrite r o v s).SetupLawful := by
  unfold answerWrite
  split
  · exact listEventIfActive_setupLawful _ _ hp
  all_goals exact hp

theorem answerOvertaken_setupLawful (a) (s : State) (hp : s.SetupLawful) : (answerOvertaken a s).SetupLawful := by
  have h : (s.setPath { s.path with answering := none }).SetupLawful :=
    hp.of_same ⟨rfl, rfl, rfl, rfl, rfl, rfl, rfl, .inl rfl⟩
  unfold answerOvertaken
  dsimp only
  split
  · exact answered_setupLawful _ _ _ (answerRead_setupLawful _ _ _ h)
  · exact answered_setupLawful _ _ _ (answerWrite_setupLawful _ _ _ _ h)
  all_goals exact h

theorem finishAnswer_setupLawful (s : State) (hp : s.SetupLawful) : (finishAnswer s).SetupLawful := by
  unfold finishAnswer; split
  · exact hp
  · exact answerOvertaken_setupLawful _ _ hp

theorem takeCourse_setupLawful (a) (s : State) (hr : s.powerReset = false) (hp : s.SetupLawful) :
    (takeCourse a s).SetupLawful := by
  unfold takeCourse
  split
  · exact serve_setupLawful _ _ _ _ hp
  · refine serve_setupLawful _ _ _ _ ?_; exact hp.of_same ⟨rfl, rfl, rfl, rfl, rfl, rfl, rfl, .inl rfl⟩
  · exact serve_setupLawful _ _ _ _ (takeCommand_setupLawful _ _ hr hp)
  · refine serve_setupLawful _ _ _ _ ?_
    unfold takeStagingWrite; split
    · exact hp.of_same ⟨rfl, rfl, rfl, rfl, rfl, rfl, rfl, .inl rfl⟩
    · exact hp
  · refine serve_setupLawful _ _ _ _ ?_
    unfold takeCommit
    repeat' split
    all_goals first | exact hp | exact hp.of_same ⟨rfl, rfl, rfl, rfl, rfl, rfl, rfl, .inl rfl⟩
  · refine serve_setupLawful _ _ _ _ ?_
    unfold filterWrite; simp only; split
    · refine reportIfRestored_setupLawful _ ?_; exact hp.of_same ⟨rfl, rfl, rfl, rfl, rfl, rfl, rfl, .inl rfl⟩
    · exact hp.of_same ⟨rfl, rfl, rfl, rfl, rfl, rfl, rfl, .inl rfl⟩
  · exact hp.of_same ⟨rfl, rfl, rfl, rfl, rfl, rfl, rfl, .inl rfl⟩
  · exact answered_setupLawful _ _ _ (answerRead_setupLawful _ _ _ hp)
  · exact answered_setupLawful _ _ _ (answerWrite_setupLawful _ _ _ _ hp)

theorem arrive_setupLawful (a) (s : State) (hr : s.powerReset = false) (hp : s.SetupLawful) :
    (arrive a s).SetupLawful := by
  unfold arrive; split
  · exact State.SetupLawful.of_same (s := s) hp ⟨rfl, rfl, rfl, rfl, rfl, rfl, rfl, .inr (.inr hr)⟩
  · exact takeCourse_setupLawful _ _ hr hp

theorem portTakes_powerReset (s : State) (h : s.portTakes = true) : s.powerReset = false := by
  unfold State.portTakes at h
  simp only [Bool.and_eq_true, Bool.not_eq_true'] at h
  exact h.1.1.1.1

theorem takePresented_setupLawful (s : State) (hp : s.SetupLawful) : (takePresented s).SetupLawful := by
  unfold takePresented; split
  · exact hp
  · split
    · rename_i h
      refine arrive_setupLawful _ _ (portTakes_powerReset s h) ?_
      exact hp.of_same ⟨rfl, rfl, rfl, rfl, rfl, rfl, rfl, .inl rfl⟩
    · exact hp

theorem present_setupLawful (a) (s : State) (hp : s.SetupLawful) : (present a s).SetupLawful := by
  unfold present; split
  · rename_i h; exact arrive_setupLawful _ _ (portTakes_powerReset s h) hp
  · split
    · exact takePresented_setupLawful _ (answerOvertaken_setupLawful _ _ hp)
    · exact hp.of_same ⟨rfl, rfl, rfl, rfl, rfl, rfl, rfl, .inl rfl⟩

theorem releaseHeld_setupLawful (s : State) (hp : s.SetupLawful) : (releaseHeld s).SetupLawful := by
  unfold releaseHeld; split
  · exact hp
  · rename_i a ha
    have hr : s.powerReset = false := by
      cases h : s.powerReset with
      | false => rfl
      | true => have := (hp.reset h).2.2; rw [this] at ha; cases ha
    refine takeCourse_setupLawful _ _ hr ?_
    exact State.SetupLawful.of_same (s := s) hp ⟨rfl, rfl, rfl, rfl, rfl, rfl, rfl, .inr (.inl rfl)⟩

theorem completeEnded_setupLawful (s : State) (hp : s.SetupLawful) : (completeEnded s).SetupLawful := by
  unfold completeEnded; split
  · split
    · exact hp.of_same ⟨rfl, rfl, rfl, rfl, rfl, rfl, rfl, .inl rfl⟩
    · exact hp
  · exact hp

theorem setEnf_setupLawful (s : State) (v) (hp : s.SetupLawful) : (s.setEnf v).SetupLawful :=
  hp.of_same ⟨rfl, rfl, rfl, rfl, rfl, rfl, rfl, .inl rfl⟩

theorem setMail_setupLawful (s : State) (v) (hp : s.SetupLawful) : (s.setMail v).SetupLawful :=
  hp.of_same ⟨rfl, rfl, rfl, rfl, rfl, rfl, rfl, .inl rfl⟩

theorem endBurst_setupLawful (s : State) (hp : s.SetupLawful) :
    (endBurst s).SetupLawful := takePresented_setupLawful _ (releaseHeld_setupLawful _ (setEnf_setupLawful _ _ hp))

theorem loadDone_setupLawful (s : State) (hp : s.SetupLawful) : (loadDone s).SetupLawful := by
  obtain ⟨a, b, c, d, e⟩ := hp
  exact ⟨by simp [loadDone, State.setSetup], b, c, d, e⟩

theorem restoreDone_setupLawful (s : State) (hp : s.SetupLawful) : (restoreDone s).SetupLawful := by
  obtain ⟨a, b, c, d, e⟩ := hp
  exact ⟨by simp [restoreDone, State.setSetup], b, c, d, e⟩

theorem setSetup_setupLawful (s : State) (v) (h : v.result = s.setup.result ∧ v.part = s.setup.part ∧
    v.freeze = s.setup.freeze ∧ v.working = s.setup.working) (hp : s.SetupLawful) : (s.setSetup v).SetupLawful :=
  hp.of_same ⟨h.1, h.2.1, h.2.2.1, h.2.2.2, rfl, rfl, rfl, .inl rfl⟩

theorem takeReport_setupLawful (m) (s : State) (hp : s.SetupLawful) : (takeReport m s).SetupLawful := by
  cases m with
  | stall | stallEnd => exact setSetup_setupLawful _ _ ⟨rfl, rfl, rfl, rfl⟩ hp
  | restoreDone =>
    by_cases h : s.setup.part = .releasing
    · rw [takeReport, if_pos h]; exact restoreDone_setupLawful _ hp
    · rw [takeReport, if_neg h]; exact hp

theorem takeEach_setupLawful (ms) (s : State) (hp : s.SetupLawful) : (takeEach ms s).SetupLawful := by
  induction ms generalizing s with
  | nil => exact hp
  | cons m rest ih => exact ih _ (takeReport_setupLawful m s hp)

theorem takeReports_setupLawful (s : State) (hp : s.SetupLawful) : (takeReports s).SetupLawful :=
  takeEach_setupLawful _ _ (setMail_setupLawful _ _ hp)

theorem endRestore_setupLawful (s : State) (hp : s.SetupLawful) : (endRestore s).SetupLawful := by
  unfold endRestore; split
  · exact takeReports_setupLawful _ (setMail_setupLawful _ _ hp)
  · exact hp

theorem endBrokenCede_setupLawful (s : State) (hp : s.SetupLawful) : (endBrokenCede s).SetupLawful :=
  takePresented_setupLawful _ (claimIfAllowed_setupLawful _ (releaseHeld_setupLawful _
    (endRestore_setupLawful _ (setEnf_setupLawful _ _ (setEnf_setupLawful _ _ hp)))))

theorem takeClearings_setupLawful (s : State) (hp : s.SetupLawful) : (takeClearings s).SetupLawful := by
  obtain ⟨_, _, _, h⟩ := takeClearings_frame s
  exact hp.of_same (by rw [h]; exact ⟨rfl, rfl, rfl, rfl, rfl, rfl, rfl, .inl rfl⟩)

theorem leaveLoading_setupLawful (s : State) (hp : s.SetupLawful) : (leaveLoading s).SetupLawful :=
  loadDone_setupLawful _ (takeReports_setupLawful _ (setEnf_setupLawful _ _ (setEnf_setupLawful _ _ (takeClearings_setupLawful s hp))))

theorem queueEnforced_setupLawful (s : State) (hp : s.SetupLawful) : (queueEnforced s).SetupLawful := by
  unfold queueEnforced; split
  · exact setEnf_setupLawful _ _ hp
  · exact hp

theorem endLoad_setupLawful (b) (s : State) (hp : s.SetupLawful) : (endLoad b s).SetupLawful := by
  unfold endLoad
  dsimp only
  split
  · exact takePresented_setupLawful _ (queueEnforced_setupLawful _ (releaseHeld_setupLawful _ (leaveLoading_setupLawful _ hp)))
  · exact takePresented_setupLawful _ (releaseHeld_setupLawful _ (queueEnforced_setupLawful _ (leaveLoading_setupLawful _ hp)))

theorem proceed_setupLawful (s : State) (hp : s.SetupLawful) : (proceed s).SetupLawful := by
  unfold proceed
  split
  · exact endBrokenCede_setupLawful _ hp
  · split
    · exact offer_setupLawful _ _ _ ⟨rfl, rfl, rfl⟩ hp
    all_goals
      split
      · split
        · exact offer_setupLawful (s.setQueue _) _ _ ⟨rfl, rfl, rfl⟩ (setEnf_setupLawful _ _ hp)
        · exact endBurst_setupLawful _ hp
      · exact endBurst_setupLawful _ hp

theorem proceedAfterOrphan_setupLawful (s : State) (hp : s.SetupLawful) : (proceedAfterOrphan s).SetupLawful := by
  unfold proceedAfterOrphan; split
  · exact proceed_setupLawful _ hp
  · split
    · exact hp
    · exact reportIfRestored_setupLawful _ hp
  all_goals exact hp

theorem afterOwnAccess_setupLawful (s : State) (hp : s.SetupLawful) : (afterOwnAccess s).SetupLawful := by
  unfold afterOwnAccess; split
  · exact proceedAfterOrphan_setupLawful _ (setEnf_setupLawful _ _ hp)
  · split
    · exact proceed_setupLawful _ hp
    · exact hp

theorem endStall_setupLawful (s : State) (hp : s.SetupLawful) : (endStall s).SetupLawful := by
  unfold endStall
  split
  · split
    · exact hp.of_same ⟨rfl, rfl, rfl, rfl, rfl, rfl, rfl, .inl rfl⟩
    · exact hp.of_same ⟨rfl, rfl, rfl, rfl, rfl, rfl, rfl, .inl rfl⟩
  · exact hp

theorem beginCeded_setupLawful (s : State) (hp : s.SetupLawful) : (beginCeded s).SetupLawful := by
  unfold beginCeded; split
  · exact hp
  · exact proceed_setupLawful _ hp

theorem queueUnderEnforce_setupLawful (c) (s : State) (hp : s.SetupLawful) : (queueUnderEnforce c s).SetupLawful := by
  unfold queueUnderEnforce; split
  · exact claimIfAllowed_setupLawful _ (setEnf_setupLawful _ _ hp)
  · exact hp

theorem advanceLoad_setupLawful (b c) (s : State) (hp : s.SetupLawful) : (advanceLoad b c s).SetupLawful := by
  unfold advanceLoad; split
  · exact endBrokenCede_setupLawful _ hp
  · split
    · exact offer_setupLawful (s.setEnf _) _ _ ⟨rfl, rfl, rfl⟩ (setEnf_setupLawful _ _ hp)
    · exact endLoad_setupLawful _ _ hp

theorem takeSetupChange_setupLawful (old new) (s : State) (hp : s.SetupLawful) :
    (takeSetupChange old new s).SetupLawful := by
  unfold takeSetupChange
  have h : (s.dropToEnforcement.sendSilence (muteCodeCrossings old new s.enf.intended)).SetupLawful :=
    setMail_setupLawful _ _ (setMail_setupLawful _ _ hp)
  simp only
  split
  · exact claimIfAllowed_setupLawful _ (setEnf_setupLawful _ _ h)
  · exact h

theorem takeHalt_setupLawful (s : State) (hp : s.SetupLawful) : (takeHalt s).SetupLawful := by
  unfold takeHalt
  refine claimIfAllowed_setupLawful _ (endRestore_setupLawful _ ?_)
  split <;> split <;> exact hp.of_same ⟨rfl, rfl, rfl, rfl, rfl, rfl, rfl, .inl rfl⟩

theorem takeUntilHalt_setupLawful (ms) (s : State) (hp : s.SetupLawful) : (takeUntilHalt ms s).SetupLawful := by
  induction ms generalizing s with
  | nil => exact hp
  | cons m rest ih =>
    cases m with
    | loadRequest => exact hp
    | halt => exact takeHalt_setupLawful _ hp
    | setupChange old new => exact ih _ (takeSetupChange_setupLawful _ _ _ hp)

theorem takeNotices_setupLawful (ms) (s : State) (hp : s.SetupLawful) : (takeNotices ms s).SetupLawful := by
  induction ms generalizing s with
  | nil => exact hp
  | cons m rest ih => exact ih _ (queueUnderEnforce_setupLawful _ _ (setMail_setupLawful _ _ hp))

theorem finishHalt_setupLawful (s : State) (hp : s.SetupLawful) : (finishHalt s).SetupLawful := by
  unfold finishHalt; split
  · exact completeEnded_setupLawful _ (takeUntilHalt_setupLawful _ _ (takeNotices_setupLawful _ _ hp))
  · exact hp

theorem membershipEvent_setupLawful (w c) (s : State) (hp : s.SetupLawful) : (membershipEvent w c s).SetupLawful := by
  unfold membershipEvent
  simp only
  split
  · exact hp.of_same ⟨rfl, rfl, rfl, rfl, rfl, rfl, rfl, .inl rfl⟩
  · exact hp.of_same ⟨rfl, rfl, rfl, rfl, rfl, rfl, rfl, .inl rfl⟩
  · split
    · exact hp
    · exact hp.of_same ⟨rfl, rfl, rfl, rfl, rfl, rfl, rfl, .inl rfl⟩
  · exact hp

theorem portEnded_setupLawful (s : State) (hp : s.SetupLawful) : (s.setPath s.path.portEnded).SetupLawful := by
  rw [portEnded_eq]; exact hp.of_same ⟨rfl, rfl, rfl, rfl, rfl, rfl, rfl, .inl rfl⟩

end Sys2Proof.Machine
end

