-- ==== Sys2Proof/Tests/Slice0.lean ====
section
/-! SUPPORT. The author's tests: ill-formed terms, a few steps on small states, and for every obligation with hypotheses a
state and operands that meet them. -/

namespace Sys2Proof.Tests

open Sys2Proof.Machine

set_option Elab.async false

/-! ## Small states -/

/-- A valid setup: channels 0 to 15 and 63 enrolled, channel 1 a CHAIR, squelch for channel 0. -/
def words : SetupWords :=
  #v[0xD764, 1, 8, 2, 0, 0xFFFF, 0, 0, 0x8000, 2, 0, 0, 0, 1, 0, 0, 0, 0x0214, 100, 200, 0x030A, 50, 30, 10,
    60, 40, 20, 5, 0x0514, 10, 60, 4, 0x1408, 0x0402, 0x000F, 0x83F7]

/-- Power reset released, PASSIVE, with a valid setup copy. -/
def passive : State :=
  { State.reset with
    lines := { State.reset.lines with supplyLow := false }
    setup := { State.reset.setup with part := .passive, copy := words, marks := Vector.replicate 36 true } }

/-- A session under `words`, with nothing in flight. -/
def session : State :=
  { passive with
    setup := { passive.setup with part := .active, working := some words, result := .done }
    path := { passive.path with bases := some words.bases }
    channels := passive.channels.set 5 { ChannelRecord.powerReset with enrolled := true } }

def inState (p : PartState) (r : CommandResult) (s : State) : State :=
  { s with setup := { s.setup with part := p, result := r } }

/-- The record of channel 5 replaced. -/
def withRecord (r : ChannelRecord) (s : State) : State := { s with channels := s.channels.set 5 r }

/-- A frame of channel 5 waits, behind one of channel 6. -/
def withFrame (f : Frame) (s : State) : State :=
  { s with mail := { s.mail with frames := [(6, f), (5, f)] } }

def frame (rf : BitVec 7) (lock : Bool) : Frame := { rf := rf, lock := lock, battery := none, switch := none }

def absent : ChannelRecord := { ChannelRecord.powerReset with enrolled := true }
def locked : ChannelRecord := { absent with link := .locked, freshTimer := .running 150 }
def weak : ChannelRecord :=
  { locked with link := .weak, fadeRun := 1, active := { ConditionSet.empty with weak := true } }
def dropout : ChannelRecord := { locked with link := .dropout, dropoutTimer := .running 90 }
def lost : ChannelRecord := { locked with link := .lost, active := { ConditionSet.empty with lost := true } }
def silent : ChannelRecord :=
  { absent with link := .silent, active := { ConditionSet.empty with noReport := true } }
/-- LOW at level 25, with PRIMARY thresholds 50, 30, 10 and hysteresis 5. -/
def low : ChannelRecord :=
  { absent with
    battery := .low, batteryLevel := some 25, chemistry := some .primary
    active := { ConditionSet.empty with low := true } }

theorem words_valid : validate passive.path.straps passive.setup.marks words none = none := by decide +kernel

theorem apart : words.bases.Apart session.path.straps := by unfold Bases.Apart; decide +kernel

theorem inSession : session.InSession words.bases := ⟨rfl, rfl, apart⟩

theorem taking : session.Taking := ⟨by decide +kernel, by decide +kernel⟩

theorem passive_taking : passive.Taking := ⟨by decide +kernel, by decide +kernel⟩

theorem absent_lawful : absent.Lawful := by constructor <;> decide +kernel
theorem locked_lawful : locked.Lawful := by constructor <;> decide +kernel
theorem weak_lawful : weak.Lawful := by constructor <;> decide +kernel
theorem dropout_lawful : dropout.Lawful := by constructor <;> decide +kernel
theorem lost_lawful : lost.Lawful := by constructor <;> decide +kernel
theorem silent_lawful : silent.Lawful := by constructor <;> decide +kernel
theorem low_lawful : low.Lawful := by constructor <;> decide +kernel

/-! ## Ill-formed terms -/

theorem test_unknownCode_of_START_refused : (Instr.unknownCode 0x01#8 0).wellFormed = false := by decide
theorem test_unknownCode_of_ACK_ALL_refused : (Instr.unknownCode 0x20#8 0).wellFormed = false := by decide
theorem test_unknownCode_accepted : (Instr.unknownCode 0x04#8 0).wellFormed = true := by decide
theorem test_discardedWrite_at_word_3_refused : (Instr.discardedWrite 19 0).wellFormed = false := by decide
theorem test_discardedWrite_at_last_word_3_refused : (Instr.discardedWrite 143 0).wellFormed = false := by decide
theorem test_discardedWrite_accepted : (Instr.discardedWrite 147 0).wellFormed = true := by decide


/-! ## Witnesses: the step, the resets, the memory path -/

theorem witness_StepRunsFrontCommand :
    { session with pending := [.secondsStep] }.pending = .secondsStep :: [] := rfl

theorem witness_EmptyQueueLetsTimePass :
    (State.reset.pending = [] ∧ ownStep State.reset = none ∧ State.reset.powerReset = true) ∧
    (session.pending = [] ∧ ownStep session = none ∧ session.powerReset = false ∧ session.time.divider + 1 < 4096) ∧
    (let s := { session with time := { session.time with divider := 4095 } }
     s.pending = [] ∧ ownStep s = none ∧ s.powerReset = false ∧ 4096 ≤ s.time.divider + 1) ∧
    ownStep (withFrame (frame 0 true) session) = some (.frameEvaluation 6) := by decide +kernel

theorem witness_EveryCommandAnswersNext :
    exec .secondsStep State.reset = .next State.reset ∧
    Instr.secondsStep ≠ .memoryAccessEnd ∧ Instr.secondsStep ≠ .burstWriteEnd :=
  ⟨rfl, by decide, by decide⟩

def storing : State :=
  { session with path := { session.path with port := some (.burstWrite 5 0x205#20 0x0104#16) } }

theorem witness_PowerResetAssertion :
    State.reset.powerReset = true ∧ storing.powerReset = false ∧ storing.memory.wf = true ∧
    storing.Storing 0x205 0x0104#16 :=
  ⟨by decide +kernel, by decide +kernel, by decide +kernel, .inr ⟨5, 0x205#20, by decide +kernel, rfl⟩⟩

theorem witness_PowerResetRelease :
    State.reset.lines.source .pin = false ∧
    (let s := { State.reset with lines := { State.reset.lines with powerPin := true } }
     s.lines.source .pin = true ∧ (s.lines.setSource .pin false).supplyLow = true) ∧
    (State.reset.lines.source .supply = true ∧ (State.reset.lines.setSource .supply false).powerPin = false ∧
      (State.reset.lines.setSource .supply false).supplyLow = false) := by decide +kernel

theorem witness_ResetAndSettling :
    State.reset.powerReset = true ∧
    (let s := inState .settling .idle passive
     s.Taking ∧ s.setup.part = .settling) ∧
    (let s := inState .settling .idle { passive with setup := { passive.setup with settle := .due } }
     s.setup.settle = .due ∧ s.setup.part = .settling) := by unfold State.Taking; decide +kernel

def busReset : State := { session with lines := { session.lines with busrst := true } }

/-- An access whose answer has read neither the view nor the alert list unit before HALT cleared them. -/
def late (a : Access) : Answering := { access := a, view := none, list := none }

/-- RELEASING as HALT leaves it, with an access to the alert window that waits for its answer. -/
def overtaken (a : Access) : State :=
  let s := inState .releasing .inProgress { session with path := { session.path with answering := some (late a) } }
  { s with channels := Vector.replicate 64 .powerReset }

/-- RELEASING, with HALT still on its way behind what `before` holds. -/
def halting (before : List ToEnforcement) : State :=
  let s := { session with mail := { session.mail with toEnforcement := before ++ [ToEnforcement.halt] } }
  { s with setup := { s.setup with part := .releasing, result := .inProgress } }

theorem witness_BusReset :
    (session.lines.busrst = false ∧ ToEnforcement.halt ∉ session.mail.toEnforcement ∧ busReset.lines.busrst = true) ∧
    ((halting [.setupChange words words]).lines.busrst = false ∧
      ToEnforcement.halt ∈ (halting [.setupChange words words]).mail.toEnforcement) ∧
    (busReset.path.ownInProgress = false ∧
      { busReset with path := storing.path }.path.ownInProgress = true) ∧
    ((overtaken (.read 0x00402#20)).path.answering = some (late (.read 0x00402#20)) ∧ session.path.answering = none ∧
      (overtaken (.read 0x00402#20)).powerReset = false ∧ (overtaken (.read 0x00402#20)).lines.busrst = false) := by
  decide +kernel

def ceding : State :=
  { session with
    lines := { session.lines with cede := true }
    enf := { session.enf with claim := .ceded, purpose := some .burst } }

theorem witness_AccessesArePresented :
    (presentsAccess (.commit 5 0) = true ∧ accessOf session (.commit 63 0) = some (.write 0x001FF#20 0) ∧
      accessOf passive (.commit 5 0) = none) ∧
    (presentsAccess .memoryAccessEnd = false ∧ session.path.presented = none ∧ session.path.held = none) ∧
    (ceding.portTakes = true ∧ ceding.lines.cede = true ∧ ceding.enf.claim = .ceded) ∧
    (State.reset.powerReset = true ∧ busReset.lines.busrst = true ∧
      { session with path := { session.path with held := some (.read 0) } }.path.held ≠ none ∧
      (overtaken (.read 0x00402#20)).path.answering = some (late (.read 0x00402#20)) ∧
      (late (.read 0x00402#20)).access ≠ .read 0) ∧
    (accessOf session (.halt 7 none) = some (.write 0x00064#20 0x0307#16) ∧ ∀ low b, Instr.halt 7 none ≠ .halt low (some b)) ∧
    (session.Taking ∧ session.classify (.read 0xFFFFF#20) = .forward) := by
  unfold State.Taking
  refine ⟨by decide +kernel, by decide +kernel, by decide +kernel, by decide +kernel, ⟨by decide +kernel, ?_⟩, by decide +kernel⟩
  intro low b h
  cases h

theorem test_MEMORY_ACCESS_END_with_no_access_changes_nothing : exec .memoryAccessEnd session = .next session := rfl

theorem witness_ClassificationOfAccesses :
    ((inState .settling .idle session).setup.part = .settling ∧ session.setup.part ≠ .settling) ∧
    (passive.setup.part = .passive ∧ ∀ n < 37, (Access.read 0x00065#20).addr ≠ pastBase (setupBase passive.path.straps) n) ∧
    (let s := inState .releasing .inProgress session
     s.path.bases = some words.bases ∧ words.bases.Apart s.path.straps ∧ s.setup.part = .releasing ∧
     (∀ n < 37, (Access.read 0x00240#20).addr ≠ pastBase (setupBase s.path.straps) n) ∧
     ∀ n < 64, (Access.read 0x00240#20).addr ≠ pastBase words.bases.gain n) ∧
    (session.InSession words.bases ∧
     (∀ n < 37, (Access.read 0x00600#20).addr ≠ pastBase (setupBase session.path.straps) n) ∧
     (∀ n < 64, (Access.read 0x00600#20).addr ≠ pastBase words.bases.gain n) ∧
     (∀ n < 256, (Access.read 0x00600#20).addr ≠ pastBase words.bases.telemetry n) ∧
     ∀ n < 512, (Access.read 0x00600#20).addr ≠ pastBase words.bases.alert n) := by
  unfold State.InSession Bases.Apart; decide +kernel

/-- A processor write is at the port; it completes the write of an accepted HALT if `halt`. -/
def ending (halt : Bool) (sent : List ToEnforcement) : State :=
  { session with
    path := { session.path with
      port := some (.processor (.write 0x00064#20 0x0300#16))
      processor := some { access := .write 0x00064#20 0x0300#16, awaitsHalt := halt, ended := false, data := none } }
    mail := { session.mail with toEnforcement := sent } }

theorem witness_MemoryAccessEnd :
    ((ending false []).memory.wf = true ∧
      (ending false []).path.port = some (.processor (.write 0x00064#20 0x0300#16)) ∧
      (ending false []).haltPending = false) ∧
    (ending true [.halt]).haltPending = true ∧
    (let s := { ending true [] with mail := { session.mail with toSetup := [.restoreDone] } }
     s.haltPending = false ∧ s.path.processor.map (·.awaitsHalt) = some true) := by decide +kernel

/-! ## Witnesses: setup and commands -/

theorem witness_SetupCopyWrite : passive.Taking ∧ passive.setup.part ≠ .settling := by
  unfold State.Taking; decide +kernel

theorem witness_CommandsNotCarriedOut :
    (commandWordOf (.unknownCode 0x04#8 0) = some 0x0400#16 ∧ (Instr.unknownCode 0x04#8 0).wellFormed = true) ∧
    (commandWordOf (.start 0) = some 0x0100#16 ∧ (Instr.start 0).wellFormed = true) ∧
    ((inState .settling .idle passive).Taking ∧ (inState .settling .idle passive).setup.part = .settling) ∧
    ((inState .loading .inProgress session).Taking ∧ (inState .loading .inProgress session).setup.result = .inProgress) ∧
    (session.Taking ∧ session.setup.result ≠ .inProgress ∧ session.setup.part ≠ .passive) ∧
    (passive.Taking ∧ passive.setup.result ≠ .inProgress ∧ passive.setup.part ≠ .active) := by
  unfold State.Taking; decide +kernel

def permanent : State := { passive with setup := { passive.setup with working := some words, freeze := .permanent } }

theorem witness_StartCommand :
    (State.Taking { passive with setup := { passive.setup with marks := passive.setup.marks.set 35 false } } ∧
      validate passive.path.straps (passive.setup.marks.set 35 false) words none = some .incomplete) ∧
    (passive.Taking ∧ passive.setup.part = .passive ∧ passive.setup.result ≠ .inProgress ∧
      passive.setup.freeze ≠ .permanent ∧ validate passive.path.straps passive.setup.marks passive.setup.copy none = none) ∧
    (permanent.Taking ∧ permanent.setup.freeze = .permanent ∧ permanent.setup.working = some words) := by
  unfold State.Taking; decide +kernel

theorem witness_ApplyCommand :
    (session.Taking ∧ session.setup.part = .active ∧ session.setup.result ≠ .inProgress ∧
      session.setup.working = some words ∧ session.setup.freeze = .none ∧
      validate session.path.straps session.setup.marks session.setup.copy (some words) = none) ∧
    validate session.path.straps session.setup.marks (words.set 31 5) (some words) = some .check ∧
    validate session.path.straps session.setup.marks ((words.set 1 3).set 35 0x83F5) (some words) = some .windowsFixed ∧
    Freeze.session ≠ .none := by unfold State.Taking; decide +kernel

/-- A session in which an earlier APPLY has de-enrolled channel 5; the setup copy enrols it anew. -/
def withoutFive : State :=
  { session with setup := { session.setup with working := some (words.set 5 0xFFDF) } }

theorem witness_ApplyCommand_enrolling_anew :
    let s := { withoutFive with mail := { session.mail with toList := [.removal [5], .removal [6]] } }
    s.setup.working = some (words.set 5 0xFFDF) ∧ SetupWords.enrols (words.set 5 0xFFDF) 5 = false ∧ s.setup.copy.enrols 5 = true ∧
      validate s.path.straps s.setup.marks s.setup.copy s.setup.working = none := by decide +kernel

theorem witness_HaltCommand :
    (session.Taking ∧ session.setup.part = .active ∧ session.setup.result ≠ .inProgress) ∧
    (session.classify (.read 0x005FF#20) = .answerRead 511 ∧ session.classify (.write 0x00400#20 7) = .answerWrite 0 7 ∧
      session.classify (.read 0x00600#20) = .forward) ∧
    (busReset.portTakes = false ∧ ceding.busCeded = true ∧ passive.setup.part ≠ .active ∧
      (inState .releasing .inProgress session).setup.result = .inProgress) ∧
    (∀ n < 512, (overtaken (.read (pastBase words.bases.alert n))).path.bases = some words.bases ∧
      (overtaken (.read (pastBase words.bases.alert n))).path.answering = some (late (.read (pastBase words.bases.alert n)))) ∧
    ((overtaken (.write 0x00413#20 7)).path.answering = some (late (.write 0x00413#20 7)) ∧
      (Access.write 0x00413#20 7).addr = pastBase words.bases.alert 19 ∧
      (overtaken (.write 0x00413#20 7)).powerReset = false ∧ (overtaken (.write 0x00413#20 7)).lines.busrst = false ∧
      (overtaken (.write 0x00413#20 7)).setup.part ≠ .active) ∧
    words.bases.Apart (overtaken (.write 0x00413#20 7)).path.straps ∧ (overtaken (.write 0x00413#20 7)).AfterHalt := by
  unfold State.Taking
  refine ⟨by decide +kernel, by decide +kernel, by decide +kernel, fun n _ => ⟨rfl, rfl⟩, by decide +kernel, apart, fun c => ?_, rfl, rfl⟩
  show (Vector.replicate 64 ChannelRecord.powerReset)[c] = _
  simp

theorem witness_MuteUnmuteAndAckAllCommands :
    (session.Taking ∧ session.setup.part = .active ∧ session.setup.result ≠ .inProgress ∧
      session.workingEnrols 63 = true ∧ session.workingEnrols 62 = false) ∧
    session.alert.Lawful :=
  ⟨by unfold State.Taking; decide +kernel, AlertUnit.cleared_lawful⟩

theorem witness_Validation :
    validate passive.path.straps passive.setup.marks words none = none ∧
    validate passive.path.straps passive.setup.marks (words.set 0 0) none = some .signature ∧
    validate passive.path.straps passive.setup.marks (words.set 35 0) none = some .check ∧
    validate passive.path.straps passive.setup.marks ((words.set 27 11).set 35 0x83F1) none = some .range ∧
    validate passive.path.straps passive.setup.marks ((words.set 22 50).set 35 0x83E3) none = some .order ∧
    validate passive.path.straps passive.setup.marks ((words.set 2 7).set 35 0x83F8) none = some .overlap := by
  decide +kernel

/-! ## Witnesses: the intake and the evaluator -/

def staged (tag : BitVec 4) : State :=
  { session with
    staging := session.staging.set 5 { link := some { rf := 40, lock := true, tag := tag }, battery := none, switch := none } }

theorem witness_StagingFill :
    (session.InSession words.bases ∧ session.Taking) ∧ session.workingEnrols 63 = true ∧ session.workingEnrols 16 = false :=
  ⟨⟨inSession, taking⟩, by decide +kernel⟩

theorem witness_CommitClassified :
    (staged 15).InSession words.bases ∧ (staged 15).Taking ∧ (staged 15).workingEnrols 5 = true ∧
    ((staged 15).staging[5].link.map (·.tag) = some ((0x000F#16).extractLsb' 0 4)) ∧
    (∀ l, session.staging[5].link = some l → l.tag ≠ (0x000F#16).extractLsb' 0 4) := by
  refine ⟨⟨rfl, rfl, apart⟩, ⟨by decide +kernel, by decide +kernel⟩, by decide +kernel, by decide +kernel, ?_⟩
  intro l h
  exact absurd h (by simp [session, passive, State.reset, Staging.empty])

/-- The frame of channel 5 waits behind another channel's. -/
theorem waits (f : Frame) {r : ChannelRecord} (h : r.enrolled = true) :
    (withFrame f (withRecord r session)).FrameWaits 5 f := by
  refine ⟨⟨[(6, f)], [], rfl, ?_⟩, ?_⟩
  · intro p hp
    obtain rfl := List.mem_singleton.1 hp
    exact (by decide : (6 : Chan) ≠ 5)
  · exact ⟨by simpa [withFrame, withRecord] using h, rfl⟩

theorem record_eq (f : Frame) (r : ChannelRecord) : (withFrame f (withRecord r session)).channels[5] = r := by
  simp [withFrame, withRecord]

/-- A frame waits and its channel's record, in link state `l` and battery state `b`, is lawful. -/
theorem waits_lawful (f : Frame) {r : ChannelRecord} (h : r.enrolled = true) (hr : r.Lawful) :
    (withFrame f (withRecord r session)).FrameWaits 5 f ∧ (withFrame f (withRecord r session)).channels[5].Lawful :=
  ⟨waits f h, by rw [record_eq]; exact hr⟩

theorem witness_FrameEvaluation :
    (withFrame (frame 40 true) session).mail.frames = [(6, frame 40 true)] ++ (5, frame 40 true) :: [] ∧
    (∀ p ∈ [((6 : Chan), frame 40 true)], p.1 ≠ (5 : Chan)) ∧
    (session.channels[5].enrolled = true ∧ session.setup.part = .active) ∧
    (let s := inState .loading .inProgress (withFrame (frame 40 true) session)
     s.channels[5].enrolled = true ∧ s.setup.part ≠ .active) ∧
    passive.channels[5].enrolled = false := by decide +kernel

theorem witness_FramesUpToADropout :
    (absent.link = .absent ∧ locked.link = .locked ∧ weak.link = .weak ∧ dropout.link = .dropout) ∧
    (∀ f, (withFrame f (withRecord absent session)).FrameWaits 5 f ∧
      (withFrame f (withRecord absent session)).channels[5].Lawful) ∧
    (∀ f, (withFrame f (withRecord weak session)).FrameWaits 5 f ∧
      (withFrame f (withRecord weak session)).channels[5].Lawful) ∧
    ∀ f, (withFrame f (withRecord locked session)).FrameWaits 5 f ∧
      (withFrame f (withRecord locked session)).channels[5].Lawful :=
  ⟨by decide, fun f => waits_lawful f rfl absent_lawful, fun f => waits_lawful f rfl weak_lawful,
    fun f => waits_lawful f rfl locked_lawful⟩

theorem witness_DropoutEndedByFrame :
    dropout.link = .dropout ∧ (withFrame (frame 0 true) (withRecord dropout session)).FrameWaits 5 (frame 0 true) ∧
      (withFrame (frame 0 true) (withRecord dropout session)).channels[5].Lawful :=
  ⟨rfl, waits_lawful _ rfl dropout_lawful⟩

theorem witness_LostAndSilentFrames :
    (lost.link = .lost ∧ silent.link = .silent) ∧
    (∀ f, (withFrame f (withRecord lost session)).FrameWaits 5 f ∧
      (withFrame f (withRecord lost session)).channels[5].Lawful) ∧
    ∀ f, (withFrame f (withRecord silent session)).FrameWaits 5 f ∧
      (withFrame f (withRecord silent session)).channels[5].Lawful :=
  ⟨by decide, fun f => waits_lawful f rfl lost_lawful, fun f => waits_lawful f rfl silent_lawful⟩

def batteryFrame (level : BitVec 7) : Frame :=
  { rf := 40, lock := true, battery := some { level := level, chemistry := .primary }, switch := none }

/-- Placements and clearings at the boundaries of the PRIMARY thresholds 50, 30 and 10 with hysteresis 5. -/
theorem witness_BatteryReports :
    ((withFrame (batteryFrame 100) (withRecord absent session)).FrameWaits 5 (batteryFrame 100) ∧
      (withFrame (batteryFrame 100) (withRecord absent session)).channels[5].Lawful ∧ absent.battery = .unknown ∧
      Descends words .primary ∧ PlacementIs words .primary 100 .good) ∧
    ((withFrame (batteryFrame 10) (withRecord low session)).FrameWaits 5 (batteryFrame 10) ∧
      (withFrame (batteryFrame 10) (withRecord low session)).channels[5].Lawful ∧ low.battery ≠ .unknown ∧
      PlacementIs words .primary 10 .critical ∧ Clears words .primary 10 .critical ∧
      (∀ x, Clears words .primary 10 x → BatteryState.critical.rank ≤ x.rank)) ∧
    PlacementIs words .primary 51 .good ∧ Clears words .primary 36 .notice ∧
    (∀ x, Clears words .primary 36 x → BatteryState.notice.rank ≤ x.rank) := by
  refine ⟨⟨waits _ rfl, (waits_lawful _ rfl absent_lawful).2, rfl, ?_, ?_⟩,
    ⟨waits _ rfl, (waits_lawful _ rfl low_lawful).2, by decide, ?_, trivial, ?_⟩, ?_, ?_, ?_⟩
  · unfold Descends; decide
  · unfold PlacementIs; decide
  · unfold PlacementIs; decide
  · intro x h; cases x <;> revert h <;> unfold Clears <;> decide
  · unfold PlacementIs; decide
  · unfold Clears; decide
  · intro x h; cases x <;> revert h <;> unfold Clears <;> decide

theorem witness_BatteryReportLeavingTheState :
    ((withFrame (batteryFrame 35) (withRecord low session)).FrameWaits 5 (batteryFrame 35) ∧
      (withFrame (batteryFrame 35) (withRecord low session)).channels[5].Lawful) ∧
    PlacementIs words .primary 30 .low ∧
    PlacementIs words .primary 35 .notice ∧ BatteryState.notice.rank < low.battery.rank ∧
    (∀ x, Clears words .primary 35 x → low.battery.rank ≤ x.rank) := by
  refine ⟨waits_lawful _ rfl low_lawful, ?_, ?_, by decide, ?_⟩
  · unfold PlacementIs; decide
  · unfold PlacementIs; decide
  · intro x h; cases x <;> revert h <;> unfold Clears <;> decide

theorem witness_BatteryNoReport :
    (withFrame (batteryFrame 101) (withRecord low session)).FrameWaits 5 (batteryFrame 101) ∧ (frame 0 true).battery = none :=
  ⟨waits _ rfl, rfl⟩

def switchFrame (audio : BitVec 6) : Frame :=
  { rf := 40, lock := true, battery := none, switch := some { talkOn := false, audio := audio } }

theorem witness_MuteStage (audio : BitVec 6) :
    (withFrame (switchFrame audio) (withRecord absent session)).FrameWaits 5 (switchFrame audio) ∧
      (withFrame (switchFrame audio) (withRecord absent session)).channels[5].Lawful :=
  waits_lawful _ rfl absent_lawful

def dropoutDue : ChannelRecord := { dropout with dropoutTimer := .due }
def freshDue : ChannelRecord := { locked with freshTimer := .due }

theorem of_record {P : ChannelRecord → Prop} {r : ChannelRecord} (h : P r) : P (withRecord r session).channels[5] := by
  simpa [withRecord] using h

theorem witness_DropoutTimerExpiry :
    (withRecord dropoutDue session).channels[5].dropoutTimer = .due ∧
      (withRecord dropoutDue session).channels[5].Lawful :=
  of_record (P := fun r => r.dropoutTimer = .due ∧ r.Lawful) ⟨rfl, by constructor <;> decide +kernel⟩

theorem witness_FreshnessTimerExpiry :
    (withRecord freshDue session).channels[5].freshTimer = .due ∧ (withRecord freshDue session).channels[5].Lawful :=
  of_record (P := fun r => r.freshTimer = .due ∧ r.Lawful) ⟨rfl, by constructor <;> decide +kernel⟩

def windowDue (n : Nat) : ChannelRecord := { locked with windowTimer := .due, dropoutCount := n }

theorem witness_DropoutWindowExpiry :
    ((withRecord (windowDue 3) session).channels[5].windowTimer = .due ∧
      (withRecord (windowDue 3) session).settings.dropoutCountLimit ≤
        (withRecord (windowDue 3) session).channels[5].dropoutCount) ∧
    ((withRecord (windowDue 2) session).channels[5].windowTimer = .due ∧
      (withRecord (windowDue 2) session).channels[5].dropoutCount <
        (withRecord (windowDue 2) session).settings.dropoutCountLimit) := by decide +kernel

theorem witness_CausesSilenceAndOpenIdle :
    (withRecord { absent with idleTimer := .due } session).channels[5].idleTimer = .due ∧
    (let s := { session with mail := { session.mail with
       toEvaluator := [.chair 5 true], floor := [{ asserted := true, next := 5 }], silence := [5] } }
     s.mail.toEvaluator = .chair 5 true :: [] ∧ s.mail.floor = { asserted := true, next := 5 } :: [] ∧
     s.mail.silence = 5 :: [] ∧ s.channels[5].enrolled = true ∧ s.channels[5].role = .delegate ∧
     s.channels[6].enrolled = false) := by decide +kernel

theorem witness_MembershipAndTableReset :
    (let s := { session with mail := { session.mail with toEvaluator := [.membership words 5, .tableReset 63] } }
     s.mail.toEvaluator = .membership words 5 :: [.tableReset 63] ∧ s.channels[5].enrolled = true ∧
     words.enrols 5 = true ∧ words.enrols 16 = false ∧ s.channels[63].enrolled = false ∧ words.enrols 63 = true) ∧
    ((withRecord { absent with role := .chair } session).channels[5].role ≠ words.roleOf 5) := by decide +kernel

/-! ## Witnesses: the alert list and its window -/

def entry (c : Chan) (f : Family) (k : Kind) (st : EntryState) (seq : Word) : AlertEntry :=
  { channel := .mic c, family := f, kind := k, state := st, seq := seq, stamp := 0 }

/-- One entry of channel 5 in a state, with sequence 7. -/
def single (k : Kind) (st : EntryState) : AlertUnit :=
  { AlertUnit.cleared with list := [entry 5 .battery k st 7], nextSeq := 8 }

/-- A full list of LOW entries of channels 32 to 63. -/
def fullList (last : EntryState) : List AlertEntry :=
  (List.finRange 32).map fun i =>
    entry ⟨63 - i.val, by omega⟩ .battery .low (if i = 31 then last else .seen) (BitVec.ofNat 16 (i.val + 1))

def full (last : EntryState) (unlisted : List UnlistedPair) : AlertUnit :=
  { AlertUnit.cleared with list := fullList last, unlisted := unlisted, nextSeq := 33 }

def hidden : UnlistedPair := { channel := 5, family := .signal, kind := .weak }

/-- A full list of CRITICAL entries, the one of channel 63 in a state, and a pair of severity 2 in the unlisted set. -/
def crowded (st : EntryState) : AlertUnit :=
  { AlertUnit.cleared with
    list := (List.finRange 32).map fun i =>
      entry ⟨63 - i.val, by omega⟩ .battery .critical (if i = 0 then st else .seen) (BitVec.ofNat 16 (i.val + 1))
    unlisted := [{ channel := 5, family := .signal, kind := .dropouts }]
    nextSeq := 33 }

/-- CLAIM_STALLED listed alone. -/
def stalled (st : EntryState) : AlertUnit :=
  { AlertUnit.cleared with
    list := [{ channel := .part, family := .part, kind := .claimStalled, state := st, seq := 65535, stamp := 3 }] }

theorem single_lawful (k : Kind) (st : EntryState) : (single k st).Lawful := by
  refine ⟨?_, ?_, ?_⟩
  · cases k <;> cases st <;> (constructor <;> decide +kernel)
  · intro h; exact absurd rfl h
  · intro p hp; cases hp

theorem full_lawful (st : EntryState) : (full st []).Lawful := by
  refine ⟨?_, ?_, ?_⟩
  · cases st <;> (constructor <;> decide +kernel)
  · intro h; exact absurd rfl h
  · intro p hp; cases hp

theorem hidden_lawful : (full .seen [hidden]).Lawful := by
  refine ⟨?_, ?_, ?_⟩
  · constructor <;> decide +kernel
  · decide +kernel
  · decide +kernel

theorem crowded_lawful (st : EntryState) : (crowded st).Lawful := by
  refine ⟨?_, ?_, ?_⟩
  · cases st <;> (constructor <;> decide +kernel)
  · cases st <;> decide +kernel
  · cases st <;> decide +kernel

theorem stalled_lawful (st : EntryState) : (stalled st).Lawful := by
  refine ⟨?_, ?_, ?_⟩
  · cases st <;> (constructor <;> decide +kernel)
  · intro h; exact absurd rfl h
  · intro p hp; cases hp

def withAlert (u : AlertUnit) (s : State) : State := { s with alert := u }

theorem listening {u : AlertUnit} {c : Chan} (h : u.Lawful) (he : session.workingEnrols c = true := by decide +kernel) :
    (withAlert u session).Listening c :=
  ⟨rfl, he, fun ⟨_, _, _, hm, _⟩ => (by cases hm), h⟩

/-- Channel 5 is enrolled in the working setup, and the evaluator is yet to take an earlier APPLY that de-enrols it. -/
def reEnrolled (s : State) : State := { s with mail := { s.mail with toEvaluator := [.membership (words.set 5 0xFFDF) 0] } }

/-- A clearing or a downgrade to NOTICE leaves channel 63's entry below the unlisted pair. -/
theorem crowded_outranked (st : EntryState) :
    (withAlert (crowded st) session).Listening 63 ∧ entry 63 .battery .critical st 1 ∈ (crowded st).list ∧
    (entry 63 .battery .critical st 1).isPair (.mic 63) .battery = true ∧
    (∃ q ∈ (crowded st).unlisted, Kind.notice.severity < q.severity) ∧
    Kind.notice.severity < (entry 63 .battery .critical st 1).severity :=
  ⟨listening (crowded_lawful _), by cases st <;> decide +kernel⟩

theorem witness_ConditionRaise :
    (∃ e ∈ (crowded .cleared).list, e.isPair (.mic 63) .battery = true ∧ e.state = .cleared ∧
      ∃ q ∈ (crowded .cleared).unlisted, Kind.notice.severity < q.severity) ∧
    ((withAlert (single .low .cleared) session).Listening 5 ∧ (withAlert (full .seen []) session).Listening 5 ∧
      (withAlert (full .seen [hidden]) session).Listening 5) ∧
    ((∀ e ∈ (single .low .new).list, e.isPair (.mic 5) .signal = false) ∧ (single .low .new).list.length < 32) ∧
    ((full .seen []).list.length = 32 ∧ isUnlisted 5 .signal (full .seen []).unlisted = false ∧
      (∀ e ∈ (full .seen []).list, e.isPair (.mic 5) .signal = false) ∧
      (∀ e ∈ (full .seen []).list, Kind.dropouts.severity ≤ e.severity) ∧
      fullList .seen = (fullList .seen).take 31 ++ [entry 32 .battery .low .seen 32] ∧
      (entry 32 .battery .low .seen 32).severity < Kind.lost.severity) ∧
    (entry 5 .battery .low .cleared 7 ∈ (single .low .cleared).list ∧
      entry 5 .battery .low .acked 7 ∈ (single .low .acked).list ∧
      isUnlisted 5 .signal (full .seen [hidden]).unlisted = true) :=
  ⟨⟨_, (crowded_outranked .cleared).2.1, (crowded_outranked .cleared).2.2.1, rfl, (crowded_outranked .cleared).2.2.2.1⟩,
    ⟨listening (single_lawful _ _), listening (full_lawful _), listening hidden_lawful⟩, by decide +kernel⟩

theorem witness_ListedKindChangesAndClearings :
    (∀ k st, (withAlert (single k st) session).Listening 5) ∧
    (∀ k st, entry 5 .battery k st 7 ∈ (single k st).list ∧ (entry 5 .battery k st 7).isPair (.mic 5) .battery = true) ∧
    (Kind.low.severity < Kind.critical.severity ∧ Kind.notice.severity < Kind.low.severity ∧
      ∀ q ∈ (single .low .new).unlisted, q.severity ≤ Kind.notice.severity) ∧
    ((withAlert (crowded .seen) session).Listening 63 ∧
      (∃ q ∈ (crowded .seen).unlisted, Kind.notice.severity < q.severity) ∧
      Kind.notice.severity < (entry 63 .battery .critical .seen 1).severity) :=
  ⟨fun _ _ => listening (single_lawful _ _), fun _ _ => ⟨List.mem_singleton.2 rfl, rfl⟩, by decide,
    (crowded_outranked .seen).1, (crowded_outranked .seen).2.2.2.1, (crowded_outranked .seen).2.2.2.2⟩

theorem witness_UnlistedKindChange :
    (withAlert (full .seen [hidden]) session).Listening 5 ∧ isUnlisted 5 .signal (full .seen [hidden]).unlisted = true ∧
    (∀ e ∈ (full .seen [hidden]).list, Kind.dropouts.severity ≤ e.severity) ∧
    fullList .seen = (fullList .seen).take 31 ++ [entry 32 .battery .low .seen 32] ∧
    (entry 32 .battery .low .seen 32).severity < Kind.noReport.severity :=
  ⟨listening hidden_lawful, by decide +kernel⟩

theorem witness_UnlistedClearingAndDiscards :
    ((withAlert (full .seen [hidden]) session).Listening 5 ∧ (withAlert (single .low .cleared) session).Listening 5) ∧
    (∀ e ∈ (full .seen [hidden]).list, e.isPair (.mic 5) .signal = false) ∧
    (isUnlisted 5 .battery (single .low .cleared).unlisted = false ∧
      ∀ e ∈ (single .low .cleared).list, e.isPair (.mic 5) .battery = true → e.state = .cleared) ∧
    ((stalled .acked).Lawful ∧ (∃ e ∈ (stalled .acked).list, e.isPair .part .part = true ∧ e.state ≠ .cleared) ∧
      ∀ e ∈ (stalled .cleared).list, e.isPair .part .part = true → e.state = .cleared) ∧
    (passive.setup.part ≠ .active ∧ session.workingEnrols 16 = false ∧
      (reEnrolled session).workingEnrols 5 = true ∧ (reEnrolled session).DeEnrolling 5) :=
  ⟨⟨listening hidden_lawful, listening (single_lawful _ _)⟩, by decide +kernel, by decide +kernel,
    ⟨stalled_lawful _, by decide +kernel⟩, by decide +kernel, by decide +kernel, by decide +kernel,
    (deEnrolling_iff _ _).1 (by decide +kernel)⟩

theorem witness_PartEntry :
    ((full .cleared []).Lawful ∧ (full .cleared []).list.length = 32 ∧
      (∀ e ∈ (full .cleared []).list, e.isPair .part .part = false) ∧ AlertUnit.cleared.list.length < 32) ∧
    (stalled .cleared).Lawful ∧ (∀ e ∈ (stalled .cleared).list, e.isPair .part .part = true ∧ e.state = .cleared) :=
  ⟨⟨full_lawful _, by decide +kernel⟩, stalled_lawful _, by decide +kernel⟩

theorem witness_RemovalAndClearing :
    let s := { withAlert (full .seen [hidden]) session with
      mail := { session.mail with toList := [.removal [5, 63], .clearing] } }
    s.mail.toList = .removal [5, 63] :: [.clearing] ∧ s.alert.Lawful := ⟨rfl, hidden_lawful⟩

theorem witness_SnapshotTaken (u : AlertUnit) (h : u.Lawful) :
    (withAlert u session).InSession words.bases ∧ (withAlert u session).Taking ∧ (withAlert u session).alert.Lawful :=
  ⟨⟨rfl, rfl, apart⟩, taking, h⟩

/-- The view holds the one listed entry of channel 5, and nothing in its other places. -/
def viewed (st : EntryState) : State :=
  { withAlert (single .low st) session with
    view := { View.emptied with entries := View.emptied.entries.set 0 (some (entry 5 .battery .low .new 7)) } }

theorem witness_ReadMarkDelivered (st : EntryState) :
    ((viewed st).InSession words.bases ∧ (viewed st).alert.Lawful ∧ (viewed .new).Taking) ∧
    (viewed st).view.entries[0] = some (entry 5 .battery .low .new 7) ∧ (viewed st).view.entries[31] = none ∧
    entry 5 .battery .low st 7 ∈ (viewed st).alert.list :=
  ⟨⟨⟨rfl, rfl, apart⟩, single_lawful _ _, by decide +kernel, by decide +kernel⟩, by simp [viewed],
    by simp [viewed, View.emptied], List.mem_singleton.2 rfl⟩

theorem witness_AcknowledgementWrite :
    ((viewed .cleared).InSession words.bases ∧ (viewed .cleared).Taking ∧ (viewed .cleared).alert.Lawful) ∧
    (entry 5 .battery .low .new 7).seq = 7 ∧ (entry 5 .battery .low .new 7).seq ≠ 65535 ∧
    (∀ e ∈ (stalled .new).list, e.seq ≠ 7) ∧
    (∀ st, entry 5 .battery .low st 7 ∈ (viewed st).alert.list ∧ (entry 5 .battery .low st 7).state = st) :=
  ⟨⟨⟨rfl, rfl, apart⟩, ⟨by decide +kernel, by decide +kernel⟩, single_lawful _ _⟩, by decide, by decide, by decide,
    fun _ => ⟨List.mem_singleton.2 rfl, rfl⟩⟩

theorem witness_CaptureReleased :
    session.InSession words.bases ∧ session.Taking ∧
      (withRecord { absent with captureHeld := true, capture := some .limit, captureMissed := 15 } session).channels[5].Lawful :=
  ⟨inSession, taking, of_record (P := fun r => r.Lawful) (by constructor <;> decide +kernel)⟩

theorem witness_DiscardedWrites :
    (session.InSession words.bases ∧ session.Taking) ∧ (15 : Fin 512).val < 16 ∧ 144 ≤ (144 : Fin 512).val ∧
      144 ≤ (511 : Fin 512).val ∧ (142 : Fin 512).val % 4 ≠ 3 := ⟨⟨inSession, taking⟩, by decide⟩

theorem witness_AnsweredReads :
    (session.InSession words.bases ∧ session.Taking ∧ session.alert.Lawful ∧ session.alert.latest = none) ∧
    { AlertUnit.cleared with
      latest := some { channel := .part, family := .part, kind := .claimStalled, seq := 1, stamp := 0 } }.latest ≠ none ∧
    (viewed .new).view.entries[0] ≠ none ∧ (viewed .new).view.entries[1] = none ∧
    (passive.Taking ∧ passive.setup.part ≠ .settling) ∧ 400 ≤ 400 ∧ 400 ≤ 511 ∧ 511 < 512 :=
  ⟨⟨inSession, taking, AlertUnit.cleared_lawful, rfl⟩, by decide +kernel, by decide +kernel, by decide +kernel,
    ⟨passive_taking, by decide⟩, by decide⟩

/-! ## Witnesses: gain enforcement -/

def notified (n : Notice) : State := { session with mail := { session.mail with notices := [n] } }

def changed (n : Fin 36) (w : Word) : SetupWords := words.set n w

/-- Word 4 with the mode request OBSERVE. -/
def observing : SetupWords := changed 4 1

/-- An APPLY has put `observing` in force and its setup change has not reached the enforcement unit. -/
def switching (n : Notice) : State :=
  { notified n with
    setup := { session.setup with working := some observing }
    mail := { (notified n).mail with toEnforcement := [.setupChange words observing] } }

/-- `notified` with OBSERVE fixed by the strap. -/
def notifiedObserving (n : Notice) : State :=
  { notified n with path := { session.path with straps := { session.path.straps with observe := true } } }

/-- A notice finds ENFORCE in force, while the switch to OBSERVE is on its way, and not under OBSERVE. -/
theorem notice_finds (n : Notice) :
    (notified n).FindsEnforce ∧ (switching n).FindsEnforce ∧ (switching n).mode = .observe ∧
      ¬(notifiedObserving n).FindsEnforce := by
  have h : session.mode = .enforce ∧ words.effectiveMode session.path.straps = .enforce ∧
      observing.effectiveMode session.path.straps = .observe ∧
      (notifiedObserving (.enrolment 5)).mode ≠ .enforce := by decide +kernel
  refine ⟨.inl h.1, .inr ⟨words, observing, List.mem_singleton.2 rfl, h.2.1⟩, h.2.2.1, ?_⟩
  rintro (e | ⟨_, _, e, _⟩)
  · exact h.2.2.2 e
  · exact absurd e (List.not_mem_nil)

/-- A membership change on its way is yet to de-enrol channel 20. -/
def deEnrolling (s : State) : State :=
  { s with
    channels := s.channels.set 20 absent
    mail := { s.mail with toEvaluator := [.membership observing 0] } }

theorem witness_RewriteQueueJoins :
    ((notified (.causeChange 63)).mail.notices = .causeChange 63 :: [] ∧
      (notified (.enrolment 5)).mail.notices = .enrolment 5 :: [] ∧
      (notified (.enrolment 5)).setup.part = .active ∧
      (let s := { halting [] with mail := { (halting []).mail with notices := [.enrolment 5] } }
       s.setup.part ≠ .active ∧ ToEnforcement.halt ∈ s.mail.toEnforcement) ∧
      (let s := inState .releasing .inProgress (notified (.enrolment 5))
       s.setup.part ≠ .active ∧ ToEnforcement.halt ∉ s.mail.toEnforcement)) ∧
    (let s := { session with mail := { session.mail with toEnforcement := [.setupChange words (changed 31 5)] } }
     s.mail.toEnforcement = .setupChange words (changed 31 5) :: [] ∧ ¬s.SwitchWaits words (changed 31 5)) ∧
    ((switching (.enrolment 20)).SwitchWaits words observing ∧ (deEnrolling session).SwitchWaits words observing ∧
      ¬(switching (.enrolment 5)).SwitchWaits words observing) := by
  simp only [← switchWaits_iff]
  decide +kernel

def queued (q : List Chan) (s : State) : State := { s with enf := { s.enf with queue := q } }

theorem witness_WriteFilter :
    (let s := queued [5] session
     s.path.bases = some words.bases ∧ words.bases.Apart s.path.straps ∧ s.Taking ∧ s.setup.part = .active ∧
     5 ∈ s.enf.queue ∧ 63 ∉ s.enf.queue) ∧
    (let s := inState .releasing .inProgress session
     s.Taking ∧ s.setup.part = .releasing) := by unfold State.Taking Bases.Apart; decide +kernel

/-- The claim of a purpose in a state. -/
def claimed (c : ClaimState) (p : Purpose) (s : State) : State :=
  { s with enf := { s.enf with claim := c, purpose := some p } }

theorem witness_CedeAssertionAndStall :
    (ceding.lines.cede = true ∧ session.lines.cede = false ∧ session.enf.claim ≠ .claiming) ∧
    (let s := claimed .claiming .burst (queued [5] session)
     s.lines.cede = false ∧ s.enf.claim = .claiming ∧ s.enf.purpose = some .burst ∧ s.enf.queue = 5 :: [] ∧
     s.path.ownInProgress = false) ∧
    (claimed .claiming .burst session).enf.queue = [] ∧
    (let s := claimed .claiming .load { session with enf := { session.enf with loadPosition := some 0 } }
     s.enf.purpose = some .load ∧ s.enf.loadPosition = some 0 ∧ s.path.ownInProgress = false) ∧
    (let s := claimed .claiming .burst (queued [5] storing)
     s.path.ownInProgress = true ∧ s.enf.queue ≠ []) ∧
    (let s := claimed .claiming .burst { session with enf := { session.enf with claimTimer := .due } }
     s.enf.claimTimer = .due ∧ s.enf.claim = .claiming) := by decide +kernel

/-- A burst write is at the port in a claim ceded for a burst, after `n` writes. -/
def bursting (n : Nat) (q : List Chan) : State :=
  let s := claimed .ceded .burst (queued q storing)
  { s with enf := { s.enf with burstCount := n } }

theorem witness_BurstWriteEnd :
    ((bursting 62 [6]).path.port = some (.burstWrite 5 0x205#20 0x0104#16) ∧ (bursting 62 [6]).memory.wf = true ∧
      (bursting 62 [6]).enf.claim = .ceded ∧ (bursting 62 [6]).enf.broken = false ∧
      (bursting 62 [6]).enf.purpose = some .burst ∧ (bursting 62 [6]).enf.orphan = false ∧ 62 + 1 < 64) ∧
    (64 ≤ 63 + 1 ∧ (bursting 5 []).enf.queue = []) ∧
    (let s := { bursting 5 [] with enf := { (bursting 5 []).enf with broken := true } }
     s.enf.claim = .ceded ∧ s.enf.broken = true) ∧
    (let s := { storing with enf := { storing.enf with orphan := true } }
     s.enf.claim = .idle ∧ s.enf.orphan = true ∧ s.lines.busrst = false) := by decide +kernel

/-- The read of a channel's gain word is at the port in a claim ceded for the load. -/
def loading (c : Chan) : State :=
  let s := claimed .ceded .load (inState .loading .inProgress session)
  { s with path := { s.path with port := some (.loadRead c (pastBase 0x00200#20 c.val)) } }

theorem witness_LoadRequestAndReads :
    (let s := { inState .loading .inProgress session with mail := { session.mail with toEnforcement := [.loadRequest] } }
     s.mail.toEnforcement = .loadRequest :: [] ∧ ∀ c, ToEvaluator.tableReset c ∉ s.mail.toEvaluator) ∧
    ToEvaluator.tableReset 63 ∈ [ToEvaluator.tableReset 63] ∧
    ((loading 62).path.port = some (.loadRead 62 0x0023E#20) ∧ (loading 62).enf.claim = .ceded ∧
      (loading 62).enf.orphan = false ∧ (loading 62).enf.broken = false ∧ (63 : Chan).val = (62 : Chan).val + 1) ∧
    ((loading 63).path.port = some (.loadRead 63 0x0023F#20) ∧ (63 : Chan).val = 63 ∧ (loading 63).mode = .enforce) ∧
    (let s := { loading 5 with enf := { (loading 5).enf with broken := true } }
     s.enf.claim = .ceded ∧ s.enf.broken = true ∧ s.enf.orphan = false) ∧
    (let s := { loading 5 with enf := { (loading 5).enf with claim := .idle, purpose := none, orphan := true } }
     s.enf.claim = .idle ∧ s.enf.orphan = true ∧ s.lines.busrst = false) ∧
    (let s := { loading 5 with enf := { (loading 5).enf with claim := .claiming, orphan := true } }
     s.enf.claim ≠ .ceded ∧ s.enf.orphan = true ∧ s.enf.claim ≠ .idle) ∧
    (let s := { loading 5 with enf := { (loading 5).enf with claim := .idle, purpose := none } }
     s.enf.claim ≠ .ceded ∧ s.enf.orphan = false) ∧
    (let s := { loading 5 with enf := { (loading 5).enf with orphan := true, loadPosition := some 0 } }
     s.enf.claim = .ceded ∧ s.enf.orphan = true ∧ s.enf.purpose = some .load) ∧
    { session with path := { session.path with held := some (.write 0x00205#20 7) } }.HoldsGainWrite := by
  refine ⟨⟨rfl, fun c h => (by cases h)⟩, by decide +kernel, by decide +kernel, by decide +kernel, by decide +kernel,
    by decide +kernel, by decide +kernel, by decide +kernel, by decide +kernel, (holdsGainWrite_iff _).1 (by decide +kernel)⟩

theorem witness_CedeFall :
    session.lines.cede = false ∧ ceding.lines.cede = true ∧
    { ceding with enf := { ceding.enf with claim := .idle, purpose := none } }.enf.claim = .idle ∧ (claimed .claiming .burst ceding).enf.claim = .claiming ∧
    (claimed .releasingBus .burst ceding).enf.claim = .releasingBus ∧ ceding.enf.claim = .ceded ∧
    ceding.path.ownInProgress = false ∧ { ceding with path := storing.path }.path.ownInProgress = true := by
  decide +kernel

theorem witness_EnforcementHalt :
    let s := halting []
    s.mail.toEnforcement = .halt :: [] ∧ (¬s.HaltWaits ∧ s.mode = .enforce) ∧
    (let u := { s with path := { s.path with straps := { s.path.straps with observe := true } } }
     u.mode ≠ .enforce ∧ ¬u.HaltWaits) ∧
    (let u := { s with mail := { s.mail with notices := [.enrolment 20] } }
     u.HaltWaits) ∧
    (let u := { s with mail := { s.mail with notices := [.enrolment 5] } }
     ¬u.HaltWaits) := by
  simp only [← haltWaits_iff]
  decide +kernel

theorem witness_ReportsToTheSetupUnit :
    let s := { inState .releasing .inProgress session with
      mail := { session.mail with toSetup := [.restoreDone, .stall, .stallEnd] } }
    s.mail.toSetup = .restoreDone :: [.stall, .stallEnd] ∧ s.setup.part = .releasing := ⟨rfl, rfl⟩

/-! ## Witnesses: lamps, floor line, laws -/

/-- The battery lamp in SLOW at a phase. -/
def blinking (phase : Nat) : State :=
  { session with
    lamps := { session.lamps with
      battery := { mode := .slow, inUse := some words.patterns, pending := none, phase := phase, lit := true } } }

theorem witness_LampPatternsAndAlertLine :
    (∀ n, ((blinking n).lamps.get .battery).RunsOn { period := 20, onTime := 8 }) ∧
    50 * 20 ≤ ((blinking 1000).lamps.get .battery).phase ∧ 50 * 8 ≤ ((blinking 400).lamps.get .battery).phase ∧
    ((blinking 400).lamps.get .battery).lit = true ∧
    { session with mail := { session.mail with toLamps := [words] } }.mail.toLamps = words :: [] := by
  refine ⟨fun n => ⟨words.patterns, rfl, .inl ⟨rfl, by decide +kernel⟩⟩, ?_⟩
  decide +kernel

theorem witness_FloorLineAndSeconds :
    (true ≠ session.lines.floor ∧ false = session.lines.floor ∧ session.powerReset = false ∧
      State.reset.powerReset = true ∧ true ≠ State.reset.lines.floor) ∧
    { session with lamps := { session.lamps with debounce := .due } }.lamps.debounce = .due ∧
    1000 ≤ { session with time := { session.time with phase := 1000 } }.time.phase := by decide +kernel

theorem witness_EveryStepKeeps :
    let s := { session with pending := [.secondsStep] }
    (s.alert.Lawful ∧ (∀ c : Chan, s.channels[c].Lawful) ∧ s.memory.wf = true) ∧
    s.SetupLawful ∧ s.enf.Lawful ∧ s.path.Lawful ∧ s.EmptyOutsideActive ∧ (∃ t, step s = .next t) ∧
    passive.EmptyOutsideActive ∧ passive.setup.part ≠ .active := by
  refine ⟨⟨AlertUnit.cleared_lawful, fun c => ?_, rfl⟩, ?_, ?_, ?_, fun h => absurd rfl h, ⟨_, rfl⟩, ?_, by decide +kernel⟩
  · show (passive.channels.set 5 absent)[c].Lawful
    rw [Fin.getElem_fin, Vector.getElem_set]
    split
    · exact absent_lawful
    · have h : passive.channels[c.val] = ChannelRecord.powerReset := by simp [passive, State.reset]
      rw [h]; exact ChannelRecord.powerReset_lawful
  · constructor
    · decide +kernel
    · decide +kernel
    · intro w h; obtain rfl := Option.some.inj h; decide +kernel
    · intro b h; obtain rfl := Option.some.inj h; exact apart
    · decide +kernel
  · constructor <;> decide +kernel
  · constructor
    · decide +kernel
    · intro p q h; cases h
    · decide +kernel
    · decide +kernel
  · refine fun _ => ⟨rfl, fun c => ?_, fun m h => (by cases h), fun m h => (by cases h)⟩
    have h : passive.channels[c] = ChannelRecord.powerReset := by simp [passive, State.reset]
    rw [h]
    exact ⟨rfl, rfl, rfl, rfl, rfl⟩

/-! ## Single steps -/

/-- The last row of each test compares a part of the next state. -/
def after (s : State) (i : Instr) : State :=
  match step { s with pending := [i] } with
  | .next t => t
  | .fault _ => s
  | .refused _ => s

theorem test_STAGING_FILL_link_word :
    (after session (.stagingFill 63 .link 0x0CA8#16)).staging[63].link = some { rf := 40, lock := true, tag := 12 } := by
  decide +kernel

theorem test_COMMIT_hands_the_frame_on :
    (after (staged 12) (.commit 5 0xFFFC#16)).mail.frames = [(5, frame 40 true)] := by decide +kernel

theorem test_COMMIT_torn : (after (staged 12) (.commit 5 0xFFF3#16)).mail.frames = [] := by decide +kernel

theorem test_WRITE_FILTER_replaces_the_gain_code :
    let s := withRecord { absent with chairCause := true } session
    (after s (.writeFilter 5 0xAB77#16)).path.port = some (.processor (.write 0x00205#20 0xAB04#16)) := by decide +kernel

theorem test_START_begins_LOADING :
    (after passive (.start 0)).setup.part = .loading ∧ (after passive (.start 0)).setup.result = .inProgress ∧
      (after passive (.start 0)).path.bases =
        some { telemetry := 0x00100#20, gain := 0x00200#20, alert := 0x00400#20 } := by decide +kernel

theorem test_LOAD_REQUEST_overtakes_the_clearing :
    let s := after passive (.start 0)
    s.mail.toList = [.clearing] ∧ (after s .loadRequest).mail.toEnforcement = [.loadRequest] ∧
    (let t := after { s with mail := { s.mail with toEvaluator := [] } } .loadRequest
     t.enf.loadPosition = some 0 ∧ t.enf.claim = .claiming ∧ t.mail.toList = [.clearing] ∧
       (after t .alertListClearing).mail.toList = []) := by decide +kernel

theorem test_LOAD_READ_END_takes_the_clearing_before_ACTIVE :
    let s := after { loading 63 with mail := { session.mail with toList := [.clearing] } } .loadReadEnd
    s.setup.part = .active ∧ s.mail.toList = [] ∧ s.alert = .cleared := by decide +kernel

theorem test_LOAD_READ_END_filters_the_held_gain_write_before_or_after_step_3 :
    let s := withRecord { absent with floorCause := true } (loading 63)
    let held := { s with path := { s.path with held := some (.write 0x00205#20 7) } }
    (after held (.loadReadEnd true)).enf.queue = [5] ∧ (after held (.loadReadEnd false)).enf.queue = [] ∧
      (after held (.loadReadEnd true)).enf.intended[5] = 7 ∧ (after held (.loadReadEnd false)).enf.intended[5] = 7 := by
  decide +kernel

theorem test_APPLY_that_enrols_anew_takes_the_removal_and_discards_old_frames :
    let s := { withAlert (single .low .new) withoutFive with
      mail := { session.mail with toList := [.removal [5]], frames := [(5, frame 0 true), (6, frame 0 true)] } }
    (after s (.apply 0)).alert.list = [] ∧ (after s (.apply 0)).mail.toList = [] ∧
      (after s (.apply 0)).mail.frames = [(6, frame 0 true)] := by decide +kernel

theorem test_condition_events_of_an_ended_enrolment_are_discarded :
    let s := reEnrolled { session with mail := { session.mail with conditions := [.raised 5 .signal .lost, .raised 6 .signal .lost] } }
    (after s .conditionRaise).alert = .cleared ∧
    (let t := { s with mail := { s.mail with toEvaluator := [.membership (words.set 5 0xFFDF) 5] } }
     (after t .membershipChange).mail.conditions = [.raised 6 .signal .lost]) := by decide +kernel

theorem test_HALT_resets_the_table_and_clears_the_list :
    let s := withRecord locked (viewed .new)
    (after s (.halt 0 none)).channels[5] = .powerReset ∧ (after s (.halt 0 none)).alert = .cleared ∧
      (after s (.halt 0 none)).setup.part = .releasing ∧ (after s (.halt 0 none)).view = .emptied := by decide +kernel

theorem test_HALT_overtakes_a_read_of_the_part_state :
    let s := after (viewed .new) (.halt 0 (some { access := .read 0x00402#20, viewRead := false, listRead := false }))
    s.path.answering = some (late (.read 0x00402#20)) ∧
    (after s (.forward (.read 0x00402#20))).path.completion =
      some { access := .read 0x00402#20, data := some (stateWord s.setup .enforce) } ∧
    (after s (.forward (.read 0x00402#20))).path.answering = none := by decide +kernel

/-- HALT overtakes a read of word 0 of the first view entry whose answer has read the view, or not. -/
def readOfWord0 (viewRead : Bool) : State :=
  after (viewed .new) (.halt 0 (some { access := .read 0x00410#20, viewRead := viewRead, listRead := false }))

theorem test_HALT_overtakes_the_read_mark_of_word_0 :
    (∀ viewRead, (after (readOfWord0 viewRead) (.forward (.read 0x00410#20))).alert = .cleared) ∧
    (after (readOfWord0 true) (.forward (.read 0x00410#20))).path.completion =
      some { access := .read 0x00410#20, data := some (viewWord (viewed .new).view.entries[0] 0) } ∧
    viewWord (viewed .new).view.entries[0] 0 ≠ 0 ∧
    (after (readOfWord0 false) (.forward (.read 0x00410#20))).path.completion =
      some { access := .read 0x00410#20, data := some 0 } := by decide +kernel

theorem test_HALT_overtakes_an_acknowledgement :
    let s := after (viewed .new) (.halt 0 (some { access := .write 0x00413#20 7, viewRead := true, listRead := false }))
    (after s (.forward (.write 0x00413#20 7))).alert = .cleared ∧
      (after s (.forward (.write 0x00413#20 7))).path.completion = some { access := .write 0x00413#20 7, data := none } := by
  decide +kernel

/-- The membership change of an earlier APPLY, which de-enrols channel 20, is taken before HALT's reset of the table, and HALT waits
for the enrolment change. -/
theorem test_ENFORCEMENT_HALT_waits_for_a_de_enrolled_channel :
    let s := after (deEnrolling session) (.halt 0 none)
    let t := after s .enforcementHalt
    s.mail.toEvaluator = [] ∧ Notice.enrolment 20 ∈ s.mail.notices ∧
    t.setup.part = .releasing ∧ t.mail.toEnforcement = [.halt] ∧
    20 ∈ (after { s with mail := { s.mail with notices := [.enrolment 20] } } .enrolmentChange).enf.queue := by decide +kernel

theorem test_FORWARD_asserts_M_REQ_until_the_memory_access_ends :
    (after session (.forward (.write 0x00600#20 7))).path.lines =
      { addr := 0x00600#20, data := 7, write := true, req := true } ∧
    (after (after session (.forward (.write 0x00600#20 7))) .memoryAccessEnd).path.lines =
      { addr := 0x00600#20, data := 7, write := true, req := false } := by decide +kernel

theorem test_FRAME_EVALUATION_in_LOADING_discards :
    let s := inState .loading .inProgress (withFrame (frame 20 true) session)
    (after s (.frameEvaluation 5)).channels[5] = absent ∧
      (after s (.frameEvaluation 5)).mail.frames = [(6, frame 20 true)] := by decide +kernel

theorem test_CEDE_FALL_in_IDLE_claims_for_waiting_work :
    let s := after { queued [5] session with lines := ceding.lines } .cedeFall
    s.enf.claim = .claiming ∧ s.enf.purpose = some .burst := by decide +kernel

theorem test_FRAME_EVALUATION_enters_LOCKED :
    let s := after (withFrame (frame 20 true) session) (.frameEvaluation 5)
    s.channels[5].link = .locked ∧ s.channels[5].freshTimer = .running 200 ∧ s.mail.conditions = [] := by decide +kernel

theorem test_FRAME_EVALUATION_below_the_fade_level :
    let s := after (withFrame (frame 19 true) session) (.frameEvaluation 5)
    s.channels[5].link = .weak ∧ s.mail.conditions = [.raised 5 .signal .weak] := by decide +kernel

theorem test_CONDITION_RAISE_lights_the_lamp_FAST :
    let s := after { session with mail := { session.mail with conditions := [.raised 5 .battery .critical] } } .conditionRaise
    s.alert.list = [entry 5 .battery .critical .new 1] ∧ s.alert.gen = 1 ∧ s.alert.nextSeq = 2 ∧
      s.lamps.battery.mode = .fast ∧ s.lamps.signal.mode = .off := by decide +kernel

theorem test_ACKNOWLEDGEMENT_WRITE_takes_a_CLEARED_entry_out :
    let s := after (viewed .cleared) (.acknowledgementWrite 0 7)
    s.alert.list = [] ∧ s.alert.ackResult = .accepted ∧ s.alert.ackValue = 7 := by decide +kernel

theorem test_BURST_WRITE_END_at_the_limit_withdraws_the_claim :
    let s := after { bursting 63 [6] with lines := ceding.lines } .burstWriteEnd
    s.enf.claim = .releasingBus ∧ s.enf.queue = [6] ∧ s.memory = [(0x205, 0x0104#16)] := by decide +kernel

theorem test_POWER_RESET_RELEASE_starts_the_settle_timer :
    (after State.reset (.powerResetRelease .supply { sbase1 := true, sbase0 := false, observe := true })).setup.settle =
      .running 4 := by decide +kernel

theorem test_empty_queue_advances_the_divider :
    (match step session with
     | .next t => t.time.divider
     | .fault _ => 0
     | .refused _ => 0) = 1 := by decide +kernel

end Sys2Proof.Tests
end

section
/-! PROOFS. The telemetry intake (R4 to R7): a write of W0, W1 or W2. -/

namespace Sys2Proof.Machine

/-! ## A write that is copied goes to memory unchanged (R125, R126) -/

theorem serve_writeServed (a : Access) (awaitsHalt : Bool) (s : State) :
    WriteServed a awaitsHalt s (serve a a awaitsHalt s) :=
  ⟨serve_only a a awaitsHalt s, serve_served a a awaitsHalt s⟩

/-! ## A command that presents an access to a window -/

/-- While the windows are decoded at `b`, a window command presents its access (R120, R123). -/
theorem presentIn_bases {b : Bases} {s : State} (hb : s.path.bases = some b) (base : Bases → Addr) (place : Nat)
    (mk : Addr → Access) : presentIn base place mk s = .next (present (mk (pastBase (base b) place)) s) := by
  simp only [presentIn, hb]

/-! ## The staging fields (R3, R5) -/

@[simp] theorem Staging.fill_link (data : Word) (g : Staging) :
    g.fill .link data =
      { g with link := some { rf := data.extractLsb' 0 7, lock := data.getLsbD 7, tag := data.extractLsb' 8 4 } } := rfl

@[simp] theorem Staging.fill_battery (data : Word) (g : Staging) :
    g.fill .battery data =
      { g with
        battery := some
          { level := data.extractLsb' 0 7, chemistry := if data.getLsbD 7 then .rechargeable else .primary } } := rfl

@[simp] theorem Staging.fill_switch (data : Word) (g : Staging) :
    g.fill .switch data =
      { g with switch := some { talkOn := data.getLsbD 7, audio := data.extractLsb' 0 6 } } := rfl

/-! ## The copy of a W0, W1 or W2 write (R4, R5) -/

section
variable {s : State} {c : Chan}

theorem takeStagingWrite_enrolled (h : s.workingEnrols c = true) (word : FrameWord) (data : Word) :
    takeStagingWrite c word data s = { s with staging := s.staging.set c (s.staging[c].fill word data) } :=
  if_pos h

theorem takeStagingWrite_notEnrolled (h : s.workingEnrols c = false) (word : FrameWord) (data : Word) :
    takeStagingWrite c word data s = s := by
  simp only [takeStagingWrite, h, Bool.false_eq_true, if_false]

end

/-- A frame word's place lies in the telemetry window, so in a session its write takes the intake's course (R3, R126). -/
theorem classify_frameWord {b : Bases} {s : State} (hs : s.InSession b) (c : Chan) (word : FrameWord) (data : Word) :
    s.classify (.write (pastBase b.telemetry (4 * c.val + word.offset)) data) = .snoopFrameWord c word data := by
  have hplace : 4 * c.val + word.offset < 256 := by
    have hc := c.isLt
    cases word <;> simp only [FrameWord.offset] <;> omega
  rw [classify_telemetry s b _ _ hplace hs rfl]
  exact telemetryCourse_word c word data

theorem takeCourse_snoopFrameWord {a : Access} {c : Chan} {word : FrameWord} {data : Word} {s : State}
    (h : s.classify a = .snoopFrameWord c word data) :
    takeCourse a s = serve a a false (takeStagingWrite c word data s) := by
  simp only [takeCourse, h]

/-- In a session, a frame word's write is copied to the intake and served (R5, R126). -/
theorem exec_stagingFill {b : Bases} {s : State} (hs : s.InSession b) (ht : s.Taking) (c : Chan) (word : FrameWord)
    (data : Word) {a : Access} (ha : a = .write (pastBase b.telemetry (4 * c.val + word.offset)) data) :
    exec (.stagingFill c word data) s = .next (serve a a false (takeStagingWrite c word data s)) := by
  have hcourse : s.classify a = .snoopFrameWord c word data := ha ▸ classify_frameWord hs c word data
  obtain ⟨_, hbases, _⟩ := hs
  calc exec (.stagingFill c word data) s
      = .next (present a s) := by rw [ha]; exact presentIn_bases hbases (·.telemetry) _ (.write · data)
    _ = .next (serve a a false (takeStagingWrite c word data s)) := by
        rw [present_taking a s ht, takeCourse_snoopFrameWord hcourse]

/-- Settles O19: the write takes the intake's course, and what the intake does splits by enrolment and by word. -/
theorem stagingFill : Obligations.StagingFill := by
  intro b c word data s hs ht
  refine ⟨_, exec_stagingFill hs ht c word data rfl, ?_⟩
  cases henrolled : s.workingEnrols c with
  | true =>
    rw [takeStagingWrite_enrolled henrolled, if_pos rfl]
    cases word with
    | link => rw [Staging.fill_link]; exact serve_writeServed _ _ _
    | battery => rw [Staging.fill_battery]; exact serve_writeServed _ _ _
    | switch => rw [Staging.fill_switch]; exact serve_writeServed _ _ _
  | false =>
    rw [takeStagingWrite_notEnrolled henrolled, if_neg Bool.false_ne_true]
    exact serve_writeServed _ _ _

end Sys2Proof.Machine
end

section
/-! PROOFS. Signal supervision (R17 to R33): what frames and the three link timers make of a channel's link part. -/

namespace Sys2Proof.Machine

/-! ## The link part under the operations of the link stage (R21, R24, R35) -/

section
variable (w : SetupWords) (now : Millis) (r : ChannelRecord)

@[simp] theorem offer_linkPart (rec : CaptureRecord) : (r.offer rec).linkPart = r.linkPart.offered rec := by
  unfold ChannelRecord.offer LinkPart.offered
  cases hheld : r.captureHeld <;> simp [ChannelRecord.linkPart, hheld]

theorem Timer.startIfStopped_eq (limit : Nat) (t : Timer) :
    t.startIfStopped now limit = if t = .stopped then .running (now + BitVec.ofNat 32 limit) else t := by
  cases t <;> rfl

/-- DROPOUTS stands with its raised mark (R37), so raising it once more changes nothing. -/
theorem countDropout_linkPart (hmark : r.active.dropouts = r.dropoutsRaised) :
    (r.countDropout w now).linkPart = r.linkPart.counted w now := by
  cases hraised : r.dropoutsRaised <;>
    simp [ChannelRecord.countDropout, ChannelRecord.linkPart, LinkPart.counted, Timer.startIfStopped_eq, hmark, hraised]

/-- A dropout that ends, or turns into a loss, is offered to the capture and then counted (R24 to R26, R35). -/
theorem offer_countDropout_linkPart (rec : CaptureRecord) (hmark : r.active.dropouts = r.dropoutsRaised) :
    ((r.offer rec).countDropout w now).linkPart = (r.linkPart.offered rec).counted w now := by
  have hmarkOffered : (r.offer rec).active.dropouts = (r.offer rec).dropoutsRaised := by
    unfold ChannelRecord.offer
    split <;> exact hmark
  rw [countDropout_linkPart w now _ hmarkOffered, offer_linkPart]

/-- A record at the start of the link stage: the RF level recorded and the freshness timer restarted (R17). -/
def ChannelRecord.received (rf : BitVec 7) : ChannelRecord :=
  { r with lastRf := rf, freshTimer := .running (now + BitVec.ofNat 32 w.freshnessLimit) }

/-- A link part with the RF level recorded and the freshness timer restarted (R17). -/
def LinkPart.received (rf : BitVec 7) (l : LinkPart) : LinkPart :=
  { l with lastRf := rf, freshTimer := .running (now + BitVec.ofNat 32 w.freshnessLimit) }

@[simp] theorem received_link (rf : BitVec 7) : (r.received w now rf).link = r.link := rfl

theorem received_linkPart (rf : BitVec 7) : (r.received w now rf).linkPart = r.linkPart.received w now rf := rfl

/-- Direct placement of a record whose link part is `l` with the frame received, WEAK not raised (R21). -/
theorem place_linkPart {rf : BitVec 7} {l : LinkPart} (hpart : r.linkPart = l.received w now rf)
    (hweak : r.active.weak = false) : (r.place w rf).linkPart = l.placed w now rf := by
  have hplaced : (r.place w rf).linkPart = r.linkPart.placed w now rf := by
    have hrf : r.lastRf = rf := congrArg LinkPart.lastRf hpart
    have hfresh : r.freshTimer = .running (now + BitVec.ofNat 32 w.freshnessLimit) := congrArg LinkPart.freshTimer hpart
    by_cases hfaded : rf.toNat < w.fadeLevel <;>
      simp [ChannelRecord.place, ChannelRecord.linkPart, LinkPart.placed, hfaded, hrf, hfresh, hweak]
  rw [hplaced, hpart]
  rfl

end

/-! ## Offering and counting commute with the frame's receipt and the squelch cause -/

section
variable (w : SetupWords) (now : Millis) (rec : CaptureRecord) (l : LinkPart)

theorem LinkPart.offered_received (rf : BitVec 7) :
    (l.received w now rf).offered rec = (l.offered rec).received w now rf := by
  cases hheld : l.captureHeld <;> simp [LinkPart.offered, LinkPart.received, hheld]

theorem LinkPart.counted_received (rf : BitVec 7) :
    (l.received w now rf).counted w now = (l.counted w now).received w now rf := rfl

/-- A link part with the squelch cause as given. -/
def LinkPart.withSquelch (cause : Bool) : LinkPart := { l with squelchCause := cause }

theorem LinkPart.offered_withSquelch (cause : Bool) :
    (l.withSquelch cause).offered rec = (l.offered rec).withSquelch cause := by
  cases hheld : l.captureHeld <;> simp [LinkPart.offered, LinkPart.withSquelch, hheld]

theorem LinkPart.counted_withSquelch (cause : Bool) :
    (l.withSquelch cause).counted w now = (l.counted w now).withSquelch cause := rfl

theorem LinkPart.offered_lost_squelchCause :
    (l.offered rec).lost = l.lost ∧ (l.offered rec).squelchCause = l.squelchCause := by
  unfold LinkPart.offered
  split <;> exact ⟨rfl, rfl⟩

end

section
variable (w : SetupWords) (now : Millis) (rec : CaptureRecord) {r : ChannelRecord}

/-- A dropout that a received frame ends: offered, counted and placed directly (R25). -/
theorem offer_countDropout_place_linkPart {rf : BitVec 7} {l : LinkPart} (hpart : r.linkPart = l.received w now rf)
    (hmark : r.active.dropouts = r.dropoutsRaised) (hweak : r.active.weak = false) :
    (((r.offer rec).countDropout w now).place w rf).linkPart = ((l.offered rec).counted w now).placed w now rf := by
  apply place_linkPart
  · rw [offer_countDropout_linkPart w now r rec hmark, hpart, LinkPart.offered_received, LinkPart.counted_received]
  · obtain ⟨_, _, hactive, _⟩ := offer_link rec r
    exact (congrArg ConditionSet.weak hactive).trans hweak

/-- The squelch cause set if squelch is enabled (R38). -/
def ChannelRecord.squelch (r : ChannelRecord) : ChannelRecord :=
  { r with squelchCause := r.squelchCause || r.squelchEnabled }

theorem squelch_linkPart : r.squelch.linkPart = r.linkPart.withSquelch (r.squelchCause || r.squelchEnabled) := rfl

/-- A dropout that turns into a loss: offered, counted, and the squelch cause set if squelch is enabled (R26). -/
theorem offer_countDropout_squelch_linkPart (hmark : r.active.dropouts = r.dropoutsRaised) :
    ((r.offer rec).countDropout w now).squelch.linkPart =
      ((r.linkPart.withSquelch (r.squelchCause || r.squelchEnabled)).offered rec).counted w now := by
  obtain ⟨_, _, _, hcause, _, henabled, _⟩ := offer_link rec r
  have hset : (((r.offer rec).countDropout w now).squelchCause || ((r.offer rec).countDropout w now).squelchEnabled) =
      (r.squelchCause || r.squelchEnabled) := congrArg₂ or hcause henabled
  rw [squelch_linkPart, hset, offer_countDropout_linkPart w now r rec hmark, LinkPart.offered_withSquelch,
    LinkPart.counted_withSquelch]

end

/-! ## The link stage by pilot lock and link state (R17) -/

section
variable {w : SetupWords} {now : Millis} {f : Frame} {r : ChannelRecord}

theorem linkStage_lock (hlock : f.lock = true) :
    r.linkStage w now f = (r.received w now f.rf).linkLocked w now f.rf :=
  if_pos hlock

theorem linkStage_noLock (hlock : f.lock = false) (hlink : r.link ≠ .absent) :
    r.linkStage w now f = (r.received w now f.rf).linkUnlocked w now := by
  cases h : r.link with
  | absent => exact absurd h hlink
  | locked | weak | dropout | lost | silent =>
    simp [ChannelRecord.linkStage, hlock, h, ChannelRecord.received, Timer.start]

/-- R25: the dropout ends in a record offered, a dropout counted and a direct placement. -/
theorem linkStage_dropout_lock (hr : r.Lawful) (hlink : r.link = .dropout) (hlock : f.lock = true) :
    (r.linkStage w now f).linkPart =
      (({ r.linkPart with dropoutTimer := .stopped }.offered
        (.returned (now - r.dropoutStamp).toNat)).counted w now).placed w now f.rf := by
  have hstage : r.linkStage w now f = (r.received w now f.rf).endDropout w now f.rf := by
    simp only [linkStage_lock hlock, ChannelRecord.linkLocked, received_link, hlink]
  have hweak : r.active.weak = false := by rw [hr.weak, hlink]; rfl
  rw [hstage]
  exact offer_countDropout_place_linkPart w now _ rfl hr.dropouts hweak

/-- R28: a frame with lock ends the loss. -/
theorem linkStage_lost_lock (hr : r.Lawful) (hlink : r.link = .lost) (hlock : f.lock = true) :
    (r.linkStage w now f).linkPart =
      { r.linkPart with lost := false, squelchCause := false }.placed w now f.rf := by
  have hstage : r.linkStage w now f =
      { r.received w now f.rf with squelchCause := false, active := { r.active with lost := false } }.place w f.rf := by
    simp only [linkStage_lock hlock, ChannelRecord.linkLocked, received_link, hlink]
    rfl
  have hweak : r.active.weak = false := by rw [hr.weak, hlink]; rfl
  rw [hstage]
  exact place_linkPart w now _ rfl hweak

/-- R28: a frame without lock leaves the loss standing. -/
theorem linkStage_lost_noLock (hlink : r.link = .lost) (hlock : f.lock = false) :
    (r.linkStage w now f).linkPart = r.linkPart.received w now f.rf := by
  rw [linkStage_noLock hlock (by simp [hlink])]
  simp only [ChannelRecord.linkUnlocked, received_link, hlink, received_linkPart]

/-- R32: a frame with lock ends the silence. -/
theorem linkStage_silent_lock (hr : r.Lawful) (hlink : r.link = .silent) (hlock : f.lock = true) :
    (r.linkStage w now f).linkPart =
      { r.linkPart with noReport := false, squelchCause := false }.placed w now f.rf := by
  have hstage : r.linkStage w now f =
      { r.received w now f.rf with squelchCause := false, active := { r.active with noReport := false } }.place w f.rf := by
    simp only [linkStage_lock hlock, ChannelRecord.linkLocked, received_link, hlink]
    rfl
  have hweak : r.active.weak = false := by rw [hr.weak, hlink]; rfl
  rw [hstage]
  exact place_linkPart w now _ rfl hweak

/-- R32: a frame without lock turns the silence into a loss. -/
theorem linkStage_silent_noLock (hlink : r.link = .silent) (hlock : f.lock = false) :
    (r.linkStage w now f).linkPart =
      { r.linkPart.received w now f.rf with link := .lost, noReport := false, lost := true } := by
  rw [linkStage_noLock hlock (by simp [hlink])]
  simp only [ChannelRecord.linkUnlocked, received_link, hlink]
  rfl

end

/-! ## Frames (R25, R28, R32) -/

/-- A waiting frame leaves its channel's link part as the link stage does: the later stages do not touch it (R8). -/
theorem exec_frameEvaluation_linkPart {c : Chan} {f : Frame} {s : State} (hwaits : s.FrameWaits c f) :
    ∃ t, exec (.frameEvaluation c) s = .next t ∧
      t.channels[c].linkPart = (s.channels[c].linkStage s.settings s.time.ticks f).linkPart := by
  obtain ⟨⟨before, after, hframes, hfirst⟩, hactive⟩ := hwaits
  refine ⟨_, execFrameEvaluation_next c f before after s hframes hfirst hactive, ?_⟩
  rw [channelEvent_linkPart]
  exact evaluate_linkPart _ _ _ _ _

/-- Settles O23: the link stage's own equation for DROPOUT, and the conditions that it leaves. -/
theorem dropoutEndedByFrame : Obligations.DropoutEndedByFrame := by
  intro c f s hwaits hr hlock hlink
  obtain ⟨t, hexec, hstage⟩ := exec_frameEvaluation_linkPart hwaits
  have hpart := hstage.trans (linkStage_dropout_lock hr hlink hlock)
  obtain ⟨hlost, hsquelch⟩ := LinkPart.offered_lost_squelchCause
    (.returned (s.time.ticks - s.channels[c].dropoutStamp).toNat)
    { s.channels[c].linkPart with dropoutTimer := .stopped }
  refine ⟨t, hexec, hpart, ?_, ?_⟩
  · have hbefore : s.channels[c].active.lost = false := by rw [hr.lost, hlink]; rfl
    exact (congrArg LinkPart.lost hpart).trans (hlost.trans hbefore)
  · have hbefore : s.channels[c].squelchCause = false := by
      rw [hr.squelch, hlink]
      exact Bool.and_false _
    exact (congrArg LinkPart.squelchCause hpart).trans (hsquelch.trans hbefore)

/-- Settles O24: one equation of the link stage for each state and pilot lock. -/
theorem lostAndSilentFrames : Obligations.LostAndSilentFrames := by
  constructor
  · intro c f s hwaits hr hlink
    obtain ⟨t, hexec, hstage⟩ := exec_frameEvaluation_linkPart hwaits
    refine ⟨t, hexec, fun hlock => hstage.trans (linkStage_lost_lock hr hlink hlock), fun hlock => ?_⟩
    have hpart := hstage.trans (linkStage_lost_noLock hlink hlock)
    have hstopped : s.channels[c].dropoutTimer = .stopped := hr.dropoutTimer.2 (by rw [hlink]; decide)
    exact ⟨hpart, (congrArg LinkPart.dropoutTimer hpart).trans hstopped⟩
  · intro c f s hwaits hr hlink
    obtain ⟨t, hexec, hstage⟩ := exec_frameEvaluation_linkPart hwaits
    exact ⟨t, hexec, fun hlock => hstage.trans (linkStage_silent_lock hr hlink hlock),
      fun hlock => hstage.trans (linkStage_silent_noLock hlink hlock)⟩

/-! ## The link timers (R26, R30, R33) -/

section
variable {w : SetupWords} {now : Millis} {r : ChannelRecord}

/-- The squelch cause never stands without squelch enabled (R38), so setting it where squelch is enabled gives the enable. -/
theorem ChannelRecord.Lawful.squelch_or_enabled (hr : r.Lawful) :
    (r.squelchCause || r.squelchEnabled) = r.squelchEnabled := by
  rw [hr.squelch]
  cases r.squelchEnabled <;> simp

/-- A dropout timer runs or is due in DROPOUT alone (Link States). -/
theorem ChannelRecord.Lawful.link_of_dropoutTimer_due (hr : r.Lawful) (hdue : r.dropoutTimer = .due) :
    r.link = .dropout := by
  by_contra hlink
  rw [hr.dropoutTimer.2 hlink] at hdue
  cases hdue

/-- A freshness timer runs or is due in neither ABSENT nor SILENT (R29). -/
theorem ChannelRecord.Lawful.link_of_freshTimer_due (hr : r.Lawful) (hdue : r.freshTimer = .due) :
    r.link ≠ .absent ∧ r.link ≠ .silent := by
  refine not_or.1 fun hlink => ?_
  rw [hr.freshTimer.2 hlink] at hdue
  cases hdue

/-- R26: the dropout turns into a loss. -/
theorem dropoutExpiry_linkPart (hr : r.Lawful) (hdue : r.dropoutTimer = .due) :
    (r.dropoutExpiry w now).linkPart =
      ({ r.linkPart with
        dropoutTimer := .stopped, link := .lost, lost := true
        squelchCause := r.squelchEnabled }.offered .limit).counted w now := by
  have hstage : r.dropoutExpiry w now =
      (({ r with dropoutTimer := .stopped, link := .lost, active := { r.active with lost := true } }.offer
        .limit).countDropout w now).squelch := by
    simp only [ChannelRecord.dropoutExpiry, hr.link_of_dropoutTimer_due hdue]
    rfl
  rw [← hr.squelch_or_enabled]
  exact (congrArg ChannelRecord.linkPart hstage).trans (offer_countDropout_squelch_linkPart w now .limit hr.dropouts)

/-- R30: the channel becomes SILENT, whichever of the four states it leaves. -/
theorem freshnessExpiry_linkPart (hr : r.Lawful) (hdue : r.freshTimer = .due) :
    r.freshnessExpiry.linkPart = { r.linkPart with
      freshTimer := .stopped, dropoutTimer := .stopped, link := .silent, fadeRun := 0
      squelchCause := r.squelchEnabled, weak := false, lost := false, noReport := true } := by
  obtain ⟨habsent, hsilent⟩ := hr.link_of_freshTimer_due hdue
  rw [← hr.squelch_or_enabled]
  cases hlink : r.link with
  | absent => exact absurd hlink habsent
  | silent => exact absurd hlink hsilent
  | locked | weak | dropout | lost => simp only [ChannelRecord.freshnessExpiry, hlink]; rfl

/-- R33, at or above the limit. -/
theorem windowExpiry_linkPart_of_le (hcount : w.dropoutCountLimit ≤ r.dropoutCount) :
    (r.windowExpiry w now).linkPart = { r.linkPart with
      dropoutCount := 0, dropoutsRaised := true, dropouts := true
      windowTimer := .running (now + BitVec.ofNat 32 (w.dropoutWindow * 1000)) } := by
  rw [ChannelRecord.windowExpiry, if_pos hcount]
  rfl

/-- R33, below the limit. -/
theorem windowExpiry_linkPart_of_lt (hcount : r.dropoutCount < w.dropoutCountLimit) :
    (r.windowExpiry w now).linkPart = { r.linkPart with
      dropoutCount := 0, dropoutsRaised := false, dropouts := false, windowTimer := .stopped } := by
  rw [ChannelRecord.windowExpiry, if_neg (Nat.not_le.2 hcount)]
  rfl

end

/-- What an event does beside its link part, if its own change is one of the link part alone: the other parts stand and
the open-idle watch is left to the silence judgement (R62). -/
theorem channelEvent_besidesLink (c : Chan) {g : ChannelRecord → ChannelRecord} {s : State}
    (hg : SameBesidesLink s.channels[c] (g s.channels[c])) :
    (channelEvent c g s).channels[c].batteryPart = s.channels[c].batteryPart ∧
      (channelEvent c g s).channels[c].memberPart = s.channels[c].memberPart ∧
      (channelEvent c g s).channels[c].speechPart = s.channels[c].speechPart ∧ WatchJudged c s (channelEvent c g s) := by
  obtain ⟨hbattery, hmember, hspeech, hidle⟩ := hg
  exact ⟨(channelEvent_batteryPart c g s).trans hbattery, (channelEvent_memberPart c g s).trans hmember,
    (channelEvent_speechPart c g s).trans hspeech, channelEvent_judged c g s s rfl hidle⟩

/-- Settles O29: the expiry is one event of its channel, whose own change is the loss. -/
theorem dropoutTimerExpiry : Obligations.DropoutTimerExpiry := by
  intro c s
  refine ⟨fun hnot => if_neg hnot, fun hdue hr => ⟨_, if_pos hdue, channelEvent_onlyChannel _ _ _,
    channelEvent_reported _ _ _ _ rfl rfl rfl, ?_, channelEvent_besidesLink c (dropoutExpiry_besides _ _ _)⟩⟩
  rw [channelEvent_linkPart]
  exact dropoutExpiry_linkPart hr hdue

/-- Settles O30: the expiry is one event of its channel, whose own change is the entry to SILENT. -/
theorem freshnessTimerExpiry : Obligations.FreshnessTimerExpiry := by
  intro c s
  refine ⟨fun hnot => if_neg hnot, fun hdue hr => ⟨_, if_pos hdue, channelEvent_onlyChannel _ _ _,
    channelEvent_reported _ _ _ _ rfl rfl rfl, ?_, channelEvent_besidesLink c (freshnessExpiry_besides _)⟩⟩
  rw [channelEvent_linkPart]
  exact freshnessExpiry_linkPart hr hdue

/-- Settles O31: the expiry is one event of its channel, split by the count against its limit. -/
theorem dropoutWindowExpiry : Obligations.DropoutWindowExpiry := by
  intro c s
  refine ⟨fun hnot => if_neg hnot, fun hdue => ⟨_, if_pos hdue, channelEvent_onlyChannel _ _ _,
    channelEvent_reported _ _ _ _ rfl rfl rfl, fun hcount => ?_, fun hcount => ?_,
    channelEvent_besidesLink c (windowExpiry_besides _ _ _)⟩⟩
  · rw [channelEvent_linkPart]
    exact windowExpiry_linkPart_of_le hcount
  · rw [channelEvent_linkPart]
    exact windowExpiry_linkPart_of_lt hcount

end Sys2Proof.Machine
end

section
/-! PROOFS. Battery supervision (R42 to R49): the battery part after a frame, the BATTERY events sent for it, and the reports
that leave the state. -/

namespace Sys2Proof.Machine

/-! ## The BATTERY summary and its events (R2, R9) -/

/-- The BATTERY summary read off a battery part (R2). -/
def BatteryPart.summary (p : BatteryPart) : Option Kind :=
  if p.critical then some .critical else if p.low then some .low else if p.notice then some .notice else none

theorem batterySummary_eq_summary (r : ChannelRecord) : r.active.batterySummary = r.batteryPart.summary := rfl

@[simp] theorem familyEvent_same (c : Chan) (f : Family) (summary : Option Kind) :
    familyEvent c f summary summary = [] := by
  cases summary with
  | none => rfl
  | some k => exact if_pos rfl

/-- The BATTERY events of a channel's event are those of its battery part; `s` is the state before the event, `u` the same with
the event's message taken (R9). -/
theorem channelEvent_batteryReported (c : Chan) (g : ChannelRecord → ChannelRecord) (s u : State)
    (hchannels : u.channels = s.channels) (hconditions : u.mail.conditions = s.mail.conditions) :
    BatteryReported
      (familyEvent c .battery s.channels[c].batteryPart.summary (channelEvent c g u).channels[c].batteryPart.summary)
      s (channelEvent c g u) := by
  have hsent : (channelEvent c g u).mail.conditions = s.mail.conditions ++
      conditionEvents c s.channels[c].active (channelEvent c g u).channels[c].active := by
    rw [channelEvent_this, ← hchannels, ← hconditions]
    rfl
  exact ⟨_, _, hsent, familyEvent_family c .signal _ _, familyEvent_family c .mute _ _⟩

/-! ## The battery part after a frame (R8, R42, R49) -/

section
variable {w : SetupWords} {f : Frame} {word : BatteryWord}

/-- A report records its level and chemistry and moves the state, the conditions in step (R42, R50). -/
theorem batteryStage_report (r : ChannelRecord) (hlevel : word.level.toNat ≤ 100) :
    (r.batteryStage w word).batteryPart =
      .reported (batteryMove w word.chemistry word.level.toNat r.battery) word.level word.chemistry := by
  rw [ChannelRecord.batteryStage, if_pos hlevel]
  rfl

/-- R49: a no-report word. -/
theorem batteryStage_noReport (r : ChannelRecord) (hlevel : 101 ≤ word.level.toNat) : r.batteryStage w word = r :=
  if_neg (Nat.not_le.2 hlevel)

variable (now : Millis) (intended : Word) (r : ChannelRecord)

theorem linkStage_batteryPart : (r.linkStage w now f).batteryPart = r.batteryPart := by
  obtain ⟨hbattery, _⟩ := linkStage_besides w now r f
  exact hbattery

theorem evaluate_batteryPart_of_report (hword : f.battery = some word) (hlevel : word.level.toNat ≤ 100) :
    (r.evaluate w now intended f).batteryPart =
      .reported (batteryMove w word.chemistry word.level.toNat r.battery) word.level word.chemistry := by
  have hstate : (r.linkStage w now f).battery = r.battery :=
    congrArg BatteryPart.battery (linkStage_batteryPart now r)
  rw [evaluate_batteryPart, hword, ← hstate]
  exact batteryStage_report _ hlevel

theorem evaluate_batteryPart_of_noReport
    (hnoReport : f.battery = none ∨ ∃ word, f.battery = some word ∧ 101 ≤ word.level.toNat) :
    (r.evaluate w now intended f).batteryPart = r.batteryPart := by
  rw [evaluate_batteryPart]
  obtain hempty | ⟨word, hword, hlevel⟩ := hnoReport
  · rw [hempty]
    exact linkStage_batteryPart now r
  · rw [hword]
    simp only [batteryStage_noReport _ hlevel]
    exact linkStage_batteryPart now r

end

/-- A waiting frame leaves its channel's battery part as the evaluation does, and what changed of its summary is what the BATTERY
family reports (R8, R9). -/
theorem exec_frameEvaluation_batteryPart {c : Chan} {f : Frame} {s : State} (hwaits : s.FrameWaits c f) :
    ∃ t, exec (.frameEvaluation c) s = .next t ∧
      t.channels[c].batteryPart =
        (s.channels[c].evaluate s.settings s.time.ticks s.enf.intended[c] f).batteryPart ∧
      BatteryReported
        (familyEvent c .battery s.channels[c].batteryPart.summary t.channels[c].batteryPart.summary) s t := by
  obtain ⟨⟨before, after, hframes, hfirst⟩, hactive⟩ := hwaits
  exact ⟨_, execFrameEvaluation_next c f before after s hframes hfirst hactive, channelEvent_batteryPart _ _ _,
    channelEvent_batteryReported c _ s _ rfl rfl⟩

/-- A frame after which the summary stands sends no BATTERY event (R9). -/
theorem exec_frameEvaluation_batteryPart_quiet {c : Chan} {f : Frame} {s : State} {p : BatteryPart}
    (hwaits : s.FrameWaits c f)
    (hpart : (s.channels[c].evaluate s.settings s.time.ticks s.enf.intended[c] f).batteryPart = p)
    (hsummary : p.summary = s.channels[c].batteryPart.summary) :
    ∃ t, exec (.frameEvaluation c) s = .next t ∧ t.channels[c].batteryPart = p ∧ BatteryReported [] s t := by
  obtain ⟨t, hexec, hstage, hreported⟩ := exec_frameEvaluation_batteryPart hwaits
  rw [hpart] at hstage
  rw [hstage, hsummary, familyEvent_same] at hreported
  exact ⟨t, hexec, hstage, hreported⟩

/-! ## Placement, clearing and the move (R43, R45 to R47) -/

section
variable {w : SetupWords} {ch : Chemistry} {level : Nat} {b : BatteryState}

/-- Where the thresholds descend, the placement is the one state that R43 selects. -/
theorem PlacementIs.eq_batteryPlacement (hdescends : Descends w ch) (hplace : PlacementIs w ch level b) :
    b = batteryPlacement w ch level := by
  obtain ⟨hlow, hcritical⟩ := hdescends
  obtain ⟨habove, rfl⟩ | ⟨hnotice, habove, rfl⟩ | ⟨hbelow, habove, rfl⟩ | ⟨hbelow, rfl⟩ := hplace
  · exact (if_pos habove).symm
  · rw [batteryPlacement, if_neg (by omega), if_pos habove]
  · rw [batteryPlacement, if_neg (by omega), if_neg (by omega), if_pos habove]
  · rw [batteryPlacement, if_neg (by omega), if_neg (by omega), if_neg (by omega)]

theorem clears_batteryCleared (w : SetupWords) (ch : Chemistry) (level : Nat) :
    Clears w ch level (batteryCleared w ch level) := by
  unfold batteryCleared
  split
  case isTrue hgood => exact hgood
  case isFalse =>
    split
    case isTrue hnotice => exact hnotice
    case isFalse =>
      split
      case isTrue hlow => exact hlow
      case isFalse => trivial

/-- The move of a later report: down at once, up to the best state cleared (R45, R46). -/
theorem batteryMove_of_ne_unknown (hknown : b ≠ .unknown) :
    batteryMove w ch level b =
      if b.rank < (batteryPlacement w ch level).rank then batteryPlacement w ch level
      else if (batteryPlacement w ch level).rank < b.rank ∧ (batteryCleared w ch level).rank < b.rank then
        batteryCleared w ch level
      else b := by
  cases b with
  | unknown => exact absurd rfl hknown
  | good | notice | low | critical => rfl

/-- R47: a placement in the present state, or in a better one while no better state is cleared, leaves the state. -/
theorem batteryMove_eq_self {place : BatteryState} (hknown : b ≠ .unknown) (hdescends : Descends w ch)
    (hplace : PlacementIs w ch level place)
    (hstays : place = b ∨ (place.rank < b.rank ∧ ∀ x, Clears w ch level x → b.rank ≤ x.rank)) :
    batteryMove w ch level b = b := by
  obtain rfl := hplace.eq_batteryPlacement hdescends
  rw [batteryMove_of_ne_unknown hknown]
  obtain hsame | ⟨hbetter, hcleared⟩ := hstays
  · rw [hsame, if_neg (Nat.lt_irrefl _), if_neg (fun h => Nat.lt_irrefl _ h.1)]
  · have hbest : b.rank ≤ (batteryCleared w ch level).rank := hcleared _ (clears_batteryCleared w ch level)
    rw [if_neg (Nat.lt_asymm hbetter), if_neg (fun h => Nat.not_lt.2 hbest h.2)]

end

/-- The conditions of a lawful record follow its state (R50), so a report that leaves the state changes level and chemistry
alone. -/
theorem ChannelRecord.Lawful.reported_battery {r : ChannelRecord} (hr : r.Lawful) (level : BitVec 7) (ch : Chemistry) :
    BatteryPart.reported r.battery level ch =
      { r.batteryPart with level := some level, chemistry := some ch } := by
  obtain ⟨hnotice, hlow, hcritical⟩ := hr.batteryFlags
  simp only [BatteryPart.reported, ChannelRecord.batteryPart, hnotice, hlow, hcritical]

/-- Settles O26: the move leaves the state, and the summary does not read level and chemistry. -/
theorem batteryReportLeavingTheState : Obligations.BatteryReportLeavingTheState := by
  intro c f word b s hwaits hr hword hlevel hknown hdescends hplace hstays
  have hpart := evaluate_batteryPart_of_report (w := s.settings) s.time.ticks s.enf.intended[c] s.channels[c] hword hlevel
  rw [batteryMove_eq_self hknown hdescends hplace hstays, hr.reported_battery] at hpart
  exact exec_frameEvaluation_batteryPart_quiet hwaits hpart rfl

/-- Settles O27: the battery stage does not run, or leaves the record whole. -/
theorem batteryNoReport : Obligations.BatteryNoReport := by
  intro c f s hwaits hnoReport
  exact exec_frameEvaluation_batteryPart_quiet hwaits (evaluate_batteryPart_of_noReport _ _ _ hnoReport) rfl

end Sys2Proof.Machine
end

section
/-! PROOFS. Condition events of unlisted pairs (R90 to R92), and the events that the alert list unit discards (R84, R92,
R96). -/

namespace Sys2Proof.Machine

/-! ## The commands that take a condition event or a CLAIM_STALLED event (R84) -/

section
variable {s : State} {c : Chan} {f : Family} {k : Kind}

theorem dropCondition_cons {e : ConditionEvent} {rest : List ConditionEvent} (h : s.mail.conditions = e :: rest) :
    s.dropCondition = { s with mail := { s.mail with conditions := rest } } := by
  rw [State.dropCondition, h]
  rfl

theorem dropStall_cons {becomes : Bool} {rest : List Bool} (h : s.mail.stalls = becomes :: rest) :
    s.dropStall = { s with mail := { s.mail with stalls := rest } } := by
  rw [State.dropStall, h]
  rfl

theorem exec_conditionRaise {rest : List ConditionEvent} (h : s.mail.conditions = .raised c f k :: rest) :
    exec .conditionRaise s =
      .next (takeCondition c (AlertUnit.raise s.time.seconds c f k)
        { s with mail := { s.mail with conditions := rest } }) := by
  rw [← dropCondition_cons h]
  show execConditionRaise s = _
  simp only [execConditionRaise, h]

theorem exec_conditionKindChange {rest : List ConditionEvent} (h : s.mail.conditions = .changed c f k :: rest) :
    exec .conditionKindChange s =
      .next (takeCondition c (AlertUnit.changeKind s.time.seconds c f k)
        { s with mail := { s.mail with conditions := rest } }) := by
  rw [← dropCondition_cons h]
  show execConditionKindChange s = _
  simp only [execConditionKindChange, h]

theorem exec_conditionClear {rest : List ConditionEvent} (h : s.mail.conditions = .cleared c f :: rest) :
    exec .conditionClear s =
      .next (takeCondition c (AlertUnit.clearPair c f) { s with mail := { s.mail with conditions := rest } }) := by
  rw [← dropCondition_cons h]
  show execConditionClear s = _
  simp only [execConditionClear, h]

theorem exec_claimStalledActive {rest : List Bool} (h : s.mail.stalls = true :: rest) :
    exec .claimStalledActive s =
      .next (listEventIfActive (AlertUnit.stallActive s.time.seconds)
        { s with mail := { s.mail with stalls := rest } }) := by
  rw [← dropStall_cons h]
  show execClaimStalledActive s = _
  simp only [execClaimStalledActive, h]

theorem exec_claimStalledInactive {rest : List Bool} (h : s.mail.stalls = false :: rest) :
    exec .claimStalledInactive s =
      .next (listEventIfActive AlertUnit.stallInactive { s with mail := { s.mail with stalls := rest } }) := by
  rw [← dropStall_cons h]
  show execClaimStalledInactive s = _
  simp only [execClaimStalledInactive, h]

/-! ## What a taken event and a discarded one leave (R84) -/

theorem State.Listening.lawful (h : s.Listening c) : s.alert.Lawful := by
  obtain ⟨-, -, -, hlawful⟩ := h
  exact hlawful

/-- A condition event that a listening unit takes is one event of its list. Listening does not read the events on their way, so
it holds still once the message is taken. -/
theorem State.Listening.takes (h : s.Listening c) {i : Instr} {g : AlertUnit → AlertUnit} {rest : List ConditionEvent}
    (hexec : exec i s = .next (takeCondition c g { s with mail := { s.mail with conditions := rest } })) :
    ∃ t, exec i s = .next t ∧ OnlyAlerts { s with mail := { s.mail with conditions := rest } } t ∧
      t.alert = s.alert.event s.time.seconds g := by
  obtain ⟨hactive, henrolled, hstays, -⟩ := h
  refine ⟨_, hexec, ?_⟩
  rw [takeCondition_listening (s := { s with mail := { s.mail with conditions := rest } }) g hactive henrolled hstays]
  exact ⟨listEvent_onlyAlerts _ _, rfl⟩

theorem listEventIfActive_discards (g : AlertUnit → AlertUnit) (h : s.setup.part ≠ .active) :
    listEventIfActive g s = s :=
  if_neg h

/-- An event that changes nothing of a lawful unit leaves it, in ACTIVE as in another part state. -/
theorem listEventIfActive_alert_of_fixed {g : AlertUnit → AlertUnit} (h : s.alert.Lawful) (hg : g s.alert = s.alert) :
    (listEventIfActive g s).alert = s.alert := by
  unfold listEventIfActive
  split
  case isTrue => exact h.event_id _ hg
  case isFalse => rfl

end

/-! ## Events that find nothing to change (R92, R96) -/

section
variable {u : AlertUnit} {c : Chan} {f : Family}

theorem AlertUnit.clearListed_cleared (ch : AlertChannel) (f : Family) {e : AlertEntry} (h : e.state = .cleared) :
    u.clearListed ch f e = u := by
  simp only [AlertUnit.clearListed, h]

theorem AlertUnit.clearPair_inactive (hu : isUnlisted c f u.unlisted = false)
    (hc : ∀ e ∈ u.list, e.isPair (.mic c) f = true → e.state = .cleared) : u.clearPair c f = u := by
  unfold AlertUnit.clearPair
  split
  next e hentry =>
    obtain ⟨hlisted, hpair⟩ := AlertUnit.entryOf_some hentry
    exact AlertUnit.clearListed_cleared _ _ (hc e hlisted hpair)
  next => rw [leaveUnlisted_of_not hu]

theorem AlertUnit.Orderly.stallActive_active (h : u.Orderly) (stamp : Word) {e : AlertEntry} (he : e ∈ u.list)
    (hp : e.isPair .part .part = true) (hs : e.state ≠ .cleared) : u.stallActive stamp = u := by
  unfold AlertUnit.stallActive
  rw [h.entryOf he hp]
  cases hstate : e.state with
  | cleared => exact absurd hstate hs
  | new | seen | acked => simp only [hstate]

theorem AlertUnit.stallInactive_inactive
    (hc : ∀ e ∈ u.list, e.isPair .part .part = true → e.state = .cleared) : u.stallInactive = u := by
  unfold AlertUnit.stallInactive
  split
  next e hentry =>
    obtain ⟨hlisted, hpair⟩ := AlertUnit.entryOf_some hentry
    exact AlertUnit.clearListed_cleared _ _ (hc e hlisted hpair)
  next => rfl

/-! ## A pair of the unlisted set (R81, R93) -/

theorem AlertUnit.Lawful.full_of_isUnlisted (h : u.Lawful) (hu : isUnlisted c f u.unlisted = true) :
    u.list.length = Config.listCapacity := by
  obtain ⟨p, hmember, -⟩ := List.any_eq_true.1 hu
  exact h.full (List.ne_nil_of_mem hmember)

/-- The kind change of an unlisted pair that no entry is below (R90). -/
theorem AlertUnit.Lawful.event_changeKind_stays (h : u.Lawful) (stamp : Word) {k : Kind}
    (hu : isUnlisted c f u.unlisted = true) (hk : ∀ e ∈ u.list, k.severity ≤ e.severity) :
    u.event stamp (AlertUnit.changeKind stamp c f k) =
      { u with unlisted := joinUnlisted { channel := c, family := f, kind := k } u.unlisted } :=
  h.event_joined stamp (h.toOrderly.changeKind_unlisted stamp k hu) (h.toOrderly.not_listed hu) (h.full_of_isUnlisted hu) hk

/-- The kind change that raises an unlisted pair above the last entry (R90, R93). -/
theorem AlertUnit.Lawful.event_changeKind_displaces (h : u.Lawful) (stamp : Word) {k : Kind}
    (hu : isUnlisted c f u.unlisted = true) {front : List AlertEntry} {last : AlertEntry} (hl : u.list = front ++ [last])
    (hlt : last.severity < k.severity) :
    MadeNew stamp (.mic c) f k front { u with list := front } (u.event stamp (AlertUnit.changeKind stamp c f k)) ∧
      EvictedInto last (some (c, f)) u (u.event stamp (AlertUnit.changeKind stamp c f k)) :=
  h.event_displaced stamp (p := { channel := c, family := f, kind := k }) (h.toOrderly.changeKind_unlisted stamp k hu)
    (h.toOrderly.not_listed hu) (h.full_of_isUnlisted hu) hl hlt

/-- The clearing of a pair that is not listed (R92): nothing but the pair's place in the set goes. -/
theorem AlertUnit.Lawful.event_clearPair_unlisted (h : u.Lawful) (stamp : Word)
    (hn : ∀ e ∈ u.list, e.isPair (.mic c) f = false) :
    u.event stamp (AlertUnit.clearPair c f) = { u with unlisted := leaveUnlisted c f u.unlisted } :=
  h.event_left stamp (AlertUnit.clearPair_unlisted hn)

end

/-! ## The obligations -/

/-- Settles O36: the pair with its new kind joins the full list's unlisted set, and the last entry's severity decides whether a
step of the ranking rule follows. -/
theorem unlistedKindChange : Obligations.UnlistedKindChange := by
  intro c f k rest s hwaits hlistening hunlisted
  have hlawful := hlistening.lawful
  obtain ⟨t, hexec, honly, halert⟩ := hlistening.takes (exec_conditionKindChange hwaits)
  refine ⟨t, hexec, honly, fun hbelow => ?_, fun front last hlist habove => ?_⟩
  · rw [halert, hlawful.event_changeKind_stays _ hunlisted hbelow]
    exact ⟨rfl, mem_joinUnlisted_iff _ _ hlawful.keys⟩
  · rw [halert]
    exact hlawful.event_changeKind_displaces _ hunlisted hlist habove

/-- Settles O37: a taken event that finds nothing to change leaves the lawful unit at rest, and one that is not taken leaves
the state. -/
theorem unlistedClearingAndDiscards : Obligations.UnlistedClearingAndDiscards := by
  refine ⟨fun s => ⟨?clearedUnlisted, ?clearedInactive, ?changedInactive, ?raisedActive, ?stalledActive, ?stalledInactive⟩,
    fun s => ⟨?raised, ?changed, ?cleared, ?stalled, ?stallEnded⟩⟩
  case clearedUnlisted =>
    intro c f rest hwaits hlistening hnone
    obtain ⟨t, hexec, honly, halert⟩ := hlistening.takes (exec_conditionClear hwaits)
    rw [hlistening.lawful.event_clearPair_unlisted _ hnone] at halert
    refine ⟨t, hexec, honly, by rw [halert], fun q => ?_⟩
    rw [halert, mem_leaveUnlisted, Ne, Prod.mk.injEq]
  case clearedInactive =>
    intro c f rest hwaits hlistening hunlisted hcleared
    obtain ⟨t, hexec, honly, halert⟩ := hlistening.takes (exec_conditionClear hwaits)
    exact ⟨t, hexec, honly,
      halert.trans (hlistening.lawful.event_id _ (AlertUnit.clearPair_inactive hunlisted hcleared))⟩
  case changedInactive =>
    intro c f k rest hwaits hlistening hunlisted hcleared
    obtain ⟨t, hexec, honly, halert⟩ := hlistening.takes (exec_conditionKindChange hwaits)
    exact ⟨t, hexec, honly,
      halert.trans (hlistening.lawful.event_id _ (AlertUnit.changeKind_inactive _ k hunlisted hcleared))⟩
  case raisedActive =>
    intro c f k rest hwaits hlistening hpairActive
    have hlawful := hlistening.lawful
    obtain ⟨t, hexec, honly, halert⟩ := hlistening.takes (exec_conditionRaise hwaits)
    exact ⟨t, hexec, honly, halert.trans (hlawful.event_id _ (hlawful.toOrderly.raise_active _ k hpairActive))⟩
  case stalledActive =>
    rintro rest hwaits - hlawful ⟨e, hlisted, hpair, hstate⟩
    exact ⟨_, exec_claimStalledActive hwaits, listEventIfActive_onlyAlerts _ _,
      listEventIfActive_alert_of_fixed (s := { s with mail := { s.mail with stalls := rest } }) hlawful
        (hlawful.toOrderly.stallActive_active _ hlisted hpair hstate)⟩
  case stalledInactive =>
    intro rest hwaits hlawful hcleared
    exact ⟨_, exec_claimStalledInactive hwaits, listEventIfActive_onlyAlerts _ _,
      listEventIfActive_alert_of_fixed (s := { s with mail := { s.mail with stalls := rest } }) hlawful
        (AlertUnit.stallInactive_inactive hcleared)⟩
  case raised =>
    intro c f k rest hwaits hdiscards
    exact (exec_conditionRaise hwaits).trans (congrArg _ (takeCondition_discards _ hdiscards))
  case changed =>
    intro c f k rest hwaits hdiscards
    exact (exec_conditionKindChange hwaits).trans (congrArg _ (takeCondition_discards _ hdiscards))
  case cleared =>
    intro c f rest hwaits hdiscards
    exact (exec_conditionClear hwaits).trans (congrArg _ (takeCondition_discards _ hdiscards))
  case stalled =>
    intro rest hwaits hinactive
    exact (exec_claimStalledActive hwaits).trans (congrArg _ (listEventIfActive_discards _ hinactive))
  case stallEnded =>
    intro rest hwaits hinactive
    exact (exec_claimStalledInactive hwaits).trans (congrArg _ (listEventIfActive_discards _ hinactive))

end Sys2Proof.Machine
end

section
/-! PROOFS. The alert window (R107 to R118): the snapshot that a read of offset 0 takes, and the writes that are discarded. -/

namespace Sys2Proof.Machine

/-! ## An access to the window in a session is answered at once (R124, R128) -/

section
variable {b : Bases} {s : State} {n : Nat}

theorem present_alertRead (hs : s.InSession b) (ht : s.Taking) (hn : n < 512) :
    present (.read (pastBase b.alert n)) s =
      answered (.read (pastBase b.alert n)) (some (answerRead s n s).2) (answerRead s n s).1 := by
  have hcourse : s.classify (.read (pastBase b.alert n)) = .answerRead n := classify_alert s b _ n hn hs rfl
  simp only [present_taking _ s ht, takeCourse, hcourse]

theorem present_alertWrite (hs : s.InSession b) (ht : s.Taking) (hn : n < 512) (data : Word) :
    present (.write (pastBase b.alert n) data) s =
      answered (.write (pastBase b.alert n) data) none (answerWrite s n data s) := by
  have hcourse : s.classify (.write (pastBase b.alert n) data) = .answerWrite n data := classify_alert s b _ n hn hs rfl
  simp only [present_taking _ s ht, takeCourse, hcourse]

end

theorem answered_answeredWith (a : Access) (data : Option Word) {s u : State} (hpath : u.path = s.path) :
    AnsweredWith a data s (answered a data u) := by
  rw [AnsweredWith, answered, State.setPath_path, hpath]

/-! ## The snapshot (R109) -/

theorem answerRead_zero (seen s : State) : answerRead seen 0 s = (takeSnapshot s, seen.alert.gen) := rfl

/-- In a session, the read of offset 0 returns the live generation and leaves the snapshot (R109). -/
theorem exec_snapshot {b : Bases} {s : State} (hs : s.InSession b) (ht : s.Taking) :
    exec .snapshot s = .next (answered (.read (pastBase b.alert 0)) (some s.alert.gen) (takeSnapshot s)) := by
  have ⟨_, hbases, _⟩ := hs
  calc exec .snapshot s
      = .next (present (.read (pastBase b.alert 0)) s) := presentIn_bases hbases (·.alert) 0 .read
    _ = .next (answered (.read (pastBase b.alert 0)) (some s.alert.gen) (takeSnapshot s)) := by
        rw [present_alertRead hs ht (by decide), answerRead_zero]

section
variable (s : State) (i : Fin 32)

theorem takeSnapshot_entry : (takeSnapshot s).view.entries[i] = s.alert.list[i.val]? := by
  simp [takeSnapshot]

theorem takeSnapshot_entry_listed (h : i.val < s.alert.list.length) :
    (takeSnapshot s).view.entries[i] = some s.alert.list[i.val] :=
  (takeSnapshot_entry s i).trans (List.getElem?_eq_getElem h)

theorem takeSnapshot_entry_beyond (h : s.alert.list.length ≤ i.val) : (takeSnapshot s).view.entries[i] = none :=
  (takeSnapshot_entry s i).trans (List.getElem?_eq_none h)

end

/-! ## Discarded writes (R118) -/

theorem regionOf_eq_entry_three {n : Nat} {i : Fin 32} (h : regionOf n = .entry i 3) : 16 ≤ n ∧ n < 144 ∧ n % 4 = 3 := by
  unfold regionOf at h
  split at h
  next => cases h
  next hheader =>
    split at h
    next hentry =>
      obtain ⟨-, hword⟩ := Region.entry.inj h
      omega
    next => split at h <;> cases h

/-- A write anywhere but at word 3 of a view entry is discarded (R118). -/
theorem answerWrite_discarded (seen s : State) {n : Nat} (value : Word) (hn : n < 16 ∨ 144 ≤ n ∨ n % 4 ≠ 3) :
    answerWrite seen n value s = s := by
  unfold answerWrite
  split
  next hregion =>
    have hword := regionOf_eq_entry_three hregion
    omega
  all_goals rfl

/-- In a session, the write completes and is discarded (R118, R128). -/
theorem exec_discardedWrite {b : Bases} {offset : Fin 512} {s : State} (data : Word) (hs : s.InSession b) (ht : s.Taking)
    (hoffset : offset.val < 16 ∨ 144 ≤ offset.val ∨ offset.val % 4 ≠ 3) :
    exec (.discardedWrite offset data) s = .next (answered (.write (pastBase b.alert offset.val) data) none s) := by
  have ⟨_, hbases, _⟩ := hs
  calc exec (.discardedWrite offset data) s
      = .next (present (.write (pastBase b.alert offset.val) data) s) :=
        presentIn_bases hbases (·.alert) offset.val (.write · data)
    _ = .next (answered (.write (pastBase b.alert offset.val) data) none s) := by
        rw [present_alertWrite hs ht offset.isLt, answerWrite_discarded s s data hoffset]

/-! ## The obligations -/

/-- Settles O40: the read's answer is the snapshot's own equations; a write to offset 0 is a discarded one. -/
theorem snapshotTaken : Obligations.SnapshotTaken := by
  intro b s hs ht _
  constructor
  · exact ⟨_, exec_snapshot hs ht, rfl, answered_answeredWith _ _ (takeSnapshot_path s), rfl, rfl,
      takeSnapshot_entry_listed s, takeSnapshot_entry_beyond s⟩
  · intro data
    exact ⟨_, exec_discardedWrite data hs ht (.inl (by decide)), answered_view _ _ s⟩

/-- Settles O44: the write reaches no region that takes it, so its completion is all that changes. -/
theorem discardedWrites : Obligations.DiscardedWrites :=
  fun _ _ data _ hs ht hoffset => exec_discardedWrite data hs ht hoffset

end Sys2Proof.Machine
end

section
/-! PROOFS. What a step can do: one inversion of `exec` for the commands that present no access, one for those that do, and
what a step keeps once each of these outcomes keeps it. -/

namespace Sys2Proof.Machine

/-! ## Commands that present an access (R120) -/

/-- A command that presents an access presents it, presents nothing, or, as HALT, leaves another access waiting for its
answer (R119). -/
inductive Presents (s : State) : State → Prop
  | nothing : Presents s s
  | access (a : Access) : Presents s (present a s)
  | overtaking (a : Access) (o : Option Answering) :
      Presents s ((present a s).setPath { (present a s).path with answering := o })

theorem presentIn_presents (base : Bases → Addr) (place : Nat) (mk : Addr → Access) (s : State) :
    ∃ t, presentIn base place mk s = .next t ∧ Presents s t := by
  unfold presentIn
  split
  · exact ⟨_, rfl, .nothing⟩
  · exact ⟨_, rfl, .access _⟩

theorem exec_presents {i : Instr} (h : presentsAccess i = true) (s : State) :
    ∃ t, exec i s = .next t ∧ Presents s t := by
  cases i with
  | forward | heldAccess | setupCopyWrite | start | apply | mute | unmute | ackAll | unknownCode =>
    exact ⟨_, rfl, .access _⟩
  | halt low answering =>
    obtain ⟨o, ho⟩ := execHalt_presents low s answering
    exact ⟨_, ho, .overtaking _ o⟩
  | stagingFill c word data => exact presentIn_presents (·.telemetry) _ (.write · data) s
  | commit c data => exact presentIn_presents (·.telemetry) _ (.write · data) s
  | writeFilter c data => exact presentIn_presents (·.gain) _ (.write · data) s
  | snapshot | readMark | captureRelease => exact presentIn_presents (·.alert) _ .read s
  | acknowledgementWrite i value => exact presentIn_presents (·.alert) _ (.write · value) s
  | discardedWrite offset data => exact presentIn_presents (·.alert) _ (.write · data) s
  | _ => exact absurd h Bool.false_ne_true

/-! ## Commands that present none -/

/-- What a command that presents no access can do, by its occasion. A command without its occasion changes nothing (log 4). -/
inductive Happens : Instr → State → State → Prop
  | stays (i s) : Happens i s s
  -- resets and the settle interval
  | powerAssertedTwice (source s) (h : s.powerReset = true) :
      Happens (.powerResetAssert source) s (s.setLines (s.lines.setSource source true))
  | powerAsserted (source s) (h : s.powerReset = false) :
      Happens (.powerResetAssert source) s (resetBlocks (withdrawAccess (s.setLines (s.lines.setSource source true))))
  | powerStillAsserted (source straps s) (hs : s.lines.source source = true)
      (h : (s.setLines (s.lines.setSource source false)).powerReset = true) :
      Happens (.powerResetRelease source straps) s (s.setLines (s.lines.setSource source false))
  | powerReleased (source straps s) (hs : s.lines.source source = true)
      (h : (s.setLines (s.lines.setSource source false)).powerReset = false) :
      Happens (.powerResetRelease source straps) s (releasePower straps (s.setLines (s.lines.setSource source false)))
  | settled (s) (hdue : s.setup.settle = .due) (h : s.setup.part = .settling) :
      Happens .settleTimerExpiry s (s.setSetup { s.setup with settle := .stopped, part := .passive })
  | busAsserted (s) (h : s.lines.busrst = false) :
      Happens .busrstAssert s (busReset ((finishHalt (finishAnswer s)).setLines { s.lines with busrst := true }))
  | busReleased (s) (h : s.lines.busrst = true) :
      Happens .busrstRelease s
        (takePresented (reportAtRelease (claimIfAllowed (s.setLines { s.lines with busrst := false }))))
  -- memory
  | memoryEnded (s a) (h : s.path.port = some (.processor a)) :
      Happens .memoryAccessEnd s (takePresented (completeEnded
        ((s.setMemory (storeAt a s.memory)).setPath (s.path.portEnded.endProcessor (fetchAt a s.memory)))))
  -- the evaluator
  | frameDiscarded (c s rest) :
      Happens (.frameEvaluation c) s (s.setMail { s.mail with frames := rest })
  | frameTaken (c s f rest) (he : s.channels[c].enrolled = true) (hp : s.setup.part = .active) :
      Happens (.frameEvaluation c) s
        (channelEvent c (ChannelRecord.evaluate s.settings s.time.ticks s.enf.intended[c] f)
          (s.setMail { s.mail with frames := rest }))
  | dropoutExpired (c s) (h : s.channels[c].dropoutTimer = .due) :
      Happens (.dropoutTimerExpiry c) s (channelEvent c (ChannelRecord.dropoutExpiry s.settings s.time.ticks) s)
  | freshnessExpired (c s) (h : s.channels[c].freshTimer = .due) :
      Happens (.freshnessTimerExpiry c) s (channelEvent c ChannelRecord.freshnessExpiry s)
  | windowExpired (c s) (h : s.channels[c].windowTimer = .due) :
      Happens (.dropoutWindowExpiry c) s (channelEvent c (ChannelRecord.windowExpiry s.settings s.time.ticks) s)
  | idleExpired (c s) (h : s.channels[c].idleTimer = .due) :
      Happens (.openIdleExpiry c) s (channelEvent c ChannelRecord.idleExpiry s)
  | chairTaken (s c set rest) (h : s.mail.toEvaluator = .chair c set :: rest) :
      Happens .chairRequest s (takeChair c set rest s)
  | floorPassed (s left) : Happens .takenFloorChange s (s.setMail { s.mail with floor := left })
  | floorTaken (s) (f : FloorChange) (left) (he : s.channels[f.next].enrolled = true) (hr : s.channels[f.next].role = .delegate) :
      Happens .takenFloorChange s
        (channelEvent f.next (fun r => { r with floorCause := f.asserted }) (s.setMail { s.mail with floor := left }))
  | silencePassed (s rest) : Happens .silenceChange s (s.setMail { s.mail with silence := rest })
  | silenceTaken (s c rest) :
      Happens .silenceChange s (channelEvent c id (s.setMail { s.mail with silence := rest }))
  | membershipTaken (s w c rest) (h : s.mail.toEvaluator = .membership w c :: rest) :
      Happens .membershipChange s (takeMembership w c rest s)
  | tableResetTaken (s c rest) (h : s.mail.toEvaluator = .tableReset c :: rest) :
      Happens .channelTableReset s
        ((s.setMail { s.mail with toEvaluator := tableResetAfter c rest }).setChannels
          (s.channels.set c (startRecord s.settings s.lamps.debounced c)))
  -- the enforcement unit
  | noticeTaken (i s c) (hi : i = .causeChangeNotice ∨ i = .enrolmentChange) : Happens i s (queueUnderEnforce c s.dropNotice)
  | setupChangeTaken (s old new) : Happens .setupChange s (takeSetupChange old new s)
  | loadRequestTaken (s) :
      Happens .loadRequest s (claimIfAllowed (s.dropToEnforcement.setEnf { s.enf with loadPosition := some 0 }))
  | haltTaken (s) : Happens .enforcementHalt s (takePresented (completeEnded (takeHalt s)))
  | cedeAssertedIdly (s) : Happens .cedeAssert s (s.setLines { s.lines with cede := true })
  | ceded (s) (h : s.enf.claim = .claiming) :
      Happens .cedeAssert s (beginCeded (enterCeded (s.setLines { s.lines with cede := true })))
  | cedeFellIdly (s) : Happens .cedeFall s (s.setLines { s.lines with cede := false })
  | busFreed (s) (h : s.enf.claim = .releasingBus) :
      Happens .cedeFall s (reportIfRestored (claimIfAllowed
        ((s.setLines { s.lines with cede := false }).setEnf { s.enf with claim := .idle, purpose := none })))
  | cedeBroken (s) (h : s.enf.claim = .ceded) :
      Happens .cedeFall s ((s.setLines { s.lines with cede := false }).setEnf { s.enf with broken := true })
  | cedeEnded (s) (h : s.enf.claim = .ceded) :
      Happens .cedeFall s (endBrokenCede (s.setLines { s.lines with cede := false }))
  | cedeFellInIdle (s) (h : s.enf.claim = .idle) :
      Happens .cedeFall s (claimIfAllowed (s.setLines { s.lines with cede := false }))
  | stalled (s) (h : s.enf.claim = .claiming) :
      Happens .claimTimerExpiry s
        (if s.setup.part = .active then (s.setEnf { s.enf with claimTimer := .stopped, stalled := true }).sendStall true
         else (s.setEnf { s.enf with claimTimer := .stopped, stalled := true }).sendToSetup .stall)
  | burstWriteEnded (s c addr word) (h : s.path.port = some (.burstWrite c addr word)) :
      Happens .burstWriteEnd s (afterOwnAccess (countWrite
        ((s.setMemory (s.memory.write addr.toNat word)).setPath s.path.portEnded)))
  | loadReadDropped (s c addr first) (h : s.path.port = some (.loadRead c addr)) :
      Happens (.loadReadEnd first) s
        (afterOwnAccess (setIntended c (s.memory.read addr.toNat) (s.setPath s.path.portEnded)))
  | loadReadEnded (s c addr first) (h : s.path.port = some (.loadRead c addr)) (hc : s.enf.claim = .ceded) :
      Happens (.loadReadEnd first) s
        (advanceLoad first c (setIntended c (s.memory.read addr.toNat) (s.setPath s.path.portEnded)))
  -- the setup and command unit, the alert list unit
  | reportTaken (i s m) (hi : i = .stallReport ∨ i = .stallEndReport ∨ i = .restoreDoneReport) :
      Happens i s (takeReport m s.dropToSetup)
  | conditionTaken (i s c f) (hi : i = .conditionRaise ∨ i = .conditionKindChange ∨ i = .conditionClear)
      (hf : s.alert.Orderly → (f s.alert).Orderly) : Happens i s (takeCondition c f s.dropCondition)
  | stallTaken (i s f) (hi : i = .claimStalledActive ∨ i = .claimStalledInactive)
      (hf : s.alert.Orderly → (f s.alert).Orderly) : Happens i s (listEventIfActive f s.dropStall)
  | listRequestTaken (i s m rest) (hi : i = .removal ∨ i = .alertListClearing) (h : s.mail.toList = m :: rest) :
      Happens i s (takeToList m s.dropToList)
  -- lamps and time
  | periodEnded (s l) (h : (s.lamps.get l).boundaryDue = true) :
      Happens (.periodBoundary l) s (s.setLamps (s.lamps.put l (s.lamps.get l).boundary))
  | onTimeEnded (s l) (h : (s.lamps.get l).onTimeDue = true) :
      Happens (.onTimeEnd l) s (s.setLamps (s.lamps.put l { s.lamps.get l with lit := false }))
  | patternsTaken (s w rest) :
      Happens .patternsPending s ((s.setMail { s.mail with toLamps := rest }).setLamps (s.lamps.applySettings w))
  | floorLineInReset (s b) :
      Happens (.floorLineChange b) s (s.setLines { s.lines with floor := b })
  | floorLineChanged (s b) :
      Happens (.floorLineChange b) s
        ((s.setLines { s.lines with floor := b }).setLamps (s.lamps.floorLevel s.time.ticks b))
  | debounced (s) (h : s.lamps.debounce = .due) :
      Happens .debounceExpiry s
        ((s.setLamps { s.lamps with debounce := .stopped, debounced := s.lines.floor }).sendFloorChange s.lines.floor)
  | secondsStepped (s) : Happens .secondsStep s (s.setTime { s.time with phase := 0, seconds := s.time.seconds + 1 })

/-! ### Each command by itself -/

section
variable (s : State)

theorem execPowerResetAssert_happens (source : PowerSource) :
    ∃ t, execPowerResetAssert source s = .next t ∧ Happens (.powerResetAssert source) s t := by
  unfold execPowerResetAssert
  split
  next h => exact ⟨_, rfl, .powerAssertedTwice source s h⟩
  next h => exact ⟨_, rfl, .powerAsserted source s (Bool.eq_false_iff.2 h)⟩

theorem execPowerResetRelease_happens (source : PowerSource) (straps : Straps) :
    ∃ t, execPowerResetRelease source straps s = .next t ∧ Happens (.powerResetRelease source straps) s t := by
  unfold execPowerResetRelease
  split
  next hs =>
    dsimp only
    split
    next h => exact ⟨_, rfl, .powerStillAsserted source straps s hs h⟩
    next h => exact ⟨_, rfl, .powerReleased source straps s hs (Bool.eq_false_iff.2 h)⟩
  next => exact ⟨_, rfl, .stays _ s⟩

theorem execSettleTimerExpiry_happens : ∃ t, execSettleTimerExpiry s = .next t ∧ Happens .settleTimerExpiry s t := by
  unfold execSettleTimerExpiry
  split
  next h => exact ⟨_, rfl, .settled s h.1 h.2⟩
  next => exact ⟨_, rfl, .stays _ s⟩

theorem execBusrstAssert_happens : ∃ t, execBusrstAssert s = .next t ∧ Happens .busrstAssert s t := by
  unfold execBusrstAssert
  split
  next => exact ⟨_, rfl, .stays _ s⟩
  next h => exact ⟨_, rfl, .busAsserted s (Bool.eq_false_iff.2 h)⟩

theorem execBusrstRelease_happens : ∃ t, execBusrstRelease s = .next t ∧ Happens .busrstRelease s t := by
  unfold execBusrstRelease
  split
  next h => exact ⟨_, rfl, .busReleased s h⟩
  next => exact ⟨_, rfl, .stays _ s⟩

theorem execMemoryAccessEnd_happens : ∃ t, execMemoryAccessEnd s = .next t ∧ Happens .memoryAccessEnd s t := by
  unfold execMemoryAccessEnd
  split
  next a h => exact ⟨_, rfl, .memoryEnded s a h⟩
  all_goals exact ⟨_, rfl, .stays _ s⟩

theorem execFrameEvaluation_happens (c : Chan) :
    ∃ t, execFrameEvaluation c s = .next t ∧ Happens (.frameEvaluation c) s t := by
  unfold execFrameEvaluation
  split
  next => exact ⟨_, rfl, .stays _ s⟩
  next f rest _ =>
    dsimp only
    split
    next h => exact ⟨_, rfl, .frameTaken c s f rest h.1 h.2⟩
    next => exact ⟨_, rfl, .frameDiscarded c s rest⟩

theorem execDropoutTimerExpiry_happens (c : Chan) :
    ∃ t, execDropoutTimerExpiry c s = .next t ∧ Happens (.dropoutTimerExpiry c) s t := by
  unfold execDropoutTimerExpiry
  split
  next h => exact ⟨_, rfl, .dropoutExpired c s h⟩
  next => exact ⟨_, rfl, .stays _ s⟩

theorem execFreshnessTimerExpiry_happens (c : Chan) :
    ∃ t, execFreshnessTimerExpiry c s = .next t ∧ Happens (.freshnessTimerExpiry c) s t := by
  unfold execFreshnessTimerExpiry
  split
  next h => exact ⟨_, rfl, .freshnessExpired c s h⟩
  next => exact ⟨_, rfl, .stays _ s⟩

theorem execDropoutWindowExpiry_happens (c : Chan) :
    ∃ t, execDropoutWindowExpiry c s = .next t ∧ Happens (.dropoutWindowExpiry c) s t := by
  unfold execDropoutWindowExpiry
  split
  next h => exact ⟨_, rfl, .windowExpired c s h⟩
  next => exact ⟨_, rfl, .stays _ s⟩

theorem execOpenIdleExpiry_happens (c : Chan) :
    ∃ t, execOpenIdleExpiry c s = .next t ∧ Happens (.openIdleExpiry c) s t := by
  unfold execOpenIdleExpiry
  split
  next h => exact ⟨_, rfl, .idleExpired c s h⟩
  next => exact ⟨_, rfl, .stays _ s⟩

theorem execChairRequest_happens : ∃ t, execChairRequest s = .next t ∧ Happens .chairRequest s t := by
  unfold execChairRequest
  split
  next c set rest h => exact ⟨_, rfl, .chairTaken s c set rest h⟩
  all_goals exact ⟨_, rfl, .stays _ s⟩

theorem execTakenFloorChange_happens : ∃ t, execTakenFloorChange s = .next t ∧ Happens .takenFloorChange s t := by
  unfold execTakenFloorChange
  split
  next => exact ⟨_, rfl, .stays _ s⟩
  next f rest _ =>
    dsimp only
    split
    next h => exact ⟨_, rfl, .floorTaken s f _ h.1 h.2⟩
    next => exact ⟨_, rfl, .floorPassed s _⟩

theorem execSilenceChange_happens : ∃ t, execSilenceChange s = .next t ∧ Happens .silenceChange s t := by
  unfold execSilenceChange
  split
  next => exact ⟨_, rfl, .stays _ s⟩
  next c rest _ =>
    dsimp only
    split
    next => exact ⟨_, rfl, .silenceTaken s c rest⟩
    next => exact ⟨_, rfl, .silencePassed s rest⟩

theorem execMembershipChange_happens : ∃ t, execMembershipChange s = .next t ∧ Happens .membershipChange s t := by
  unfold execMembershipChange
  split
  next w c rest h => exact ⟨_, rfl, .membershipTaken s w c rest h⟩
  all_goals exact ⟨_, rfl, .stays _ s⟩

theorem execChannelTableReset_happens : ∃ t, execChannelTableReset s = .next t ∧ Happens .channelTableReset s t := by
  unfold execChannelTableReset
  split
  next c rest h => exact ⟨_, rfl, .tableResetTaken s c rest h⟩
  all_goals exact ⟨_, rfl, .stays _ s⟩

theorem execCauseChangeNotice_happens : ∃ t, execCauseChangeNotice s = .next t ∧ Happens .causeChangeNotice s t := by
  unfold execCauseChangeNotice
  split
  next c _ _ => exact ⟨_, rfl, .noticeTaken _ s c (.inl rfl)⟩
  all_goals exact ⟨_, rfl, .stays _ s⟩

theorem execEnrolmentChange_happens : ∃ t, execEnrolmentChange s = .next t ∧ Happens .enrolmentChange s t := by
  unfold execEnrolmentChange
  split
  next c _ _ => exact ⟨_, rfl, .noticeTaken _ s c (.inr rfl)⟩
  all_goals exact ⟨_, rfl, .stays _ s⟩

theorem execSetupChange_happens : ∃ t, execSetupChange s = .next t ∧ Happens .setupChange s t := by
  unfold execSetupChange
  split
  next old new _ _ =>
    split
    next => exact ⟨_, rfl, .stays _ s⟩
    next => exact ⟨_, rfl, .setupChangeTaken s old new⟩
  all_goals exact ⟨_, rfl, .stays _ s⟩

theorem execLoadRequest_happens : ∃ t, execLoadRequest s = .next t ∧ Happens .loadRequest s t := by
  unfold execLoadRequest
  split
  next =>
    split
    next => exact ⟨_, rfl, .stays _ s⟩
    next => exact ⟨_, rfl, .loadRequestTaken s⟩
  all_goals exact ⟨_, rfl, .stays _ s⟩

theorem execEnforcementHalt_happens : ∃ t, execEnforcementHalt s = .next t ∧ Happens .enforcementHalt s t := by
  unfold execEnforcementHalt
  split
  next =>
    split
    next => exact ⟨_, rfl, .stays _ s⟩
    next => exact ⟨_, rfl, .haltTaken s⟩
  all_goals exact ⟨_, rfl, .stays _ s⟩

theorem execCedeAssert_happens : ∃ t, execCedeAssert s = .next t ∧ Happens .cedeAssert s t := by
  unfold execCedeAssert
  split
  next => exact ⟨_, rfl, .stays _ s⟩
  next =>
    dsimp only
    split
    next h => exact ⟨_, rfl, .ceded s h⟩
    all_goals exact ⟨_, rfl, .cedeAssertedIdly s⟩

theorem execCedeFall_happens : ∃ t, execCedeFall s = .next t ∧ Happens .cedeFall s t := by
  unfold execCedeFall
  split
  next =>
    dsimp only
    split
    next h => exact ⟨_, rfl, .busFreed s h⟩
    next h =>
      split
      next => exact ⟨_, rfl, .cedeBroken s h⟩
      next => exact ⟨_, rfl, .cedeEnded s h⟩
    next h => exact ⟨_, rfl, .cedeFellInIdle s h⟩
    next => exact ⟨_, rfl, .cedeFellIdly s⟩
  next => exact ⟨_, rfl, .stays _ s⟩

theorem execClaimTimerExpiry_happens : ∃ t, execClaimTimerExpiry s = .next t ∧ Happens .claimTimerExpiry s t := by
  unfold execClaimTimerExpiry
  split
  next h => exact ⟨_, rfl, .stalled s h.2⟩
  next => exact ⟨_, rfl, .stays _ s⟩

theorem execBurstWriteEnd_happens : ∃ t, execBurstWriteEnd s = .next t ∧ Happens .burstWriteEnd s t := by
  unfold execBurstWriteEnd
  split
  next c addr word h => exact ⟨_, rfl, .burstWriteEnded s c addr word h⟩
  all_goals exact ⟨_, rfl, .stays _ s⟩

theorem execLoadReadEnd_happens (first : Bool) :
    ∃ t, execLoadReadEnd s first = .next t ∧ Happens (.loadReadEnd first) s t := by
  unfold execLoadReadEnd
  split
  next c addr h =>
    dsimp only
    split
    next => exact ⟨_, rfl, .loadReadDropped s c addr first h⟩
    next hc => exact ⟨_, rfl, .loadReadEnded s c addr first h (not_not.1 (not_or.1 hc).2)⟩
  all_goals exact ⟨_, rfl, .stays _ s⟩

theorem execStallReport_happens : ∃ t, execStallReport s = .next t ∧ Happens .stallReport s t := by
  unfold execStallReport
  split
  next => exact ⟨_, rfl, .reportTaken _ s .stall (.inl rfl)⟩
  all_goals exact ⟨_, rfl, .stays _ s⟩

theorem execStallEndReport_happens : ∃ t, execStallEndReport s = .next t ∧ Happens .stallEndReport s t := by
  unfold execStallEndReport
  split
  next => exact ⟨_, rfl, .reportTaken _ s .stallEnd (.inr (.inl rfl))⟩
  all_goals exact ⟨_, rfl, .stays _ s⟩

theorem execRestoreDoneReport_happens : ∃ t, execRestoreDoneReport s = .next t ∧ Happens .restoreDoneReport s t := by
  unfold execRestoreDoneReport
  split
  next => exact ⟨_, rfl, .reportTaken _ s .restoreDone (.inr (.inr rfl))⟩
  all_goals exact ⟨_, rfl, .stays _ s⟩

theorem execConditionRaise_happens : ∃ t, execConditionRaise s = .next t ∧ Happens .conditionRaise s t := by
  unfold execConditionRaise
  split
  next c f k _ _ => exact ⟨_, rfl, .conditionTaken _ s c _ (.inl rfl) fun h => AlertUnit.raise_orderly h _ c f k⟩
  all_goals exact ⟨_, rfl, .stays _ s⟩

theorem execConditionKindChange_happens :
    ∃ t, execConditionKindChange s = .next t ∧ Happens .conditionKindChange s t := by
  unfold execConditionKindChange
  split
  next c f k _ _ => exact ⟨_, rfl, .conditionTaken _ s c _ (.inr (.inl rfl)) fun h => AlertUnit.changeKind_orderly h _ c f k⟩
  all_goals exact ⟨_, rfl, .stays _ s⟩

theorem execConditionClear_happens : ∃ t, execConditionClear s = .next t ∧ Happens .conditionClear s t := by
  unfold execConditionClear
  split
  next c f _ _ => exact ⟨_, rfl, .conditionTaken _ s c _ (.inr (.inr rfl)) fun h => AlertUnit.clearPair_orderly h c f⟩
  all_goals exact ⟨_, rfl, .stays _ s⟩

theorem execClaimStalledActive_happens : ∃ t, execClaimStalledActive s = .next t ∧ Happens .claimStalledActive s t := by
  unfold execClaimStalledActive
  split
  next => exact ⟨_, rfl, .stallTaken _ s _ (.inl rfl) fun h => AlertUnit.stallActive_orderly h _⟩
  all_goals exact ⟨_, rfl, .stays _ s⟩

theorem execClaimStalledInactive_happens :
    ∃ t, execClaimStalledInactive s = .next t ∧ Happens .claimStalledInactive s t := by
  unfold execClaimStalledInactive
  split
  next => exact ⟨_, rfl, .stallTaken _ s _ (.inr rfl) AlertUnit.stallInactive_orderly⟩
  all_goals exact ⟨_, rfl, .stays _ s⟩

theorem execRemoval_happens : ∃ t, execRemoval s = .next t ∧ Happens .removal s t := by
  unfold execRemoval
  split
  next cs rest h => exact ⟨_, rfl, .listRequestTaken _ s _ rest (.inl rfl) h⟩
  all_goals exact ⟨_, rfl, .stays _ s⟩

theorem execAlertListClearing_happens : ∃ t, execAlertListClearing s = .next t ∧ Happens .alertListClearing s t := by
  unfold execAlertListClearing
  split
  next rest h => exact ⟨_, rfl, .listRequestTaken _ s _ rest (.inr rfl) h⟩
  all_goals exact ⟨_, rfl, .stays _ s⟩

theorem execPeriodBoundary_happens (l : Lamp) :
    ∃ t, execPeriodBoundary l s = .next t ∧ Happens (.periodBoundary l) s t := by
  unfold execPeriodBoundary
  dsimp only
  split
  next h => exact ⟨_, rfl, .periodEnded s l h⟩
  next => exact ⟨_, rfl, .stays _ s⟩

theorem execOnTimeEnd_happens (l : Lamp) : ∃ t, execOnTimeEnd l s = .next t ∧ Happens (.onTimeEnd l) s t := by
  unfold execOnTimeEnd
  dsimp only
  split
  next h => exact ⟨_, rfl, .onTimeEnded s l h⟩
  next => exact ⟨_, rfl, .stays _ s⟩

theorem execPatternsPending_happens : ∃ t, execPatternsPending s = .next t ∧ Happens .patternsPending s t := by
  unfold execPatternsPending
  split
  next => exact ⟨_, rfl, .stays _ s⟩
  next w rest _ => exact ⟨_, rfl, .patternsTaken s w rest⟩

theorem execFloorLineChange_happens (b : Bool) :
    ∃ t, execFloorLineChange b s = .next t ∧ Happens (.floorLineChange b) s t := by
  unfold execFloorLineChange
  split
  next => exact ⟨_, rfl, .stays _ s⟩
  next =>
    dsimp only
    split
    next => exact ⟨_, rfl, .floorLineInReset s b⟩
    next => exact ⟨_, rfl, .floorLineChanged s b⟩

theorem execDebounceExpiry_happens : ∃ t, execDebounceExpiry s = .next t ∧ Happens .debounceExpiry s t := by
  unfold execDebounceExpiry
  split
  next h => exact ⟨_, rfl, .debounced s h⟩
  next => exact ⟨_, rfl, .stays _ s⟩

theorem execSecondsStep_happens : ∃ t, execSecondsStep s = .next t ∧ Happens .secondsStep s t := by
  unfold execSecondsStep
  split
  next => exact ⟨_, rfl, .secondsStepped s⟩
  next => exact ⟨_, rfl, .stays _ s⟩

end

/-- Every command that presents no access answers a next state, one of those above. -/
theorem exec_happens {i : Instr} (h : presentsAccess i = false) (s : State) :
    ∃ t, exec i s = .next t ∧ Happens i s t := by
  cases i with
  | powerResetAssert source => exact execPowerResetAssert_happens s source
  | powerResetRelease source straps => exact execPowerResetRelease_happens s source straps
  | settleTimerExpiry => exact execSettleTimerExpiry_happens s
  | busrstAssert => exact execBusrstAssert_happens s
  | busrstRelease => exact execBusrstRelease_happens s
  | memoryAccessEnd => exact execMemoryAccessEnd_happens s
  | frameEvaluation c => exact execFrameEvaluation_happens s c
  | dropoutTimerExpiry c => exact execDropoutTimerExpiry_happens s c
  | freshnessTimerExpiry c => exact execFreshnessTimerExpiry_happens s c
  | dropoutWindowExpiry c => exact execDropoutWindowExpiry_happens s c
  | openIdleExpiry c => exact execOpenIdleExpiry_happens s c
  | chairRequest => exact execChairRequest_happens s
  | takenFloorChange => exact execTakenFloorChange_happens s
  | silenceChange => exact execSilenceChange_happens s
  | membershipChange => exact execMembershipChange_happens s
  | channelTableReset => exact execChannelTableReset_happens s
  | causeChangeNotice => exact execCauseChangeNotice_happens s
  | enrolmentChange => exact execEnrolmentChange_happens s
  | setupChange => exact execSetupChange_happens s
  | cedeAssert => exact execCedeAssert_happens s
  | cedeFall => exact execCedeFall_happens s
  | claimTimerExpiry => exact execClaimTimerExpiry_happens s
  | burstWriteEnd => exact execBurstWriteEnd_happens s
  | loadRequest => exact execLoadRequest_happens s
  | loadReadEnd first => exact execLoadReadEnd_happens s first
  | enforcementHalt => exact execEnforcementHalt_happens s
  | restoreDoneReport => exact execRestoreDoneReport_happens s
  | stallReport => exact execStallReport_happens s
  | stallEndReport => exact execStallEndReport_happens s
  | claimStalledActive => exact execClaimStalledActive_happens s
  | claimStalledInactive => exact execClaimStalledInactive_happens s
  | conditionRaise => exact execConditionRaise_happens s
  | conditionKindChange => exact execConditionKindChange_happens s
  | conditionClear => exact execConditionClear_happens s
  | removal => exact execRemoval_happens s
  | alertListClearing => exact execAlertListClearing_happens s
  | periodBoundary l => exact execPeriodBoundary_happens s l
  | patternsPending => exact execPatternsPending_happens s
  | floorLineChange b => exact execFloorLineChange_happens s b
  | debounceExpiry => exact execDebounceExpiry_happens s
  | secondsStep => exact execSecondsStep_happens s
  | onTimeEnd l => exact execOnTimeEnd_happens s l
  | _ => exact absurd h Bool.noConfusion

/-- What a command does, whichever it is. -/
theorem exec_cases {i : Instr} {s t : State} (h : exec i s = .next t) : Presents s t ∨ Happens i s t := by
  cases hi : presentsAccess i with
  | true =>
    obtain ⟨u, hu, hpresents⟩ := exec_presents hi s
    cases hu.symm.trans h
    exact .inl hpresents
  | false =>
    obtain ⟨u, hu, hhappens⟩ := exec_happens hi s
    cases hu.symm.trans h
    exact .inr hhappens

/-! ## The step -/

/-- What the presenting of an access, every outcome of the other commands, the taking of a command off the queue and a REFCLK
period keep, every step keeps. -/
structure KeptByStep (P : State → Prop) : Prop where
  queue : ∀ s v, P s → P (s.setPending v)
  access : ∀ a s, P s → P (present a s)
  overtaking : ∀ s o, P s → P (s.setPath { s.path with answering := o })
  happens : ∀ i s t, Happens i s t → P s → P t
  period : ∀ s, P s → P (refclkPeriod s)

namespace KeptByStep
variable {P : State → Prop} (K : KeptByStep P)
include K

theorem exec {i : Instr} {s t : State} (h : Machine.exec i s = .next t) (hp : P s) : P t := by
  obtain hpresents | hhappens := exec_cases h
  · cases hpresents with
    | nothing => exact hp
    | access a => exact K.access a s hp
    | overtaking a o => exact K.overtaking _ o (K.access a s hp)
  · exact K.happens i s t hhappens hp

theorem step {s t : State} (h : Machine.step s = .next t) (hp : P s) : P t := by
  unfold Machine.step at h
  split at h
  next i rest _ => exact K.exec h (K.queue s rest hp)
  next =>
    unfold idle at h
    split at h
    next i _ => exact K.exec h hp
    next =>
      cases h
      exact K.period s hp

end KeptByStep

end Sys2Proof.Machine
end

section
/-! PROOFS. Memory, the records, the alert list and the lamps: what a law over them alone needs so that every step keeps it,
and the four laws. -/

namespace Sys2Proof.Machine

/-! ## Laws over memory, records, alert list and lamps -/

/-- A law that `Kept` speaks of, kept also by the operations that only some rows perform: a store, an event of a channel that
keeps its record's law, a lawful record put in place, lamps that keep their modes, the tick of the records, a power reset. -/
structure KeptWhole (P : State → Prop) : Prop extends Kept P where
  store : ∀ s a w, P s → P (s.setMemory (s.memory.write a w))
  event : ∀ s (c : Chan) g, (s.channels[c].Lawful → (g s.channels[c]).Lawful) → P s → P (channelEvent c g s)
  record : ∀ s (c : Chan) r, r.Lawful → P s → P (s.setChannels (s.channels.set c r))
  lamps : ∀ s (u : LampUnit), (∀ l, (s.lamps.get l).Shown → (u.get l).mode = (s.lamps.get l).mode ∧ (u.get l).Shown) →
    P s → P (s.setLamps u)
  tick : ∀ s now, P s → P (s.setChannels (s.channels.map (ChannelRecord.tick now)))
  reset : ∀ s, P s → P (resetBlocks s)

/-! ### Lamps that keep their modes -/

theorem tick_mode (l : LampState) : l.tick.mode = l.mode := by
  unfold LampState.tick
  split <;> rfl

theorem applyPatterns_mode (p : Patterns) (l : LampState) : (l.applyPatterns p).mode = l.mode := by
  unfold LampState.applyPatterns
  split <;> rfl

theorem lampTick_get (now : Millis) (u : LampUnit) (l : Lamp) : (u.tick now).get l = (u.get l).tick := by
  cases l <;> rfl

theorem applySettings_get (w : SetupWords) (u : LampUnit) (l : Lamp) :
    (u.applySettings w).get l = (u.get l).applyPatterns w.patterns := by
  cases l <;> rfl

theorem floorLevel_get (now : Millis) (line : Bool) (u : LampUnit) (l : Lamp) :
    (u.floorLevel now line).get l = u.get l := by
  cases l <;> rfl

/-- One lamp changed in its mode's limits leaves the other two as they are. -/
theorem put_keeps {u : LampUnit} {l : Lamp} {x : LampState} (hmode : x.mode = (u.get l).mode) (hx : x.Shown) (k : Lamp)
    (hk : (u.get k).Shown) : ((u.put l x).get k).mode = (u.get k).mode ∧ ((u.put l x).get k).Shown := by
  rw [get_put]
  split
  next h => exact ⟨by rw [h, hmode], hx⟩
  next => exact ⟨rfl, hk⟩

/-! ### The operations of single rows -/

namespace KeptWhole
variable {P : State → Prop} (K : KeptWhole P)
include K

theorem storeAt (a : Access) (s : State) (hp : P s) : P (s.setMemory (storeAt a s.memory)) := by
  cases a with
  | read => exact hp
  | write addr data => exact K.store s _ _ hp

theorem withdrawAccess (s : State) (hp : P s) : P (withdrawAccess s) := by
  unfold Machine.withdrawAccess
  split
  next => exact hp
  next =>
    refine K.draws _ _ ?_
    split
    next => exact K.store s _ _ hp
    next => exact hp

theorem releasePower (straps : Straps) (s : State) (hp : P s) : P (releasePower straps s) :=
  K.takePresented _ (K.lamps ((s.setPath _).setSetup _) _
    (fun l h => by rw [floorLevel_get]; exact ⟨rfl, h⟩) (K.setup _ _ (K.path _ _ hp)))

theorem busReset (s : State) (hp : P s) : P (busReset s) :=
  K.path _ _ (K.view _ _ (K.staging _ _ (K.setup _ _ (K.enf _ _ (K.mail _ _ (K.endStall _ hp))))))

theorem takeChair (c : Chan) (set : Bool) (rest : List ToEvaluator) (s : State) (hp : P s) : P (takeChair c set rest s) := by
  unfold Machine.takeChair
  dsimp only
  split
  next he => exact K.event _ c _ (fun h => ChannelRecord.chair_lawful set h he) (K.mail _ _ hp)
  next => exact K.mail _ _ hp

theorem membershipEvent (w : SetupWords) (c : Chan) (s : State) (hp : P s) : P (membershipEvent w c s) := by
  unfold Machine.membershipEvent
  dsimp only
  split
  next => exact K.mail _ _ (K.record s c _ ChannelRecord.powerReset_lawful hp)
  next => exact K.mail _ _ (K.record s c _ (startRecord_lawful w _ c) hp)
  next he _ =>
    split
    next => exact hp
    next => exact K.event s c _ (fun h => ChannelRecord.rewriteMembership_lawful w _ c h he) hp
  next => exact hp

theorem takeCondition (c : Chan) (f : AlertUnit → AlertUnit) (s : State) (hf : s.alert.Orderly → (f s.alert).Orderly)
    (hp : P s) : P (takeCondition c f s) := by
  unfold Machine.takeCondition
  split
  next => exact K.evIf s f hf hp
  next => exact hp

theorem takeReport (m : ToSetup) (s : State) (hp : P s) : P (takeReport m s) := K.takeEach [m] s hp

theorem refclkPeriod (s : State) (hp : P s) : P (refclkPeriod s) := by
  unfold Machine.refclkPeriod
  split
  next => exact hp
  next =>
    split
    next => exact K.time _ _ hp
    next =>
      exact K.lamps ((((s.setTime _).setChannels _).setSetup _).setEnf _) _
        (fun l h => by rw [lampTick_get]; exact ⟨tick_mode _, tick_shown h⟩)
        (K.enf _ _ (K.setup _ _ (K.tick _ _ (K.time _ _ hp))))

theorem happens (i : Instr) (s t : State) (h : Happens i s t) (hp : P s) : P t := by
  cases h with
  | stays => exact hp
  | powerAssertedTwice | powerStillAsserted | cedeAssertedIdly | cedeFellIdly | floorLineInReset => exact K.lines _ _ hp
  | powerAsserted => exact K.reset _ (K.withdrawAccess _ (K.lines _ _ hp))
  | powerReleased => exact K.releasePower _ _ (K.lines _ _ hp)
  | settled => exact K.setup _ _ hp
  | busAsserted => exact K.busReset _ (K.lines _ _ (K.finishHalt _ (K.finishAnswer _ hp)))
  | busReleased =>
    refine K.takePresented _ ?_
    unfold reportAtRelease
    split
    next => exact K.claimIf _ (K.lines _ _ hp)
    next => exact K.report _ (K.claimIf _ (K.lines _ _ hp))
  | memoryEnded => exact K.takePresented _ (K.complete _ (K.path _ _ (K.storeAt _ _ hp)))
  | frameDiscarded | floorPassed | silencePassed => exact K.mail _ _ hp
  | frameTaken c _ f rest he =>
    exact K.event (s.setMail { s.mail with frames := rest }) c _ (fun h => ChannelRecord.evaluate_lawful _ _ _ f h he) (K.mail _ _ hp)
  | dropoutExpired c _ hdue => exact K.event _ c _ (fun h => ChannelRecord.dropoutExpiry_lawful _ _ h hdue) hp
  | freshnessExpired c _ hdue => exact K.event _ c _ (fun h => ChannelRecord.freshnessExpiry_lawful h hdue) hp
  | windowExpired c _ hdue => exact K.event _ c _ (fun h => ChannelRecord.windowExpiry_lawful _ _ h hdue) hp
  | idleExpired c _ hdue => exact K.event _ c _ (fun h => ChannelRecord.idleExpiry_lawful h hdue) hp
  | chairTaken => exact K.takeChair _ _ _ _ hp
  | floorTaken _ f left he hr =>
    exact K.event (s.setMail { s.mail with floor := left }) f.next _ (fun h => ChannelRecord.floor_lawful _ h he hr) (K.mail _ _ hp)
  | silenceTaken _ c => exact K.event _ c _ id (K.mail _ _ hp)
  | membershipTaken => exact K.membershipEvent _ _ _ (K.mail _ _ hp)
  | tableResetTaken _ c rest => exact K.record (s.setMail _) c _ (startRecord_lawful _ _ c) (K.mail _ _ hp)
  | noticeTaken => exact K.queueUnder _ _ (K.mail _ _ hp)
  | setupChangeTaken => exact K.takeSetupChange _ _ _ hp
  | loadRequestTaken => exact K.claimIf _ (K.enf _ _ (K.mail _ _ hp))
  | haltTaken => exact K.takePresented _ (K.complete _ (K.takeHalt _ hp))
  | ceded => exact K.beginCeded _ (K.endStall _ (K.enf _ _ (K.lines _ _ hp)))
  | busFreed => exact K.report _ (K.claimIf _ (K.enf _ _ (K.lines _ _ hp)))
  | cedeBroken => exact K.enf _ _ (K.lines _ _ hp)
  | cedeEnded => exact K.endBroken _ (K.lines _ _ hp)
  | cedeFellInIdle => exact K.claimIf _ (K.lines _ _ hp)
  | stalled => split <;> exact K.mail _ _ (K.enf _ _ hp)
  | burstWriteEnded => exact K.afterOwn _ (K.count _ (K.path _ _ (K.store _ _ _ hp)))
  | loadReadDropped => exact K.afterOwn _ (K.enf _ _ (K.path _ _ hp))
  | loadReadEnded => exact K.advance _ _ _ (K.enf _ _ (K.path _ _ hp))
  | reportTaken => exact K.takeReport _ _ (K.mail _ _ hp)
  | conditionTaken _ _ c f _ hf => exact K.takeCondition c f _ hf (K.mail _ _ hp)
  | stallTaken _ _ f _ hf => exact K.evIf _ f hf (K.mail _ _ hp)
  | listRequestTaken => exact K.takeToList _ _ (K.mail _ _ hp)
  | periodEnded _ l hdue => exact K.lamps _ _ (put_keeps rfl (boundary_shown hdue)) hp
  | onTimeEnded _ l hdue => exact K.lamps _ _ (put_keeps rfl (onTimeEnd_shown hdue)) hp
  | patternsTaken _ w rest =>
    exact K.lamps (s.setMail _) _ (fun l h => by rw [applySettings_get]; exact ⟨applyPatterns_mode _ _, applyPatterns_shown _ h⟩)
      (K.mail _ _ hp)
  | floorLineChanged =>
    exact K.lamps (s.setLines _) _ (fun l h => by rw [floorLevel_get]; exact ⟨rfl, h⟩) (K.lines _ _ hp)
  | debounced => exact K.mail _ _ (K.lamps s _ (fun l h => by cases l <;> exact ⟨rfl, h⟩) hp)
  | secondsStepped => exact K.time _ _ hp

theorem byStep : KeptByStep P where
  queue := K.pending
  access := K.present
  overtaking _ _ := K.path _ _
  happens := K.happens
  period := K.refclkPeriod

end KeptWhole

/-! ## The four laws -/

theorem memory_keptWhole : KeptWhole fun s => s.memory.wf = true where
  path _ _ h := h
  enf _ _ h := h
  setup _ _ h := h
  mail _ _ h := h
  view _ _ h := h
  staging _ _ h := h
  time _ _ h := h
  lines _ _ h := h
  draws _ _ h := h
  pending _ _ h := h
  ev _ _ _ h := h
  rel _ _ h := h
  start _ _ h := h
  clear _ h := h
  table _ h := h
  store s a w h := Memory.write_wf s.memory a w h
  event _ _ _ _ h := h
  record _ _ _ _ h := h
  lamps _ _ _ h := h
  tick _ _ h := h
  reset _ h := h

theorem alert_keptWhole : KeptWhole fun s => s.alert.Lawful where
  path _ _ h := h
  enf _ _ h := h
  setup _ _ h := h
  mail _ _ h := h
  view _ _ h := h
  staging _ _ h := h
  time _ _ h := h
  lines _ _ h := h
  draws _ _ h := h
  pending _ _ h := h
  ev _ f hf h := listEvent_lawful f (hf h.toOrderly)
  rel _ _ h := h
  start _ _ h := h
  clear _ _ := AlertUnit.cleared_lawful
  table _ h := h
  store _ _ _ h := h
  event _ _ _ _ h := h
  record _ _ _ _ h := h
  lamps _ _ _ h := h
  tick _ _ h := h
  reset _ _ := AlertUnit.cleared_lawful

theorem set_lawful {v : Vector ChannelRecord 64} (h : ∀ c : Chan, v[c].Lawful) (c : Chan) {r : ChannelRecord}
    (hr : r.Lawful) (d : Chan) : (v.set c r)[d].Lawful := by
  by_cases hd : d = c
  · subst hd
    simpa using hr
  · have hother : (v.set c r)[d] = v[d] := Vector.getElem_set_ne _ _ fun hcd => hd (Fin.ext hcd.symm)
    rw [hother]
    exact h d

theorem replicate_powerReset_lawful (c : Chan) : (Vector.replicate 64 ChannelRecord.powerReset)[c].Lawful := by
  have hc : (Vector.replicate 64 ChannelRecord.powerReset)[c] = .powerReset := Vector.getElem_replicate _
  rw [hc]
  exact ChannelRecord.powerReset_lawful

theorem records_keptWhole : KeptWhole fun s => ∀ c : Chan, s.channels[c].Lawful where
  path _ _ h := h
  enf _ _ h := h
  setup _ _ h := h
  mail _ _ h := h
  view _ _ h := h
  staging _ _ h := h
  time _ _ h := h
  lines _ _ h := h
  draws _ _ h := h
  pending _ _ h := h
  ev _ _ _ h := h
  rel s c h := channelEvent_lawful c _ s h (ChannelRecord.release_lawful (h c))
  start _ _ h := h
  clear _ h := h
  table _ _ := replicate_powerReset_lawful
  store _ _ _ h := h
  event s c g hg h := channelEvent_lawful c g s h (hg (h c))
  record _ c _ hr h := set_lawful h c hr
  lamps _ _ _ h := h
  tick s now h c := by
    have hc : (s.channels.map (ChannelRecord.tick now))[c] = s.channels[c].tick now := Vector.getElem_map _ _
    exact hc ▸ ChannelRecord.tick_lawful now (h c)
  reset _ _ := replicate_powerReset_lawful

theorem powerReset_lampsFollow {s : State} (ha : s.alert.list = []) (hl : s.lamps = .powerReset) : s.LampsFollow := by
  intro l
  have hl' : s.lamps.get l = .powerReset := by rw [hl]; cases l <;> rfl
  rw [hl', ha]
  refine ⟨?_, fun _ => rfl, fun h => absurd h (by decide), fun _ => rfl⟩
  exact lampModeOf_asked (lampFamily l) []

theorem lamps_keptWhole : KeptWhole State.LampsFollow where
  path _ _ h := h
  enf _ _ h := h
  setup _ _ h := h
  mail _ _ h := h
  view _ _ h := h
  staging _ _ h := h
  time _ _ h := h
  lines _ _ h := h
  draws _ _ h := h
  pending _ _ h := h
  ev s f _ h := fun l => derive_follows (s.alert.event s.time.seconds f).list s.lamps (fun k => (h k).2) l
  rel _ _ h := h
  start s w h := h.of_shown rfl fun l => by
    cases l with
    | battery => exact ⟨rfl, startPatterns_shown _ (h .battery).2⟩
    | signal => exact ⟨rfl, startPatterns_shown _ (h .signal).2⟩
    | mute => exact ⟨rfl, startPatterns_shown _ (h .mute).2⟩
  clear s h := fun l => derive_follows [] s.lamps (fun k => (h k).2) l
  table _ h := h
  store _ _ _ h := h
  event _ _ _ _ h := h
  record _ _ _ _ h := h
  lamps _ _ hu h := h.of_shown rfl fun l => hu l (h l).2
  tick _ _ h := h
  reset _ _ := powerReset_lampsFollow rfl rfl

/-! ## The obligations -/

/-- Settles O56: the law is one over the alert list unit alone. -/
theorem everyStepKeepsTheAlertList : Obligations.EveryStepKeepsTheAlertList :=
  fun _ _ hs h => alert_keptWhole.byStep.step h hs

/-- Settles O57: the law is one over the records alone. -/
theorem everyStepKeepsTheRecords : Obligations.EveryStepKeepsTheRecords :=
  fun _ _ hs h => records_keptWhole.byStep.step h hs

end Sys2Proof.Machine
end

section
/-! PROOFS. The laws of the setup and command unit, of the session, of the enforcement unit and of the two ports: every outcome
of a step keeps each of them. -/

namespace Sys2Proof.Machine

/-! ## The setup and command unit (R123, R165, R166, R168) -/

theorem State.SetupLawful.of_units {s t : State} (hp : s.SetupLawful) (hsetup : t.setup = s.setup)
    (hpath : t.path = s.path) (hlines : t.lines = s.lines) : t.SetupLawful := by
  have hreset : t.powerReset = s.powerReset := by rw [State.powerReset, State.powerReset, hlines]
  exact hp.of_same ⟨by rw [hsetup], by rw [hsetup], by rw [hsetup], by rw [hsetup], by rw [hpath], by rw [hpath], hreset,
    .inl (by rw [hpath])⟩

/-- A change of the lines that does not assert power reset. -/
theorem setLines_setupLawful {s : State} {v : InputLines} (hp : s.SetupLawful)
    (hreset : (s.setLines v).powerReset = true → s.powerReset = true) : (s.setLines v).SetupLawful where
  progress := hp.progress
  frozen := hp.frozen
  valid := hp.valid
  windows := hp.windows
  reset h := hp.reset (hreset h)

theorem powerReset_of_source {s : State} {source : PowerSource} (h : s.lines.source source = true) :
    s.powerReset = true := by
  cases source with
  | pin => exact Bool.or_eq_true_iff.2 (.inl h)
  | supply => exact Bool.or_eq_true_iff.2 (.inr h)

theorem resetBlocks_setupLawful (s : State) : (resetBlocks s).SetupLawful where
  progress := by simp [resetBlocks, SetupUnit.powerReset]
  frozen h := by cases h
  valid w h := by cases h
  windows b h := by cases h
  reset _ := ⟨rfl, rfl, rfl⟩

/-- The release of power reset latches the straps while no setup is in force (R122). -/
theorem releasePower_setupLawful (straps : Straps) {s : State} (hp : s.SetupLawful) (hnone : s.setup.working = none)
    (hbases : s.path.bases = none) (hr : s.powerReset = false) : (releasePower straps s).SetupLawful := by
  refine takePresented_setupLawful _ ?_
  exact {
    progress := hp.progress
    frozen := hp.frozen
    valid := fun w h => by cases hnone.symm.trans h
    windows := fun b h => by cases hbases.symm.trans h
    reset := fun h => by cases hr.symm.trans h }

theorem busReset_setupLawful {s : State} (hp : s.SetupLawful) : (busReset s).SetupLawful := by
  have hfreeze : s.setup.busReset.freeze = s.setup.freeze ∧ s.setup.busReset.working = s.setup.working := by
    unfold SetupUnit.busReset
    split <;> exact ⟨rfl, rfl⟩
  have hprogress : s.setup.busReset.result = .inProgress ↔
      (s.setup.busReset.part = .loading ∨ s.setup.busReset.part = .releasing) := by
    have h := hp.progress
    unfold SetupUnit.busReset
    split
    next hpart => exact h
    next hpart => simp
    all_goals simp [*]
  have hsetup : (busReset s).setup = s.setup.busReset := rfl
  have hpath : (busReset s).path = { s.path with held := none } := rfl
  have hreset : (busReset s).powerReset = s.powerReset := by rw [State.powerReset, State.powerReset, busReset_lines]
  obtain ⟨hfreeze, hworking⟩ := hfreeze
  exact {
    progress := hsetup ▸ hprogress
    frozen := by rw [hsetup, hfreeze, hworking]; exact hp.frozen
    valid := by rw [hsetup, hworking, hpath]; exact hp.valid
    windows := by rw [hpath]; exact hp.windows
    reset := by
      rw [hreset, hsetup, hworking, hpath]
      intro h
      obtain ⟨hnone, hbases, -⟩ := hp.reset h
      exact ⟨hnone, hbases, rfl⟩ }

theorem endProcessor_window (data : Option Word) (u : PathUnit) :
    (u.endProcessor data).straps = u.straps ∧ (u.endProcessor data).bases = u.bases ∧
      (u.endProcessor data).held = u.held := by
  unfold PathUnit.endProcessor
  split <;> exact ⟨rfl, rfl, rfl⟩

theorem memoryEnded_setupLawful {s : State} (m : Memory) (data : Option Word) (hp : s.SetupLawful) :
    ((s.setMemory m).setPath (s.path.portEnded.endProcessor data)).SetupLawful := by
  obtain ⟨hstraps, hbases, hheld⟩ := endProcessor_window data s.path.portEnded
  rw [portEnded_eq] at hstraps hbases hheld ⊢
  exact hp.of_same ⟨rfl, rfl, rfl, rfl, hstraps, hbases, rfl, .inl hheld⟩

theorem settled_setupLawful {s : State} (h : s.setup.part = .settling) (hp : s.SetupLawful) :
    (s.setSetup { s.setup with settle := .stopped, part := .passive }).SetupLawful where
  progress := by
    have hnot : ¬s.setup.result = .inProgress := by rw [hp.progress, h]; decide
    exact ⟨fun hr => absurd hr hnot, fun hr => by cases hr <;> contradiction⟩
  frozen := hp.frozen
  valid := hp.valid
  windows := hp.windows
  reset := hp.reset

theorem takeToList_setupLawful (m : ToList) {s : State} (hp : s.SetupLawful) : (takeToList m s).SetupLawful :=
  hp.of_units (by simp) (by simp) (by simp)

theorem setup_happens (i : Instr) (s t : State) (h : Happens i s t) (hp : s.SetupLawful) : t.SetupLawful := by
  cases h with
  | stays => exact hp
  | powerAssertedTwice _ _ hr => exact setLines_setupLawful hp fun _ => hr
  | powerAsserted => exact resetBlocks_setupLawful _
  | powerStillAsserted _ _ _ hs => exact setLines_setupLawful hp fun _ => powerReset_of_source hs
  | powerReleased _ straps _ hs hr =>
    obtain ⟨hnone, hbases, -⟩ := hp.reset (powerReset_of_source hs)
    exact releasePower_setupLawful straps (setLines_setupLawful hp fun _ => powerReset_of_source hs) hnone hbases hr
  | settled _ _ hpart => exact settled_setupLawful hpart hp
  | busAsserted =>
    refine busReset_setupLawful (setLines_setupLawful (finishHalt_setupLawful _ (finishAnswer_setupLawful _ hp)) ?_)
    rw [State.powerReset, State.powerReset, finishHalt_lines, finishAnswer_lines]
    exact id
  | busReleased =>
    refine takePresented_setupLawful _ ?_
    have hclaimed := claimIfAllowed_setupLawful _ (setLines_setupLawful (v := { s.lines with busrst := false }) hp id)
    unfold reportAtRelease
    split
    next => exact hclaimed
    next => exact reportIfRestored_setupLawful _ hclaimed
  | memoryEnded => exact takePresented_setupLawful _ (completeEnded_setupLawful _ (memoryEnded_setupLawful _ _ hp))
  | frameDiscarded | floorPassed | silencePassed => exact setMail_setupLawful _ _ hp
  | frameTaken | floorTaken | silenceTaken => exact channelEvent_setupLawful _ _ _ (setMail_setupLawful _ _ hp)
  | dropoutExpired | freshnessExpired | windowExpired | idleExpired => exact channelEvent_setupLawful _ _ _ hp
  | chairTaken | membershipTaken => exact hp.of_units (by simp) (by simp) (by simp)
  | tableResetTaken | secondsStepped | periodEnded | onTimeEnded | patternsTaken | debounced =>
    exact hp.of_units rfl rfl rfl
  | noticeTaken => exact queueUnderEnforce_setupLawful _ _ (setMail_setupLawful _ _ hp)
  | setupChangeTaken => exact takeSetupChange_setupLawful _ _ _ hp
  | loadRequestTaken => exact claimIfAllowed_setupLawful _ (setEnf_setupLawful _ _ (setMail_setupLawful _ _ hp))
  | haltTaken => exact takePresented_setupLawful _ (completeEnded_setupLawful _ (takeHalt_setupLawful _ hp))
  | cedeAssertedIdly | cedeFellIdly | floorLineInReset => exact setLines_setupLawful hp id
  | ceded =>
    exact beginCeded_setupLawful _ (endStall_setupLawful _ (setEnf_setupLawful _ _ (setLines_setupLawful hp id)))
  | busFreed =>
    exact reportIfRestored_setupLawful _
      (claimIfAllowed_setupLawful _ (setEnf_setupLawful _ _ (setLines_setupLawful hp id)))
  | cedeBroken => exact setEnf_setupLawful _ _ (setLines_setupLawful hp id)
  | cedeEnded => exact endBrokenCede_setupLawful _ (setLines_setupLawful hp id)
  | cedeFellInIdle => exact claimIfAllowed_setupLawful _ (setLines_setupLawful hp id)
  | stalled => split <;> exact hp.of_units rfl rfl rfl
  | burstWriteEnded =>
    refine afterOwnAccess_setupLawful _ ?_
    exact (portEnded_setupLawful s hp).of_units (by simp) (by simp) (by simp)
  | loadReadDropped => exact afterOwnAccess_setupLawful _ (setEnf_setupLawful _ _ (portEnded_setupLawful s hp))
  | loadReadEnded => exact advanceLoad_setupLawful _ _ _ (setEnf_setupLawful _ _ (portEnded_setupLawful s hp))
  | reportTaken => exact takeReport_setupLawful _ _ (setMail_setupLawful _ _ hp)
  | conditionTaken =>
    unfold takeCondition
    split
    next => exact listEventIfActive_setupLawful _ _ (setMail_setupLawful _ _ hp)
    next => exact setMail_setupLawful _ _ hp
  | stallTaken => exact listEventIfActive_setupLawful _ _ (setMail_setupLawful _ _ hp)
  | listRequestTaken => exact takeToList_setupLawful _ (setMail_setupLawful _ _ hp)
  | floorLineChanged _ b => exact (setLines_setupLawful (v := { s.lines with floor := b }) hp id).of_units rfl rfl rfl

theorem refclkPeriod_setupLawful (s : State) (hp : s.SetupLawful) : (refclkPeriod s).SetupLawful := by
  unfold refclkPeriod
  split
  next => exact hp
  next =>
    split
    next => exact hp.of_units rfl rfl rfl
    next => exact hp.of_same ⟨rfl, rfl, rfl, rfl, rfl, rfl, rfl, .inl rfl⟩

theorem setup_byStep : KeptByStep State.SetupLawful where
  queue _ _ hp := hp.of_units rfl rfl rfl
  access := present_setupLawful
  overtaking _ _ hp := hp.of_same ⟨rfl, rfl, rfl, rfl, rfl, rfl, rfl, .inl rfl⟩
  happens := setup_happens
  period := refclkPeriod_setupLawful

/-! ## The session (R63, R106, R169) -/

theorem State.EmptyOutsideActive.same {s t : State} (hp : s.EmptyOutsideActive) (hpart : t.setup.part = s.setup.part)
    (halert : t.alert = s.alert) (hchannels : t.channels = s.channels) (hevaluator : t.mail.toEvaluator = s.mail.toEvaluator)
    (hlist : t.mail.toList = s.mail.toList) : t.EmptyOutsideActive :=
  (SameForRest.of hpart halert hchannels hevaluator hlist).keep hp

theorem takeMembership_emptyOutsideActive {s : State} {w : SetupWords} {c : Chan} {rest : List ToEvaluator}
    (h : s.mail.toEvaluator = .membership w c :: rest) (hp : s.EmptyOutsideActive) :
    (takeMembership w c rest s).EmptyOutsideActive := by
  intro hpart
  rw [takeMembership_setup] at hpart
  obtain ⟨d, hd⟩ := (hp hpart).requests (.membership w c) (by rw [h]; exact List.mem_cons_self)
  cases hd

theorem takeChair_emptyOutsideActive {s : State} {c : Chan} {set : Bool} {rest : List ToEvaluator}
    (h : s.mail.toEvaluator = .chair c set :: rest) (hp : s.EmptyOutsideActive) :
    (takeChair c set rest s).EmptyOutsideActive := by
  intro hpart
  rw [takeChair_setup] at hpart
  obtain ⟨d, hd⟩ := (hp hpart).requests (.chair c set) (by rw [h]; exact List.mem_cons_self)
  cases hd

/-- START's reset of one channel leaves its record still and the reset on its way to the next (R10). -/
theorem tableReset_emptyOutsideActive {s : State} {c : Chan} {rest : List ToEvaluator}
    (h : s.mail.toEvaluator = .tableReset c :: rest) (hp : s.EmptyOutsideActive) :
    ((s.setMail { s.mail with toEvaluator := tableResetAfter c rest }).setChannels
      (s.channels.set c (startRecord s.settings s.lamps.debounced c))).EmptyOutsideActive := by
  intro hpart
  have hs := hp hpart
  have hrest : ∀ m ∈ rest, ∃ c, m = .tableReset c := fun m hm => hs.requests m (by rw [h]; exact List.mem_cons_of_mem _ hm)
  refine ⟨hs.alert, set_still hs.records (startRecord_still _ _ c) c, ?_, hs.removals⟩
  show ∀ m ∈ tableResetAfter c rest, ∃ c, m = .tableReset c
  unfold tableResetAfter
  split
  next d _ => exact List.forall_mem_cons.2 ⟨⟨d, rfl⟩, hrest⟩
  next => exact hrest

theorem listRequest_emptyOutsideActive {s : State} {m : ToList} {rest : List ToList} (h : s.mail.toList = m :: rest)
    (hp : s.EmptyOutsideActive) : (takeToList m s.dropToList).EmptyOutsideActive := by
  have htail : s.dropToList.mail.toList = rest := by rw [State.dropToList, h]; rfl
  cases m with
  | removal gone =>
    intro hpart
    have hpart : s.setup.part ≠ .active := by rwa [takeToList_setup] at hpart
    cases (hp hpart).removals (.removal gone) (by rw [h]; exact List.mem_cons_self)
  | clearing =>
    refine clearAlerts_emptyOutsideActive _ fun hpart => ?_
    have hs := hp hpart
    refine ⟨hs.alert, hs.records, hs.requests, fun m hm => hs.removals m ?_⟩
    rw [htail] at hm
    rw [h]
    exact List.mem_cons_of_mem _ hm

theorem session_happens (i : Instr) (s t : State) (h : Happens i s t) (hp : s.EmptyOutsideActive) :
    t.EmptyOutsideActive := by
  cases h with
  | stays => exact hp
  | powerAsserted => exact fun _ => resetBlocks_emptied _
  | powerReleased =>
    exact takePresented_emptyOutsideActive _ (hp.same rfl rfl rfl rfl rfl)
  | settled _ _ hpart => exact SameForRest.keep (s := s) (fun _ => ⟨by rw [hpart]; decide, rfl, rfl, rfl, rfl⟩) hp
  | busAsserted =>
    have hfinished := (finishHalt_sameForRest _).keep (finishAnswer_emptyOutsideActive _ hp)
    exact busReset_emptyOutsideActive _ (hfinished.same rfl rfl rfl rfl rfl)
  | busReleased =>
    refine takePresented_emptyOutsideActive _ ?_
    have hclaimed := (claimIfAllowed_sameForRest (s.setLines { s.lines with busrst := false })).keep (hp.same rfl rfl rfl rfl rfl)
    unfold reportAtRelease
    split
    next => exact hclaimed
    next => exact (reportIfRestored_sameForRest _).keep hclaimed
  | memoryEnded =>
    refine takePresented_emptyOutsideActive _ ((completeEnded_sameForRest _).keep ?_)
    exact hp.same rfl rfl rfl rfl rfl
  | frameTaken _ _ _ _ _ hactive => exact SameForRest.keep (s := s) (.active hactive) hp
  | dropoutExpired c _ hdue =>
    refine channelEvent_emptyOutsideActive c _ s (fun hstill => ?_) hp
    cases hdue.symm.trans hstill.1
  | freshnessExpired c _ hdue =>
    refine channelEvent_emptyOutsideActive c _ s (fun hstill => ?_) hp
    cases hdue.symm.trans hstill.2.1
  | windowExpired c _ hdue =>
    refine channelEvent_emptyOutsideActive c _ s (fun hstill => ?_) hp
    cases hdue.symm.trans hstill.2.2.1
  | idleExpired c _ hdue =>
    refine channelEvent_emptyOutsideActive c _ s (fun hstill => ?_) hp
    cases hdue.symm.trans hstill.2.2.2.1
  | chairTaken _ c set rest hm => exact takeChair_emptyOutsideActive hm hp
  | floorTaken _ f left => exact channelEvent_emptyOutsideActive f.next _ (s.setMail _) id (hp.same rfl rfl rfl rfl rfl)
  | silenceTaken _ c => exact channelEvent_emptyOutsideActive c _ (s.setMail _) id (hp.same rfl rfl rfl rfl rfl)
  | membershipTaken _ w c rest hm => exact takeMembership_emptyOutsideActive hm hp
  | tableResetTaken _ c rest hm => exact tableReset_emptyOutsideActive hm hp
  | noticeTaken _ _ c => exact (queueUnderEnforce_sameForRest c s.dropNotice).keep (hp.same rfl rfl rfl rfl rfl)
  | setupChangeTaken => exact (takeSetupChange_sameForRest _ _ s).keep hp
  | loadRequestTaken =>
    exact (claimIfAllowed_sameForRest (s.dropToEnforcement.setEnf _)).keep (hp.same rfl rfl rfl rfl rfl)
  | haltTaken =>
    exact takePresented_emptyOutsideActive _ ((completeEnded_sameForRest _).keep ((takeHalt_sameForRest s).keep hp))
  | ceded =>
    refine beginCeded_emptyOutsideActive _ ((endStall_sameForRest _).keep ?_)
    exact hp.same rfl rfl rfl rfl rfl
  | busFreed =>
    refine (reportIfRestored_sameForRest _).keep ((claimIfAllowed_sameForRest _).keep ?_)
    exact hp.same rfl rfl rfl rfl rfl
  | cedeEnded => exact endBrokenCede_emptyOutsideActive (s.setLines _) (hp.same rfl rfl rfl rfl rfl)
  | cedeFellInIdle => exact (claimIfAllowed_sameForRest (s.setLines _)).keep (hp.same rfl rfl rfl rfl rfl)
  | stalled => split <;> exact hp.same rfl rfl rfl rfl rfl
  | burstWriteEnded =>
    refine afterOwnAccess_emptyOutsideActive _ ?_
    exact hp.same (by simp) (by simp) (by simp) (by simp) (by simp)
  | loadReadDropped => exact afterOwnAccess_emptyOutsideActive (setIntended _ _ (s.setPath _)) (hp.same rfl rfl rfl rfl rfl)
  | loadReadEnded => exact advanceLoad_emptyOutsideActive _ _ (setIntended _ _ (s.setPath _)) (hp.same rfl rfl rfl rfl rfl)
  | reportTaken _ _ m => exact (takeReport_sameForRest m s.dropToSetup).keep (hp.same rfl rfl rfl rfl rfl)
  | conditionTaken _ _ c f =>
    unfold takeCondition
    split
    next => exact (listEventIfActive_sameForRest f s.dropCondition).keep (hp.same rfl rfl rfl rfl rfl)
    next => exact hp.same rfl rfl rfl rfl rfl
  | stallTaken _ _ f => exact (listEventIfActive_sameForRest f s.dropStall).keep (hp.same rfl rfl rfl rfl rfl)
  | listRequestTaken _ _ m rest _ hm => exact listRequest_emptyOutsideActive hm hp
  | powerAssertedTwice | powerStillAsserted | cedeAssertedIdly | cedeFellIdly | cedeBroken | floorLineInReset
  | frameDiscarded | floorPassed | silencePassed | periodEnded | onTimeEnded | patternsTaken | floorLineChanged | debounced
  | secondsStepped =>
    exact hp.same rfl rfl rfl rfl rfl

theorem session_byStep : KeptByStep State.EmptyOutsideActive where
  queue s _ hp := hp.same rfl rfl rfl rfl rfl
  access := present_emptyOutsideActive
  overtaking s _ hp := setPath_emptyOutsideActive s _ hp
  happens := session_happens
  period := refclkPeriod_emptyOutsideActive

/-- Settles O58: memory's form is a law over memory alone; the other two laws are kept outcome by outcome. -/
theorem everyStepKeepsMemoryAndSetup : Obligations.EveryStepKeepsMemoryAndSetup :=
  fun _ _ h => ⟨memory_keptWhole.byStep.step h, setup_byStep.step h, session_byStep.step h⟩

/-! ## The enforcement unit (R137, R142, R146) -/

theorem powerReset_claimsLawful : EnforcementUnit.powerReset.Lawful where
  once := List.nodup_nil
  timer h := absurd rfl h
  stalled h := by cases h
  broken h := by cases h
  purpose := ⟨fun _ => rfl, fun _ => rfl⟩

theorem busReset_claimsLawful {s : State} (hp : ClaimsLawful s) : ClaimsLawful (busReset s) := by
  have henf : (busReset s).enf =
      EnforcementUnit.busReset (decide (s.setup.part = .loading)) s.path.ownInProgress { s.enf with stalled := false } := by
    rw [busReset, endStall_eq]
    rfl
  rw [ClaimsLawful, henf]
  exact {
    once := hp.once
    timer := fun h => absurd rfl h
    stalled := fun h => by cases h
    broken := fun h => by cases h
    purpose := ⟨fun _ => rfl, fun _ => rfl⟩ }

/-- In a claim state other than CLAIMING no claim timer runs and no stall stands (R146). -/
theorem EnforcementUnit.Lawful.atRest {u : EnforcementUnit} (h : u.Lawful) (hc : u.claim ≠ .claiming) :
    u.claimTimer = .stopped ∧ u.stalled = false :=
  ⟨by_contra fun hr => hc (h.timer hr), Bool.eq_false_iff.2 fun hr => hc (h.stalled hr)⟩

theorem busFreed_claimsLawful {u : EnforcementUnit} (h : u.Lawful) (hc : u.claim = .releasingBus) :
    EnforcementUnit.Lawful { u with claim := .idle, purpose := none } := by
  obtain ⟨htimer, hstalled⟩ := h.atRest (by rw [hc]; decide)
  have hbroken : u.broken = false := Bool.eq_false_iff.2 fun hr => by cases hc.symm.trans (h.broken hr)
  exact {
    once := h.once
    timer := fun hr => absurd htimer hr
    stalled := fun hr => by cases hstalled.symm.trans hr
    broken := fun hr => by cases hbroken.symm.trans hr
    purpose := ⟨fun _ => rfl, fun _ => rfl⟩ }

theorem cedeBroken_claimsLawful {u : EnforcementUnit} (h : u.Lawful) (hc : u.claim = .ceded) :
    EnforcementUnit.Lawful { u with broken := true } :=
  { h with broken := fun _ => hc }

theorem stalled_claimsLawful {u : EnforcementUnit} (h : u.Lawful) (hc : u.claim = .claiming) :
    EnforcementUnit.Lawful { u with claimTimer := .stopped, stalled := true } :=
  { h with timer := fun hr => absurd rfl hr, stalled := fun _ => hc }

theorem beginCeded_claimsLawful {s : State} (hc : s.enf.claim = .ceded) (hp : ClaimsLawful s) :
    ClaimsLawful (beginCeded s) := by
  unfold beginCeded
  split
  next => exact hp
  next => exact proceed_claimsLawful s hc hp

theorem countWrite_sameForClaims (s : State) : SameForClaims s (countWrite s) := by
  unfold countWrite
  split <;> exact ⟨rfl, rfl, rfl, rfl, rfl, id⟩

theorem claims_happens (i : Instr) (s t : State) (h : Happens i s t) (hp : ClaimsLawful s) : ClaimsLawful t := by
  cases h with
  | stays => exact hp
  | powerAsserted => exact powerReset_claimsLawful
  | powerReleased => exact (takePresented_sameForClaims _).keep hp
  | busAsserted =>
    refine busReset_claimsLawful ?_
    exact finishHalt_claimsLawful _ ((finishAnswer_sameForClaims s).keep hp)
  | busReleased =>
    refine (takePresented_sameForClaims _).keep ?_
    exact SameForClaims.keep (.of (by simp)) (claimIfAllowed_claimsLawful (s.setLines { s.lines with busrst := false }) hp)
  | memoryEnded =>
    exact (takePresented_sameForClaims _).keep ((completeEnded_sameForClaims _).keep (SameForClaims.keep (.of rfl) hp))
  | chairTaken | membershipTaken => exact SameForClaims.keep (.of (by simp)) hp
  | noticeTaken _ _ c => exact queueUnderEnforce_claimsLawful c s.dropNotice hp
  | setupChangeTaken => exact takeSetupChange_claimsLawful _ _ s hp
  | loadRequestTaken =>
    exact claimIfAllowed_claimsLawful _ (SameForClaims.keep (s := s) ⟨rfl, rfl, rfl, rfl, rfl, id⟩ hp)
  | haltTaken =>
    exact (takePresented_sameForClaims _).keep ((completeEnded_sameForClaims _).keep (takeHalt_claimsLawful s hp))
  | ceded _ hc =>
    refine beginCeded_claimsLawful (by rw [enterCeded_enf]) ?_
    exact enterCeded_claimsLawful (s.setLines { s.lines with cede := true }) hc hp
  | busFreed _ hc =>
    exact (reportIfRestored_sameForClaims _).keep (claimIfAllowed_claimsLawful _ (busFreed_claimsLawful hp hc))
  | cedeBroken _ hc => exact cedeBroken_claimsLawful hp hc
  | cedeEnded _ hc => exact endBrokenCede_claimsLawful (s.setLines { s.lines with cede := false }) hc hp
  | cedeFellInIdle => exact claimIfAllowed_claimsLawful (s.setLines _) hp
  | stalled _ hc => split <;> exact stalled_claimsLawful hp hc
  | burstWriteEnded =>
    exact afterOwnAccess_claimsLawful _ ((countWrite_sameForClaims _).keep (SameForClaims.keep (s := s) (.of rfl) hp))
  | loadReadDropped =>
    exact afterOwnAccess_claimsLawful _ (SameForClaims.keep (s := s) ⟨rfl, rfl, rfl, rfl, rfl, id⟩ hp)
  | loadReadEnded _ _ _ _ _ hc =>
    exact advanceLoad_claimsLawful _ _ _ hc (SameForClaims.keep (s := s) ⟨rfl, rfl, rfl, rfl, rfl, id⟩ hp)
  | reportTaken _ _ m => exact SameForClaims.keep (s := s) (.of (by simp [State.dropToSetup])) hp
  | conditionTaken _ _ c f =>
    unfold takeCondition
    split
    next => exact SameForClaims.keep (s := s) (.of (by simp [State.dropCondition])) hp
    next => exact hp
  | stallTaken => exact SameForClaims.keep (s := s) (.of (by simp [State.dropStall])) hp
  | listRequestTaken => exact SameForClaims.keep (s := s) (.of (by simp [State.dropToList])) hp
  | powerAssertedTwice | powerStillAsserted | settled | frameDiscarded | frameTaken | dropoutExpired | freshnessExpired
  | windowExpired | idleExpired | floorPassed | floorTaken | silencePassed | silenceTaken | tableResetTaken
  | cedeAssertedIdly | cedeFellIdly | periodEnded | onTimeEnded | patternsTaken | floorLineInReset | floorLineChanged
  | debounced | secondsStepped => exact SameForClaims.keep (.of rfl) hp

theorem refclkPeriod_claimsLawful (s : State) (hp : ClaimsLawful s) : ClaimsLawful (refclkPeriod s) := by
  unfold refclkPeriod
  split
  next => exact hp
  next =>
    split
    next => exact SameForClaims.keep (s := s) (.of rfl) hp
    next =>
      have hlawful : EnforcementUnit.Lawful s.enf := hp
      exact { hlawful with timer := fun hr => hp.timer fun hstopped => hr ((Timer.tick_stopped_iff _ _).2 hstopped) }

theorem claims_byStep : KeptByStep ClaimsLawful where
  queue _ _ hp := hp
  access a s hp := (present_sameForClaims a s).keep hp
  overtaking _ _ hp := hp
  happens := claims_happens
  period := refclkPeriod_claimsLawful

/-! ## The two ports (R120, R121, R129) -/

/-- Memory has ended the processor access at its port: none waits for memory any more (R121). -/
theorem endProcessor_lawful {u : PathUnit} {a : Access} (data : Option Word) (hp : u.Lawful)
    (hport : u.port = some (.processor a)) : (u.portEnded.endProcessor data).Lawful := by
  have hserved : (u.processor.any fun p => !p.ended) = true := by
    rw [← hp.served, hport]
    rfl
  have hwaiting : u.waiting.any PortAccess.ofProcessor = false := by
    cases hw : u.waiting with
    | none => rfl
    | some q =>
      have hown : q.own = true := by simpa [PortAccess.own] using hp.sources _ q hport hw
      simp [PortAccess.ofProcessor, hown]
  cases hprocessor : u.processor with
  | none => rw [hprocessor] at hserved; cases hserved
  | some p =>
    have hheld : u.held = none := hp.single (by rw [hprocessor]; exact Option.some_ne_none p)
    have hended : u.portEnded.endProcessor data =
        { u with
          port := u.waiting, waiting := none, lines := u.outputsAfter
          processor := some { p with ended := true, data := data } } := by
      rw [portEnded_eq, PathUnit.endProcessor, hprocessor]
    rw [hended]
    exact {
      waits := fun h => absurd rfl h
      sources := fun _ _ _ h => by cases h
      served := by rw [hwaiting]; rfl
      single := fun _ => hheld }

theorem resetBlocks_portsLawful (s : State) : PortsLawful (resetBlocks s) where
  waits h := absurd rfl h
  sources _ _ h := by cases h
  served := rfl
  single h := absurd rfl h

theorem busReset_portsLawful {s : State} (hp : PortsLawful s) : PortsLawful (busReset s) :=
  { hp with single := fun _ => rfl }

theorem ports_happens (i : Instr) (s t : State) (h : Happens i s t) (hp : PortsLawful s) : PortsLawful t := by
  cases h with
  | stays => exact hp
  | powerAsserted => exact resetBlocks_portsLawful _
  | powerReleased => exact takePresented_portsLawful _ (SameForPorts.keep (s := s) ⟨rfl, rfl, rfl, rfl⟩ hp)
  | busAsserted => exact busReset_portsLawful (finishHalt_portsLawful _ (finishAnswer_portsLawful s hp))
  | busReleased => exact takePresented_portsLawful _ (ofPath_portsLawful s _ (by simp) hp)
  | memoryEnded _ a hport =>
    exact takePresented_portsLawful _ (completeEnded_portsLawful _ (endProcessor_lawful _ hp hport))
  | chairTaken | membershipTaken => exact ofPath_portsLawful s _ (by simp) hp
  | noticeTaken => exact ofPath_portsLawful s _ (by simp [State.dropNotice]) hp
  | setupChangeTaken => exact ofPath_portsLawful s _ (by simp) hp
  | loadRequestTaken => exact ofPath_portsLawful s _ (by simp [State.dropToEnforcement]) hp
  | haltTaken =>
    exact takePresented_portsLawful _ (completeEnded_portsLawful _ (ofPath_portsLawful s _ (by simp) hp))
  | ceded => exact beginCeded_portsLawful _ (ofPath_portsLawful s _ (by simp) hp)
  | busFreed => exact ofPath_portsLawful s _ (by simp) hp
  | cedeEnded => exact endBrokenCede_portsLawful (s.setLines _) hp
  | cedeFellInIdle => exact ofPath_portsLawful s _ (by simp) hp
  | stalled => split <;> exact hp
  | burstWriteEnded _ c addr word hport =>
    obtain ⟨hlawful, hquiet⟩ := portEnded_portsLawful _ rfl s hport hp
    refine afterOwnAccess_portsLawful _ (by rw [countWrite_path]; exact hquiet) ?_
    exact ofPath_portsLawful (s.setPath s.path.portEnded) _ (by simp) hlawful
  | loadReadDropped _ c addr first hport =>
    obtain ⟨hlawful, hquiet⟩ := portEnded_portsLawful _ rfl s hport hp
    exact afterOwnAccess_portsLawful _ hquiet hlawful
  | loadReadEnded _ c addr first hport =>
    obtain ⟨hlawful, hquiet⟩ := portEnded_portsLawful _ rfl s hport hp
    exact advanceLoad_portsLawful _ _ _ hquiet hlawful
  | reportTaken => exact ofPath_portsLawful s _ (by simp [State.dropToSetup]) hp
  | conditionTaken =>
    unfold takeCondition
    split
    next => exact ofPath_portsLawful s _ (by simp [State.dropCondition]) hp
    next => exact hp
  | stallTaken => exact ofPath_portsLawful s _ (by simp [State.dropStall]) hp
  | listRequestTaken => exact ofPath_portsLawful s _ (by simp [State.dropToList]) hp
  | powerAssertedTwice | powerStillAsserted | settled | frameDiscarded | frameTaken | dropoutExpired | freshnessExpired
  | windowExpired | idleExpired | floorPassed | floorTaken | silencePassed | silenceTaken | tableResetTaken
  | cedeAssertedIdly | cedeFellIdly | cedeBroken | periodEnded | onTimeEnded | patternsTaken | floorLineInReset
  | floorLineChanged | debounced | secondsStepped => exact hp

theorem ports_byStep : KeptByStep PortsLawful where
  queue _ _ hp := hp
  access := present_portsLawful
  overtaking s _ hp := SameForPorts.keep (s := s) ⟨rfl, rfl, rfl, rfl⟩ hp
  happens := ports_happens
  period s hp := ofPath_portsLawful s _ (by simp) hp

/-- Settles O59: the lamps' law is one over the lamps and the list alone; the other two are kept outcome by outcome. -/
theorem everyStepKeepsClaimsPortsAndLamps : Obligations.EveryStepKeepsClaimsPortsAndLamps :=
  fun _ _ h => ⟨claims_byStep.step h, ports_byStep.step h, lamps_keptWhole.byStep.step h⟩

end Sys2Proof.Machine
end

section
/-! PROOFS. The step and the queue, and what the commands leave unchanged outside the blocks: the queue, memory, the input lines
(00_scope.md; logs 1, 5 and 28). -/

namespace Sys2Proof.Machine

/-! ## Taking a message changes the mail alone -/

section
variable (s : State)

@[simp] theorem dropNotice_memory : s.dropNotice.memory = s.memory := rfl
@[simp] theorem dropNotice_lines : s.dropNotice.lines = s.lines := rfl
@[simp] theorem dropNotice_pending : s.dropNotice.pending = s.pending := rfl
@[simp] theorem dropToEnforcement_memory : s.dropToEnforcement.memory = s.memory := rfl
@[simp] theorem dropToEnforcement_lines : s.dropToEnforcement.lines = s.lines := rfl
@[simp] theorem dropToEnforcement_pending : s.dropToEnforcement.pending = s.pending := rfl
@[simp] theorem dropToSetup_memory : s.dropToSetup.memory = s.memory := rfl
@[simp] theorem dropToSetup_lines : s.dropToSetup.lines = s.lines := rfl
@[simp] theorem dropToSetup_pending : s.dropToSetup.pending = s.pending := rfl
@[simp] theorem dropStall_memory : s.dropStall.memory = s.memory := rfl
@[simp] theorem dropStall_lines : s.dropStall.lines = s.lines := rfl
@[simp] theorem dropStall_pending : s.dropStall.pending = s.pending := rfl
@[simp] theorem dropToList_memory : s.dropToList.memory = s.memory := rfl
@[simp] theorem dropToList_lines : s.dropToList.lines = s.lines := rfl
@[simp] theorem dropToList_pending : s.dropToList.pending = s.pending := rfl

end

theorem takeCondition_outside (c : Chan) (f : AlertUnit → AlertUnit) (s : State) : SameOutside s (takeCondition c f s) := by
  unfold takeCondition
  split
  · exact ⟨by simp, by simp, by simp, by simp⟩
  · exact .refl s

theorem takeCondition_dropCondition_outside (c : Chan) (f : AlertUnit → AlertUnit) (s : State) :
    SameOutside s (takeCondition c f s.dropCondition) := takeCondition_outside c f s.dropCondition

/-! ## One source of power reset is one line (R162) -/

section
variable (l : InputLines) (source : PowerSource) (b : Bool)

@[simp] theorem setSource_busrst : (l.setSource source b).busrst = l.busrst := by cases source <;> rfl
@[simp] theorem setSource_cede : (l.setSource source b).cede = l.cede := by cases source <;> rfl
@[simp] theorem setSource_floor : (l.setSource source b).floor = l.floor := by cases source <;> rfl

end

/-! ## What the outcomes leave unchanged -/

namespace Happens
variable {i : Instr} {s t : State}

theorem same_pending (h : Happens i s t) : t.pending = s.pending := by
  cases h with
  | stalled => split <;> rfl
  | conditionTaken _ _ c f => exact (takeCondition_dropCondition_outside c f s).2.2.2
  | _ => simp

theorem same_memory (h : Happens i s t) (hprocessor : i ≠ .memoryAccessEnd)
    (hburst : i ≠ .burstWriteEnd) (hreset : ∀ source, i ≠ .powerResetAssert source) : t.memory = s.memory := by
  cases h with
  | memoryEnded => exact absurd rfl hprocessor
  | burstWriteEnded => exact absurd rfl hburst
  | powerAsserted source => exact absurd rfl (hreset source)
  | stalled => split <;> rfl
  | conditionTaken _ _ c f => exact (takeCondition_dropCondition_outside c f s).1
  | _ => simp

theorem same_power (h : Happens i s t) (hassert : ∀ source, i ≠ .powerResetAssert source)
    (hrelease : ∀ source straps, i ≠ .powerResetRelease source straps) :
    t.lines.powerPin = s.lines.powerPin ∧ t.lines.supplyLow = s.lines.supplyLow := by
  cases h with
  | powerAssertedTwice source | powerAsserted source => exact absurd rfl (hassert source)
  | powerStillAsserted source straps | powerReleased source straps => exact absurd rfl (hrelease source straps)
  | stalled => split <;> exact ⟨rfl, rfl⟩
  | conditionTaken _ _ c f => simp [(takeCondition_dropCondition_outside c f s).2.1]
  | _ => simp

theorem same_busrst (h : Happens i s t) (hassert : i ≠ .busrstAssert)
    (hrelease : i ≠ .busrstRelease) : t.lines.busrst = s.lines.busrst := by
  cases h with
  | busAsserted => exact absurd rfl hassert
  | busReleased => exact absurd rfl hrelease
  | stalled => split <;> rfl
  | conditionTaken _ _ c f => simp [(takeCondition_dropCondition_outside c f s).2.1]
  | _ => simp

theorem same_cede (h : Happens i s t) (hassert : i ≠ .cedeAssert) (hfall : i ≠ .cedeFall) :
    t.lines.cede = s.lines.cede := by
  cases h with
  | cedeAssertedIdly | ceded => exact absurd rfl hassert
  | cedeFellIdly | busFreed | cedeBroken | cedeEnded | cedeFellInIdle => exact absurd rfl hfall
  | stalled => split <;> rfl
  | conditionTaken _ _ c f => simp [(takeCondition_dropCondition_outside c f s).2.1]
  | _ => simp

theorem same_floor (h : Happens i s t) (hfloor : ∀ b, i ≠ .floorLineChange b) : t.lines.floor = s.lines.floor := by
  cases h with
  | floorLineInReset _ b | floorLineChanged _ b => exact absurd rfl (hfloor b)
  | stalled => split <;> rfl
  | conditionTaken _ _ c f => simp [(takeCondition_dropCondition_outside c f s).2.1]
  | _ => simp

end Happens

theorem Presents.outside {s t : State} (h : Presents s t) : SameOutside s t := by
  cases h with
  | nothing => exact .refl s
  | access a => exact present_outside a s
  | overtaking a => exact ⟨by simp, by simp, by simp, by simp⟩

/-! ## The obligations -/

theorem exec_next (i : Instr) (s : State) : ∃ t, exec i s = .next t ∧ t.pending = s.pending := by
  cases hi : presentsAccess i with
  | true =>
    obtain ⟨t, ht, hpresents⟩ := exec_presents hi s
    obtain ⟨-, -, -, hpending⟩ := hpresents.outside
    exact ⟨t, ht, hpending⟩
  | false =>
    obtain ⟨t, ht, hhappens⟩ := exec_happens hi s
    exact ⟨t, ht, hhappens.same_pending⟩

/-- Settles O3: presenting an access stays inside the blocks, and every other outcome that changes memory or a line is one of its
command's own. -/
theorem everyCommandAnswersNext : Obligations.EveryCommandAnswersNext := by
  refine ⟨exec_next, fun i s t ht => ?_⟩
  obtain hpresents | hhappens := exec_cases ht
  · obtain ⟨hmemory, hlines, -, -⟩ := hpresents.outside
    rw [hmemory, hlines]
    exact ⟨fun _ _ _ => rfl, fun _ _ => ⟨rfl, rfl⟩, fun _ _ => rfl, fun _ _ => rfl, fun _ => rfl⟩
  · exact ⟨hhappens.same_memory, hhappens.same_power, hhappens.same_busrst, hhappens.same_cede, hhappens.same_floor⟩

/-! ## The step (R184, log 5) -/

/-- Settles O1: the step's own equation. -/
theorem stepRunsFrontCommand : Obligations.StepRunsFrontCommand := by
  intro i rest s h
  rw [step, h]
  rfl

theorem step_ownStep {s : State} {i : Instr} (hqueue : s.pending = []) (hown : ownStep s = some i) :
    step s = exec i s := by
  simp only [step, hqueue, idle, hown]

theorem step_period {s : State} (hqueue : s.pending = []) (hown : ownStep s = none) :
    step s = .next (refclkPeriod s) := by
  simp only [step, hqueue, idle, hown]

section
variable {s : State}

theorem refclkPeriod_reset (h : s.powerReset = true) : refclkPeriod s = s := if_pos h

theorem refclkPeriod_counts (h : s.powerReset = false) (hcount : s.time.divider + 1 < Config.refclkPerTick) :
    refclkPeriod s = { s with time := { s.time with divider := s.time.divider + 1 } } := by
  rw [refclkPeriod, if_neg (Bool.eq_false_iff.1 h), if_pos hcount]
  rfl

theorem refclkPeriod_ticks (h : s.powerReset = false) (hcount : Config.refclkPerTick ≤ s.time.divider + 1) :
    refclkPeriod s = millisecondTick s := by
  rw [refclkPeriod, if_neg (Bool.eq_false_iff.1 h), if_neg (Nat.not_lt.2 hcount)]

end

/-! ### The millisecond tick (R15, R177, R184) -/

theorem Timer.tick_timerAtTick (now : Millis) (a : Timer) : TimerAtTick now a (a.tick now) := by
  cases a with
  | stopped => exact ⟨fun h => Timer.noConfusion h, fun _ => rfl⟩
  | due => exact ⟨fun h => Timer.noConfusion h, fun _ => rfl⟩
  | running e =>
    constructor
    · intro h
      cases h
      exact if_pos rfl
    · intro h
      exact if_neg fun he => h (congrArg Timer.running he)

/-- A lamp has a pattern to run on exactly in SLOW and FAST with patterns in use (R177). -/
theorem LampState.running_isSome_iff (l : LampState) :
    l.running.isSome = true ↔ (l.mode = .slow ∨ l.mode = .fast) ∧ l.inUse ≠ none := by
  unfold LampState.running
  cases l.mode <;> cases l.inUse <;> simp

theorem LampState.tick_eq (l : LampState) : l.tick = { l with phase := l.tick.phase } := by
  unfold LampState.tick
  split <;> rfl

theorem LampState.tick_phase (l : LampState) :
    l.tick.phase = if (l.mode = .slow ∨ l.mode = .fast) ∧ l.inUse ≠ none then l.phase + 1 else l.phase := by
  simp only [← l.running_isSome_iff]
  unfold LampState.tick
  cases l.running <;> rfl

theorem LampUnit.tick_eq (now : Millis) (u : LampUnit) :
    u.tick now = { u with
      battery := { u.battery with phase := u.battery.tick.phase }
      signal := { u.signal with phase := u.signal.tick.phase }
      mute := { u.mute with phase := u.mute.tick.phase }
      debounce := u.debounce.tick now } := by
  rw [← u.battery.tick_eq, ← u.signal.tick_eq, ← u.mute.tick_eq]
  rfl

theorem Timebase.tick_eq (working : Option SetupWords) (t : Timebase) :
    t.tick working.isSome =
      { divider := 0, ticks := t.ticks + 1, seconds := t.seconds
        phase := if working = none then t.phase else t.phase + 1 } := by
  cases working <;> rfl

/-- Settles O2: the four cases of an empty queue; the tick is its own equations, timer by timer and lamp by lamp. -/
theorem emptyQueueLetsTimePass : Obligations.EmptyQueueLetsTimePass := by
  constructor
  · intro s hqueue
    refine ⟨fun i => step_ownStep hqueue, fun hown hreset => ?_, fun hown hreset hcount => ?_⟩
    · rw [step_period hqueue hown, refclkPeriod_reset hreset]
    · rw [step_period hqueue hown, refclkPeriod_counts hreset hcount]
  · intro s hqueue hown hreset hcount
    refine ⟨millisecondTick s, ?_, Timebase.tick_eq _ _, ?_, fun c => ?_, Timer.tick_timerAtTick _ _,
      Timer.tick_timerAtTick _ _, Timer.tick_timerAtTick _ _, fun l => ?_⟩
    · rw [step_period hqueue hown, refclkPeriod_ticks hreset hcount]
    · have hlamps : (millisecondTick s).lamps = s.lamps.tick (s.time.ticks + 1) := rfl
      rw [hlamps, LampUnit.tick_eq]
      exact congrArg (fun u => { millisecondTick s with lamps := u }) (LampUnit.tick_eq _ _)
    · have hrecord : (millisecondTick s).channels[c] = s.channels[c].tick (s.time.ticks + 1) := Vector.getElem_map _ _
      rw [hrecord]
      exact ⟨rfl, Timer.tick_timerAtTick _ _, Timer.tick_timerAtTick _ _, Timer.tick_timerAtTick _ _,
        Timer.tick_timerAtTick _ _⟩
    · have hlamp : (millisecondTick s).lamps.get l = (s.lamps.get l).tick := lampTick_get _ _ l
      rw [hlamp, LampState.tick_phase]

end Sys2Proof.Machine
end

section
/-! PROOFS. The power resets, the settle interval, the bus reset and the state at reset (R10, R13, R122, R131, R132, R158 to R163,
R175). -/

namespace Sys2Proof.Machine

/-! ## The power-reset values (R10, R162) -/

theorem resetBlocks_atPowerReset (s : State) : (resetBlocks s).AtPowerReset where
  channels _ := Vector.getElem_replicate _
  staging _ := Vector.getElem_replicate _
  alert := rfl
  view := ⟨rfl, rfl, fun _ => Vector.getElem_replicate _⟩
  intended _ := Vector.getElem_replicate _
  claims := rfl
  copy _ := ⟨Vector.getElem_replicate _, Vector.getElem_replicate _⟩
  setup := rfl
  lamps l := by cases l <;> rfl
  floor := ⟨rfl, rfl, rfl⟩
  time := rfl
  path := ⟨rfl, rfl, rfl, rfl, rfl, rfl⟩
  mail := rfl

theorem reset_eq_resetBlocks : State.reset = resetBlocks State.reset := rfl

/-- Settles O4: the state at reset is one whose blocks have just been reset. -/
theorem resetStateValues : Obligations.ResetStateValues :=
  ⟨reset_eq_resetBlocks ▸ resetBlocks_atPowerReset _, rfl, rfl, rfl, rfl, fun _ => rfl⟩

/-- Settles O60: each law holds at the power-reset values of its block. -/
theorem resetStateIsLawful : Obligations.ResetStateIsLawful := by
  refine ⟨?_, powerReset_lampsFollow rfl rfl, fun _ => reset_eq_resetBlocks ▸ resetBlocks_emptied _⟩
  exact {
    memory := rfl
    alert := AlertUnit.cleared_lawful
    channels := replicate_powerReset_lawful
    setup := reset_eq_resetBlocks ▸ resetBlocks_setupLawful _
    enf := powerReset_claimsLawful
    path := reset_eq_resetBlocks ▸ resetBlocks_portsLawful _ }

/-! ## The assertion of power reset (R132, R162) -/

theorem powerReset_setSource (s : State) (source : PowerSource) :
    (s.setLines (s.lines.setSource source true)).powerReset = true := by
  cases source with
  | pin => rfl
  | supply => exact Bool.or_true _

theorem storing_iff (s : State) (x : Nat) (w : Word) :
    s.path.port.bind PortAccess.storing = some (x, w) ↔ s.Storing x w := by
  rw [State.Storing]
  rcases s.path.port with _ | (_ | ⟨a, v⟩) | _ | ⟨c, a, v⟩ <;> simp [PortAccess.storing, eq_comm]

theorem withdrawAccess_idle {s : State} (h : s.path.port.bind PortAccess.storing = none) : withdrawAccess s = s := by
  simp only [withdrawAccess, h]

theorem withdrawAccess_writing {s : State} {x : Nat} {w : Word}
    (h : s.path.port.bind PortAccess.storing = some (x, w)) :
    (withdrawAccess s).memory = s.memory.write x w ∨ (withdrawAccess s).memory = s.memory := by
  simp only [withdrawAccess, h]
  cases Config.withdrawnWriteStored s.draws with
  | true => exact .inl rfl
  | false => exact .inr rfl

theorem resetBlocks_kept (s : State) :
    (resetBlocks s).path.straps = s.path.straps ∧ (resetBlocks s).path.presented = s.path.presented ∧
      (resetBlocks s).path.lines = s.path.lines ∧ (resetBlocks s).memory = s.memory ∧ (resetBlocks s).lines = s.lines :=
  ⟨rfl, rfl, rfl, rfl, rfl⟩

/-- A word that is not being stored stands at a withdrawal (R132). -/
theorem withdrawAccess_unstored {s : State} (hwf : s.memory.wf = true) {x : Nat} (h : ¬∃ w, s.Storing x w) :
    (withdrawAccess s).memory.read x = s.memory.read x := by
  cases hstoring : s.path.port.bind PortAccess.storing with
  | none => rw [withdrawAccess_idle hstoring]
  | some stored =>
    obtain ⟨y, w⟩ := stored
    have hxy : x ≠ y := fun hxy => h ⟨w, hxy ▸ (storing_iff s y w).1 hstoring⟩
    obtain hwritten | hstands := withdrawAccess_writing hstoring
    · rw [hwritten, Memory.read_write_other _ _ _ _ hxy hwf]
    · rw [hstands]

/-- A word that was being stored holds its old word or the written one (R132, log 17). -/
theorem withdrawAccess_stored {s : State} (hwf : s.memory.wf = true) {x : Nat} {w : Word} (h : s.Storing x w) :
    (withdrawAccess s).memory.read x = s.memory.read x ∨ (withdrawAccess s).memory.read x = w := by
  obtain hwritten | hstands := withdrawAccess_writing ((storing_iff s x w).2 h)
  · rw [hwritten]
    exact .inr (Memory.read_write_same _ _ _ hwf)
  · rw [hstands]
    exact .inl rfl

/-- Settles O5: the blocks are reset, and memory's word is a matter of the withdrawn access alone. -/
theorem powerResetAssertion : Obligations.PowerResetAssertion := by
  intro source s
  constructor
  · intro hreset
    show execPowerResetAssert source s = _
    rw [execPowerResetAssert, if_pos hreset]
    rfl
  · intro hreset hwf
    let u := s.setLines (s.lines.setSource source true)
    have hpath : (withdrawAccess u).path = s.path := withdrawAccess_path u
    have hlines : (withdrawAccess u).lines = s.lines.setSource source true := withdrawAccess_lines u
    obtain ⟨hstraps, hpresented, hport, hmemory, hkept⟩ := resetBlocks_kept (withdrawAccess u)
    refine ⟨resetBlocks (withdrawAccess u), if_neg (Bool.eq_false_iff.1 hreset), resetBlocks_atPowerReset _,
      hkept.trans hlines, ?_, by rw [hstraps, hpath], by rw [hpresented, hpath], by rw [hport, hpath],
      fun x hx => ?_, fun x w hw => ?_⟩
    · rw [State.powerReset, hkept, hlines]
      exact powerReset_setSource s source
    · rw [hmemory]
      exact withdrawAccess_unstored (s := u) hwf hx
    · rw [hmemory]
      exact withdrawAccess_stored (s := u) hwf hw

/-! ## The release of power reset (R122, R162, R163) -/

section
variable {s : State} {source : PowerSource} {straps : Straps}

theorem exec_powerResetRelease_idle (h : s.lines.source source = false) :
    exec (.powerResetRelease source straps) s = .next s := if_neg (Bool.eq_false_iff.1 h)

theorem exec_powerResetRelease (h : s.lines.source source = true) :
    exec (.powerResetRelease source straps) s =
      if (s.setLines (s.lines.setSource source false)).powerReset
      then .next (s.setLines (s.lines.setSource source false))
      else .next (releasePower straps (s.setLines (s.lines.setSource source false))) := if_pos h

end

/-- The part as power reset's release leaves it, with what was presented arriving (R122, R163, R180). -/
theorem releasePower_arrived (straps : Straps) (u : State) :
    Arrived { u with
      path := { u.path with straps := straps, lines := { u.path.lines with req := u.path.port.isSome } }
      setup := { u.setup with settle := .running (u.time.ticks + 4) }
      lamps := { u.lamps with
        debounce := if u.lines.floor = u.lamps.debounced then .stopped else .running (u.time.ticks + 10) } }
      (releasePower straps u) := by
  have hlamps : u.lamps.floorLevel u.time.ticks u.lines.floor =
      { u.lamps with
        debounce := if u.lines.floor = u.lamps.debounced then .stopped else .running (u.time.ticks + 10) } := rfl
  have hsettle : Timer.start u.time.ticks Config.settleMillis = .running (u.time.ticks + 4) := rfl
  unfold releasePower
  simp only [hlamps, hsettle]
  exact takePresented_arrived _

/-- Settles O6: with the other source asserted the line alone changes; else what was presented arrives in the released part. -/
theorem powerResetRelease : Obligations.PowerResetRelease := by
  intro source straps s
  refine ⟨exec_powerResetRelease_idle, fun hsource hother => ?_, fun hsource hpin hsupply => ?_⟩
  · have hasserted : (s.setLines (s.lines.setSource source false)).powerReset = true := Bool.or_eq_true_iff.2 hother
    rw [exec_powerResetRelease hsource, if_pos hasserted]
    rfl
  · have hreleased : (s.setLines (s.lines.setSource source false)).powerReset = false :=
      Bool.or_eq_false_iff.2 ⟨hpin, hsupply⟩
    rw [exec_powerResetRelease hsource, if_neg (Bool.eq_false_iff.1 hreleased)]
    have harrived := releasePower_arrived straps (s.setLines (s.lines.setSource source false))
    rw [State.setLines_lines, setSource_floor] at harrived
    exact ⟨_, rfl, harrived⟩

/-! ## Power reset asserted, and SETTLING (R132, R163) -/

section
variable {a : Access} {s : State}

theorem portTakes_reset (h : s.powerReset = true) : s.portTakes = false := by
  simp only [State.portTakes, h, Bool.not_true, Bool.false_and]

theorem present_reset (h : s.powerReset = true) : present a s = { s with path := { s.path with presented := some a } } :=
  present_stays (portTakes_reset h) (.inr (.inl h))

/-- An access that is classified as forward goes to the memory port unchanged (R121, R125). -/
theorem present_forwarded (ht : s.Taking) (hcourse : s.classify a = .forward) : present a s = serve a a false s := by
  simp only [present_taking a s ht, takeCourse, hcourse]

end

/-- Settles O7: nothing is taken in power reset, all is forwarded in SETTLING, and the expiry ends it. -/
theorem resetAndSettling : Obligations.ResetAndSettling := by
  refine ⟨fun a s hreset => congrArg _ (present_reset hreset), fun a s ht hpart => ?_,
    fun s hdue hpart => if_pos ⟨hdue, hpart⟩⟩
  have hpresent : present a s = serve a a false s := present_forwarded ht (classify_settling s a hpart)
  exact ⟨serve a a false s, congrArg _ hpresent, serve_only a a false s, serve_served a a false s⟩

/-! ## The assertion of BUSRST_N (R13, R108, R131, R158, R175) -/

theorem SetupUnit.busReset_eq (u : SetupUnit) :
    u.busReset = if u.part = .releasing then u
      else { u with
        part := if u.part = .loading then .passive else u.part
        result := .idle, lastCode := 0, stalledFlag := false, busyFlag := false } := by
  unfold SetupUnit.busReset
  split <;> simp [*]

theorem busReset_eq (u : State) :
    busReset u = { u with
      staging := Vector.replicate 64 { link := none, battery := none, switch := none }
      view := { gen := 0, count := 0, entries := Vector.replicate 32 none }
      path := { u.path with held := none }
      enf := { u.enf with
        claim := .idle, purpose := none, stalled := false, claimTimer := .stopped, broken := false
        orphan := u.path.ownInProgress
        loadPosition := if u.setup.part = .loading then none else u.enf.loadPosition }
      setup :=
        if u.setup.part = .releasing then u.setup
        else { u.setup with
          part := if u.setup.part = .loading then .passive else u.setup.part
          result := .idle, lastCode := 0, stalledFlag := false, busyFlag := false }
      mail := { u.mail with
        stalls := u.mail.stalls ++ (if u.enf.stalled = true ∧ u.setup.part = .active then [false] else [])
        toSetup := u.mail.toSetup ++ (if u.enf.stalled = true ∧ u.setup.part ≠ .active then [.stallEnd] else [])
        toEnforcement :=
          if u.setup.part = .loading then u.mail.toEnforcement.filter (fun m => decide (m ≠ .loadRequest))
          else u.mail.toEnforcement } } := by
  rw [← SetupUnit.busReset_eq]
  unfold busReset
  rw [endStall_eq]
  simp only [State.stallEnded, EnforcementUnit.busReset, abandonLoad, decide_eq_true_eq]
  rfl

theorem finishAnswer_none {s : State} (h : s.path.answering = none) : finishAnswer s = s := by
  simp only [finishAnswer, h]

theorem finishAnswer_some {s : State} {o : Answering} (h : s.path.answering = some o) :
    finishAnswer s = answerOvertaken o s := by
  simp only [finishAnswer, h]

theorem answerOvertaken_presented (o : Answering) (s : State) :
    (answerOvertaken o s).path.presented = s.path.presented := by
  have h := answerOvertaken_setPresented o s s.path.presented
  exact (congrArg (fun t => t.path.presented) h :)

/-- With nothing left presented, the answer that an access waits for is all that presenting it again brings (R119, log 33). -/
theorem present_answering_alone {s : State} {o : Answering} (h : s.path.answering = some o) (hreset : s.powerReset = false)
    (hbus : s.lines.busrst = false) :
    present o.access (s.setPath { s.path with presented := none }) =
      (answerOvertaken o s).setPath { (answerOvertaken o s).path with presented := none } := by
  rw [present_answering (s := s.setPath { s.path with presented := none }) h hreset hbus, answerOvertaken_setPresented]
  rfl

theorem exec_busrstAssert {s : State} (h : s.lines.busrst = false) :
    exec .busrstAssert s = .next (busReset ((finishHalt (finishAnswer s)).setLines { s.lines with busrst := true })) :=
  if_neg (Bool.eq_false_iff.1 h)

/-! ## The release of BUSRST_N (R131, R156, R158) -/

theorem exec_busrstRelease {s : State} (h : s.lines.busrst = true) :
    exec .busrstRelease s =
      .next (takePresented (reportAtRelease (claimIfAllowed (s.setLines { s.lines with busrst := false })))) := if_pos h

theorem reportAtRelease_free {u : State} (h : u.path.ownInProgress = false) : reportAtRelease u = reportIfRestored u :=
  if_neg (Bool.eq_false_iff.1 h)

theorem reportAtRelease_own {u : State} (h : u.path.ownInProgress = true) : reportAtRelease u = u := if_pos h

end Sys2Proof.Machine

namespace Sys2Proof
open Machine

/-- Settles O8: the answer and the HALT write are brought to their results, and what the reset then does is its equation; at the
release the unit claims, reports and lets the presented access arrive, in this order. -/
theorem busReset : Obligations.BusReset := by
  constructor
  · intro s
    refine ⟨fun h => if_pos h, fun hbus => ?_⟩
    obtain ⟨hnone, hhalt⟩ := finishHalt_finished (finishAnswer s)
    refine ⟨finishAnswer s, finishHalt (finishAnswer s), finishAnswer_none, fun o ho hreset => ?_, hnone, hhalt, ?_⟩
    · rw [finishAnswer_some ho]
      exact ⟨answerOvertaken_presented o s, congrArg _ (present_answering_alone ho hreset hbus)⟩
    · rw [exec_busrstAssert hbus, busReset_eq]
      rfl
  · intro s
    refine ⟨fun h => if_neg (Bool.eq_false_iff.1 h), fun hbus => ?_⟩
    have hpath : (claimIfAllowed (s.setLines { s.lines with busrst := false })).path = s.path := by simp
    refine ⟨_, _, _, exec_busrstRelease hbus, claimIfAllowed_claims _, fun hown => ?_, fun hown => ?_,
      takePresented_arrived _⟩
    · rw [reportAtRelease_free (hpath ▸ hown)]
      exact reportIfRestored_reports _
    · exact reportAtRelease_own (hpath ▸ hown)

end Sys2Proof
end

section
/-! PROOFS. Gain enforcement: what joins the rewrite queue, the claim cycle, the load, HALT at the unit, and the reports to the
setup and command unit (R137 to R158, R174). -/

namespace Sys2Proof.Machine

/-! ## What joins the rewrite queue (R138, R139) -/

/-- A notice that finds ENFORCE in the session queues its channel, and the unit claims if it may (R138, R143). -/
theorem queueUnderEnforce_queues {c : Chan} {s : State} (h : s.noticeInSession = true ∧ s.noticeUnderEnforce = true) :
    queueUnderEnforce c s = claimIfAllowed (s.setQueue (addToQueue c s.enf.queue)) := if_pos h

theorem queueUnderEnforce_passes {c : Chan} {s : State} (h : ¬(s.noticeInSession = true ∧ s.noticeUnderEnforce = true)) :
    queueUnderEnforce c s = s := if_neg h

theorem dropNotice_cons {s : State} {m : Notice} {rest : List Notice} (h : s.mail.notices = m :: rest) :
    s.dropNotice = { s with mail := { s.mail with notices := rest } } := by
  rw [State.dropNotice, h]
  rfl

/-- Both rows that take a notice take it alike (R138). -/
theorem exec_notice {s : State} {c : Chan} {rest : List Notice} {i : Instr} {m : Notice}
    (hrow : (i, m) = (Instr.causeChangeNotice, Notice.causeChange c) ∨
      (i, m) = (Instr.enrolmentChange, Notice.enrolment c))
    (h : s.mail.notices = m :: rest) :
    exec i s = .next (queueUnderEnforce c { s with mail := { s.mail with notices := rest } }) := by
  rw [← dropNotice_cons h]
  obtain hrow | hrow := hrow <;> cases hrow
  · show execCauseChangeNotice s = _
    simp only [execCauseChangeNotice, h]
  · show execEnrolmentChange s = _
    simp only [execEnrolmentChange, h]

theorem exec_setupChange {s : State} {old new : SetupWords} {rest : List ToEnforcement}
    (h : s.mail.toEnforcement = .setupChange old new :: rest) :
    exec .setupChange s = if s.switchWaits old new then .next s else .next (takeSetupChange old new s) := by
  show execSetupChange s = _
  simp only [execSetupChange, h]

/-- Settles O46: a notice by whether it finds ENFORCE in the session, a setup change by whether it waits. -/
theorem rewriteQueueJoins : Obligations.RewriteQueueJoins := by
  intro s
  constructor
  · intro c rest i m hrow hmail
    let u : State := { s with mail := { s.mail with notices := rest } }
    have hfinds : (u.noticeInSession = true ∧ u.noticeUnderEnforce = true) ↔
        (s.setup.part = .active ∨ ToEnforcement.halt ∈ s.mail.toEnforcement) ∧ s.FindsEnforce := queueUnderEnforce_iff u
    refine ⟨_, exec_notice hrow hmail, fun h => ?_, fun h => queueUnderEnforce_passes (mt hfinds.1 h)⟩
    rw [queueUnderEnforce_queues (s := u) (hfinds.2 h)]
    exact ⟨_, addToQueue_joins c s.enf.queue, claimIfAllowed_claims _⟩
  · intro old new rest hmail
    rw [exec_setupChange hmail]
    refine ⟨fun h => if_pos ((switchWaits_iff old new s).2 h), fun h => ⟨takeSetupChange old new s, ?_, ?_⟩⟩
    · exact if_neg (mt (switchWaits_iff old new s).1 h)
    · exact takeSetupChange_taken old new s

/-! ## CEDE_N asserted, and the claim timer (R144, R146) -/

section
variable {s : State}

/-- With no own access in progress, or a burst with nothing to write, the cede goes on at once (R144, R149). -/
theorem beginCeded_proceeds (h : s.path.ownInProgress = false ∨ (s.enf.purpose = some .burst ∧ s.enf.queue = [])) :
    beginCeded s = proceed s := by
  refine if_neg fun ⟨hown, hnot⟩ => ?_
  obtain hfree | hempty := h
  · exact Bool.false_ne_true (hfree.symm.trans hown)
  · exact hnot hempty

theorem beginCeded_awaits (hown : s.path.ownInProgress = true) (h : s.enf.purpose = some .load ∨ s.enf.queue ≠ []) :
    beginCeded s = s := by
  refine if_pos ⟨hown, fun ⟨hburst, hempty⟩ => ?_⟩
  obtain hload | hqueue := h
  · cases hload.symm.trans hburst
  · exact hqueue hempty

theorem enterCeded_eq (s : State) :
    enterCeded s =
      State.stallEnded { s with
        enf := { s.enf with claim := .ceded, claimTimer := .stopped, burstCount := 0, broken := false } } := endStall_eq _

theorem exec_cedeAssert (h : s.lines.cede = false) :
    exec .cedeAssert s = match s.enf.claim with
      | .claiming => .next (beginCeded (enterCeded (s.setLines { s.lines with cede := true })))
      | .idle | .ceded | .releasingBus => .next (s.setLines { s.lines with cede := true }) :=
  if_neg (Bool.eq_false_iff.1 h)

theorem exec_cedeAssert_claiming (h : s.lines.cede = false) (hc : s.enf.claim = .claiming) :
    exec .cedeAssert s = .next (beginCeded (enterCeded (s.setLines { s.lines with cede := true }))) := by
  rw [exec_cedeAssert h, hc]

theorem exec_cedeAssert_idle (h : s.lines.cede = false) (hc : s.enf.claim ≠ .claiming) :
    exec .cedeAssert s = .next { s with lines := { s.lines with cede := true } } := by
  rw [exec_cedeAssert h]
  cases hclaim : s.enf.claim with
  | claiming => exact absurd hclaim hc
  | idle | ceded | releasingBus => rfl

theorem exec_claimTimerExpiry (hdue : s.enf.claimTimer = .due) (hc : s.enf.claim = .claiming) :
    exec .claimTimerExpiry s = .next { s with
      enf := { s.enf with claimTimer := .stopped, stalled := true }
      mail := { s.mail with
        stalls := s.mail.stalls ++ (if s.setup.part = .active then [true] else [])
        toSetup := s.mail.toSetup ++ (if s.setup.part = .active then [] else [.stall]) } } := by
  refine (if_pos ⟨hdue, hc⟩).trans ?_
  split <;> simp [State.sendStall, State.sendToSetup, State.setMail, State.setEnf]

end

/-- Settles O48: the line by the claim state; in CLAIMING, CEDED entered and what follows at once or after an own access. -/
theorem cedeAssertionAndStall : Obligations.CedeAssertionAndStall := by
  intro s
  refine ⟨fun h => if_pos h, exec_cedeAssert_idle, fun hcede hclaim => ?_, exec_claimTimerExpiry⟩
  intro u
  have hceded : exec .cedeAssert s = .next (beginCeded u) := by
    rw [exec_cedeAssert_claiming hcede hclaim, enterCeded_eq]
    rfl
  rw [hceded]
  refine ⟨fun h => ⟨proceed u, ?_, proceed_proceeds u⟩, fun hown h => ?_⟩
  · rw [beginCeded_proceeds (s := u) h]
  · rw [beginCeded_awaits (s := u) hown h]

/-! ## The ends of the unit's own accesses (R145, R148, R151, R152, R158) -/

section
variable {s : State}

/-- What follows an own access of a claim that stands (R148, R152). -/
theorem afterOwnAccess_own (h : s.enf.orphan = false) :
    afterOwnAccess s = if s.enf.claim = .ceded then proceed s else s := if_neg (Bool.eq_false_iff.1 h)

/-- What follows an own access whose claim a bus reset dropped (R158). -/
theorem afterOwnAccess_orphan (h : s.enf.orphan = true) :
    afterOwnAccess s = proceedAfterOrphan (s.setEnf { s.enf with orphan := false }) := if_pos h

theorem proceedAfterOrphan_ceded (h : s.enf.claim = .ceded) : proceedAfterOrphan s = proceed s := by
  simp only [proceedAfterOrphan, h]

theorem proceedAfterOrphan_idle (h : s.enf.claim = .idle) (hbus : s.lines.busrst = false) :
    proceedAfterOrphan s = reportIfRestored s := by
  simp only [proceedAfterOrphan, h, hbus, Bool.false_eq_true, if_false]

theorem proceedAfterOrphan_stays (hceded : s.enf.claim ≠ .ceded) (h : s.enf.claim ≠ .idle ∨ s.lines.busrst = true) :
    proceedAfterOrphan s = s := by
  cases hclaim : s.enf.claim with
  | ceded => exact absurd hclaim hceded
  | idle =>
    have hbus : s.lines.busrst = true := h.resolve_left (not_not_intro hclaim)
    simp only [proceedAfterOrphan, hclaim, hbus, if_true]
  | claiming | releasingBus => simp only [proceedAfterOrphan, hclaim]

/-- The end of an own access, with the orphan mark cleared where it stood, by the claim that stands now. -/
theorem afterOwnAccess_after :
    (s.enf.claim = .ceded → Proceeds { s with enf := { s.enf with orphan := false } } (afterOwnAccess s)) ∧
    (s.enf.claim = .idle → s.enf.orphan = true → s.lines.busrst = false →
      ReportsRestore { s with enf := { s.enf with orphan := false } } (afterOwnAccess s)) ∧
    (s.enf.claim ≠ .ceded → s.enf.orphan = false ∨ s.enf.claim ≠ .idle ∨ s.lines.busrst = true →
      afterOwnAccess s = { s with enf := { s.enf with orphan := false } }) := by
  cases horphan : s.enf.orphan with
  | false =>
    have hsame : { s with enf := { s.enf with orphan := false } } = s := by rw [← horphan]
    rw [hsame, afterOwnAccess_own horphan]
    refine ⟨fun hclaim => ?_, fun _ h => absurd h Bool.false_ne_true, fun hclaim _ => if_neg hclaim⟩
    rw [if_pos hclaim]
    exact proceed_proceeds s
  | true =>
    rw [afterOwnAccess_orphan horphan]
    let u := s.setEnf { s.enf with orphan := false }
    refine ⟨fun hclaim => ?_, fun hclaim _ hbus => ?_, fun hclaim h => ?_⟩
    · rw [proceedAfterOrphan_ceded (s := u) hclaim]
      exact proceed_proceeds u
    · rw [proceedAfterOrphan_idle (s := u) hclaim hbus]
      exact reportIfRestored_reports u
    · exact proceedAfterOrphan_stays (s := u) hclaim (h.resolve_left Bool.true_eq_false.mp)

theorem countWrite_eq (s : State) :
    countWrite s = { s with enf := { s.enf with
      burstCount := if s.enf.orphan = true ∧ s.enf.claim = .ceded then s.enf.burstCount else s.enf.burstCount + 1 } } := by
  unfold countWrite
  split <;> rfl

/-- An own access that ends stores no word but a burst write's; what follows leaves memory as it is. -/
theorem exec_burstWriteEnd {c : Chan} {addr : Addr} {word : Word} (h : s.path.port = some (.burstWrite c addr word)) :
    exec .burstWriteEnd s = .next (afterOwnAccess (countWrite
      ((s.setMemory (s.memory.write addr.toNat word)).setPath s.path.portEnded))) := by
  show execBurstWriteEnd s = _
  simp only [execBurstWriteEnd, h]

end

/-- Settles O49: the word is stored and counted, and what follows is what follows any own access. -/
theorem burstWriteEnd : Obligations.BurstWriteEnd := by
  intro c addr word s hport hwf
  let v := countWrite ((s.setMemory (s.memory.write addr.toNat word)).setPath s.path.portEnded)
  have hv : v = { s with
      memory := s.memory.write addr.toNat word
      path := { s.path with port := s.path.waiting, waiting := none, lines := s.path.outputsAfter }
      enf := { s.enf with
        burstCount := if s.enf.orphan = true ∧ s.enf.claim = .ceded then s.enf.burstCount else s.enf.burstCount + 1 } } := by
    rw [← portEnded_eq]
    exact countWrite_eq _
  refine ⟨afterOwnAccess v, { v with enf := { v.enf with orphan := false } }, exec_burstWriteEnd hport, ?_⟩
  have hmemory : v.memory = s.memory.write addr.toNat word := by rw [hv]
  have hclaim : v.enf.claim = s.enf.claim := by rw [hv]
  have horphan : v.enf.orphan = s.enf.orphan := by rw [hv]
  have hbus : v.lines.busrst = s.lines.busrst := by rw [hv]
  have hafter := afterOwnAccess_after (s := v)
  rw [hclaim, horphan, hbus] at hafter
  refine ⟨by simp, ?_, fun x hx => ?_, ?_, hafter⟩
  · rw [hmemory]
    exact Memory.read_write_same _ _ _ hwf
  · rw [hmemory]
    exact Memory.read_write_other _ _ _ _ hx hwf
  · rw [hv]

/-! ## The load (R152, R153, R154) -/

section
variable {s : State}

theorem resetPending_iff (s : State) : s.resetPending = true ↔ ∃ c, ToEvaluator.tableReset c ∈ s.mail.toEvaluator := by
  rw [State.resetPending, List.any_eq_true]
  constructor
  · rintro ⟨m, hm, hreset⟩
    cases m with
    | tableReset c => exact ⟨c, hm⟩
    | chair | membership => exact absurd hreset Bool.false_ne_true
  · rintro ⟨c, hc⟩
    exact ⟨_, hc, rfl⟩

theorem dropToEnforcement_cons {m : ToEnforcement} {rest : List ToEnforcement} (h : s.mail.toEnforcement = m :: rest) :
    s.dropToEnforcement = { s with mail := { s.mail with toEnforcement := rest } } := by
  rw [State.dropToEnforcement, h]
  rfl

theorem exec_loadRequest {rest : List ToEnforcement} (h : s.mail.toEnforcement = .loadRequest :: rest) :
    exec .loadRequest s = if s.resetPending then .next s
      else .next (claimIfAllowed (s.dropToEnforcement.setEnf { s.enf with loadPosition := some 0 })) := by
  show execLoadRequest s = _
  simp only [execLoadRequest, h]

theorem exec_loadReadEnd {c : Chan} {addr : Addr} (h : s.path.port = some (.loadRead c addr)) (filterFirst : Bool) :
    exec (.loadReadEnd filterFirst) s =
      if s.enf.orphan ∨ s.enf.claim ≠ .ceded
      then .next (afterOwnAccess (setIntended c (s.memory.read addr.toNat) (s.setPath s.path.portEnded)))
      else .next (advanceLoad filterFirst c (setIntended c (s.memory.read addr.toNat) (s.setPath s.path.portEnded))) := by
  show execLoadReadEnd s filterFirst = _
  simp only [execLoadReadEnd, h]

/-- The gain word address is formed of the gain base, where one is decoded (R123). -/
theorem gainAddress_eq (s : State) (c : Chan) :
    ∃ b, (∀ bases, s.path.bases = some bases → b = bases.gain) ∧ s.gainAddress c = pastBase b c.val := by
  refine ⟨(s.path.bases.map (·.gain)).getD 0, fun bases h => ?_, rfl⟩
  rw [h]
  rfl

theorem offerLoadRead_offered (c : Chan) (s : State) :
    ∃ b, (∀ bases, s.path.bases = some bases → b = bases.gain) ∧
      Offered (.loadRead c (pastBase b c.val)) s (offerLoadRead c s) := by
  obtain ⟨b, hb, haddr⟩ := gainAddress_eq s c
  refine ⟨b, hb, ?_⟩
  rw [offerLoadRead, haddr]
  exact offer_offered _ s

theorem nextChannel_of_succ {c d : Chan} (h : d.val = c.val + 1) : nextChannel c = some d := by
  have hlt : c.val + 1 < 64 := h ▸ d.isLt
  rw [nextChannel, dif_pos hlt]
  exact congrArg some (Fin.ext h.symm)

theorem nextChannel_of_last {c : Chan} (h : c.val = 63) : nextChannel c = none := dif_neg (by omega)

theorem advanceLoad_broken {filterFirst : Bool} {c : Chan} (h : s.enf.broken = true) :
    advanceLoad filterFirst c s = endBrokenCede s := if_pos h

theorem advanceLoad_next {filterFirst : Bool} {c d : Chan} (h : s.enf.broken = false) (hd : d.val = c.val + 1) :
    advanceLoad filterFirst c s = offerLoadRead d (s.setEnf { s.enf with loadPosition := some d }) := by
  simp only [advanceLoad, h, Bool.false_eq_true, if_false, nextChannel_of_succ hd]

theorem advanceLoad_last {filterFirst : Bool} {c : Chan} (h : s.enf.broken = false) (hc : c.val = 63) :
    advanceLoad filterFirst c s = endLoad filterFirst s := by
  simp only [advanceLoad, h, Bool.false_eq_true, if_false, nextChannel_of_last hc]

/-- The two orders of the end of the load (R153). -/
theorem endLoad_ended (filterFirst : Bool) (s : State) :
    (filterFirst = false ∨ ¬(leaveLoading s).HoldsGainWrite →
      ∃ x, EnforcedQueued (leaveLoading s) x ∧ BusReturned x (endLoad filterFirst s)) ∧
    (filterFirst = true → (leaveLoading s).HoldsGainWrite →
      ∃ x y, Released (leaveLoading s) x ∧ EnforcedQueued x y ∧ Arrived y (endLoad filterFirst s)) := by
  constructor
  · intro h
    have hnot : (filterFirst && (leaveLoading s).holdsGainWrite) = false := by
      obtain hlater | hnone := h
      · rw [hlater, Bool.false_and]
      · rw [Bool.eq_false_iff.2 (mt (holdsGainWrite_iff _).1 hnone), Bool.and_false]
    have hend : endLoad filterFirst s = takePresented (releaseHeld (queueEnforced (leaveLoading s))) :=
      if_neg (Bool.eq_false_iff.1 hnot)
    rw [hend]
    exact ⟨_, queueEnforced_queued _, takePresented_releaseHeld_returned _⟩
  · intro hfirst hholds
    have hend : endLoad filterFirst s = takePresented (queueEnforced (releaseHeld (leaveLoading s))) :=
      if_pos (Bool.and_eq_true_iff.2 ⟨hfirst, (holdsGainWrite_iff _).2 hholds⟩)
    rw [hend]
    exact ⟨_, _, releaseHeld_released _, queueEnforced_queued _, takePresented_arrived _⟩

end

/-- Settles O50: the request by whether the reset of the table is through; the read's end by the claim that stands, whether it is
its own, and the place in the load. -/
theorem loadRequestAndReads : Obligations.LoadRequestAndReads := by
  constructor
  · intro rest s hmail
    rw [exec_loadRequest hmail, dropToEnforcement_cons hmail]
    refine ⟨fun h => if_pos ((resetPending_iff s).2 h), fun h => ⟨_, if_neg fun hpending => ?_, claimIfAllowed_claims _⟩⟩
    obtain ⟨c, hc⟩ := (resetPending_iff s).1 hpending
    exact h c hc
  · intro c addr s hport filterFirst
    let u := setIntended c (s.memory.read addr.toNat) (s.setPath s.path.portEnded)
    have hu : u = { s with
        path := { s.path with port := s.path.waiting, waiting := none, lines := s.path.outputsAfter }
        enf := { s.enf with intended := s.enf.intended.set c (s.memory.read addr.toNat) } } := by
      rw [← portEnded_eq]
      rfl
    have hbases : u.path.bases = s.path.bases := by rw [hu]
    by_cases hown : s.enf.orphan = false ∧ s.enf.claim = .ceded
    · obtain ⟨horphan, hclaim⟩ := hown
      refine ⟨advanceLoad filterFirst c u, u, ?_, hu, fun _ _ hbroken => ?_, fun _ _ hbroken => ⟨fun d hd => ?_, fun hc => ?_⟩,
        fun _ h => absurd (horphan.symm.trans h) Bool.false_ne_true, fun h => absurd hclaim h,
        fun h => absurd (hclaim.symm.trans h) (by decide), fun h => absurd hclaim h⟩
      · rw [exec_loadReadEnd hport, if_neg]
        rintro (h | h)
        · exact Bool.false_ne_true (horphan.symm.trans h)
        · exact h hclaim
      · rw [advanceLoad_broken (s := u) hbroken]
        exact endBrokenCede_ended u
      · rw [advanceLoad_next (s := u) hbroken hd]
        obtain ⟨b, hb, hoffered⟩ := offerLoadRead_offered d (u.setEnf { u.enf with loadPosition := some d })
        exact ⟨b, fun bases h => hb bases (hbases.trans h), hoffered⟩
      · rw [advanceLoad_last (s := u) hbroken hc]
        exact ⟨_, _, takeClearings_taken u, leaveLoading_eq u, endLoad_ended filterFirst u⟩
    · have hexec : exec (.loadReadEnd filterFirst) s = .next (afterOwnAccess u) := by
        rw [exec_loadReadEnd hport, if_pos]
        cases horphan : s.enf.orphan with
        | true => exact .inl rfl
        | false => exact .inr fun hclaim => hown ⟨horphan, hclaim⟩
      obtain ⟨hceded, hidle, hstays⟩ := afterOwnAccess_after (s := u)
      refine ⟨afterOwnAccess u, u, hexec, hu, fun hclaim horphan => absurd ⟨horphan, hclaim⟩ hown,
        fun hclaim horphan => absurd ⟨horphan, hclaim⟩ hown, fun hclaim _ => hceded hclaim, fun hclaim horphan => ?_,
        hidle, fun hclaim _ h => hstays hclaim (.inr h)⟩
      rw [afterOwnAccess_own (s := u) horphan]
      exact if_neg hclaim

/-! ## The fall of CEDE_N (R145) -/

theorem exec_cedeFall {s : State} (h : s.lines.cede = true) :
    exec .cedeFall s = match s.enf.claim with
      | .releasingBus => .next (reportIfRestored (claimIfAllowed
          ((s.setLines { s.lines with cede := false }).setEnf { s.enf with claim := .idle, purpose := none })))
      | .ceded =>
        if s.path.ownInProgress then .next ((s.setLines { s.lines with cede := false }).setEnf { s.enf with broken := true })
        else .next (endBrokenCede (s.setLines { s.lines with cede := false }))
      | .idle => .next (claimIfAllowed (s.setLines { s.lines with cede := false }))
      | .claiming => .next (s.setLines { s.lines with cede := false }) := if_pos h

/-- Settles O51: one case for each claim state, and in CEDED one for an own access in progress. -/
theorem cedeFall : Obligations.CedeFall := by
  intro s
  refine ⟨fun h => if_neg (Bool.eq_false_iff.1 h), fun hcede => ?_⟩
  intro u
  rw [exec_cedeFall hcede]
  refine ⟨fun hclaim => ?_, fun hclaim => ?_, fun hclaim => ?_, fun hclaim hown => ?_, fun hclaim hown => ?_⟩
  all_goals rw [hclaim]
  · rfl
  · exact ⟨_, rfl, claimIfAllowed_claims u⟩
  · exact ⟨_, _, rfl, claimIfAllowed_claims _, reportIfRestored_reports _⟩
  · exact if_pos hown
  · exact ⟨_, if_neg (Bool.eq_false_iff.1 hown), endBrokenCede_ended u⟩

/-! ## HALT at the unit, and the reports (R155, R174) -/

theorem exec_enforcementHalt {s : State} {rest : List ToEnforcement} (h : s.mail.toEnforcement = .halt :: rest) :
    exec .enforcementHalt s =
      if s.haltWaits then .next s else .next (takePresented (completeEnded (takeHalt s))) := by
  show execEnforcementHalt s = _
  simp only [execEnforcementHalt, h]

/-- Settles O52: HALT by whether it waits; then its taking, the write's completion and the arrival follow each other. -/
theorem enforcementHalt : Obligations.EnforcementHalt := by
  intro rest s hmail
  rw [exec_enforcementHalt hmail]
  refine ⟨fun h => if_pos ((haltWaits_iff s).2 h), fun h => ?_⟩
  exact ⟨_, _, _, if_neg (mt (haltWaits_iff s).1 h), takeHalt_taken s, completeEnded_completed _, takePresented_arrived _⟩

theorem dropToSetup_cons {s : State} {m : ToSetup} {rest : List ToSetup} (h : s.mail.toSetup = m :: rest) :
    s.dropToSetup = { s with mail := { s.mail with toSetup := rest } } := by
  rw [State.dropToSetup, h]
  rfl

/-- Settles O53: one equation for each report. -/
theorem reportsToTheSetupUnit : Obligations.ReportsToTheSetupUnit := by
  intro rest s
  refine ⟨fun hmail => ?_, fun hmail => ?_, fun hmail hpart => ?_⟩
  · show execStallReport s = _
    simp only [execStallReport, hmail, dropToSetup_cons hmail]
    rfl
  · show execStallEndReport s = _
    simp only [execStallEndReport, hmail, dropToSetup_cons hmail]
    rfl
  · show execRestoreDoneReport s = _
    simp only [execRestoreDoneReport, hmail, dropToSetup_cons hmail]
    exact congrArg _ (if_pos hpart)

end Sys2Proof.Machine
end

section
/-! PROOFS. The lamps, the alert line, the floor line and the seconds (R177 to R180, R184). -/

namespace Sys2Proof.Machine

/-! ## A lamp's period (R177, R178) -/

section
variable {l : LampState} {p : Pattern}

theorem LampState.RunsOn.running (h : l.RunsOn p) : l.running = some p := by
  obtain ⟨q, hq, ⟨hmode, rfl⟩ | ⟨hmode, rfl⟩⟩ := h
  all_goals simp only [LampState.running, hmode, hq]

theorem LampState.RunsOn.boundaryDue (h : l.RunsOn p) (hphase : 50 * p.period ≤ l.phase) : l.boundaryDue = true := by
  simp only [LampState.boundaryDue, h.running]
  exact decide_eq_true hphase

theorem LampState.RunsOn.onTimeDue (h : l.RunsOn p) (hphase : 50 * p.onTime ≤ l.phase) (hlit : l.lit = true) :
    l.onTimeDue = true := by
  simp only [LampState.onTimeDue, h.running]
  exact Bool.and_eq_true_iff.2 ⟨decide_eq_true hphase, hlit⟩

end

theorem LampState.patternsAtBoundary_eq (l : LampState) :
    l.patternsAtBoundary = if l.pending = none then l.inUse else l.pending := by
  unfold LampState.patternsAtBoundary
  cases l.pending <;> rfl

theorem LampState.boundary_eq (l : LampState) :
    l.boundary =
      { l with inUse := if l.pending = none then l.inUse else l.pending, pending := none, phase := 0, lit := true } := by
  rw [← l.patternsAtBoundary_eq]
  rfl

theorem LampState.applyPatterns_eq (p : Patterns) (l : LampState) :
    l.applyPatterns p = if l.mode = .slow ∨ l.mode = .fast then { l with pending := some p } else l.usingNow p := by
  rw [← startPatterns_usingNow]
  unfold LampState.applyPatterns
  split <;> simp [*]

theorem exec_patternsPending {s : State} {w : SetupWords} {rest : List SetupWords} (h : s.mail.toLamps = w :: rest) :
    exec .patternsPending s =
      .next ((s.setMail { s.mail with toLamps := rest }).setLamps (s.lamps.applySettings w)) := by
  show execPatternsPending s = _
  simp only [execPatternsPending, h]

/-! ## The alert line (R179) -/

theorem Enables.allows_iff (e : Enables) (f : Family) :
    e.allows f = true ↔ (f = .battery ∧ e.battery = true) ∨ (f = .signal ∧ e.signal = true) ∨
      (f = .mute ∧ e.mute = true) ∨ (f = .part ∧ e.part = true) := by
  cases f <;> simp [Enables.allows]

theorem alertLine_iff (s : State) : s.alertLine = true ↔ s.setup.part = .active ∧
    ∃ e ∈ s.alert.list, e.state = .new ∧
      ((e.family = .battery ∧ s.lamps.enables.battery = true) ∨ (e.family = .signal ∧ s.lamps.enables.signal = true) ∨
        (e.family = .mute ∧ s.lamps.enables.mute = true) ∨ (e.family = .part ∧ s.lamps.enables.part = true)) := by
  simp only [State.alertLine, Bool.and_eq_true, decide_eq_true_eq, List.any_eq_true, Enables.allows_iff]

/-- Settles O54: the two moments of a period, the patterns of an APPLY lamp by lamp, and the line's own condition. -/
theorem lampPatternsAndAlertLine : Obligations.LampPatternsAndAlertLine := by
  refine ⟨fun l p s hruns hphase => ?_, fun l p s hruns hphase hlit => ?_, fun w rest s hmail => ?_, alertLine_iff⟩
  · rw [← LampState.boundary_eq]
    exact if_pos (hruns.boundaryDue hphase)
  · exact if_pos (hruns.onTimeDue hphase hlit)
  · refine ⟨_, exec_patternsPending hmail, rfl, rfl, rfl, rfl, fun l p hp => ?_⟩
    have hpatterns : p = w.patterns := hp
    rw [hpatterns, ← LampState.applyPatterns_eq]
    exact applySettings_get w s.lamps l

/-! ## The floor line and the seconds (R180, R184) -/

/-- Settles O55: the level's change by power reset, and the expiry's and the step's own equations. -/
theorem floorLineAndSeconds : Obligations.FloorLineAndSeconds := by
  intro s
  refine ⟨fun b hb => if_pos hb, fun b hb hreset => ?_, fun b hb hreset => ?_, fun hdue => if_pos hdue,
    fun hphase => if_pos hphase⟩
  · exact (if_neg hb).trans (if_pos hreset)
  · exact (if_neg hb).trans (if_neg (Bool.eq_false_iff.1 hreset))

end Sys2Proof.Machine
end

section
/-! PROOFS. The memory path: the end of a processor access (R120, R121, R171). -/

namespace Sys2Proof.Machine

/-! ## The end of a processor access (R120, R121) -/

theorem exec_memoryAccessEnd {s : State} {a : Access} (h : s.path.port = some (.processor a)) :
    exec .memoryAccessEnd s = .next (takePresented (completeEnded
      ((s.setMemory (storeAt a s.memory)).setPath (s.path.portEnded.endProcessor (fetchAt a s.memory))))) := by
  show execMemoryAccessEnd s = _
  simp only [execMemoryAccessEnd, h]

theorem portEnded_endProcessor {u : PathUnit} {p : InProgress} (h : u.processor = some p) (data : Option Word) :
    u.portEnded.endProcessor data =
      { u with
        port := u.waiting, waiting := none, lines := u.outputsAfter
        processor := some { p with ended := true, data := data } } := by
  rw [portEnded_eq]
  simp only [PathUnit.endProcessor, h]

theorem completeEnded_awaits {s : State} {p : InProgress} (h : s.path.processor = some p) (hp : p.awaitsHalt = true)
    (hhalt : s.haltPending = true) : completeEnded s = s := by
  unfold completeEnded
  simp only [h, hp, hhalt, and_self, not_true, and_false, if_false]

theorem completeEnded_returns {s : State} {p : InProgress} (h : s.path.processor = some p) (hended : p.ended = true)
    (hhalt : p.awaitsHalt = false ∨ s.haltPending = false) :
    completeEnded s = s.setPath { s.path with
      processor := none, completion := some { access := p.access, data := p.data } } := by
  have hready : p.ended ∧ ¬(p.awaitsHalt ∧ s.haltPending) := by
    refine ⟨hended, fun ⟨hawaits, hpending⟩ => ?_⟩
    obtain h | h := hhalt
    · exact Bool.false_ne_true (h.symm.trans hawaits)
    · exact Bool.false_ne_true (h.symm.trans hpending)
  unfold completeEnded
  simp only [h, if_pos hready]

/-- Settles O11: the access is done at memory by its direction, and READY is returned or waits for HALT. -/
theorem memoryAccessEnd : Obligations.MemoryAccessEnd := by
  intro s a p hwf hport hprocessor
  let v := (s.setMemory (storeAt a s.memory)).setPath (s.path.portEnded.endProcessor (fetchAt a s.memory))
  have hpath : v.path = _ := portEnded_endProcessor hprocessor (fetchAt a s.memory)
  have hv : v.path.processor = some { p with ended := true, data := fetchAt a s.memory } := by rw [hpath]
  refine ⟨completeEnded v, _, fetchAt a s.memory, exec_memoryAccessEnd hport, takePresented_arrived _, ?_, ?_, ?_, ?_⟩
  · rintro x rfl
    exact ⟨by simp [v, storeAt], rfl⟩
  · rintro x w rfl
    have hmemory : (completeEnded v).memory = s.memory.write x.toNat w := by simp [v, storeAt]
    rw [SameMemoryBut, hmemory]
    exact ⟨rfl, Memory.read_write_same _ _ _ hwf, fun y hy => Memory.read_write_other _ _ _ _ hy hwf⟩
  · intro hready
    rw [completeEnded_returns hv rfl hready]
    simp only [hpath]
    rfl
  · intro hawaits hpending
    rw [completeEnded_awaits hv hawaits hpending]
    simp only [← hpath]
    rfl

end Sys2Proof.Machine
end

section
/-! PROOFS. The courses of an access: the classification, the setup copy, the intake's commits and the write filter (R6, R7, R120
to R127, R134 to R136, R164). -/

namespace Sys2Proof.Machine

/-! ## Classification (R124) -/

section
variable {s : State}

theorem setupCourse_word (n : Fin 36) (addr : Addr) (data : Word) :
    setupCourse n.val (.write addr data) = .snoopSetup n data := dif_pos n.isLt

theorem setupCourse_read (n : Fin 36) (addr : Addr) : setupCourse n.val (.read addr) = .forward :=
  if_neg (Nat.ne_of_lt n.isLt)

theorem classify_setupWord (h : s.setup.part ≠ .settling) (n : Fin 36) (data : Word) :
    s.classify (.write (pastBase (setupBase s.path.straps) n.val) data) = .snoopSetup n data := by
  rw [classify_setup s _ n.val (by omega) rfl h]
  exact setupCourse_word n _ data

theorem classify_command (h : s.setup.part ≠ .settling) (data : Word) :
    s.classify (.write (pastBase (setupBase s.path.straps) 36) data) = .command data :=
  classify_setup s _ 36 (by decide) rfl h

theorem classify_setupRead (h : s.setup.part ≠ .settling) (n : Fin 36) :
    s.classify (.read (pastBase (setupBase s.path.straps) n.val)) = .forward := by
  rw [classify_setup s _ n.val (by omega) rfl h]
  exact setupCourse_read n _

theorem classify_status (h : s.setup.part ≠ .settling) :
    s.classify (.read (pastBase (setupBase s.path.straps) 36)) = .answerStatus :=
  classify_setup s _ 36 (by decide) rfl h

/-- Before ACTIVE no window but the setup window is decoded (R124). -/
theorem sessionCourse_forward {part : PartState} (h : part = .passive ∨ part = .loading) (bases : Option Bases)
    (a : Access) : sessionCourse part bases a = .forward := by
  cases bases with
  | none => rfl
  | some b => obtain rfl | rfl := h <;> rfl

theorem gainCourse_write (c : Chan) (addr : Addr) (data : Word) : gainCourse c.val (.write addr data) = .filter c data :=
  dif_pos c.isLt

variable {b : Bases}

theorem classify_gainWrite (hb : s.path.bases = some b) (hw : b.Apart s.path.straps)
    (hp : s.setup.part = .active ∨ s.setup.part = .releasing) (c : Chan) (data : Word) :
    s.classify (.write (pastBase b.gain c.val) data) = .filter c data := by
  rw [classify_gain s b _ c.val c.isLt hb hw hp rfl]
  exact gainCourse_write c _ data

/-- In RELEASING the gain window is the only one of the session that is decoded (R124). -/
theorem sessionCourse_releasing {a : Access} (h : ∀ n < 64, a.addr ≠ pastBase b.gain n) :
    sessionCourse .releasing (some b) a = .forward := by
  simp only [sessionCourse, inWindow_none b.gain 64 a.addr h]

theorem sessionCourse_active {a : Access} (hgain : ∀ n < 64, a.addr ≠ pastBase b.gain n)
    (htelemetry : ∀ n < 256, a.addr ≠ pastBase b.telemetry n) (halert : ∀ n < 512, a.addr ≠ pastBase b.alert n) :
    sessionCourse .active (some b) a = .forward := by
  simp only [sessionCourse, activeCourse, inWindow_none b.gain 64 a.addr hgain,
    inWindow_none b.telemetry 256 a.addr htelemetry, inWindow_none b.alert 512 a.addr halert]

theorem classify_commit (hs : s.InSession b) (c : Chan) (data : Word) :
    s.classify (.write (pastBase b.telemetry (4 * c.val + 3)) data) = .snoopCommit c data := by
  rw [classify_telemetry s b _ (4 * c.val + 3) (by omega) hs rfl]
  exact telemetryCourse_commit c data

end

/-- Settles O10: the setup window first, then by part state the windows of the session. -/
theorem classificationOfAccesses : Obligations.ClassificationOfAccesses := by
  intro a s
  refine ⟨classify_settling s a, fun hpart => ⟨?_, ?_, ?_, ?_⟩, fun hpart hout => ?_, fun b hb hw hpart => ⟨?_, ?_, ?_⟩,
    fun b hs => ⟨?_, ?_, ?_, ?_, ?_, ?_⟩⟩
  · rintro n data rfl
    exact classify_setupWord hpart n data
  · rintro data rfl
    exact classify_command hpart data
  · rintro n rfl
    exact classify_setupRead hpart n
  · rintro rfl
    exact classify_status hpart
  · have hsettled : s.setup.part ≠ .settling := by obtain h | h := hpart <;> rw [h] <;> decide
    rw [classify_outside s a (inWindow_none _ 37 _ hout) hsettled]
    exact sessionCourse_forward hpart _ a
  · rintro c data rfl
    exact classify_gainWrite hb hw hpart c data
  · rintro c rfl
    exact classify_gain s b _ c.val c.isLt hb hw hpart rfl
  · intro hreleasing hout hgain
    rw [classify_outside s a (inWindow_none _ 37 _ hout) (by rw [hreleasing]; decide), hreleasing, hb]
    exact sessionCourse_releasing hgain
  · rintro c word data rfl
    exact classify_frameWord hs c word data
  · rintro c data rfl
    exact classify_commit hs c data
  · rintro n hn rfl
    exact classify_telemetry s b _ n hn hs rfl
  · rintro n hn rfl
    exact classify_alert s b _ n hn hs rfl
  · rintro n hn data rfl
    exact classify_alert s b _ n hn hs rfl
  · obtain ⟨hactive, hb, -⟩ := hs
    intro hout hgain htelemetry halert
    rw [classify_outside s a (inWindow_none _ 37 _ hout) (by rw [hactive]; decide), hactive, hb]
    exact sessionCourse_active hgain htelemetry halert

/-! ## The setup copy (R164) -/

section
variable {a : Access} {s : State}

theorem takeCourse_snoopSetup {n : Fin 36} {data : Word} (h : s.classify a = .snoopSetup n data) :
    takeCourse a s = serve a a false (takeSetupWord n data s) := by
  simp only [takeCourse, h]

end

/-- Settles O12: in SETTLING the write is forwarded, else its copy is taken first. -/
theorem setupCopyWrite : Obligations.SetupCopyWrite := by
  intro n data s ht
  let a : Access := .write (pastBase (setupBase s.path.straps) n.val) data
  have hexec : exec (.setupCopyWrite n data) s = .next (present a s) := rfl
  rw [hexec]
  refine ⟨_, rfl, ?_⟩
  split
  next hpart =>
    rw [present_forwarded ht (classify_settling s a hpart)]
    exact serve_writeServed _ _ _
  next hpart =>
    rw [present_taking a s ht, takeCourse_snoopSetup (classify_setupWord hpart n data)]
    exact serve_writeServed _ _ _

/-! ## Commits (R4, R6, R7) -/

section
variable {a : Access} {s : State} {c : Chan} {data : Word}

theorem takeCourse_snoopCommit (h : s.classify a = .snoopCommit c data) :
    takeCourse a s = serve a a false (takeCommit c data s) := by
  simp only [takeCourse, h]

theorem takeCommit_notEnrolled (h : s.workingEnrols c = false) (data : Word) : takeCommit c data s = s :=
  if_neg (Bool.eq_false_iff.1 h)

theorem takeCommit_valid (h : s.workingEnrols c = true) {f : Frame}
    (hf : s.staging[c].frameAt (commitTagOf data) = some f) :
    takeCommit c data s = (s.setStaging (s.staging.set c .empty)).sendFrame c f := by
  simp only [takeCommit, if_pos h, hf]

theorem takeCommit_torn (h : s.workingEnrols c = true) (hf : s.staging[c].frameAt (commitTagOf data) = none) :
    takeCommit c data s = s.setStaging (s.staging.set c .empty) := by
  simp only [takeCommit, if_pos h, hf]

end

theorem Staging.frameAt_valid {g : Staging} {l : LinkWord} {tag : BitVec 4} (hl : g.link = some l) (ht : l.tag = tag) :
    g.frameAt tag = some { rf := l.rf, lock := l.lock, battery := g.battery, switch := g.switch } := by
  simp only [Staging.frameAt, hl, if_pos ht]

theorem Staging.frameAt_torn {g : Staging} {tag : BitVec 4} (h : ∀ l, g.link = some l → l.tag ≠ tag) :
    g.frameAt tag = none := by
  unfold Staging.frameAt
  split
  next => rfl
  next l hl => exact if_neg (h l hl)

/-- Settles O20: the write takes the intake's course, and what the intake does splits by enrolment and by the frame's validity. -/
theorem commitClassified : Obligations.CommitClassified := by
  intro b c data s hs ht
  let a : Access := .write (pastBase b.telemetry (4 * c.val + 3)) data
  have ⟨_, hb, _⟩ := hs
  have hexec : exec (.commit c data) s = .next (present a s) := presentIn_bases hb (·.telemetry) _ (.write · data)
  rw [hexec, present_taking a s ht, takeCourse_snoopCommit (classify_commit hs c data)]
  refine ⟨_, takeCommit c data s, rfl, serve_writeServed _ _ _, fun h => takeCommit_notEnrolled h data,
    fun h => ⟨fun l hl htag => ?_, fun htorn => ?_⟩⟩
  · exact takeCommit_valid h (Staging.frameAt_valid hl htag)
  · exact takeCommit_torn h (Staging.frameAt_torn htorn)

/-! ## The write filter (R127, R134 to R136) -/

section
variable {a : Access} {s : State} {c : Chan} {data : Word}

theorem takeCourse_filter (h : s.classify a = .filter c data) :
    takeCourse a s = serve a (filteredWrite c a.addr (filterWrite c data s)) false (filterWrite c data s) := by
  simp only [takeCourse, h]

/-- What the filter changes of the unit, before a restore it may end is reported (R135 steps 1, 2, 4; R136). -/
def filtered (c : Chan) (data : Word) (s : State) : State :=
  { s with
    enf := { s.enf with
      intended := s.enf.intended.set c data, queue := s.enf.queue.filter fun d => decide (d ≠ c) }
    mail := { s.mail with
      silence := s.mail.silence ++
        (if ((s.enf.intended[c].extractLsb' 0 8).toNat ≤ s.settings.muteCode ↔
            (data.extractLsb' 0 8).toNat ≤ s.settings.muteCode) then [] else [c]) } }

theorem crossing_eq (muteCode : Nat) (c : Chan) (old new : Word) :
    crossing muteCode c old new =
      if ((old.extractLsb' 0 8).toNat ≤ muteCode ↔ (new.extractLsb' 0 8).toNat ≤ muteCode) then [] else [c] :=
  if_congr decide_eq_decide rfl rfl

theorem filterWrite_eq (c : Chan) (data : Word) (s : State) :
    filterWrite c data s = if c ∈ s.enf.queue then reportIfRestored (filtered c data s) else filtered c data s := by
  unfold filterWrite
  rw [crossing_eq]
  rfl

theorem filterWrite_intended (c : Chan) (data : Word) (s : State) :
    (filterWrite c data s).enf.intended = s.enf.intended.set c data := by
  rw [filterWrite_eq]
  split
  · rw [reportIfRestored_enf]
    rfl
  · rfl

/-- The word the part stores is formed of the written word by settings and causes that the filter leaves as they are (R134). -/
theorem filterWrite_stored (c : Chan) (data : Word) (s : State) :
    s.StoredWord c data ((filterWrite c data s).effectiveWord c) := by
  have h := effectiveWord_stored (filterWrite c data s) c
  have hword : (filterWrite c data s).enf.intended[c] = data := by
    simp only [filterWrite_intended]
    exact Vector.getElem_set_self _
  rw [hword] at h
  simp only [State.StoredWord, State.mode, State.settings, filterWrite_setup, filterWrite_path,
    filterWrite_channels] at h
  exact h

end

/-- Settles O47: the write takes the filter's course, and what it changes, reports and stores are the filter's equations. -/
theorem writeFilter : Obligations.WriteFilter := by
  intro b c data s hb hw ht hpart
  let a : Access := .write (pastBase b.gain c.val) data
  have hexec : exec (.writeFilter c data) s = .next (present a s) := presentIn_bases hb (·.gain) _ (.write · data)
  rw [hexec, present_taking a s ht, takeCourse_filter (classify_gainWrite hb hw hpart c data)]
  refine ⟨filtered c data s, filterWrite c data s, _, (filterWrite c data s).effectiveWord c, rfl, rfl, fun hc => ?_,
    fun hc => ?_, filterWrite_stored c data s, serve_only _ _ _ _, ?_⟩
  · rw [filterWrite_eq, if_pos hc]
    exact reportIfRestored_reports _
  · rw [filterWrite_eq, if_neg hc]
  · have hserved := serve_served a (filteredWrite c a.addr (filterWrite c data s)) false (filterWrite c data s)
    rw [Served, filterWrite_path] at hserved
    exact hserved

end Sys2Proof.Machine
end

section
/-! PROOFS. The commands (R167 to R173): which command words are carried out, START, APPLY, MUTE, UNMUTE and ACK_ALL. -/

namespace Sys2Proof.Machine

/-! ## Command words (R168, R181) -/

@[simp] theorem commandCode_append (code low : BitVec 8) : commandCode (code ++ low) = code :=
  BitVec.extractLsb'_append_eq_left

@[simp] theorem commandChannel_append (code low : BitVec 8) : commandChannel (code ++ low) = low :=
  BitVec.extractLsb'_append_eq_right

theorem commandOf_unknown {code : BitVec 8} (h : knownCodes.contains code = false) : commandOf code = none := by
  simp only [knownCodes, List.contains_eq_mem, List.mem_cons, List.not_mem_nil, or_false, decide_eq_false_iff_not,
    not_or] at h
  obtain ⟨hstart, happly, hhalt, hmute, hunmute, hack⟩ := h
  simp only [commandOf, hstart, happly, hhalt, hmute, hunmute, hack, if_false]

/-! ## The course of a command word (R126, R168) -/

section
variable {s u : State} {w : Word}

theorem haltTaken_samePart (h : u.setup.part = s.setup.part) : haltTaken s u = false := by
  unfold haltTaken
  rw [h]
  cases s.setup.part <;> rfl

theorem haltTaken_notActive (h : s.setup.part ≠ .active) (u : State) : haltTaken s u = false := by
  rw [haltTaken, decide_eq_false h, Bool.false_and]

/-- Outside SETTLING a command word is judged, and its write goes to memory (R126, R168). -/
theorem present_commandWrite (ht : s.Taking) (hpart : s.setup.part ≠ .settling) (w : Word) :
    present (s.commandWrite w) s =
      serve (s.commandWrite w) (s.commandWrite w) (haltTaken s (takeCommand w s)) (takeCommand w s) := by
  have hcourse : s.classify (s.commandWrite w) = .command w := classify_command hpart w
  rw [present_taking _ s ht, takeCourse, hcourse]

/-- Each of the seven rows presents its command word; HALT does nothing more unless it is taken (R171, log 33). -/
theorem exec_commandWord {i : Instr} (hw : commandWordOf i = some w)
    (h : haltTaken s (present (s.commandWrite w) s) = false) : exec i s = .next (present (s.commandWrite w) s) := by
  cases i with
  | start | apply | mute | unmute | ackAll | unknownCode =>
    cases hw
    rfl
  | halt low answering =>
    cases hw
    cases answering with
    | none => rfl
    | some o => exact if_neg fun ⟨_, htaken, _⟩ => Bool.false_ne_true (h.symm.trans htaken)
  | _ => cases hw

/-- A command word whose judging leaves the state `u`, with HALT not taken: it goes to memory, and no more. -/
theorem exec_judged {i : Instr} (hw : commandWordOf i = some w) (ht : s.Taking) (hpart : s.setup.part ≠ .settling)
    (hjudged : takeCommand w s = u) (hhalt : haltTaken s u = false) :
    ∃ t, exec i s = .next t ∧ WriteServed (s.commandWrite w) false u t := by
  have hpresent : present (s.commandWrite w) s = serve (s.commandWrite w) (s.commandWrite w) false u := by
    rw [present_commandWrite ht hpart, hjudged, hhalt]
  refine ⟨_, exec_commandWord hw ?_, ?_⟩
  · rw [hpresent]
    exact hhalt
  · rw [hpresent]
    exact serve_writeServed _ _ _

/-! ## The judging, case by case (R168) -/

theorem takeCommand_busy (h : s.setup.result = .inProgress) (w : Word) :
    takeCommand w s = { s with setup := { s.setup with busyFlag := true } } := if_pos h

theorem takeCommand_unknown (h : s.setup.result ≠ .inProgress) (hcode : commandOf (commandCode w) = none) :
    takeCommand w s = { s with setup := { s.setup with result := .refusedCode, lastCode := w.extractLsb' 8 8 } } := by
  simp only [takeCommand, if_neg h, hcode]
  rfl

variable {k : Command}

theorem takeCommand_refused (h : s.setup.result ≠ .inProgress) (hcode : commandOf (commandCode w) = some k)
    (hpart : s.setup.part ≠ k.takenIn) :
    takeCommand w s = { s with setup := { s.setup with result := .refusedState, lastCode := w.extractLsb' 8 8 } } := by
  simp only [takeCommand, if_neg h, hcode, if_neg hpart]
  rfl

theorem takeCommand_carriedOut (h : s.setup.result ≠ .inProgress) (hcode : commandOf (commandCode w) = some k)
    (hpart : s.setup.part = k.takenIn) : takeCommand w s = carryOut k (commandChannel w) s := by
  simp only [takeCommand, if_neg h, hcode, if_pos hpart]

end

/-- The command that a row with a known code writes, and the part state in which it is taken (R168). -/
theorem commandWordOf_known {i : Instr} {w : Word} (hw : commandWordOf i = some w)
    (h : ∀ code low, i ≠ .unknownCode code low) :
    ∃ k, commandOf (commandCode w) = some k ∧
      k.takenIn = if ∃ low, i = .start low then PartState.passive else PartState.active := by
  cases i with
  | start | apply | halt | mute | unmute | ackAll =>
    cases hw
    rw [commandCode_append]
    refine ⟨_, rfl, ?_⟩
    simp [Command.takenIn]
  | unknownCode code low => exact absurd rfl (h code low)
  | _ => cases hw

/-- Settles O13: the cases 1, 2, 6 and 3 of the judging; none of them takes HALT. -/
theorem commandsNotCarriedOut : Obligations.CommandsNotCarriedOut := by
  intro i w s hw hwf ht
  refine ⟨fun hpart => ?_, fun hpart hbusy => ?_, fun hpart hresult hunknown => ?_, fun hpart hresult hstate => ?_⟩
  · have hpresent : present (s.commandWrite w) s = serve (s.commandWrite w) (s.commandWrite w) false s :=
      present_forwarded ht (classify_settling s _ hpart)
    refine ⟨_, exec_commandWord hw ?_, ?_⟩
    · exact haltTaken_notActive (by rw [hpart]; decide) _
    · rw [hpresent]
      exact serve_writeServed _ _ _
  · exact exec_judged hw ht hpart (takeCommand_busy hbusy w) (haltTaken_samePart rfl)
  · obtain ⟨code, low, rfl⟩ := hunknown
    cases hw
    have hcode : commandOf (commandCode (code ++ low)) = none := by
      rw [commandCode_append]
      exact commandOf_unknown (by simpa [Instr.wellFormed] using hwf)
    exact exec_judged rfl ht hpart (takeCommand_unknown hresult hcode) (haltTaken_samePart rfl)
  · have hknown : ∀ code low, i ≠ .unknownCode code low := by
      obtain ⟨⟨low, rfl⟩, -⟩ | ⟨-, hknown, -⟩ := hstate
      · exact fun _ _ => Instr.noConfusion
      · exact hknown
    obtain ⟨k, hcode, htaken⟩ := commandWordOf_known hw hknown
    refine exec_judged hw ht hpart (takeCommand_refused hresult hcode ?_) (haltTaken_samePart rfl)
    obtain ⟨hstart, hpassive⟩ | ⟨hother, -, hactive⟩ := hstate
    · rwa [htaken, if_pos hstart]
    · rwa [htaken, if_neg (not_exists.2 hother)]

/-! ## A command carried out (R168) -/

/-- A command with a known code, taken in its part state: its write goes to memory after its own effect `u`. -/
theorem exec_carriedOut {i : Instr} {code low : BitVec 8} {k : Command} {s u : State}
    (hw : commandWordOf i = some (code ++ low)) (ht : s.Taking) (hcode : commandOf code = some k)
    (hpart : s.setup.part = k.takenIn) (hresult : s.setup.result ≠ .inProgress) (hdone : carryOut k low s = u)
    (hhalt : haltTaken s u = false) :
    ∃ t, exec i s = .next t ∧ WriteServed (s.commandWrite (code ++ low)) false u t := by
  have hsettled : s.setup.part ≠ .settling := by
    rw [hpart]
    cases k <;> decide
  refine exec_judged hw ht hsettled ?_ hhalt
  rw [takeCommand_carriedOut hresult (by rwa [commandCode_append]) hpart, commandChannel_append, hdone]

/-! ### START (R167, R169) -/

section
variable {s : State}

theorem startSetup_rejected {reason : Reason} (hfreeze : s.setup.freeze ≠ .permanent)
    (h : validate s.path.straps s.setup.marks s.setup.copy none = some reason) : s.startSetup = .error reason := by
  simp only [State.startSetup, if_neg hfreeze, h]

theorem startSetup_inForce {w : SetupWords} (h : (s.setup.freeze ≠ .permanent ∧
      validate s.path.straps s.setup.marks s.setup.copy none = none ∧ w = s.setup.copy) ∨
    (s.setup.freeze = .permanent ∧ s.setup.working = some w)) : s.startSetup = .ok w := by
  obtain ⟨hfreeze, hvalid, rfl⟩ | ⟨hfreeze, hworking⟩ := h
  · simp only [State.startSetup, if_neg hfreeze, hvalid]
  · simp only [State.startSetup, if_pos hfreeze, State.settings, hworking, Option.getD_some]

theorem startSettings_eq (w : SetupWords) (u : LampUnit) :
    u.startSettings w = { u with
      battery := u.battery.usingNow w.patterns
      signal := u.signal.usingNow w.patterns
      mute := u.mute.usingNow w.patterns
      enables := w.enables } := by
  simp only [LampUnit.startSettings, startPatterns_usingNow]

theorem beginSession_eq (w : SetupWords) (s : State) :
    beginSession w s = { s with
      setup := { s.setup with
        working := some w, part := .loading, result := .inProgress, lastCode := 0x01#8
        freeze := if s.setup.freeze = .permanent then .permanent else w.freezeLevel }
      path := { s.path with
        bases := some
          { telemetry := BitVec.ofNat 20 (w[1].toNat * 256), gain := BitVec.ofNat 20 (w[2].toNat * 64),
            alert := BitVec.ofNat 20 (w[3].toNat * 512) } }
      staging := Vector.replicate 64 { link := none, battery := none, switch := none }
      view := { gen := 0, count := 0, entries := Vector.replicate 32 none }
      time := { s.time with seconds := 0, phase := 0 }
      lamps := { s.lamps with
        battery := s.lamps.battery.usingNow w.patterns
        signal := s.lamps.signal.usingNow w.patterns
        mute := s.lamps.mute.usingNow w.patterns
        enables := w.enables }
      mail := { s.mail with
        frames := [], conditions := [], stalls := [], notices := []
        toEvaluator := s.mail.toEvaluator ++ [.tableReset 0]
        toList := s.mail.toList ++ [.clearing]
        toEnforcement := s.mail.toEnforcement ++ [.loadRequest]
        toLamps := [] } } := by
  rw [← startSettings_eq]
  rfl

end

/-- Settles O14: the setup that START puts in force, if there is one, and the beginning of its session. -/
theorem startCommand : Obligations.StartCommand := by
  intro low s ht hpart hresult
  have hhalt : ∀ u, haltTaken s u = false := haltTaken_notActive (by rw [hpart]; decide)
  refine ⟨fun reason hfreeze hinvalid => ?_, fun w hw => ?_⟩
  · refine exec_carriedOut (k := .start) rfl ht rfl hpart hresult ?_ (hhalt _)
    simp only [carryOut, commandStart, startSetup_rejected hfreeze hinvalid]
    rfl
  · refine exec_carriedOut (k := .start) rfl ht rfl hpart hresult ?_ (hhalt _)
    simp only [carryOut, commandStart, startSetup_inForce hw]
    exact beginSession_eq w s

/-! ### APPLY (R168, R170) -/

theorem clearStaging_getElem (cs : List Chan) (v : Vector Staging 64) (c : Chan) :
    (clearStaging cs v)[c] = if c ∈ cs then { link := none, battery := none, switch := none } else v[c] := by
  simp [clearStaging, Staging.empty]

theorem sendSetup_eq (w : SetupWords) (u : State) :
    sendSetup w u = { u with
      staging := clearStaging (deEnrolled u.settings w) u.staging
      setup := { u.setup with working := some w, freeze := w.freezeLevel, result := .done, lastCode := 0x02#8 }
      mail := { u.mail with
        frames := u.mail.frames.filter fun p => decide (p.1 ∉ newlyEnrolled u.settings w)
        toEvaluator := u.mail.toEvaluator ++ [.membership w 0]
        toList := u.mail.toList ++ (if deEnrolled u.settings w = [] then [] else [.removal (deEnrolled u.settings w)])
        toEnforcement := u.mail.toEnforcement ++ [.setupChange u.settings w]
        toLamps := u.mail.toLamps ++ [w] } } := by
  have hframes : ∀ cs : List Chan, (fun p : Chan × Frame => !cs.contains p.1) = fun p => decide (p.1 ∉ cs) := by
    intro cs
    funext p
    simp
  simp only [sendSetup, hframes, State.setSetup, State.setStaging, State.setMail]

/-- APPLY carried out (R170): the removals that a new enrolment waits for, then what it sends and puts in force, over the state that
they leave. -/
theorem applySetup_eq (w : SetupWords) (s : State) :
    ∃ u, u = takeRemovals (newlyEnrolled s.settings w) s.mail.toList s ∧
    applySetup w s = { u with
      staging := clearStaging (deEnrolled s.settings w) s.staging
      setup := { s.setup with working := some w, freeze := w.freezeLevel, result := .done, lastCode := 0x02#8 }
      mail := { s.mail with
        frames := s.mail.frames.filter fun p => decide (p.1 ∉ newlyEnrolled s.settings w)
        toEvaluator := s.mail.toEvaluator ++ [.membership w 0]
        toList := u.mail.toList ++ (if deEnrolled s.settings w = [] then [] else [.removal (deEnrolled s.settings w)])
        toEnforcement := s.mail.toEnforcement ++ [.setupChange s.settings w]
        toLamps := s.mail.toLamps ++ [w] } } := by
  let u := takeRemovals (newlyEnrolled s.settings w) s.mail.toList s
  have hmail : u.mail = { s.mail with toList := u.mail.toList } := takeRemovals_mail _ _ s
  have hsettings : u.settings = s.settings := by simp [u, State.settings]
  have hstaging : u.staging = s.staging := by simp [u]
  have hsetup : u.setup = s.setup := by simp [u]
  refine ⟨u, rfl, ?_⟩
  calc applySetup w s = sendSetup w u := rfl
    _ = _ := by
      rw [sendSetup_eq, hsettings, hstaging, hsetup, hmail]

section
variable {s : State} {reason : Reason}

theorem commandApply_rejected (hfreeze : s.setup.freeze = .none)
    (h : validate s.path.straps s.setup.marks s.setup.copy (some s.settings) = some reason) :
    commandApply s = s.withResult 0x02#8 (.rejected reason) := by
  simp only [commandApply, if_neg (not_not_intro hfreeze), h]

theorem commandApply_valid (hfreeze : s.setup.freeze = .none)
    (h : validate s.path.straps s.setup.marks s.setup.copy (some s.settings) = none) :
    commandApply s = applySetup s.setup.copy s := by
  simp only [commandApply, if_neg (not_not_intro hfreeze), h]

end

/-- Settles O15: the freeze, the validation, and what a valid APPLY sends after the removals it takes. -/
theorem applyCommand : Obligations.ApplyCommand := by
  intro low old s ht hpart hresult hold
  have hsettings : s.settings = old := by rw [State.settings, hold, Option.getD_some]
  refine ⟨fun hfreeze => ?_, fun reason hfreeze hinvalid => ?_, fun hfreeze hvalid => ?_⟩
  · refine exec_carriedOut (k := .apply) rfl ht rfl hpart hresult ?_ (haltTaken_samePart rfl)
    exact if_pos hfreeze
  · refine exec_carriedOut (k := .apply) rfl ht rfl hpart hresult ?_ (haltTaken_samePart rfl)
    exact commandApply_rejected hfreeze (hsettings ▸ hinvalid)
  · have hdone : carryOut .apply low s = applySetup s.setup.copy s :=
      commandApply_valid hfreeze (hsettings ▸ hvalid)
    obtain ⟨u, hu, hequation⟩ := applySetup_eq s.setup.copy s
    rw [hsettings] at hu hequation
    obtain ⟨t, hexec, hserved⟩ := exec_carriedOut (i := .apply low) (k := .apply) rfl ht rfl hpart hresult
      (hdone.trans hequation) (haltTaken_samePart rfl)
    have hstaging : t.staging = clearStaging (deEnrolled old s.setup.copy) s.staging := by
      obtain ⟨ht, -⟩ := hserved
      rw [ht]
    refine ⟨u, t, deEnrolled old s.setup.copy, newlyEnrolled old s.setup.copy, hexec, rfl, rfl, ?_, fun c => ?_, ?_⟩
    · rw [hu]
      exact takeRemovals_taken _ _ s rfl
    · rw [hstaging]
      exact clearStaging_getElem _ _ c
    · rw [hstaging]
      exact hserved

end Sys2Proof.Machine
end

section
/-! PROOFS. MUTE, UNMUTE and ACK_ALL (R101, R168, R173), the removals and clearings of the alert list (R105, R106), and the
validation of a setup (R165). -/

namespace Sys2Proof.Machine

/-! ## MUTE and UNMUTE (R56, R168, R173) -/

section
variable {s : State} {channel : BitVec 8}

theorem muteChannel_enrolled {c : Chan} (hc : channel.toNat = c.val) (he : s.workingEnrols c = true) :
    s.muteChannel channel = some c := by
  have hlt : channel.toNat < 64 := hc ▸ c.isLt
  have hchannel : (⟨channel.toNat, hlt⟩ : Chan) = c := Fin.ext hc
  rw [State.muteChannel, dif_pos hlt, hchannel, if_pos he]

theorem muteChannel_none (h : ∀ c : Chan, channel.toNat = c.val → s.workingEnrols c = false) :
    s.muteChannel channel = none := by
  unfold State.muteChannel
  split
  next hlt => exact if_neg (Bool.eq_false_iff.1 (h ⟨channel.toNat, hlt⟩ rfl))
  next => rfl

theorem commandChair_enrolled {c : Chan} (hc : channel.toNat = c.val) (he : s.workingEnrols c = true) (set : Bool)
    (code : BitVec 8) :
    commandChair set code channel s = (s.withResult code .done).sendToEvaluator (.chair c set) := by
  simp only [commandChair, muteChannel_enrolled hc he]

theorem commandChair_refused (h : ∀ c : Chan, channel.toNat = c.val → s.workingEnrols c = false) (set : Bool)
    (code : BitVec 8) : commandChair set code channel s = s.withResult code .refusedChannel := by
  simp only [commandChair, muteChannel_none h]

end

/-! ## Events that free places (R93, R101, R105) -/

/-- An event whose change leaves no unlisted pair above a listed entry: the free places are filled, and the generation rises once
if the list changed (R84, R93, R102). -/
theorem AlertUnit.event_filled {u : AlertUnit} {f : AlertUnit → AlertUnit} (stamp : Word) (ho : (f u).Orderly)
    (hr : (f u).Outranked) (hgen : (f u).gen = u.gen) :
    Filled stamp (f u) (u.event stamp f) ∧
      (u.event stamp f).gen = if (u.event stamp f).list = u.list then u.gen else u.gen + 1 := by
  obtain ⟨hfilled, hrank⟩ := AlertUnit.rank_filled stamp ho hr
  by_cases hlist : ((f u).rank stamp).list = u.list
  · rw [AlertUnit.event_same rfl hlist, if_pos hlist]
    exact ⟨hfilled, hrank.trans hgen⟩
  · rw [AlertUnit.event_changed rfl hlist, if_neg hlist]
    exact ⟨hfilled.with_gen _, congrArg (· + 1) (hrank.trans hgen)⟩

theorem AlertUnit.Lawful.ackAll_outranked {u : AlertUnit} (h : u.Lawful) : u.ackAll.Outranked := by
  intro p hp e he
  obtain ⟨x, hx, rfl⟩ := List.mem_map.1 he
  exact h.outranked p hp x (List.mem_of_mem_filter hx)

theorem AlertUnit.Lawful.remove_outranked {u : AlertUnit} (h : u.Lawful) (cs : List Chan) : (u.remove cs).Outranked :=
  fun p hp e he => h.outranked p (List.mem_of_mem_filter hp) e (List.mem_of_mem_filter he)

theorem AlertEntry.ofChannels_eq (cs : List Chan) (e : AlertEntry) :
    (!e.ofChannels cs) = decide (∀ c ∈ cs, e.channel ≠ .mic c) := by
  rw [Bool.eq_iff_iff, decide_eq_true_eq, AlertEntry.ofChannels]
  cases e.channel with
  | mic d =>
    simp only [Bool.not_eq_true', List.contains_eq_mem, decide_eq_false_iff_not, ne_eq, AlertChannel.mic.injEq]
    exact ⟨fun h c hc hd => h (hd ▸ hc), fun h hd => h d hd rfl⟩
  | part => simp

theorem AlertUnit.remove_eq (cs : List Chan) (u : AlertUnit) :
    u.remove cs = { u with
      list := u.list.filter fun e => decide (∀ c ∈ cs, e.channel ≠ .mic c)
      unlisted := u.unlisted.filter fun p => decide (p.channel ∉ cs) } := by
  have hpairs : (fun p : UnlistedPair => !cs.contains p.channel) = fun p => decide (p.channel ∉ cs) := by
    funext p
    simp
  have hentries : (fun e : AlertEntry => !e.ofChannels cs) = fun e => decide (∀ c ∈ cs, e.channel ≠ .mic c) :=
    funext (AlertEntry.ofChannels_eq cs)
  rw [AlertUnit.remove, hpairs, hentries]

/-- Settles O17: MUTE and UNMUTE by whether the channel byte names an enrolled channel; ACK_ALL is one event that frees places. -/
theorem muteUnmuteAndAckAllCommands : Obligations.MuteUnmuteAndAckAllCommands := by
  constructor
  · intro channel s ht hpart hresult i set code hi
    obtain ⟨k, hw, hcode, htaken, hcarry⟩ : ∃ k, commandWordOf i = some (code ++ channel) ∧ commandOf code = some k ∧
        k.takenIn = .active ∧ carryOut k channel s = commandChair set code channel s := by
      obtain hi | hi := hi <;> cases hi
      · exact ⟨.mute, rfl, rfl, rfl, rfl⟩
      · exact ⟨.unmute, rfl, rfl, rfl, rfl⟩
    refine ⟨fun c hc he => ?_, fun h => ?_⟩
    · exact exec_carriedOut hw ht hcode (hpart.trans htaken.symm) hresult
        (hcarry.trans (commandChair_enrolled hc he set code)) (haltTaken_samePart rfl)
    · exact exec_carriedOut hw ht hcode (hpart.trans htaken.symm) hresult
        (hcarry.trans (commandChair_refused h set code)) (haltTaken_samePart rfl)
  · intro low s ht hpart hresult hlawful
    let u := listEvent AlertUnit.ackAll s
    obtain ⟨-, hlamps⟩ := listEvent_onlyAlerts AlertUnit.ackAll s
    have hequation : commandAckAll s = { s with
        alert := u.alert
        lamps := { s.lamps with battery := u.lamps.battery, signal := u.lamps.signal, mute := u.lamps.mute }
        setup := { s.setup with result := .done, lastCode := 0x20#8 } } := rfl
    obtain ⟨t, hexec, hserved⟩ := exec_carriedOut (i := .ackAll low) (k := .ackAll) rfl ht rfl hpart hresult
      hequation (haltTaken_samePart rfl)
    have ⟨ht, _⟩ := hserved
    have halert : t.alert = s.alert.event s.time.seconds AlertUnit.ackAll := by rw [ht]; rfl
    have hunit : t.lamps = u.lamps := by rw [ht]; rfl
    refine ⟨t, hexec, ?_, hunit ▸ hlamps, halert ▸ ?_⟩
    · rw [hunit, halert]
      exact hserved
    · exact AlertUnit.event_filled _ (AlertUnit.ackAll_orderly hlawful.toOrderly) hlawful.ackAll_outranked rfl

/-! ## Removals and clearings (R105, R106) -/

section
variable {s : State} {rest : List ToList}

theorem dropToList_cons {m : ToList} (h : s.mail.toList = m :: rest) :
    s.dropToList = { s with mail := { s.mail with toList := rest } } := by
  rw [State.dropToList, h]
  rfl

theorem exec_removal {cs : List Chan} (h : s.mail.toList = .removal cs :: rest) :
    exec .removal s = .next (listEvent (AlertUnit.remove cs) { s with mail := { s.mail with toList := rest } }) := by
  show execRemoval s = _
  simp only [execRemoval, h, dropToList_cons h]
  rfl

theorem exec_alertListClearing (h : s.mail.toList = .clearing :: rest) :
    exec .alertListClearing s = .next (clearAlerts { s with mail := { s.mail with toList := rest } }) := by
  show execAlertListClearing s = _
  simp only [execAlertListClearing, h, dropToList_cons h]
  rfl

end

theorem clearAlerts_mode (s : State) (l : Lamp) : ((clearAlerts s).lamps.get l).mode = .off := by
  cases l <;> exact takeMode_mode _ _

/-- Settles O39: a removal is one event that frees places; a clearing turns every lamp OFF, and a lamp that takes OFF goes dark. -/
theorem removalAndClearing : Obligations.RemovalAndClearing := by
  intro rest s
  refine ⟨fun cs hmail hlawful => ?_, fun hmail => ?_⟩
  · refine ⟨_, exec_removal hmail, listEvent_onlyAlerts _ _, ?_⟩
    rw [← AlertUnit.remove_eq]
    exact AlertUnit.event_filled (u := s.alert) _ (AlertUnit.remove_orderly hlawful.toOrderly cs)
      (hlawful.remove_outranked cs) rfl
  · have honly := clearAlerts_onlyAlerts { s with mail := { s.mail with toList := rest } }
    refine ⟨_, exec_alertListClearing hmail, honly, rfl, fun l => ⟨clearAlerts_mode _ l, fun hlit => ?_⟩⟩
    obtain ⟨-, htaken⟩ := honly
    obtain ⟨-, hchanged⟩ := htaken l
    have hoff := clearAlerts_mode { s with mail := { s.mail with toList := rest } } l
    rw [hchanged (fun hsame => hlit (hsame.symm.trans hoff)), hoff]
    simp

end Sys2Proof.Machine
end

section
/-! PROOFS. The validation of a setup (R165): its checks in their order, the ranges field by field, and the overlap of windows. -/

namespace Sys2Proof.Machine

/-! ## The checks (R165) -/

theorem incomplete_iff (marks : Vector Bool 36) :
    (marks.toList.any fun m => !m) = true ↔ ¬∀ n : Fin 36, marks[n] = true := by
  rw [← Bool.not_eq_false, List.any_eq_false, not_iff_not]
  constructor
  · intro h n
    simpa using h marks[n] (Vector.mem_toList_iff.2 (Vector.getElem_mem n.isLt))
  · intro h m hm
    obtain ⟨i, hi, rfl⟩ := Vector.getElem_of_mem (Vector.mem_toList_iff.1 hm)
    simpa using h ⟨i, hi⟩

theorem thresholdsDescend_iff (w : SetupWords) :
    (w.thresholdsDescend .primary && w.thresholdsDescend .rechargeable) = true ↔
      w[22].toNat < w[21].toNat ∧ w[23].toNat < w[22].toNat ∧ w[25].toNat < w[24].toNat ∧ w[26].toNat < w[25].toNat := by
  simp only [SetupWords.thresholdsDescend, Bool.and_eq_true, decide_eq_true_eq, and_assoc]
  rfl

theorem sameWindows_iff (w v : SetupWords) : w.sameWindows v = true ↔ w[1] = v[1] ∧ w[2] = v[2] ∧ w[3] = v[3] := by
  simp only [SetupWords.sameWindows, Bool.and_eq_true, decide_eq_true_eq, and_assoc]

section
variable {straps : Straps} {marks : Vector Bool 36} {w : SetupWords} {working : Option SetupWords}

theorem validate_incomplete (h : ¬∀ n : Fin 36, marks[n] = true) : validate straps marks w working = some .incomplete :=
  if_pos ((incomplete_iff marks).2 h)

/-- A complete setup block with the signature and the check sum is judged by ranges, order, overlap and windows, in this order. -/
theorem validate_complete (h : ∀ n : Fin 36, marks[n] = true) :
    validate straps marks w working =
      if w[0] ≠ 0xD764#16 then some .signature
      else if w.sum ≠ 0 then some .check
      else if !w.inRange then some .range
      else if !(w.thresholdsDescend .primary && w.thresholdsDescend .rechargeable) then some .order
      else if w.overlaps straps then some .overlap
      else match (generalizing := false) working with
        | none => none
        | some v => if w.sameWindows v then none else some .windowsFixed :=
  if_neg fun hany => (incomplete_iff marks).1 hany h

end

/-! ## The ranges (R165, R181) -/

theorem pattern_inRange_iff (w : Word) : (patternOf w).inRange = true ↔
    2 ≤ (w.extractLsb' 8 8).toNat ∧ (w.extractLsb' 8 8).toNat ≤ 40 ∧
      1 ≤ (w.extractLsb' 0 8).toNat ∧ (w.extractLsb' 0 8).toNat < (w.extractLsb' 8 8).toNat := by
  simp only [Pattern.inRange, patternOf, highByte, lowByte, Bool.and_eq_true, within_iff]
  omega

theorem inRange_iff (w : SetupWords) : w.inRange = true ↔
    w[1].toNat ≤ 4095 ∧ w[2].toNat ≤ 16383 ∧ w[3].toNat ≤ 2047 ∧
    (w[4].extractLsb' 0 2).toNat ≤ 1 ∧ (w[4].extractLsb' 4 2).toNat ≤ 2 ∧
    (w[17].extractLsb' 0 8).toNat ≤ 127 ∧
    (1 ≤ (w[17].extractLsb' 8 4).toNat ∧ (w[17].extractLsb' 8 4).toNat ≤ 15) ∧
    (20 ≤ w[18].toNat ∧ w[18].toNat ≤ 2000) ∧ (50 ≤ w[19].toNat ∧ w[19].toNat ≤ 1000) ∧
    (1 ≤ (w[20].extractLsb' 0 8).toNat ∧ (w[20].extractLsb' 0 8).toNat ≤ 60) ∧
    (2 ≤ (w[20].extractLsb' 8 8).toNat ∧ (w[20].extractLsb' 8 8).toNat ≤ 15) ∧
    (1 ≤ w[21].toNat ∧ w[21].toNat ≤ 99) ∧ (1 ≤ w[22].toNat ∧ w[22].toNat ≤ 99) ∧
    (1 ≤ w[23].toNat ∧ w[23].toNat ≤ 99) ∧ (1 ≤ w[24].toNat ∧ w[24].toNat ≤ 99) ∧
    (1 ≤ w[25].toNat ∧ w[25].toNat ≤ 99) ∧ (1 ≤ w[26].toNat ∧ w[26].toNat ≤ 99) ∧
    (1 ≤ w[27].toNat ∧ w[27].toNat ≤ 10) ∧
    (w[28].extractLsb' 0 8).toNat ≤ 63 ∧ 1 ≤ (w[28].extractLsb' 8 8).toNat ∧
    w[29].toNat ≤ 63 ∧ (10 ≤ w[30].toNat ∧ w[30].toNat ≤ 600) ∧ w[31].toNat ≤ 255 ∧
    ∀ p ∈ [w[32], w[33]], 2 ≤ (p.extractLsb' 8 8).toNat ∧ (p.extractLsb' 8 8).toNat ≤ 40 ∧
      1 ≤ (p.extractLsb' 0 8).toNat ∧ (p.extractLsb' 0 8).toNat < (p.extractLsb' 8 8).toNat := by
  have hspeech : (w[28].extractLsb' 8 8).toNat ≤ 255 := Nat.le_of_lt_succ (BitVec.isLt _)
  simp only [List.forall_mem_cons, List.not_mem_nil, false_implies, implies_true, and_true, ← pattern_inRange_iff]
  simp only [SetupWords.inRange, SetupWords.patterns, SetupWords.telemetryBlock, SetupWords.gainBlock,
    SetupWords.alertBlock, SetupWords.modeRequest, SetupWords.freezeField, SetupWords.fadeLevel, SetupWords.fadeConfirm,
    SetupWords.dropoutLimit, SetupWords.freshnessLimit, SetupWords.dropoutWindow, SetupWords.dropoutCountLimit,
    SetupWords.thresholdsInRange, SetupWords.noticeThreshold, SetupWords.lowThreshold, SetupWords.criticalThreshold,
    SetupWords.hysteresis, SetupWords.speechLevel, SetupWords.speechThreshold, SetupWords.idleLevel,
    SetupWords.idleLimit, SetupWords.muteCode, lowByte, highByte, Bool.and_eq_true, within_iff, Nat.zero_le, true_and,
    hspeech, and_true, and_assoc]

/-! ## The overlap of two windows (R123, R165) -/

theorem windowsMeet_iff (a b : Nat × Nat) (ha : 0 < a.2) (hb : 0 < b.2) :
    windowsMeet a b = true ↔ ∃ x : Nat, (a.1 ≤ x ∧ x < a.1 + a.2) ∧ (b.1 ≤ x ∧ x < b.1 + b.2) := by
  simp only [windowsMeet, Bool.and_eq_true, decide_eq_true_eq]
  constructor
  · intro h
    exact ⟨max a.1 b.1, by omega, by omega⟩
  · rintro ⟨x, hx, hx'⟩
    omega

/-- The four windows of a setup, numbered, each a first address and a length (R122, R123). -/
def SetupWords.windows (straps : Straps) (w : SetupWords) : List (Nat × Nat × Nat) :=
  [(0, w[1].toNat * 256, 256), (1, w[2].toNat * 64, 64), (2, w[3].toNat * 512, 512), (3, (setupBase straps).toNat, 37)]

/-- Of four numbered windows two with different numbers have a property that does not mind their order, if and only if one of the six pairs has it. -/
theorem exists_pair_iff {α : Type} (meets : α → α → Prop) (hsymm : ∀ a b, meets a b ↔ meets b a) (a b c d : α) :
    (∃ v ∈ [(0, a), (1, b), (2, c), (3, d)], ∃ v' ∈ [(0, a), (1, b), (2, c), (3, d)],
      (v.1 : Nat) ≠ v'.1 ∧ meets v.2 v'.2) ↔
      meets a b ∨ meets a c ∨ meets b c ∨ meets a d ∨ meets b d ∨ meets c d := by
  simp only [List.mem_cons, List.not_mem_nil, or_false, exists_eq_or_imp, exists_eq_left, ne_eq, Nat.reduceEqDiff,
    not_true, not_false_eq_true, false_and, true_and, hsymm b a, hsymm c a, hsymm c b, hsymm d a, hsymm d b, hsymm d c]
  tauto

theorem overlaps_iff_meet (straps : Straps) (w : SetupWords) : w.overlaps straps = true ↔
    ∃ v ∈ w.windows straps, ∃ v' ∈ w.windows straps, v.1 ≠ v'.1 ∧ windowsMeet v.2 v'.2 = true := by
  refine Iff.trans ?_ (exists_pair_iff (fun a b => windowsMeet a b = true)
    (fun a b => by rw [windowsMeet_symm a b]) _ _ _ _).symm
  simp only [SetupWords.overlaps, Bool.or_eq_true, or_assoc]
  rfl

theorem overlaps_iff (straps : Straps) (w : SetupWords) : w.overlaps straps = true ↔
    ∃ v ∈ w.windows straps, ∃ v' ∈ w.windows straps,
      v.1 ≠ v'.1 ∧ ∃ x : Nat, (v.2.1 ≤ x ∧ x < v.2.1 + v.2.2) ∧ (v'.2.1 ≤ x ∧ x < v'.2.1 + v'.2.2) := by
  have hfilled : ∀ v ∈ w.windows straps, 0 < v.2.2 := by
    intro v hv
    simp only [SetupWords.windows, List.mem_cons, List.not_mem_nil, or_false] at hv
    obtain rfl | rfl | rfl | rfl := hv <;> exact Nat.succ_pos _
  rw [overlaps_iff_meet]
  refine exists_congr fun v => and_congr_right fun hv => exists_congr fun v' => and_congr_right fun hv' => ?_
  exact and_congr_right fun _ => windowsMeet_iff v.2 v'.2 (hfilled v hv) (hfilled v' hv')

/-- Settles O18: the checks one by one in their order; the ranges and the overlap are their own equivalences. -/
theorem validation : Obligations.Validation := by
  refine ⟨fun straps marks w working => ?_, inRange_iff, overlaps_iff, fun straps => ?_⟩
  · intro written sum descends
    have hdescends := thresholdsDescend_iff w
    refine ⟨validate_incomplete, fun hwritten hsignature => ?_, fun hwritten hsignature hsum => ?_,
      fun hwritten hsignature hsum => ⟨fun hrange => ?_, fun hrange horder => ?_, fun hrange horder hoverlap => ?_,
        fun hrange horder hoverlap => ⟨fun hworking => ?_, fun v hworking => ⟨fun hsame => ?_, fun hsame => ?_⟩⟩⟩⟩
    all_goals rw [validate_complete hwritten]
    · exact if_pos hsignature
    all_goals rw [if_neg (not_not_intro hsignature)]
    · exact if_pos (c := w.sum ≠ 0) hsum
    all_goals rw [if_neg (c := w.sum ≠ 0) (not_not_intro hsum)]
    · exact if_pos (by rw [hrange]; rfl)
    all_goals rw [if_neg (by rw [hrange]; decide)]
    · exact if_pos (by rw [Bool.eq_false_iff.2 (mt hdescends.1 horder)]; rfl)
    all_goals rw [if_neg (by rw [hdescends.2 horder]; decide)]
    · exact if_pos hoverlap
    all_goals rw [if_neg (Bool.eq_false_iff.1 hoverlap), hworking]
    · exact if_pos ((sameWindows_iff w v).2 hsame)
    · exact if_neg (mt (sameWindows_iff w v).1 hsame)
  · obtain ⟨sbase1, sbase0, observe⟩ := straps
    cases sbase1 <;> cases sbase0 <;> rfl

end Sys2Proof.Machine
end

section
/-! PROOFS. The words the alert window and the command status answer (R111 to R115, R128, R182), field by field, and the reads that
change nothing. -/

namespace Sys2Proof.Machine

/-! ## The fields of a word put together from its fields -/

section
variable {v w start len i : Nat} {x : BitVec v} {y : BitVec w}

theorem field_above {f : BitVec len} (h : w ≤ start) (hx : x.extractLsb' (start - w) len = f) :
    (x ++ y).extractLsb' start len = f := (BitVec.extractLsb'_append_eq_of_le h).trans hx

theorem field_last : (x ++ y).extractLsb' 0 w = y := BitVec.extractLsb'_append_eq_right

theorem field_first : (x ++ y).extractLsb' w v = x := BitVec.extractLsb'_append_eq_left

theorem bit_above {b : Bool} (h : w ≤ i) (hx : x.getLsbD (i - w) = b) : (x ++ y).getLsbD i = b := by
  rw [BitVec.getLsbD_append, if_neg (Nat.not_lt.2 h), hx]

theorem bit_last {b : Bool} : (x ++ BitVec.ofBool b).getLsbD 0 = b := by
  rw [BitVec.getLsbD_append, if_pos Nat.one_pos]
  cases b <;> rfl

theorem bit_zero : (x ++ (0 : BitVec 1)).getLsbD 0 = false := by
  rw [BitVec.getLsbD_append, if_pos Nat.one_pos]
  rfl

end

/-! ## The command status and the words of the header (R111, R168, R182) -/

theorem statusWord_fields (u : SetupUnit) :
    u.statusWord.extractLsb' 0 3 = u.result.code ∧ u.statusWord.extractLsb' 3 3 = u.result.reasonCode ∧
      u.statusWord.getLsbD 6 = u.stalledFlag ∧ u.statusWord.getLsbD 7 = u.busyFlag ∧
      u.statusWord.extractLsb' 8 8 = u.lastCode :=
  ⟨field_last, field_above (by decide) field_last, bit_above (by decide) (bit_above (by decide) bit_last),
    bit_above (by decide) (bit_above (by decide) (bit_above (by decide) bit_last)),
    field_above (by decide) (field_above (by decide) (field_above (by decide) field_first))⟩

theorem countsWord_fields (v : View) (u : AlertUnit) :
    ((countsWord v u).extractLsb' 0 8).toNat = v.count % 256 ∧
      ((countsWord v u).extractLsb' 8 8).toNat = u.unlisted.length % 256 := by
  have hview : (countsWord v u).extractLsb' 0 8 = BitVec.ofNat 8 v.count := field_last
  have hunlisted : (countsWord v u).extractLsb' 8 8 = BitVec.ofNat 8 u.unlisted.length := field_first
  rw [hview, hunlisted, BitVec.toNat_ofNat, BitVec.toNat_ofNat]
  exact ⟨rfl, rfl⟩

theorem Mode.bit_eq (m : Mode) : m.bit = decide (m = .observe) := by cases m <;> rfl

theorem stateWord_fields (u : SetupUnit) (m : Mode) :
    (stateWord u m).extractLsb' 0 3 = u.part.code ∧ (stateWord u m).getLsbD 4 = decide (m = .observe) ∧
      (stateWord u m).extractLsb' 8 2 = u.freeze.code ∧ (stateWord u m).getLsbD 3 = false ∧
      (stateWord u m).extractLsb' 5 3 = 0 ∧ (stateWord u m).extractLsb' 10 6 = 0 := by
  rw [← Mode.bit_eq]
  exact ⟨field_last, bit_above (by decide) (bit_above (by decide) bit_last),
    field_above (by decide) (field_above (by decide) (field_above (by decide) (field_above (by decide) field_last))),
    bit_above (by decide) bit_zero,
    field_above (by decide) (field_above (by decide) (field_above (by decide) field_last)),
    field_above (by decide) (field_above (by decide) (field_above (by decide) (field_above (by decide) field_first)))⟩

theorem hasNew_iff (u : AlertUnit) (f : Family) : u.hasNew f = true ↔ ∃ e ∈ u.list, e.family = f ∧ e.state = .new := by
  simp only [AlertUnit.hasNew, List.any_eq_true, Bool.and_eq_true, decide_eq_true_eq]

/-- The maximum of a list of severities, taken from `m` on: an upper bound, and `m` or the severity of an entry. -/
theorem foldl_severity (l : List AlertEntry) (m : Nat) :
    m ≤ l.foldl (fun m e => max m e.severity) m ∧
      (∀ e ∈ l, e.severity ≤ l.foldl (fun m e => max m e.severity) m) ∧
      (l.foldl (fun m e => max m e.severity) m = m ∨
        ∃ e ∈ l, e.severity = l.foldl (fun m e => max m e.severity) m) := by
  induction l generalizing m with
  | nil => exact ⟨le_rfl, by simp, .inl rfl⟩
  | cons x l ih =>
    obtain ⟨hfrom, hbound, htaken⟩ := ih (max m x.severity)
    simp only [List.foldl_cons, List.mem_cons, forall_eq_or_imp, exists_eq_or_imp]
    refine ⟨(le_max_left _ _).trans hfrom, ⟨(le_max_right _ _).trans hfrom, hbound⟩, ?_⟩
    obtain htaken | htaken := htaken
    · rw [htaken]
      obtain hm | hx := max_choice m x.severity
      · exact .inl hm
      · exact .inr (.inl hx.symm)
    · exact .inr (.inr htaken)

theorem highestSeverity_le (u : AlertUnit) : u.highestSeverity ≤ 3 := by
  obtain ⟨-, -, hzero | ⟨e, -, he⟩⟩ := foldl_severity (u.list.filter fun e => decide (e.state ≠ .cleared)) 0
  · exact hzero.trans_le (Nat.zero_le 3)
  · exact he.symm.trans_le (Kind.severity_le e.kind)

theorem highestSeverity_highest (u : AlertUnit) :
    (∀ e ∈ u.list, e.state ≠ .cleared → e.severity ≤ u.highestSeverity) ∧
      (u.highestSeverity = 0 ∨ ∃ e ∈ u.list, e.state ≠ .cleared ∧ e.severity = u.highestSeverity) := by
  obtain ⟨-, hbound, htaken⟩ := foldl_severity (u.list.filter fun e => decide (e.state ≠ .cleared)) 0
  simp only [List.mem_filter, decide_eq_true_eq, and_imp, and_assoc] at hbound htaken
  exact ⟨hbound, htaken⟩

theorem severityCode_toNat {n : Nat} (h : n ≤ 3) : (severityCode n).toNat = n :=
  (BitVec.toNat_ofNat n 2).trans (Nat.mod_eq_of_lt (by omega))

theorem familiesWord_fields (u : AlertUnit) :
    (familiesWord u).extractLsb' 4 4 = 0 ∧ (familiesWord u).extractLsb' 10 6 = 0 ∧
      (familiesWord u).getLsbD 0 = u.hasNew .battery ∧ (familiesWord u).getLsbD 1 = u.hasNew .signal ∧
      (familiesWord u).getLsbD 2 = u.hasNew .mute ∧ (familiesWord u).getLsbD 3 = u.hasNew .part ∧
      ((familiesWord u).extractLsb' 8 2).toNat = u.highestSeverity := by
  have hseverity : (familiesWord u).extractLsb' 8 2 = severityCode u.highestSeverity :=
    field_above (by decide) (field_above (by decide) (field_above (by decide) (field_above (by decide)
      (field_above (by decide) field_last))))
  rw [hseverity, severityCode_toNat (highestSeverity_le u)]
  exact ⟨field_above (by decide) (field_above (by decide) (field_above (by decide) (field_above (by decide) field_last))),
    field_above (by decide) (field_above (by decide) (field_above (by decide) (field_above (by decide)
      (field_above (by decide) field_first)))),
    bit_last, bit_above (by decide) bit_last, bit_above (by decide) (bit_above (by decide) bit_last),
    bit_above (by decide) (bit_above (by decide) (bit_above (by decide) bit_last)), rfl⟩

theorem raiseChannelWord_fields (r : RaiseRecord) :
    (raiseChannelWord (some r)).extractLsb' 0 8 = r.channel.code ∧
      (raiseChannelWord (some r)).extractLsb' 8 3 = r.family.raiseCode ∧
      (raiseChannelWord (some r)).extractLsb' 11 5 = 0 :=
  ⟨field_last, field_above (by decide) field_last, field_above (by decide) field_first⟩

theorem raiseKindWord_fields (r : RaiseRecord) :
    (raiseKindWord (some r)).extractLsb' 0 4 = r.kind.code ∧
      ((raiseKindWord (some r)).extractLsb' 8 2).toNat = r.kind.severity ∧
      (raiseKindWord (some r)).extractLsb' 4 4 = 0 ∧ (raiseKindWord (some r)).extractLsb' 10 6 = 0 := by
  have hseverity : (raiseKindWord (some r)).extractLsb' 8 2 = severityCode r.kind.severity :=
    field_above (by decide) (field_above (by decide) field_last)
  rw [hseverity, severityCode_toNat (Kind.severity_le r.kind)]
  exact ⟨field_last, rfl, field_above (by decide) field_last,
    field_above (by decide) (field_above (by decide) field_first)⟩

theorem ackWord_fields (u : AlertUnit) :
    (ackWord u).extractLsb' 13 3 = u.ackResult.code ∧ (ackWord u).extractLsb' 0 13 = u.ackValue.extractLsb' 0 13 :=
  ⟨field_first, field_last⟩

/-! ## View entries and channel details (R113, R114, R115, R182) -/

theorem entryWord1_eq (e : AlertEntry) : entryWord1 (some e) = e.state.code.setWidth 16 := by
  rw [entryWord1]
  cases e.state <;> rfl

theorem detailWord0_fields (r : ChannelRecord) :
    (detailWord0 r).getLsbD 0 = r.enrolled ∧ (detailWord0 r).getLsbD 1 = decide (r.role = .chair) ∧
      (detailWord0 r).extractLsb' 2 3 = r.link.code ∧ (detailWord0 r).extractLsb' 5 3 = r.battery.code ∧
      (detailWord0 r).getLsbD 8 = r.selfMuted ∧ (detailWord0 r).getLsbD 9 = r.chairCause ∧
      (detailWord0 r).getLsbD 10 = r.floorCause ∧ (detailWord0 r).getLsbD 11 = r.squelchCause ∧
      (detailWord0 r).extractLsb' 12 4 = 0 := by
  have hrole : r.role.bit = decide (r.role = .chair) := by cases r.role <;> rfl
  rw [← hrole]
  refine ⟨bit_last, bit_above (by decide) bit_last, ?_⟩
  refine ⟨field_above (by decide) (field_above (by decide) field_last),
    field_above (by decide) (field_above (by decide) (field_above (by decide) field_last)), ?_⟩
  have hmuted {b : Bool} {i : Nat} (hi : 8 ≤ i)
      (h : (((((0 : BitVec 4) ++ BitVec.ofBool r.squelchCause) ++ BitVec.ofBool r.floorCause) ++
        BitVec.ofBool r.chairCause) ++ BitVec.ofBool r.selfMuted).getLsbD (i - 1 - 1 - 3 - 3) = b) :
      (detailWord0 r).getLsbD i = b :=
    bit_above (by omega) (bit_above (by omega) (bit_above (by omega) (bit_above (by omega) h)))
  exact ⟨hmuted (by decide) bit_last, hmuted (by decide) (bit_above (by decide) bit_last),
    hmuted (by decide) (bit_above (by decide) (bit_above (by decide) bit_last)),
    hmuted (by decide) (bit_above (by decide) (bit_above (by decide) (bit_above (by decide) bit_last))),
    field_above (by decide) (field_above (by decide) (field_above (by decide) (field_above (by decide)
      (field_above (by decide) (field_above (by decide) (field_above (by decide) field_first))))))⟩

theorem detailWord1_fields (r : ChannelRecord) :
    (detailWord1 r).extractLsb' 0 7 = r.batteryLevel.getD 127 ∧ (detailWord1 r).extractLsb' 9 7 = r.lastRf ∧
      (detailWord1 r).extractLsb' 7 2 = chemistryField r.chemistry := by
  have hlevel : levelField r.batteryLevel = r.batteryLevel.getD 127 := by cases r.batteryLevel <;> rfl
  rw [← hlevel]
  exact ⟨field_last, field_above (by decide) field_first, field_above (by decide) field_last⟩

theorem batteryConditionsField_toNat (a : ConditionSet) :
    (batteryConditionsField a).toNat = if a.critical then 3 else if a.low then 2 else if a.notice then 1 else 0 := by
  simp only [batteryConditionsField, apply_ite BitVec.toNat]
  rfl

theorem linkConditionsField_toNat (a : ConditionSet) :
    (linkConditionsField a).toNat = if a.noReport then 3 else if a.lost then 2 else if a.weak then 1 else 0 := by
  simp only [linkConditionsField, apply_ite BitVec.toNat]
  rfl

theorem audioField_toNat (a : Option (BitVec 6)) :
    (audioField a).toNat = match a with | none => 127 | some a => a.toNat := by
  cases a with
  | none => rfl
  | some a => exact (BitVec.toNat_append (0 : BitVec 1) a).trans (by simp)

theorem detailWord2_fields (r : ChannelRecord) :
    (detailWord2 r).extractLsb' 0 2 = batteryConditionsField r.active ∧
      (detailWord2 r).extractLsb' 2 2 = linkConditionsField r.active ∧
      (detailWord2 r).getLsbD 4 = r.active.dropouts ∧ (detailWord2 r).getLsbD 5 = r.active.openIdle ∧
      (detailWord2 r).getLsbD 6 = r.active.mutedSpeech ∧ (detailWord2 r).extractLsb' 7 7 = audioField r.lastAudio ∧
      ((detailWord2 r).extractLsb' 14 2).toNat = min r.speechCount 3 := by
  have hcount : (detailWord2 r).extractLsb' 14 2 = severityCode (min r.speechCount 3) :=
    field_above (by decide) (field_above (by decide) (field_above (by decide) (field_above (by decide)
      (field_above (by decide) field_first))))
  rw [hcount, severityCode_toNat (Nat.min_le_right _ _)]
  exact ⟨field_last, field_above (by decide) field_last, bit_above (by decide) (bit_above (by decide) bit_last),
    bit_above (by decide) (bit_above (by decide) (bit_above (by decide) bit_last)),
    bit_above (by decide) (bit_above (by decide) (bit_above (by decide) (bit_above (by decide) bit_last))),
    field_above (by decide) (field_above (by decide) (field_above (by decide) (field_above (by decide)
      (field_above (by decide) field_last)))), rfl⟩

theorem detailWord3_fields (r : ChannelRecord) :
    (detailWord3 r).extractLsb' 0 11 = captureCode r.capture ∧ (detailWord3 r).getLsbD 11 = r.captureHeld ∧
      (detailWord3 r).extractLsb' 12 4 = BitVec.ofNat 4 r.captureMissed :=
  ⟨field_last, bit_above (by decide) bit_last, field_above (by decide) field_first⟩

/-! ## The answer of each region (R111 to R115) -/

section
variable (seen s : State)

theorem answerRead_header {n : Nat} (hn : n < 16) (h0 : n ≠ 0) : answerRead seen n s = (s, headerWord seen n) := by
  obtain ⟨n, rfl⟩ := Nat.exists_eq_succ_of_ne_zero h0
  simp only [answerRead, regionOf, if_pos hn]

theorem answerRead_entry (i : Fin 32) (word : Fin 4) :
    answerRead seen (16 + 4 * i.val + word.val) s =
      (if word = 0 then deliverReadMark seen.view.entries[i] s else s, viewWord seen.view.entries[i] word.val) := by
  simp only [answerRead, regionOf_entry]
  fin_cases word <;> rfl

theorem answerRead_detail (c : Chan) (word : Fin 4) :
    answerRead seen (144 + 4 * c.val + word.val) s =
      (if word = 3 then deliverCaptureRelease c s else s, detailWord s.channels[c] word.val) := by
  simp only [answerRead, regionOf_detail]
  fin_cases word <;> rfl

theorem answerRead_blank {n : Nat} (hn : 400 ≤ n) : answerRead seen n s = (s, 0) := by
  simp only [answerRead, regionOf, if_neg (show ¬n < 16 by omega), dif_neg (show ¬n < 144 by omega),
    dif_neg (show ¬n < 400 by omega)]

/-- What a read returns of the view is the view's word, wherever it reads (R111, R112, R113). -/
theorem answerRead_view (n : Nat) : seen.view.WordAt n (answerRead seen n s).2 := by
  refine ⟨?_, fun i => ⟨fun hempty hfrom hto => ?_, fun x hx => ⟨?_, ?_, ?_, ?_⟩⟩⟩
  · rintro rfl
    exact (countsWord_fields seen.view seen.alert).1
  · obtain ⟨word, rfl⟩ : ∃ word : Fin 4, n = 16 + 4 * i.val + word.val :=
      ⟨⟨n - (16 + 4 * i.val), by omega⟩, by simp only []; omega⟩
    rw [answerRead_entry, hempty]
    fin_cases word <;> rfl
  · rintro rfl
    exact (congrArg Prod.snd (answerRead_entry seen s i 0)).trans (by rw [hx]; rfl)
  · intro hn
    obtain rfl : n = 16 + 4 * i.val + 1 := by omega
    exact (congrArg Prod.snd (answerRead_entry seen s i 1)).trans (by rw [hx]; exact entryWord1_eq x)
  · intro hn
    obtain rfl : n = 16 + 4 * i.val + 2 := by omega
    exact (congrArg Prod.snd (answerRead_entry seen s i 2)).trans (by rw [hx]; rfl)
  · intro hn
    obtain rfl : n = 16 + 4 * i.val + 3 := by omega
    exact (congrArg Prod.snd (answerRead_entry seen s i 3)).trans (by rw [hx]; rfl)

/-- What a read returns of the alert list unit is the unit's word, wherever it reads (R103, R104, R111). -/
theorem answerRead_alert (n : Nat) : seen.alert.WordAt n (answerRead seen n s).2 := by
  refine ⟨?_, ?_, ?_, fun r hr => ⟨?_, ?_, ?_, ?_⟩, fun hnone hfrom hto => ?_, ?_, ?_⟩
  · rintro rfl
    rfl
  · rintro rfl
    exact (countsWord_fields seen.view seen.alert).2
  · rintro rfl
    rw [answerRead_header seen s (by decide) (by decide)]
    obtain ⟨hlow, hhigh, hbattery, hsignal, hmute, hpart, hseverity⟩ := familiesWord_fields seen.alert
    simp only [headerWord, hlow, hhigh, hbattery, hsignal, hmute, hpart, hseverity, hasNew_iff, iff_self, true_and]
    exact highestSeverity_highest seen.alert
  · rintro rfl
    rw [answerRead_header seen s (by decide) (by decide), headerWord, hr]
    exact raiseChannelWord_fields r
  · rintro rfl
    rw [answerRead_header seen s (by decide) (by decide), headerWord, hr]
    exact raiseKindWord_fields r
  · rintro rfl
    rw [answerRead_header seen s (by decide) (by decide), headerWord, hr]
    rfl
  · rintro rfl
    rw [answerRead_header seen s (by decide) (by decide), headerWord, hr]
    rfl
  · rw [answerRead_header seen s (by omega) (by omega)]
    obtain rfl | rfl | rfl | rfl : n = 4 ∨ n = 5 ∨ n = 6 ∨ n = 7 := by omega
    all_goals
      rw [headerWord, hnone]
      rfl
  · rintro rfl
    exact ackWord_fields seen.alert
  · rintro rfl
    rfl

end

/-! ## The reads that change nothing (R111 to R115, R128) -/

theorem answered_same (a : Access) (data : Option Word) (s : State) :
    answered a data s = { s with path := (answered a data s).path } := rfl

section
variable {b : Bases} {s : State} {n : Nat}

/-- In a session a read of the window that delivers nothing returns its word at once and changes nothing else. -/
theorem exec_forward_alertRead (hs : s.InSession b) (ht : s.Taking) (hn : n < 512) {word : Word}
    (h : answerRead s n s = (s, word)) :
    ∃ t, exec (.forward (.read (pastBase b.alert n))) s = .next t ∧ t = { s with path := t.path } ∧
      AnsweredWith (.read (pastBase b.alert n)) (some word) s t :=
  ⟨answered (.read (pastBase b.alert n)) (some word) s,
    by show Host.Outcome.next (present _ s) = _; rw [present_alertRead hs ht hn, h],
    answered_same _ _ s, answered_answeredWith _ _ rfl⟩

/-- Out of SETTLING a read of word 36 returns the command status at once (R124, R128). -/
theorem exec_forward_status (ht : s.Taking) (hpart : s.setup.part ≠ .settling) :
    exec (.forward (.read (pastBase (setupBase s.path.straps) 36))) s =
      .next (answered (.read (pastBase (setupBase s.path.straps) 36)) (some s.setup.statusWord) s) := by
  show Host.Outcome.next (present _ s) = _
  rw [present_taking _ s ht, takeCourse, classify_status hpart]

end

/-- Settles O45: the word of each region, and the fields it was put together from. -/
theorem answeredReads : Obligations.AnsweredReads := by
  refine ⟨fun b s hs ht _ n => ?_, fun s ht hpart => ?_, fun b s hs ht => ⟨fun i n => ?_, fun n hfrom hto => ?_, fun c n => ?_⟩⟩
  · have hread := answerRead_header s s (n := n.val + 1) (by omega) (by omega)
    obtain ⟨t, ht, hsame, hdata⟩ := exec_forward_alertRead hs ht (by omega) hread
    have hview := answerRead_view s s (n.val + 1)
    have halert := answerRead_alert s s (n.val + 1)
    rw [hread] at hview halert
    refine ⟨t, _, ht, hsame, hdata, hview, halert, fun hn => ?_, fun hn => ?_, fun hn => ?_⟩
    · have hactive : s.setup.part.code = 3 := by rw [hs.1]; rfl
      rw [hn, ← hactive]
      exact stateWord_fields s.setup s.mode
    · rw [hn]
      rfl
    · obtain hn | hn | hn | hn | hn : n.val + 1 = 11 ∨ n.val + 1 = 12 ∨ n.val + 1 = 13 ∨ n.val + 1 = 14 ∨ n.val + 1 = 15 := by
        omega
      all_goals
        rw [hn]
        rfl
  · exact ⟨_, _, exec_forward_status ht hpart, answered_same _ _ s, answered_answeredWith _ _ rfl, statusWord_fields s.setup⟩
  · have hplace : 17 + 4 * i.val + n.val = 16 + 4 * i.val + n.succ.val := by
      rw [Fin.val_succ]
      omega
    have hview := answerRead_view s s (16 + 4 * i.val + n.succ.val)
    have hread := answerRead_entry s s i n.succ
    rw [if_neg (Fin.succ_ne_zero n)] at hread
    rw [hread] at hview
    rw [hplace]
    obtain ⟨t, ht, hsame, hdata⟩ := exec_forward_alertRead hs ht (by omega) hread
    exact ⟨t, _, ht, hsame, hdata, hview⟩
  · obtain ⟨t, ht, hsame, hdata⟩ := exec_forward_alertRead hs ht hto (answerRead_blank s s hfrom)
    exact ⟨t, ht, hdata, hsame⟩
  · have hread := answerRead_detail s s c n.castSucc
    rw [if_neg (show n.castSucc ≠ 3 from Fin.ne_of_lt (Fin.castSucc_lt_last n)), Fin.val_castSucc] at hread
    obtain ⟨t, ht, hsame, hdata⟩ := exec_forward_alertRead hs ht (by omega) hread
    refine ⟨t, _, ht, hsame, hdata, fun hn => ?_, fun hn => ?_, fun hn => ?_⟩
    · rw [hn]
      exact detailWord0_fields s.channels[c]
    · rw [hn]
      exact detailWord1_fields s.channels[c]
    · rw [hn]
      obtain ⟨hbattery, hlink, hdropouts, hidle, hspeech, haudio, hcount⟩ := detailWord2_fields s.channels[c]
      exact ⟨(congrArg BitVec.toNat hbattery).trans (batteryConditionsField_toNat _),
        (congrArg BitVec.toNat hlink).trans (linkConditionsField_toNat _), hdropouts, hidle, hspeech,
        (congrArg BitVec.toNat haudio).trans (audioField_toNat _), hcount⟩

end Sys2Proof.Machine
end

section
/-! PROOFS. The three accesses to the alert window that deliver something: the read mark (R97, R113), the acknowledgement write
(R98, R99, R116) and the capture release (R36, R115). -/

namespace Sys2Proof.Machine

/-! ## An answered access and what it delivers (R128) -/

theorem answered_onlyAlerts {s u : State} (a : Access) (data : Option Word) (h : OnlyAlerts s u) :
    OnlyAlerts { s with path := (answered a data u).path } (answered a data u) := by
  obtain ⟨hu, hlamps⟩ := h
  exact ⟨congrArg (fun v : State => v.setPath (answered a data u).path) hu, hlamps⟩

theorem answered_onlyChannel {c : Chan} {s u : State} (a : Access) (data : Option Word) (h : OnlyChannel c s u) :
    OnlyChannel c { s with path := (answered a data u).path } (answered a data u) := by
  obtain ⟨hu, hothers⟩ := h
  exact ⟨congrArg (fun v : State => v.setPath (answered a data u).path) hu, hothers⟩

theorem listEventIfActive_alert {f : AlertUnit → AlertUnit} {s : State} (h : s.setup.part = .active) :
    (listEventIfActive f s).alert = s.alert.event s.time.seconds f := by
  rw [listEventIfActive, if_pos h]
  rfl

/-! ## The read mark (R97, R113) -/

section
variable {b : Bases} {s : State} {i : Fin 32}

theorem exec_readMark (hs : s.InSession b) (ht : s.Taking) :
    exec (.readMark i) s = .next (answered (.read (pastBase b.alert (16 + 4 * i.val)))
      (some (entryWord0 s.view.entries[i])) (deliverReadMark s.view.entries[i] s)) := by
  have ⟨_, hbases, _⟩ := hs
  have hread : answerRead s (16 + 4 * i.val) s = (deliverReadMark s.view.entries[i] s, entryWord0 s.view.entries[i]) :=
    answerRead_entry s s i 0
  calc exec (.readMark i) s
      = .next (present (.read (pastBase b.alert (16 + 4 * i.val))) s) :=
        presentIn_bases hbases (·.alert) (16 + 4 * i.val) .read
    _ = _ := by rw [present_alertRead hs ht (by omega), hread]

theorem deliverReadMark_onlyAlerts (x : Option AlertEntry) (s : State) : OnlyAlerts s (deliverReadMark x s) := by
  cases x with
  | none => exact .refl s
  | some x => exact listEventIfActive_onlyAlerts _ s

end

theorem AlertEntry.markSeen_new {e : AlertEntry} (h : e.state = .new) : e.markSeen = { e with state := .seen } := by
  rw [AlertEntry.markSeen, h]

theorem AlertEntry.markSeen_of_ne {e : AlertEntry} (h : e.state ≠ .new) : e.markSeen = e := by
  unfold AlertEntry.markSeen
  split
  next hnew => exact absurd hnew h
  all_goals rfl

theorem AlertUnit.readMark_none {u : AlertUnit} {seq : Word} (h : ∀ e ∈ u.list, e.seq = seq → e.state ≠ .new) :
    u.readMark seq = u := by
  have hlist : mapSeq seq AlertEntry.markSeen u.list = u.list := by
    refine (List.map_congr_left fun e he => ?_).trans (List.map_id _)
    split
    next hseq => exact AlertEntry.markSeen_of_ne (h e he hseq)
    next => rfl
  rw [AlertUnit.readMark, hlist]

/-- Settles O41: the word is that of the view entry; its read mark is an event of the alert list unit that changes one state, or nothing. -/
theorem readMarkDelivered : Obligations.ReadMarkDelivered := by
  intro b i s hs ht hlawful
  refine ⟨_, _, exec_readMark hs ht, answered_onlyAlerts _ _ (deliverReadMark_onlyAlerts _ s),
    answered_answeredWith _ _ (deliverReadMark_path _ _), fun hempty => ?_, fun x hx => ?_⟩
  · rw [hempty]
    exact ⟨rfl, rfl⟩
  · rw [hx]
    have hevent : (deliverReadMark (some x) s).alert = s.alert.event s.time.seconds (AlertUnit.readMark x.seq) :=
      listEventIfActive_alert hs.1
    refine ⟨rfl, fun e he hseq hnew => ?_, fun hnone => ?_⟩
    · have hmark : s.alert.readMark x.seq =
          { s.alert with list := s.alert.list.map fun y => if y = e then { e with state := .seen } else y } := by
        rw [AlertUnit.readMark, ← hseq, hlawful.mapSeq he, AlertEntry.markSeen_new hnew]
      show StateTaken .seen e s.alert (deliverReadMark (some x) s).alert
      rw [hevent]
      exact hlawful.event_state _ he (by rw [hnew]; decide) s.alert rfl rfl rfl hmark
    · exact hevent.trans (hlawful.event_id _ (AlertUnit.readMark_none hnone))

/-! ## The acknowledgement write (R98, R99, R116) -/

section
variable {b : Bases} {s : State} {i : Fin 32}

theorem answerWrite_acknowledges (seen s : State) (i : Fin 32) (value : Word) :
    answerWrite seen (19 + 4 * i.val) value s =
      listEventIfActive (AlertUnit.acknowledgementWrite seen.view.entries[i] value) s := by
  have hregion : regionOf (19 + 4 * i.val) = .entry i 3 := by
    rw [show 19 + 4 * i.val = 16 + 4 * i.val + (3 : Fin 4).val by rw [show (3 : Fin 4).val = 3 from rfl]; omega]
    exact regionOf_entry i 3
  rw [answerWrite, hregion]
  rfl

theorem exec_acknowledgementWrite (hs : s.InSession b) (ht : s.Taking) (value : Word) :
    exec (.acknowledgementWrite i value) s = .next (answered (.write (pastBase b.alert (19 + 4 * i.val)) value) none
      (listEventIfActive (AlertUnit.acknowledgementWrite s.view.entries[i] value) s)) := by
  have ⟨_, hbases, _⟩ := hs
  calc exec (.acknowledgementWrite i value) s
      = .next (present (.write (pastBase b.alert (19 + 4 * i.val)) value) s) :=
        presentIn_bases hbases (·.alert) (19 + 4 * i.val) (.write · value)
    _ = _ := by rw [present_alertWrite hs ht (by omega), answerWrite_acknowledges]

end

section
variable {u v : AlertUnit} {stamp : Word}

theorem AlertUnit.promote_ackValue (p : UnlistedPair) : (u.promote stamp p).ackValue = u.ackValue := rfl

theorem AlertUnit.rankStep_ackValue (h : u.rankStep stamp = some v) : v.ackValue = u.ackValue := by
  simp only [AlertUnit.rankStep] at h
  split at h
  next => cases h
  next p _ =>
    split at h
    next =>
      cases h
      exact promote_ackValue p
    next =>
      split at h
      next => cases h
      next =>
        split at h
        next =>
          split at h
          next => cases h
          next q _ =>
            cases h
            exact (promote_ackValue q).trans u.evictLast_ack.2
        next => cases h

theorem AlertUnit.rankFor_ackValue (tries : Nat) : ∀ u : AlertUnit, (u.rankFor stamp tries).ackValue = u.ackValue := by
  induction tries with
  | zero => exact fun _ => rfl
  | succ tries ih =>
    intro u
    rw [AlertUnit.rankFor]
    split
    next => rfl
    next hstep => exact (ih _).trans (rankStep_ackValue hstep)

/-- An event of the unit leaves the value last written as its own change has left it (R99). -/
theorem AlertUnit.event_ackValue (f : AlertUnit → AlertUnit) : (u.event stamp f).ackValue = (f u).ackValue := by
  refine Eq.trans ?_ (rankFor_ackValue (stamp := stamp) Config.rankingTries (f u))
  exact (apply_ite AlertUnit.ackValue _ _ _).trans (ite_self _)

theorem AlertUnit.acknowledge_ackValue (value : Word) : (u.acknowledge value).ackValue = value := by
  unfold AlertUnit.acknowledge
  split
  next => rfl
  next => split <;> rfl

theorem AlertUnit.acknowledgementWrite_ackValue (x : Option AlertEntry) (value : Word) :
    (u.acknowledgementWrite x value).ackValue = value := by
  unfold AlertUnit.acknowledgementWrite
  split
  next => rfl
  next =>
    split
    next => exact acknowledge_ackValue value
    next => rfl

theorem AlertUnit.acknowledgementWrite_other {x : AlertEntry} {value : Word} (h : x.seq ≠ value) :
    u.acknowledgementWrite (some x) value = { u with ackResult := .mismatch, ackValue := value } :=
  if_neg h.symm

theorem AlertUnit.acknowledgementWrite_own {x : AlertEntry} {value : Word} (h : x.seq = value) :
    u.acknowledgementWrite (some x) value = u.acknowledge value := if_pos h.symm

theorem AlertUnit.acknowledge_gone {value : Word} (h : ∀ e ∈ u.list, e.seq ≠ value) :
    u.acknowledge value = { u with ackResult := .gone, ackValue := value } := by
  rw [AlertUnit.acknowledge, AlertUnit.entryAt_eq_none h]

theorem AlertUnit.Orderly.acknowledge_accepted (h : u.Orderly) {e : AlertEntry} (he : e ∈ u.list)
    (hs : e.state = .new ∨ e.state = .seen) :
    u.acknowledge e.seq = { u with
      list := u.list.map fun x => if x = e then { e with state := .acked } else x
      ackResult := .accepted, ackValue := e.seq } := by
  rw [AlertUnit.acknowledge, h.entryAt he]
  obtain hs | hs := hs
  all_goals simp only [hs, h.mapSeq he]

theorem AlertUnit.Orderly.acknowledge_already (h : u.Orderly) {e : AlertEntry} (he : e ∈ u.list) (hs : e.state = .acked) :
    u.acknowledge e.seq = { u with ackResult := .already, ackValue := e.seq } := by
  rw [AlertUnit.acknowledge, h.entryAt he]
  simp only [hs]

theorem AlertUnit.Orderly.acknowledge_cleared (h : u.Orderly) {e : AlertEntry} (he : e ∈ u.list) (hs : e.state = .cleared) :
    u.acknowledge e.seq = { u with
      list := u.list.filter fun x => decide (x ≠ e), ackResult := .accepted, ackValue := e.seq } := by
  have hlist : (u.list.filter fun x => decide (x.seq ≠ e.seq)) = u.list.filter fun x => decide (x ≠ e) :=
    List.filter_congr fun x hx => by
      rw [decide_eq_decide]
      exact ⟨fun hseq hxe => hseq (by rw [hxe]), fun hxe hseq => hxe (h.seq_unique hx he hseq)⟩
  rw [AlertUnit.acknowledge, h.entryAt he, hlist]
  simp only [hs]

end

/-- Settles O42: the rows of R116 in their order, each as an event of the alert list unit. -/
theorem acknowledgementWrite : Obligations.AcknowledgementWrite := by
  intro b i value s hs ht hlawful
  let u := listEventIfActive (AlertUnit.acknowledgementWrite s.view.entries[i] value) s
  have hevent : u.alert = s.alert.event s.time.seconds (AlertUnit.acknowledgementWrite s.view.entries[i] value) :=
    listEventIfActive_alert hs.1
  refine ⟨_, exec_acknowledgementWrite hs ht value, answered_onlyAlerts _ _ (listEventIfActive_onlyAlerts _ s),
    answered_answeredWith _ _ (listEventIfActive_path _ s), ?_⟩
  show u.alert.ackValue = value ∧ (s.view.entries[i] = none → u.alert = _) ∧
    (∀ x, s.view.entries[i] = some x → x.seq ≠ value → u.alert = _) ∧ ∀ x, s.view.entries[i] = some x → x.seq = value →
      ((∀ e ∈ s.alert.list, e.seq ≠ value) → u.alert = _) ∧ ∀ e ∈ s.alert.list, e.seq = value →
        (e.state = .new ∨ e.state = .seen → StateTaken .acked e _ u.alert) ∧ (e.state = .acked → u.alert = _) ∧
          (e.state = .cleared → TakenOut s.time.seconds e _ u.alert)
  rw [hevent]
  refine ⟨(AlertUnit.event_ackValue _).trans (AlertUnit.acknowledgementWrite_ackValue _ value), fun hnone => ?_,
    fun x hx hother => ?_, fun x hx hown => ?_⟩
  · rw [hnone]
    exact hlawful.event_besides _ rfl rfl rfl rfl
  · rw [hx]
    exact hlawful.event_besides _ (AlertUnit.acknowledgementWrite_other hother) rfl rfl rfl
  · rw [hx]
    have hwrite := AlertUnit.acknowledgementWrite_own (u := s.alert) hown
    refine ⟨fun hgone => ?_, ?_⟩
    · exact hlawful.event_besides _ (hwrite.trans (AlertUnit.acknowledge_gone hgone)) rfl rfl rfl
    · rintro e he rfl
      refine ⟨fun hstate => ?_, fun hstate => ?_, fun hstate => ?_⟩
      · have hunacked : e.state ≠ .acked := by
          obtain hstate | hstate := hstate
          all_goals
            rw [hstate]
            decide
        exact hlawful.event_state _ he hunacked { s.alert with ackResult := .accepted, ackValue := e.seq } rfl rfl rfl
          (hwrite.trans (hlawful.acknowledge_accepted he hstate))
      · exact hlawful.event_besides _ (hwrite.trans (hlawful.acknowledge_already he hstate)) rfl rfl rfl
      · exact hlawful.event_takenOut _ he { s.alert with ackResult := .accepted, ackValue := e.seq } rfl rfl rfl
          (hwrite.trans (hlawful.acknowledge_cleared he hstate))

/-! ## The capture release (R36, R115) -/

theorem exec_captureRelease {b : Bases} {s : State} (hs : s.InSession b) (ht : s.Taking) (c : Chan) :
    exec (.captureRelease c) s = .next (answered (.read (pastBase b.alert (147 + 4 * c.val)))
      (some (detailWord3 s.channels[c])) (channelEvent c ChannelRecord.release s)) := by
  have ⟨_, hbases, _⟩ := hs
  have hplace : 147 + 4 * c.val = 144 + 4 * c.val + (3 : Fin 4).val := by
    rw [show (3 : Fin 4).val = 3 from rfl]
    omega
  have hread : answerRead s (147 + 4 * c.val) s = (channelEvent c ChannelRecord.release s, detailWord3 s.channels[c]) := by
    rw [hplace]
    exact answerRead_detail s s c 3
  calc exec (.captureRelease c) s
      = .next (present (.read (pastBase b.alert (147 + 4 * c.val))) s) :=
        presentIn_bases hbases (·.alert) (147 + 4 * c.val) .read
    _ = _ := by rw [present_alertRead hs ht (by omega), hread]

/-- Settles O43: the word is that of the record as it stands; the release is an event of the channel that changes two fields. -/
theorem captureReleased : Obligations.CaptureReleased := by
  intro b c s hs ht hlawful
  obtain ⟨hcode, hheld, hmissed⟩ := detailWord3_fields s.channels[c]
  refine ⟨_, _, exec_captureRelease hs ht c, answered_onlyChannel _ _ (channelEvent_onlyChannel c _ s),
    channelEvent_reported c _ s s rfl rfl rfl, channelEvent_judged c _ s s rfl rfl,
    answered_answeredWith _ _ (channelEvent_path c _ s), hcode, hheld, ?_, channelEvent_linkPart c _ s,
    channelEvent_batteryPart c _ s, channelEvent_memberPart c _ s, channelEvent_speechPart c _ s⟩
  rw [hmissed, BitVec.toNat_ofNat]
  exact Nat.mod_eq_of_lt (Nat.lt_succ_of_le hlawful.missed.1)

end Sys2Proof.Machine
end

section
/-! PROOFS. HALT (R171): what it leaves, when it is taken, and the answer of an access to the alert window that it overtakes (R119). -/

namespace Sys2Proof.Machine

/-! ## What HALT leaves (R10, R106, R108, R171) -/

theorem takeMembership_toEnforcement (w : SetupWords) (c : Chan) (rest : List ToEvaluator) (s : State) :
    (takeMembership w c rest s).mail.toEnforcement = s.mail.toEnforcement := by
  simp only [takeMembership, membershipEvent]
  split
  · rfl
  · rfl
  · split <;> rfl
  · rfl

theorem sweepMembership_toEnforcement (w : SetupWords) (cs : List Chan) (rest : List ToEvaluator) :
    ∀ s : State, (sweepMembership w cs rest s).mail.toEnforcement = s.mail.toEnforcement := by
  induction cs with
  | nil => exact fun _ => rfl
  | cons c cs ih => exact fun s => (ih _).trans (takeMembership_toEnforcement w c rest s)

theorem takeChair_toEnforcement (c : Chan) (set : Bool) (rest : List ToEvaluator) (s : State) :
    (takeChair c set rest s).mail.toEnforcement = s.mail.toEnforcement := by
  simp only [takeChair]
  split <;> rfl

/-- The requests that HALT has the evaluator take first send nothing to the enforcement unit but notices (R11, R56). -/
theorem takeRequests_toEnforcement (ms : List ToEvaluator) :
    ∀ s : State, (takeRequests ms s).mail.toEnforcement = s.mail.toEnforcement := by
  induction ms with
  | nil => exact fun _ => rfl
  | cons m rest ih =>
    intro s
    cases m with
    | tableReset c => rfl
    | chair c set => exact (ih _).trans (takeChair_toEnforcement c set rest s)
    | membership w c => exact (ih _).trans (sweepMembership_toEnforcement w _ rest s)

theorem Freeze.afterHalt_eq (f : Freeze) : f.afterHalt = if f = .session then .none else f := by cases f <;> rfl

theorem commandHalt_state (s : State) : commandHalt s = { s with
    channels := Vector.replicate 64 .powerReset
    alert :=
      { list := [], unlisted := [], nextSeq := 1, gen := 0, latest := none, ackResult := .noEntry, ackValue := 0 }
    lamps := s.lamps.derive []
    setup := { s.setup with
      part := .releasing, result := .inProgress, lastCode := 0x03#8
      freeze := if s.setup.freeze = .session then .none else s.setup.freeze }
    staging := Vector.replicate 64 { link := none, battery := none, switch := none }
    view := { gen := 0, count := 0, entries := Vector.replicate 32 none }
    mail := { (takeRequests s.mail.toEvaluator s).mail with
      toEvaluator := []
      toList := []
      toEnforcement := s.mail.toEnforcement ++ [.halt] } } := by
  have hsent := takeRequests_toEnforcement s.mail.toEvaluator s
  obtain ⟨channels, mail, hrequests⟩ := takeRequests_frame s.mail.toEvaluator s
  rw [hrequests] at hsent ⊢
  rw [commandHalt, hrequests, ← Freeze.afterHalt_eq, ← hsent]
  rfl

theorem takeCommand_halt {s : State} (hpart : s.setup.part = .active) (hresult : s.setup.result ≠ .inProgress)
    (low : BitVec 8) : takeCommand (0x03#8 ++ low) s = commandHalt s :=
  takeCommand_carriedOut (k := .halt) hresult (by rw [commandCode_append]; rfl) hpart

theorem haltTaken_commandHalt {s u : State} (hpart : s.setup.part = .active) (hu : u.setup = (commandHalt s).setup) :
    haltTaken s u = true := by
  rw [haltTaken, hu, commandHalt_state, hpart]
  rfl

section
variable {s : State} (ht : s.Taking) (hpart : s.setup.part = .active) (hresult : s.setup.result ≠ .inProgress)
  (low : BitVec 8)
include ht hpart hresult

/-- HALT carried out: the write waits for the taking of HALT, and the part is as HALT leaves it (R126, R171). -/
theorem exec_halt_carriedOut : exec (.halt low none) s = .next
    (serve (s.commandWrite (0x03#8 ++ low)) (s.commandWrite (0x03#8 ++ low)) true (commandHalt s)) := by
  have hsettled : s.setup.part ≠ .settling := by
    rw [hpart]
    decide
  show Host.Outcome.next (present (s.commandWrite (0x03#8 ++ low)) s) = _
  rw [present_commandWrite ht hsettled, takeCommand_halt hpart hresult, haltTaken_commandHalt hpart rfl]

theorem exec_halt_overtakes {t : State} (h : exec (.halt low none) s = .next t) (o : Overtaken) :
    exec (.halt low (some o)) s = if s.answersWindow o.access = true then
      .next { t with path := { t.path with answering := some (Answering.of o s) } } else .next t := by
  have hexec := exec_halt_carriedOut ht hpart hresult low
  have htaken : haltTaken s t = true := by
    obtain rfl := Host.Outcome.next.inj (hexec.symm.trans h)
    exact haltTaken_commandHalt hpart rfl
  obtain rfl : present (s.commandWrite (0x03#8 ++ low)) s = t := Host.Outcome.next.inj h
  by_cases hanswers : s.answersWindow o.access = true
  · rw [if_pos hanswers]
    exact if_pos ⟨ht.1, htaken, hanswers⟩
  · rw [if_neg hanswers]
    exact if_neg fun ⟨_, _, hothers⟩ => hanswers hothers

end

/-! ## HALT not taken (R131, R168) -/

/-- HALT written where it is not carried out at once is not taken (R129, R131, R168). -/
theorem haltTaken_present_command {s : State} (w : Word) (ht : s.portTakes = true)
    (h : s.busCeded = true ∨ s.setup.part ≠ .active ∨ s.setup.result = .inProgress) :
    haltTaken s (present (s.commandWrite w) s) = false := by
  by_cases hceded : s.busCeded = true
  · refine haltTaken_samePart ?_
    rw [present, if_pos ht, arrive, if_pos hceded]
    rfl
  · by_cases hpart : s.setup.part = .active
    · have hsettled : s.setup.part ≠ .settling := by
        rw [hpart]
        decide
      have hbusy : s.setup.result = .inProgress :=
        (h.resolve_left hceded).resolve_left (not_not_intro hpart)
      rw [present_commandWrite ⟨ht, Bool.eq_false_iff.2 hceded⟩ hsettled, takeCommand_busy hbusy]
      exact haltTaken_samePart rfl
    · exact haltTaken_notActive hpart _

theorem exec_halt_notTaken (low : BitVec 8) (o : Overtaken) {s : State}
    (h : s.portTakes = false ∨ s.busCeded = true ∨ s.setup.part ≠ .active ∨ s.setup.result = .inProgress) :
    exec (.halt low (some o)) s = exec (.halt low none) s := by
  refine if_neg fun ⟨ht, htaken, _⟩ => ?_
  have hnot := haltTaken_present_command (0x03#8 ++ low) ht (h.resolve_left (by rw [ht]; decide))
  exact Bool.false_ne_true (hnot.symm.trans htaken)

theorem answersWindow_iff (s : State) (a : Access) :
    s.answersWindow a = true ↔ (∃ n, s.classify a = .answerRead n) ∨ ∃ n w, s.classify a = .answerWrite n w := by
  rw [State.answersWindow]
  cases s.classify a <;> simp

/-! ## The answer of an access that HALT has overtaken (R119) -/

/-- The word is zero where the answer reads nothing that outlives HALT. -/
theorem wordAfterHalt_zero (s : State) {n : Nat} (hpart : n ≠ 2) (hseconds : n ≠ 9)
    (h : n < 144 ∨ 400 ≤ n ∨ n % 4 = 0 ∨ n % 4 = 3) : s.WordAfterHalt n 0 :=
  ⟨fun hn => absurd hn hpart, fun hn => absurd hn hseconds, fun _ _ _ => by omega, fun _ _ _ => by omega,
    fun _ _ _ => rfl⟩

section
variable {s : State} {seen : State}

/-- What the answer reads beside the view and the alert list unit, it reads as HALT has left it. -/
theorem answerRead_besidesList (h : s.AfterHalt) (hsetup : seen.setup = s.setup) (hmode : seen.mode = s.mode)
    (hseconds : seen.time.seconds = s.time.seconds) {n : Nat} (hn : n < 512)
    (hplace : n = 2 ∨ n = 9 ∨ (11 ≤ n ∧ n < 16) ∨ 144 ≤ n) : s.WordAfterHalt n (answerRead seen n s).2 := by
  obtain ⟨hrecords, -, -⟩ := h
  obtain rfl | rfl | ⟨hfrom, hto⟩ | hfrom := hplace
  · rw [answerRead_header seen s (by decide) (by decide), headerWord, hsetup, hmode]
    exact ⟨fun _ => stateWord_fields s.setup s.mode, by omega, by omega, by omega, by omega⟩
  · rw [answerRead_header seen s (by decide) (by decide), headerWord, hseconds]
    exact ⟨by omega, fun _ => rfl, by omega, by omega, by omega⟩
  · rw [answerRead_header seen s hto (by omega)]
    have hzero : headerWord seen n = 0 := by
      obtain rfl | rfl | rfl | rfl | rfl : n = 11 ∨ n = 12 ∨ n = 13 ∨ n = 14 ∨ n = 15 := by omega
      all_goals rfl
    rw [hzero]
    exact wordAfterHalt_zero s (by omega) (by omega) (.inl (by omega))
  · by_cases hto : n < 400
    · obtain ⟨c, word, rfl⟩ : ∃ (c : Chan) (word : Fin 4), n = 144 + 4 * c.val + word.val :=
        ⟨⟨(n - 144) / 4, by omega⟩, ⟨(n - 144) % 4, by omega⟩, by simp only []; omega⟩
      rw [answerRead_detail, hrecords c]
      fin_cases word
      · exact wordAfterHalt_zero s (by omega) (by omega) (.inr (.inr (.inl (by simp only []; omega))))
      · exact ⟨by simp only []; omega, by simp only []; omega, fun _ _ _ => rfl, by simp only []; omega, by simp only []; omega⟩
      · exact ⟨by simp only []; omega, by simp only []; omega, by simp only []; omega, fun _ _ _ => rfl, by simp only []; omega⟩
      · exact wordAfterHalt_zero s (by omega) (by omega) (.inr (.inr (.inr (by simp only []; omega))))
    · rw [answerRead_blank seen s (by omega)]
      exact wordAfterHalt_zero s (by omega) (by omega) (.inr (.inl (by omega)))

/-- An answer that reads nothing before HALT reads all as HALT has left it. -/
theorem answerRead_afterHalt (h : s.AfterHalt) (hsetup : seen.setup = s.setup) (hmode : seen.mode = s.mode)
    (hseconds : seen.time.seconds = s.time.seconds) (hview : seen.view = s.view) (halert : seen.alert = s.alert) {n : Nat}
    (hn : n < 512) : s.WordAfterHalt n (answerRead seen n s).2 := by
  by_cases hplace : n = 2 ∨ n = 9 ∨ (11 ≤ n ∧ n < 16) ∨ 144 ≤ n
  · exact answerRead_besidesList h hsetup hmode hseconds hn hplace
  · obtain ⟨-, hlist, hempty⟩ := h
    have hzero : (answerRead seen n s).2 = 0 := by
      by_cases hheader : n < 16
      · rw [hlist] at halert
        rw [hempty] at hview
        obtain rfl | hn0 := Nat.eq_zero_or_pos n
        · show seen.alert.gen = 0
          rw [halert]
        · rw [answerRead_header seen s hheader (by omega)]
          obtain rfl | rfl | rfl | rfl | rfl | rfl | rfl | rfl : n = 1 ∨ n = 3 ∨ n = 4 ∨ n = 5 ∨ n = 6 ∨ n = 7 ∨ n = 8 ∨ n = 10 := by
            omega
          all_goals
            simp only [headerWord, halert, hview] <;> rfl
      · obtain ⟨-, hentries⟩ := answerRead_view seen s n
        obtain ⟨hentry, -⟩ := hentries ⟨(n - 16) / 4, by omega⟩
        refine hentry ?_ (by simp only []; omega) (by simp only []; omega)
        rw [hview, hempty]
        exact Vector.getElem_replicate _
    rw [hzero]
    exact wordAfterHalt_zero s (by omega) (by omega) (.inl (by omega))

end

/-! ### What the answer delivers is discarded (R84, R119) -/

theorem takeSnapshot_afterHalt {s : State} (h : s.AfterHalt) : takeSnapshot s = s := by
  obtain ⟨-, hlist, hempty⟩ := h
  have hview : (takeSnapshot s).view = s.view := by
    rw [hempty]
    simp only [takeSnapshot, State.setView, hlist, List.length_nil, List.getElem?_nil]
    exact congrArg (View.mk 0 0) (Vector.ext fun i hi => by simp)
  exact congrArg s.setView hview

theorem deliverReadMark_inactive (x : Option AlertEntry) {s : State} (h : s.setup.part ≠ .active) :
    deliverReadMark x s = s := by
  cases x with
  | none => rfl
  | some x => exact listEventIfActive_discards _ h

theorem deliverCaptureRelease_afterHalt {s : State} (h : s.AfterHalt) (c : Chan) : deliverCaptureRelease c s = s := by
  have hrecord : eventRecord c ChannelRecord.release s = s.channels[c] := by
    rw [eventRecord, h.1 c]
    rfl
  have hchannels : s.channels.set c s.channels[c] = s.channels := Vector.set_getElem_self c.isLt
  have hcauses : causesDiffer s.channels[c] s.channels[c] = false := by
    rw [h.1 c]
    rfl
  rw [deliverCaptureRelease, channelEvent_eq, hrecord, hcauses, hchannels]
  simp [conditionEvents]

/-- The answer to a read, once HALT has been taken, changes nothing. -/
theorem answerRead_state_afterHalt (seen : State) {s : State} (h : s.AfterHalt) (hpart : s.setup.part ≠ .active) (n : Nat) :
    (answerRead seen n s).1 = s := by
  unfold answerRead
  split
  · exact takeSnapshot_afterHalt h
  · rfl
  · exact deliverReadMark_inactive _ hpart
  · rfl
  · exact deliverCaptureRelease_afterHalt h _
  · rfl
  · rfl

/-- The answer to a write, once HALT has been taken, changes nothing. -/
theorem answerWrite_inactive (seen : State) {s : State} (hpart : s.setup.part ≠ .active) (n : Nat) (value : Word) :
    answerWrite seen n value s = s := by
  unfold answerWrite
  split
  · exact listEventIfActive_discards _ hpart
  all_goals rfl

section
variable {s : State} {b : Bases} {o : Answering} {n : Nat} (hb : s.path.bases = some b) (hw : b.Apart s.path.straps)
  (hn : n < 512)
include hb hw hn

theorem answerOvertaken_read {x : Addr} (hread : o.access = .read x) (hx : x = pastBase b.alert n)
    (hpart : s.setup.part ≠ .active) (h : s.AfterHalt) {t : State} (ht : s.setPath { s.path with answering := none } = t) :
    answerOvertaken o s = answered o.access (some (answerRead (t.seenBy o) n t).2) t := by
  have hcourse : sessionCourse .active s.path.bases o.access = .answerRead n := by
    rw [hb, hread]
    exact sessionCourse_alert b (.read x) n hn hw hx
  have hstate : (answerRead (t.seenBy o) n t).1 = t := by
    obtain rfl := ht
    exact answerRead_state_afterHalt (s := s.setPath { s.path with answering := none }) _ h hpart n
  simp only [answerOvertaken, hcourse, ht, hstate]

theorem answerOvertaken_write {x : Addr} {value : Word} (hwrite : o.access = .write x value) (hx : x = pastBase b.alert n)
    (hpart : s.setup.part ≠ .active) {t : State} (ht : s.setPath { s.path with answering := none } = t) :
    answerOvertaken o s = answered o.access none t := by
  have hcourse : sessionCourse .active s.path.bases o.access = .answerWrite n value := by
    rw [hb, hwrite]
    exact sessionCourse_alert b (.write x value) n hn hw hx
  have hstate : answerWrite (t.seenBy o) n value t = t := by
    obtain rfl := ht
    exact answerWrite_inactive (s := s.setPath { s.path with answering := none }) _ hpart n value
  simp only [answerOvertaken, hcourse, ht, hstate]

end

/-- The overtaken access, presented again, is answered, and then the one that stayed presented arrives (R119, R131). -/
theorem exec_forward_overtaken {s : State} {o : Answering} {data : Option Word} (hwaits : s.path.answering = some o)
    (hreset : s.powerReset = false) (hbus : s.lines.busrst = false)
    (hanswer : answerOvertaken o s = answered o.access data (s.setPath { s.path with answering := none })) :
    ∃ t, exec (.forward o.access) s = .next t ∧
      Arrived { s with path := { s.path with
        answering := none, completion := some { access := o.access, data := data } } } t := by
  have harrived := takePresented_arrived (answerOvertaken o s)
  refine ⟨_, congrArg Host.Outcome.next (present_answering hwaits hreset hbus), ?_⟩
  rw [hanswer] at harrived ⊢
  exact harrived

/-- Settles O16: HALT carried out, HALT not taken, and the answer it leaves waiting. -/
theorem haltCommand : Obligations.HaltCommand := by
  refine ⟨fun low s ht hpart hresult => ?_, fun low o s h => exec_halt_notTaken low o h,
    fun b n o s hb hw hn haddr hwaits hreset hbus hpart hafter => ?_⟩
  · have hexec := exec_halt_carriedOut ht hpart hresult low
    refine ⟨_, _, takeRequests_caughtUp _ s rfl, hexec, ?_, fun l => ⟨?_, ?_⟩, fun o => ⟨fun hanswers => ?_, fun hread hwrite => ?_⟩⟩
    · have hserved := serve_writeServed (s.commandWrite (0x03#8 ++ low)) true (commandHalt s)
      rw [commandHalt_state] at hserved ⊢
      exact hserved
    · show LampTaken (s.lamps.get l) ((commandHalt s).lamps.get l)
      rw [commandHalt_state]
      exact derive_taken [] s.lamps l
    · show ((commandHalt s).lamps.get l).mode = .off
      rw [commandHalt_state]
      exact clearAlerts_mode s l
    · exact (exec_halt_overtakes ht hpart hresult low hexec o).trans (if_pos ((answersWindow_iff s o.access).2 hanswers))
    · refine (exec_halt_overtakes ht hpart hresult low hexec o).trans (if_neg fun hanswers => ?_)
      obtain ⟨n, hn⟩ | ⟨n, w, hn⟩ := (answersWindow_iff s o.access).1 hanswers
      · exact hread n hn
      · exact hwrite n w hn
  · cases haccess : o.access with
    | read x =>
      rw [haccess] at haddr
      let u := s.setPath { s.path with answering := none }
      have hanswer := answerOvertaken_read (t := u) hb hw hn haccess haddr hpart hafter rfl
      obtain ⟨t, hexec, harrived⟩ := exec_forward_overtaken hwaits hreset hbus hanswer
      rw [haccess] at hexec harrived
      refine ⟨t, _, hexec, fun _ _ hwrite => (nomatch hwrite),
        fun _ _ => ⟨_, rfl, fun hview hlist => ?_, answerRead_view (u.seenBy o) u n, answerRead_alert (u.seenBy o) u n,
          fun hplace => ?_⟩, harrived⟩
      · exact answerRead_afterHalt (s := u) (seen := u.seenBy o) hafter rfl rfl rfl (congrArg (Option.getD · s.view) hview)
          (congrArg (Option.getD · s.alert) hlist) hn
      · exact answerRead_besidesList (s := u) (seen := u.seenBy o) hafter rfl rfl rfl hn hplace
    | write x value =>
      rw [haccess] at haddr
      obtain ⟨t, hexec, harrived⟩ :=
        exec_forward_overtaken hwaits hreset hbus (answerOvertaken_write hb hw hn haccess haddr hpart rfl)
      rw [haccess] at hexec harrived
      exact ⟨t, none, hexec, fun _ _ _ => rfl, fun _ hread => (nomatch hread), harrived⟩

end Sys2Proof.Machine
end

section
/-! PROOFS. How accesses come to the processor port (R120, R125, R129, R131): the commands that present one, the commands that present
none, the access that is held and the one that stays presented. -/

namespace Sys2Proof.Machine

/-! ## The commands that present an access -/

theorem presentIn_noBases {s : State} (hb : s.path.bases = none) (base : Bases → Addr) (place : Nat) (mk : Addr → Access) :
    presentIn base place mk s = .next s := by
  simp only [presentIn, hb]

/-- A window command presents its access as FORWARD does, if there is a window (log 9). -/
theorem presentIn_accessOf (base : Bases → Addr) (place : Nat) (mk : Addr → Access) (s : State) :
    (∀ a, (s.path.bases.map fun b => mk (pastBase (base b) place)) = some a →
      presentIn base place mk s = exec (.forward a) s) ∧
    ((s.path.bases.map fun b => mk (pastBase (base b) place)) = none → presentIn base place mk s = .next s) := by
  cases hb : s.path.bases with
  | none => exact ⟨fun a ha => (nomatch ha), fun _ => presentIn_noBases hb base place mk⟩
  | some b =>
    refine ⟨fun a ha => ?_, fun hnone => nomatch hnone⟩
    obtain rfl := Option.some.inj ha
    exact presentIn_bases hb base place mk

theorem exec_accessOf (i : Instr) (s : State) (h : presentsAccess i = true) :
    (∀ a, accessOf s i = some a → (∀ low b, i ≠ .halt low (some b)) → exec i s = exec (.forward a) s) ∧
      (accessOf s i = none → exec i s = .next s) := by
  have window {base : Bases → Addr} {place : Nat} {mk : Addr → Access}
      (ha : accessOf s i = s.path.bases.map fun b => mk (pastBase (base b) place)) (hi : exec i s = presentIn base place mk s) :
      (∀ a, accessOf s i = some a → (∀ low b, i ≠ .halt low (some b)) → exec i s = exec (.forward a) s) ∧
        (accessOf s i = none → exec i s = .next s) := by
    rw [ha, hi]
    have ⟨hsome, hnone⟩ := presentIn_accessOf base place mk s
    exact ⟨fun a ha _ => hsome a ha, hnone⟩
  cases i with
  | forward | heldAccess | setupCopyWrite | start | apply | mute | unmute | ackAll | unknownCode =>
    refine ⟨fun a ha _ => ?_, fun hnone => nomatch hnone⟩
    obtain rfl := Option.some.inj ha
    rfl
  | halt low answering =>
    refine ⟨fun a ha hplain => ?_, fun hnone => nomatch hnone⟩
    obtain rfl := Option.some.inj ha
    cases answering with
    | none => rfl
    | some o => exact absurd rfl (hplain low o)
  | stagingFill c word data => exact window (base := (·.telemetry)) (mk := (.write · data)) rfl rfl
  | commit c data => exact window (base := (·.telemetry)) (mk := (.write · data)) rfl rfl
  | writeFilter c data => exact window (base := (·.gain)) (mk := (.write · data)) rfl rfl
  | snapshot | readMark | captureRelease => exact window (base := (·.alert)) (mk := .read) rfl rfl
  | acknowledgementWrite i value => exact window (base := (·.alert)) (mk := (.write · value)) rfl rfl
  | discardedWrite offset data => exact window (base := (·.alert)) (mk := (.write · data)) rfl rfl
  | _ => exact absurd h Bool.false_ne_true

/-! ## The commands that present none -/

section
variable (s : State)

@[simp] theorem dropNotice_path : s.dropNotice.path = s.path := rfl
@[simp] theorem dropToEnforcement_path : s.dropToEnforcement.path = s.path := rfl
@[simp] theorem dropToSetup_path : s.dropToSetup.path = s.path := rfl
@[simp] theorem dropStall_path : s.dropStall.path = s.path := rfl
@[simp] theorem dropToList_path : s.dropToList.path = s.path := rfl

theorem takeCondition_path (c : Chan) (f : AlertUnit → AlertUnit) : (takeCondition c f s).path = s.path := by
  unfold takeCondition
  split
  · exact listEventIfActive_path f s
  · rfl

end

section
variable {unheld : Prop} {before : Option InProgress} {s : State}

theorem resetBlocks_portQuiet (hp : PortQuiet unheld before s) : PortQuiet unheld before (resetBlocks s) :=
  ⟨hp.1, fun _ => ⟨rfl, fun _ h => nomatch h⟩⟩

theorem busReset_portQuiet (hp : PortQuiet unheld before s) : PortQuiet unheld before (busReset s) := by
  obtain ⟨hpresented, hquiet⟩ := hp
  exact ⟨hpresented, fun h => ⟨rfl, (hquiet h).2⟩⟩

theorem endProcessor_portQuiet (data : Option Word) (hp : PortQuiet unheld before s) :
    PortQuiet unheld before (s.setPath (s.path.endProcessor data)) := by
  obtain ⟨hpresented, hquiet⟩ := hp
  cases hprocessor : s.path.processor with
  | none =>
    have hsame : s.path.endProcessor data = s.path := by rw [PathUnit.endProcessor, hprocessor]
    rw [hsame]
    exact ⟨hpresented, hquiet⟩
  | some p =>
    have hended : s.path.endProcessor data = { s.path with processor := some { p with ended := true, data := data } } := by
      rw [PathUnit.endProcessor, hprocessor]
    rw [hended]
    refine ⟨hpresented, fun h => ⟨(hquiet h).1, fun q hq => ?_⟩⟩
    obtain rfl := Option.some.inj hq
    exact (hquiet h).2 p hprocessor

end

/-- No command that presents none brings an access to the processor port (R120). -/
theorem happens_portQuiet {i : Instr} {s t : State} (h : Happens i s t) (hpresented : s.path.presented = none) :
    PortQuiet (s.path.held = none) s.path.processor t := by
  have hs := s.portQuiet hpresented
  cases h with
  | stays => exact hs
  | powerAsserted => exact resetBlocks_portQuiet (hs.of_path (by simp))
  | powerReleased => exact takePresented_portQuiet _ (hs.of_same rfl rfl rfl)
  | busAsserted =>
    exact busReset_portQuiet (PortQuiet.of_path (finishHalt_portQuiet _ (finishAnswer_portQuiet _ hs)) rfl)
  | busReleased => exact takePresented_portQuiet _ (hs.of_path (by simp))
  | memoryEnded _ a =>
    have hended : PortQuiet (s.path.held = none) s.path.processor
        ((s.setMemory (storeAt a s.memory)).setPath s.path.portEnded) :=
      PortQuiet.of_path (portEnded_portQuiet s hs) rfl
    exact takePresented_portQuiet _ (completeEnded_portQuiet _ (endProcessor_portQuiet (fetchAt a s.memory) hended))
  | haltTaken => exact takePresented_portQuiet _ (completeEnded_portQuiet _ (hs.of_path (by simp)))
  | ceded => exact beginCeded_portQuiet _ (hs.of_path (by simp))
  | cedeEnded => exact endBrokenCede_portQuiet _ (hs.of_path rfl)
  | burstWriteEnded => exact afterOwnAccess_portQuiet _ (PortQuiet.of_path (portEnded_portQuiet s hs) (by simp))
  | loadReadDropped => exact afterOwnAccess_portQuiet _ (PortQuiet.of_path (portEnded_portQuiet s hs) (by simp))
  | loadReadEnded => exact advanceLoad_portQuiet _ _ _ (PortQuiet.of_path (portEnded_portQuiet s hs) (by simp))
  | conditionTaken => exact hs.of_path (takeCondition_path _ _ _)
  | stalled => split <;> exact hs.of_path rfl
  | _ => exact hs.of_path (by simp)

/-! ## The obligation -/

theorem present_held {a : Access} {s : State} (ht : s.portTakes = true) (hcede : s.lines.cede = true)
    (hclaim : s.enf.claim = .claiming ∨ s.enf.claim = .ceded) :
    present a s = { s with path := { s.path with held := some a, completion := none } } := by
  have hceded : s.busCeded = true := by
    rw [State.busCeded, hcede, State.claimLine]
    obtain hclaim | hclaim := hclaim
    all_goals
      rw [hclaim]
      rfl
  rw [present, if_pos ht, arrive, if_pos hceded]
  rfl

theorem portTakes_eq_false {s : State} (h : s.powerReset = true ∨ s.lines.busrst = true ∨
    (s.path.processor ≠ none ∨ s.path.held ≠ none ∨ s.path.answering ≠ none)) : s.portTakes = false := by
  simp only [State.portTakes, Bool.and_eq_false_iff, Bool.not_eq_false', Option.isNone_eq_false_iff, or_assoc,
    Option.isSome_iff_ne_none]
  exact h

/-- Settles O9: each command by the access it presents; the others by what they bring to the port. -/
theorem accessesArePresented : Obligations.AccessesArePresented := by
  refine ⟨exec_accessOf, fun i s t hi hexec hpresented => ?_, fun a s i hi => ?_, fun a s ht hcourse i hi => ?_⟩
  · obtain ⟨u, hu, hhappens⟩ := exec_happens hi s
    obtain rfl := Host.Outcome.next.inj (hu.symm.trans hexec)
    obtain ⟨hquiet, hunheld⟩ := happens_portQuiet hhappens hpresented
    exact ⟨hquiet, fun h => (hunheld h).2⟩
  · have hexec : exec i s = .next (present a s) := by
      simp only [List.mem_cons, List.not_mem_nil, or_false] at hi
      obtain rfl | rfl := hi <;> rfl
    rw [hexec]
    refine ⟨fun ht hcede hclaim => by rw [present_held ht hcede hclaim], fun hbusy => congrArg _ ?_⟩
    obtain hreset | hbus | ⟨hbusy, hother⟩ := hbusy
    · exact present_stays (portTakes_eq_false (.inl hreset)) (.inr (.inl hreset))
    · exact present_stays (portTakes_eq_false (.inr (.inl hbus))) (.inr (.inr hbus))
    · exact present_stays (portTakes_eq_false (.inr (.inr hbusy))) (.inl hother)
  · have hexec : exec i s = .next (present a s) := by
      simp only [List.mem_cons, List.not_mem_nil, or_false] at hi
      obtain rfl | rfl := hi <;> rfl
    rw [hexec, present_forwarded ht hcourse]
    exact ⟨_, rfl, serve_only a a false s, serve_served a a false s⟩

end Sys2Proof.Machine
end

section
/-! PROOFS. Frames (R7 to R9, R17 to R23): what a frame changes of its channel, and the link part after a frame up to the entry to a
dropout. -/

namespace Sys2Proof.Machine

/-! ## What every frame records and leaves (R7, R8, R17) -/

section
variable (w : SetupWords) (now : Millis) (r : ChannelRecord)

theorem place_lastRf (rf : BitVec 7) : (r.place w rf).lastRf = r.lastRf := by
  unfold ChannelRecord.place
  split <;> rfl

theorem countFade_lastRf (rf : BitVec 7) : (r.countFade w rf).lastRf = r.lastRf := by
  unfold ChannelRecord.countFade
  split
  · split <;> rfl
  · rfl

theorem countRecovery_lastRf (rf : BitVec 7) : (r.countRecovery w rf).lastRf = r.lastRf := by
  unfold ChannelRecord.countRecovery
  split
  · split <;> rfl
  · rfl

theorem offer_lastRf (rec : CaptureRecord) : (r.offer rec).lastRf = r.lastRf := by
  unfold ChannelRecord.offer
  split <;> rfl

theorem linkLocked_lastRf (rf : BitVec 7) : (r.linkLocked w now rf).lastRf = r.lastRf := by
  unfold ChannelRecord.linkLocked
  split
  · exact place_lastRf w r rf
  · exact countFade_lastRf w r rf
  · exact countRecovery_lastRf w r rf
  · exact (place_lastRf w _ rf).trans (offer_lastRf _ _)
  · exact place_lastRf w _ rf
  · exact place_lastRf w _ rf

theorem linkUnlocked_lastRf : (r.linkUnlocked w now).lastRf = r.lastRf := by
  unfold ChannelRecord.linkUnlocked
  split <;> rfl

end

section
variable {w : SetupWords} {now : Millis} {f : Frame} {r : ChannelRecord}

theorem linkStage_absent_noLock (hlink : r.link = .absent) (hlock : f.lock = false) :
    r.linkStage w now f = { r with lastRf := f.rf } := by
  simp only [ChannelRecord.linkStage, hlock, hlink, Bool.false_eq_true, if_false]

theorem linkStage_lastRf (w : SetupWords) (now : Millis) (f : Frame) (r : ChannelRecord) :
    (r.linkStage w now f).lastRf = f.rf := by
  cases hlock : f.lock with
  | false =>
    by_cases hlink : r.link = .absent
    · rw [linkStage_absent_noLock hlink hlock]
    · rw [linkStage_noLock hlock hlink]
      exact linkUnlocked_lastRf w now _
  | true =>
    rw [linkStage_lock hlock]
    exact linkLocked_lastRf w now _ f.rf

/-- A frame without switch contents leaves the speech detector and the open-idle watch (R8). -/
theorem evaluate_noSwitch (intended : Word) (hswitch : f.switch = none) :
    (r.evaluate w now intended f).speechPart = r.speechPart ∧ (r.evaluate w now intended f).idlePart = r.idlePart := by
  obtain ⟨-, -, hspeech, hidle⟩ := linkStage_besides w now r f
  simp only [ChannelRecord.evaluate, hswitch]
  cases f.battery with
  | none => exact ⟨hspeech, hidle⟩
  | some word => exact ⟨(batteryStage_speechPart w _ word).trans hspeech, (batteryStage_idlePart w _ word).trans hidle⟩

end

theorem exec_frameEvaluation_discards {c : Chan} {f : Frame} {before after : List (Chan × Frame)} {s : State}
    (hframes : s.mail.frames = before ++ (c, f) :: after) (hfirst : ∀ p ∈ before, p.1 ≠ c)
    (h : s.channels[c].enrolled = false ∨ s.setup.part ≠ .active) :
    exec (.frameEvaluation c) s = .next { s with mail := { s.mail with frames := before ++ after } } := by
  have hdiscards : ¬(s.channels[c].enrolled = true ∧ s.setup.part = .active) := by
    rintro ⟨henrolled, hpart⟩
    obtain hnot | hnot := h
    · exact Bool.false_ne_true (hnot.symm.trans henrolled)
    · exact hnot hpart
  show execFrameEvaluation c s = _
  simp only [execFrameEvaluation, hframes, takeFrame_some c f before after hfirst, if_neg hdiscards]
  rfl

/-- Settles O21: the frame is one event of its channel, or it is dropped. -/
theorem frameEvaluation : Obligations.FrameEvaluation := by
  intro c f before after s hframes hfirst
  refine ⟨exec_frameEvaluation_discards hframes hfirst, fun henrolled hpart => ?_⟩
  let u := s.setMail { s.mail with frames := before ++ after }
  let g := ChannelRecord.evaluate s.settings s.time.ticks s.enf.intended[c] f
  have hrf : (channelEvent c g u).channels[c].lastRf = f.rf := by
    have hlink := channelEvent_linkPart c g u
    rw [evaluate_linkPart] at hlink
    exact (congrArg LinkPart.lastRf hlink).trans (linkStage_lastRf _ _ f _)
  refine ⟨_, execFrameEvaluation_next c f before after s hframes hfirst ⟨henrolled, hpart⟩,
    channelEvent_onlyChannel c g u, hrf, ?_, fun hbattery => ?_, fun hswitch => ⟨?_, ?_⟩,
    channelEvent_reported c g s u rfl rfl rfl⟩
  · exact (channelEvent_memberPart c g u).trans (evaluate_memberPart _ _ _ _ f)
  · exact (channelEvent_batteryPart c g u).trans (evaluate_batteryPart_of_noReport _ _ _ (.inl hbattery))
  · exact (channelEvent_speechPart c g u).trans (evaluate_noSwitch _ hswitch).1
  · exact channelEvent_judged c g s u rfl (evaluate_noSwitch _ hswitch).2

/-! ## The link stage in ABSENT, LOCKED, WEAK and DROPOUT (R18 to R23) -/

section
variable {w : SetupWords} {now : Millis} {f : Frame} {r : ChannelRecord}

theorem linkStage_absent_lock (hr : r.Lawful) (hlink : r.link = .absent) (hlock : f.lock = true) :
    (r.linkStage w now f).linkPart = r.linkPart.placed w now f.rf := by
  have hstage : r.linkStage w now f = (r.received w now f.rf).place w f.rf := by
    simp only [linkStage_lock hlock, ChannelRecord.linkLocked, received_link, hlink]
  have hweak : r.active.weak = false := by
    rw [hr.weak, hlink]
    rfl
  rw [hstage]
  exact place_linkPart w now _ rfl hweak

/-- R19: a frame with lock in LOCKED, counted towards a fade. -/
theorem linkStage_locked_lock (hr : r.Lawful) (hlink : r.link = .locked) (hlock : f.lock = true) :
    (r.linkStage w now f).linkPart = { r.linkPart with
      lastRf := f.rf
      freshTimer := .running (now + BitVec.ofNat 32 w.freshnessLimit)
      link := if f.rf.toNat < w.fadeLevel ∧ w.fadeConfirm ≤ r.fadeRun + 1 then .weak else .locked
      weak := decide (f.rf.toNat < w.fadeLevel ∧ w.fadeConfirm ≤ r.fadeRun + 1)
      fadeRun := if f.rf.toNat < w.fadeLevel ∧ r.fadeRun + 1 < w.fadeConfirm then r.fadeRun + 1 else 0 } := by
  have hweak : r.active.weak = false := by
    rw [hr.weak, hlink]
    rfl
  have hstage : r.linkStage w now f = (r.received w now f.rf).countFade w f.rf := by
    simp only [linkStage_lock hlock, ChannelRecord.linkLocked, received_link, hlink]
  rw [hstage, ChannelRecord.countFade]
  by_cases hfaded : f.rf.toNat < w.fadeLevel
  · by_cases hconfirmed : w.fadeConfirm ≤ r.fadeRun + 1
    · simp [ChannelRecord.linkPart, ChannelRecord.received, hfaded, hconfirmed]
    · simp [ChannelRecord.linkPart, ChannelRecord.received, hfaded, hconfirmed, Nat.lt_of_not_le hconfirmed, hlink, hweak]
  · simp [ChannelRecord.linkPart, ChannelRecord.received, hfaded, hlink, hweak]

/-- R20: a frame with lock in WEAK, counted towards recovery. -/
theorem linkStage_weak_lock (hr : r.Lawful) (hlink : r.link = .weak) (hlock : f.lock = true) :
    (r.linkStage w now f).linkPart = { r.linkPart with
      lastRf := f.rf
      freshTimer := .running (now + BitVec.ofNat 32 w.freshnessLimit)
      link := if w.fadeLevel + 3 ≤ f.rf.toNat ∧ w.fadeConfirm ≤ r.fadeRun + 1 then .locked else .weak
      weak := decide (¬(w.fadeLevel + 3 ≤ f.rf.toNat ∧ w.fadeConfirm ≤ r.fadeRun + 1))
      fadeRun := if w.fadeLevel + 3 ≤ f.rf.toNat ∧ r.fadeRun + 1 < w.fadeConfirm then r.fadeRun + 1 else 0 } := by
  have hweak : r.active.weak = true := by
    rw [hr.weak, hlink]
    rfl
  have hstage : r.linkStage w now f = (r.received w now f.rf).countRecovery w f.rf := by
    simp only [linkStage_lock hlock, ChannelRecord.linkLocked, received_link, hlink]
  rw [hstage, ChannelRecord.countRecovery, show Config.recoveryMargin = 3 from rfl]
  by_cases hstrong : w.fadeLevel + 3 ≤ f.rf.toNat
  · by_cases hconfirmed : w.fadeConfirm ≤ r.fadeRun + 1
    · simp [ChannelRecord.linkPart, ChannelRecord.received, hstrong, hconfirmed]
    · simp [ChannelRecord.linkPart, ChannelRecord.received, hstrong, hconfirmed, Nat.lt_of_not_le hconfirmed, hlink, hweak]
  · simp [ChannelRecord.linkPart, ChannelRecord.received, hstrong, hlink, hweak]

/-- R22: a frame without lock enters a dropout. -/
theorem linkStage_enters_dropout (hlink : r.link = .locked ∨ r.link = .weak) (hlock : f.lock = false) :
    (r.linkStage w now f).linkPart = { r.linkPart.received w now f.rf with
      link := .dropout, dropoutStamp := now, dropoutTimer := .running (now + BitVec.ofNat 32 w.dropoutLimit)
      fadeRun := 0, weak := false } := by
  obtain hlink | hlink := hlink
  all_goals
    rw [linkStage_noLock hlock (by rw [hlink]; decide)]
    simp only [ChannelRecord.linkUnlocked, received_link, hlink]
    rfl

/-- R23: a frame without lock leaves the dropout standing. -/
theorem linkStage_dropout_noLock (hlink : r.link = .dropout) (hlock : f.lock = false) :
    (r.linkStage w now f).linkPart = r.linkPart.received w now f.rf := by
  rw [linkStage_noLock hlock (by rw [hlink]; decide)]
  simp only [ChannelRecord.linkUnlocked, received_link, hlink, received_linkPart]

end

/-- Settles O22: one equation of the link stage for each state and pilot lock. -/
theorem framesUpToADropout : Obligations.FramesUpToADropout := by
  refine ⟨fun c f s hwaits hr hlink => ?_, fun c f s hwaits hr hlock => ?_, fun c f s hwaits hr hlock => ?_⟩
  all_goals obtain ⟨t, hexec, hstage⟩ := exec_frameEvaluation_linkPart hwaits
  · refine ⟨t, hexec, ?_⟩
    cases hlock : f.lock with
    | true => exact hstage.trans (linkStage_absent_lock hr hlink hlock)
    | false => exact hstage.trans (congrArg ChannelRecord.linkPart (linkStage_absent_noLock hlink hlock))
  · exact ⟨t, hexec, fun hlink => hstage.trans (linkStage_locked_lock hr hlink hlock),
      fun hlink => hstage.trans (linkStage_weak_lock hr hlink hlock)⟩
  · exact ⟨t, hexec, fun hlink => hstage.trans (linkStage_enters_dropout hlink hlock),
      fun hlink => hstage.trans (linkStage_dropout_noLock hlink hlock)⟩

end Sys2Proof.Machine
end

section
/-! PROOFS. What a frame's battery and switch contents make of its channel: the move of the battery state and its report (R42 to R50),
the speech detector and the open-idle watch (R55, R64, R65, R68). -/

namespace Sys2Proof.Machine

/-! ## Battery reports (R44 to R48, R50) -/

/-- The conditions of a lawful record follow its state (R50), and so does the summary they make. -/
theorem ChannelRecord.Lawful.batterySummary {r : ChannelRecord} (hr : r.Lawful) : r.batteryPart.summary = r.battery.kind := by
  obtain ⟨hnotice, hlow, hcritical⟩ := hr.batteryFlags
  rw [← batterySummary_eq_summary, ConditionSet.batterySummary, hnotice, hlow, hcritical]
  cases r.battery <;> rfl

theorem reported_summary (b : BatteryState) (level : BitVec 7) (ch : Chemistry) :
    (BatteryPart.reported b level ch).summary = b.kind := by
  cases b <;> rfl

/-- A report moves the state, records level and chemistry, and is reported by the change of the state's condition (R42, R50). -/
theorem exec_frameEvaluation_report {c : Chan} {f : Frame} {word : BatteryWord} {s : State} (hwaits : s.FrameWaits c f)
    (hr : s.channels[c].Lawful) (hword : f.battery = some word) (hlevel : word.level.toNat ≤ 100) {b : BatteryState}
    (hmove : batteryMove s.settings word.chemistry word.level.toNat s.channels[c].battery = b) :
    ∃ t, exec (.frameEvaluation c) s = .next t ∧ t.channels[c].batteryPart = .reported b word.level word.chemistry ∧
      BatteryReported (familyEvent c .battery s.channels[c].battery.kind b.kind) s t := by
  obtain ⟨t, hexec, hstage, hreported⟩ := exec_frameEvaluation_batteryPart hwaits
  rw [evaluate_batteryPart_of_report _ _ _ hword hlevel, hmove] at hstage
  rw [hstage, reported_summary, hr.batterySummary] at hreported
  exact ⟨t, hexec, hstage, hreported⟩

section
variable {w : SetupWords} {ch : Chemistry} {level : Nat}

theorem batteryCleared_rank_le {x : BatteryState} (hx : Clears w ch level x) :
    (batteryCleared w ch level).rank ≤ x.rank := by
  rw [batteryCleared]
  cases x with
  | unknown => exact hx.elim
  | good => rw [if_pos (show w.noticeThreshold ch + w.hysteresis < level from hx)]
  | notice =>
    rw [if_pos (show w.lowThreshold ch + w.hysteresis < level from hx)]
    split <;> decide
  | low =>
    rw [if_pos (show w.criticalThreshold ch + w.hysteresis < level from hx)]
    split
    · decide
    · split <;> decide
  | critical =>
    split
    · decide
    · split
      · decide
      · split <;> decide

theorem BatteryState.rank_injective : Function.Injective BatteryState.rank := by
  intro a b
  cases a <;> cases b <;> decide

/-- The best state a level clears is the one of least rank (R43). -/
theorem eq_batteryCleared {target : BatteryState} (hclears : Clears w ch level target)
    (hbest : ∀ x, Clears w ch level x → target.rank ≤ x.rank) : target = batteryCleared w ch level :=
  BatteryState.rank_injective
    (Nat.le_antisymm (hbest _ (clears_batteryCleared w ch level)) (batteryCleared_rank_le hclears))

end

/-- Settles O25: the move of the state by its own equation; the events by the condition before and after. -/
theorem batteryReports : Obligations.BatteryReports := by
  refine ⟨fun c f word b s hwaits hr hword hlevel hunknown hdescends hplace => ?_,
    fun c f word b target s hwaits hr hword hlevel hknown hdescends hplace hclears hbest => ?_⟩
  · have hmove : batteryMove s.settings word.chemistry word.level.toNat s.channels[c].battery = b := by
      rw [hunknown]
      exact (hplace.eq_batteryPlacement hdescends).symm
    obtain ⟨t, hexec, hpart, hreported⟩ := exec_frameEvaluation_report hwaits hr hword hlevel hmove
    refine ⟨t, hexec, hpart, ?_⟩
    rw [hunknown] at hreported
    cases hkind : b.kind with
    | none =>
      rw [hkind] at hreported
      exact hreported
    | some k =>
      rw [hkind] at hreported
      exact hreported
  · obtain ⟨t, hexec, hpart, hreported⟩ := exec_frameEvaluation_report hwaits hr hword hlevel rfl
    have hstate : t.channels[c].battery = batteryMove s.settings word.chemistry word.level.toNat s.channels[c].battery :=
      congrArg BatteryPart.battery hpart
    have hmove := batteryMove_of_ne_unknown (w := s.settings) (ch := word.chemistry) (level := word.level.toNat) hknown
    rw [← hplace.eq_batteryPlacement hdescends, ← eq_batteryCleared hclears hbest] at hmove
    rw [← hstate] at hreported
    refine ⟨t, hexec, fun hworse => ?_, fun hbetter hcleared => ?_, fun hsame => ?_, fun k hbefore hafter => ?_,
      fun k hafter => ⟨fun hbefore => ?_, fun k' hbefore hother => ?_⟩⟩
    · rw [hpart, hmove, if_pos hworse]
    · rw [hpart, hmove, if_neg (Nat.lt_asymm hbetter), if_pos ⟨hbetter, hcleared⟩]
    · rwa [hsame, familyEvent_same] at hreported
    · rwa [hbefore, hafter] at hreported
    · rwa [hbefore, hafter] at hreported
    · rw [hbefore, hafter] at hreported
      rwa [show familyEvent c .battery (some k') (some k) = [.changed c .battery k] from if_neg hother] at hreported

/-! ## Silence at the end of an event (R61, R62) -/

section
variable (c : Chan) (g : ChannelRecord → ChannelRecord) (s : State)

theorem channelEvent_silentIn : (channelEvent c g s).SilentIn c ↔
    (g s.channels[c]).silent s.settings.muteCode s.enf.intended[c] = true := by
  rw [State.SilentIn, channelEvent_this]
  show (eventRecord c g s).silent s.settings.muteCode s.enf.intended[c] = true ↔ _
  rw [eventRecord, settleSilence_silent]

theorem channelEvent_idlePart_silent (h : (channelEvent c g s).SilentIn c) :
    (channelEvent c g s).channels[c].idlePart = .atRest := by
  rw [channelEvent_this]
  exact settleSilence_of_silent _ _ _ ((channelEvent_silentIn c g s).1 h)

theorem channelEvent_idlePart_open (h : ¬(channelEvent c g s).SilentIn c) :
    (channelEvent c g s).channels[c].idlePart = (g s.channels[c]).idlePart := by
  rw [channelEvent_this]
  exact settleSilence_of_not_silent _ _ _ (mt (channelEvent_silentIn c g s).2 h)

end

/-! ## The mute stage (R55, R64, R65, R68) -/

section
variable (w : SetupWords) (now : Millis) (intended : Word) (sw : SwitchWord) (r : ChannelRecord)

/-- A record with the switch contents taken (R55). -/
def ChannelRecord.heard : ChannelRecord := { r with selfMuted := !sw.talkOn, lastAudio := some sw.audio }

theorem muteStage_eq : r.muteStage w now intended sw =
    let silent := (r.heard sw).silent w.muteCode intended
    if silent = true then ((r.heard sw).speechStep w silent sw.audio.toNat).stopIdle
    else ((r.heard sw).speechStep w silent sw.audio.toNat).idleStep w now sw.audio.toNat := rfl

theorem speechStep_silent (silent : Bool) (audio muteCode : Nat) :
    (r.speechStep w silent audio).silent muteCode intended = r.silent muteCode intended := by
  simp only [ChannelRecord.speechStep]
  split
  · rfl
  · split <;> rfl

theorem idleStep_silent (audio muteCode : Nat) :
    (r.idleStep w now audio).silent muteCode intended = r.silent muteCode intended := by
  simp only [ChannelRecord.idleStep]
  split
  · split <;> rfl
  · rfl

/-- The stages after the taking of the switch contents leave silence as it is judged then (R55, R61). -/
theorem muteStage_silent : (r.muteStage w now intended sw).silent w.muteCode intended =
    (r.heard sw).silent w.muteCode intended := by
  rw [muteStage_eq]
  dsimp only
  split
  · exact speechStep_silent w intended _ _ _ _
  · exact (idleStep_silent w now intended _ _ _).trans (speechStep_silent w intended _ _ _ _)

/-- The speech count after a frame, by silence and level (R64). -/
theorem stepSpeech_cases (silent : Bool) (level audio count : Nat) :
    (silent = true → level ≤ audio → stepSpeech silent level audio count = min 255 (count + 1)) ∧
      (¬silent = true ∨ audio < level → stepSpeech silent level audio count = count - 1) := by
  refine ⟨fun hsilent hloud => if_pos ?_, fun h => if_neg ?_⟩
  · rw [hsilent, decide_eq_true hloud]
    rfl
  · rw [Bool.and_eq_true, decide_eq_true_eq]
    rintro ⟨hsilent, hloud⟩
    obtain hopen | hquiet := h
    · exact hopen hsilent
    · exact Nat.not_lt.2 hloud hquiet

/-- The speech detector's part after its step, MUTED_SPEECH standing with its raised mark (R64, R65). -/
theorem speechStep_speechPart {r : ChannelRecord} (hmark : r.active.mutedSpeech = r.mutedSpeechRaised) (silent : Bool)
    (audio : Nat) {n : Nat} (hn : stepSpeech silent w.speechLevel audio r.speechCount = n) :
    (r.speechStep w silent audio).speechPart =
      { selfMuted := r.selfMuted, lastAudio := r.lastAudio, speechCount := n
        raised :=
          if r.speechCount < n ∧ w.speechThreshold ≤ n then true
          else if n < r.speechCount ∧ n = 0 then false else r.mutedSpeechRaised
        mutedSpeech :=
          if r.speechCount < n ∧ w.speechThreshold ≤ n then true
          else if n < r.speechCount ∧ n = 0 then false else r.mutedSpeechRaised } := by
  simp only [ChannelRecord.speechStep, hn]
  by_cases hraised : r.speechCount < n ∧ w.speechThreshold ≤ n
  · simp only [if_pos hraised]
    rfl
  · simp only [if_neg hraised]
    by_cases hcleared : n < r.speechCount ∧ n = 0
    · simp only [if_pos hcleared]
      rfl
    · simp only [if_neg hcleared, ← hmark]
      rfl

theorem muteStage_speechPart : (r.muteStage w now intended sw).speechPart =
    ((r.heard sw).speechStep w ((r.heard sw).silent w.muteCode intended) sw.audio.toNat).speechPart := by
  rw [muteStage_eq]
  dsimp only
  split
  · rfl
  · exact idleStep_speechPart w now _ _

/-- The watch of an open channel at a frame, loud or quiet (R68). -/
theorem idleStep_idlePart (audio : Nat) : (r.idleStep w now audio).idlePart =
    if audio < w.idleLevel then { r.idlePart with
      idleTimer :=
        if r.idleTimer = .stopped ∧ r.openIdleRaised = false
          then .running (now + BitVec.ofNat 32 (w.idleLimit * 1000)) else r.idleTimer }
    else .atRest := by
  rw [ChannelRecord.idleStep]
  by_cases hquiet : audio < w.idleLevel
  · rw [if_pos hquiet, if_pos hquiet]
    cases hraised : r.openIdleRaised with
    | true => simp [ChannelRecord.idlePart, hraised]
    | false => simp [ChannelRecord.idlePart, hraised, Timer.startIfStopped_eq]
  · rw [if_neg hquiet, if_neg hquiet]
    rfl

theorem muteStage_idlePart_open (h : ¬(r.heard sw).silent w.muteCode intended = true) :
    (r.muteStage w now intended sw).idlePart =
      if sw.audio.toNat < w.idleLevel then { r.idlePart with
        idleTimer :=
          if r.idleTimer = .stopped ∧ r.openIdleRaised = false
            then .running (now + BitVec.ofNat 32 (w.idleLimit * 1000)) else r.idleTimer }
      else .atRest := by
  have hidle := speechStep_idlePart w (r.heard sw) ((r.heard sw).silent w.muteCode intended) sw.audio.toNat
  rw [muteStage_eq]
  dsimp only
  rw [if_neg h, idleStep_idlePart, hidle]
  rw [show (ChannelRecord.speechStep w _ _ (r.heard sw)).idleTimer = r.idleTimer from congrArg IdlePart.idleTimer hidle,
    show (ChannelRecord.speechStep w _ _ (r.heard sw)).openIdleRaised = r.openIdleRaised from congrArg IdlePart.raised hidle]
  rfl

/-- A frame with switch contents runs the mute stage on a record with the speech detector and the watch as they were (R8). -/
theorem evaluate_switch {f : Frame} (hswitch : f.switch = some sw) :
    ∃ x : ChannelRecord, r.evaluate w now intended f = x.muteStage w now intended sw ∧ x.speechPart = r.speechPart ∧
      x.idlePart = r.idlePart := by
  obtain ⟨-, -, hspeech, hidle⟩ := linkStage_besides w now r f
  simp only [ChannelRecord.evaluate, hswitch]
  cases f.battery with
  | none => exact ⟨_, rfl, hspeech, hidle⟩
  | some word =>
    exact ⟨_, rfl, (batteryStage_speechPart w _ word).trans hspeech, (batteryStage_idlePart w _ word).trans hidle⟩

end

/-- Settles O28: the mute stage by its own equations, silence being the same at the judgement and at the end of the event. -/
theorem muteStage : Obligations.MuteStage := by
  intro c f sw s hwaits hr hswitch
  obtain ⟨⟨before, after, hframes, hfirst⟩, hactive⟩ := hwaits
  let u := s.setMail { s.mail with frames := before ++ after }
  let g := ChannelRecord.evaluate s.settings s.time.ticks s.enf.intended[c] f
  obtain ⟨x, hx, hspeech, hidle⟩ := evaluate_switch s.settings s.time.ticks s.enf.intended[c] sw s.channels[c] hswitch
  have hsilent : (channelEvent c g u).SilentIn c ↔
      (x.heard sw).silent s.settings.muteCode s.enf.intended[c] = true := by
    rw [channelEvent_silentIn, ← muteStage_silent s.settings s.time.ticks s.enf.intended[c] sw x, ← hx]
    rfl
  have hcount : x.speechCount = s.channels[c].speechCount := congrArg SpeechPart.speechCount hspeech
  have hraised : x.mutedSpeechRaised = s.channels[c].mutedSpeechRaised := congrArg SpeechPart.raised hspeech
  have hmark : (x.heard sw).active.mutedSpeech = (x.heard sw).mutedSpeechRaised :=
    (congrArg SpeechPart.mutedSpeech hspeech).trans (hr.speech.2.1.trans hraised.symm)
  obtain ⟨hrise, hfall⟩ := stepSpeech_cases ((x.heard sw).silent s.settings.muteCode s.enf.intended[c])
    s.settings.speechLevel sw.audio.toNat s.channels[c].speechCount
  have hpart := speechStep_speechPart s.settings hmark ((x.heard sw).silent s.settings.muteCode s.enf.intended[c])
    sw.audio.toNat (congrArg (stepSpeech _ s.settings.speechLevel sw.audio.toNat) hcount)
  refine ⟨_, _, execFrameEvaluation_next c f before after s hframes hfirst hactive,
    fun h => hrise (hsilent.1 h), fun h => hfall (h.imp_left (mt hsilent.2)), ?_, fun h => ?_, fun hopen hquiet => ?_⟩
  · have hstage := (channelEvent_speechPart c g u).trans ((congrArg ChannelRecord.speechPart hx).trans
      ((muteStage_speechPart _ _ _ sw x).trans hpart))
    rw [show (x.heard sw).speechCount = _ from hcount, show (x.heard sw).mutedSpeechRaised = _ from hraised] at hstage
    exact hstage
  · by_cases hopen : (channelEvent c g u).SilentIn c
    · exact channelEvent_idlePart_silent c g u hopen
    · have hloud := h.resolve_left hopen
      refine (channelEvent_idlePart_open c g u hopen).trans ((congrArg ChannelRecord.idlePart hx).trans ?_)
      rw [muteStage_idlePart_open _ _ _ _ _ (mt hsilent.2 hopen), if_neg (Nat.not_lt.2 hloud)]
  · refine (channelEvent_idlePart_open c g u hopen).trans ((congrArg ChannelRecord.idlePart hx).trans ?_)
    rw [muteStage_idlePart_open _ _ _ _ _ (mt hsilent.2 hopen), if_pos hquiet, hidle,
      show x.idleTimer = _ from congrArg IdlePart.idleTimer hidle,
      show x.openIdleRaised = _ from congrArg IdlePart.raised hidle]
    rfl

end Sys2Proof.Machine
end

section
/-! PROOFS. The events of a channel that no frame and no link timer brings: the open-idle expiry (R69), chair requests, floor and
silence changes (R56, R57, R63), membership changes and the reset of the table (R10 to R12). -/

namespace Sys2Proof.Machine

/-! ## What waits behind a message that goes from channel to channel (log 11) -/

theorem floorChangesAfter_goesOn (f : FloorChange) (rest : List FloorChange) :
    GoesOn f.next (fun d => { f with next := d }) rest (floorChangesAfter f rest) :=
  ⟨fun h => by rw [floorChangesAfter, nextChannel_of_last h], fun d h => by rw [floorChangesAfter, nextChannel_of_succ h]⟩

theorem membershipAfter_goesOn (w : SetupWords) (c : Chan) (rest : List ToEvaluator) :
    GoesOn c (fun d => .membership w d) rest (membershipAfter w c rest) :=
  ⟨fun h => by rw [membershipAfter, nextChannel_of_last h], fun d h => by rw [membershipAfter, nextChannel_of_succ h]⟩

theorem tableResetAfter_goesOn (c : Chan) (rest : List ToEvaluator) :
    GoesOn c (fun d => .tableReset d) rest (tableResetAfter c rest) :=
  ⟨fun h => by rw [tableResetAfter, nextChannel_of_last h], fun d h => by rw [tableResetAfter, nextChannel_of_succ h]⟩

/-! ## One event of a channel whose message has been taken -/

/-- An event that leaves the open-idle watch changes its channel alone, is reported, and judges silence (R9, R62, R72); `u` is `s`
with the event's message taken. -/
theorem channelEvent_of_taken (c : Chan) {g : ChannelRecord → ChannelRecord} {s u : State} (hchannels : u.channels = s.channels)
    (hconditions : u.mail.conditions = s.mail.conditions) (hnotices : u.mail.notices = s.mail.notices)
    (hidle : (g s.channels[c]).idlePart = s.channels[c].idlePart) :
    OnlyChannel c u (channelEvent c g u) ∧ ChangeReported c s (channelEvent c g u) ∧ WatchJudged c s (channelEvent c g u) :=
  ⟨channelEvent_onlyChannel c g u, channelEvent_reported c g s u hchannels hconditions hnotices,
    channelEvent_judged c g s u hchannels hidle⟩

section
variable {c : Chan} {s : State}

theorem exec_openIdleExpiry (h : s.channels[c].idleTimer = .due) :
    exec (.openIdleExpiry c) s = .next (channelEvent c ChannelRecord.idleExpiry s) := if_pos h

theorem exec_chairRequest {set : Bool} {rest : List ToEvaluator} (h : s.mail.toEvaluator = .chair c set :: rest) :
    exec .chairRequest s = .next (takeChair c set rest s) := by
  show execChairRequest s = _
  simp only [execChairRequest, h]

theorem exec_takenFloorChange {f : FloorChange} {rest : List FloorChange} (h : s.mail.floor = f :: rest) :
    let u : State := { s with mail := { s.mail with floor := floorChangesAfter f rest } }
    exec .takenFloorChange s =
      if s.channels[f.next].enrolled = true ∧ s.channels[f.next].role = .delegate then
        .next (channelEvent f.next (fun r => { r with floorCause := f.asserted }) u)
      else .next u := by
  show execTakenFloorChange s = _
  simp only [execTakenFloorChange, h]
  rfl

theorem exec_silenceChange {rest : List Chan} (h : s.mail.silence = c :: rest) :
    let u : State := { s with mail := { s.mail with silence := rest } }
    exec .silenceChange s = if s.channels[c].enrolled = true then .next (channelEvent c id u) else .next u := by
  show execSilenceChange s = _
  simp only [execSilenceChange, h]
  rfl

end

/-- Settles O32: the four rows, each one event of its channel. -/
theorem causesSilenceAndOpenIdle : Obligations.CausesSilenceAndOpenIdle := by
  refine ⟨fun c s => ⟨fun hidle => if_neg hidle, fun hdue => ?_⟩,
    fun s => ⟨fun c set rest h => ?_, fun f rest h => ?_, fun c rest h => ?_⟩⟩
  · refine ⟨_, exec_openIdleExpiry hdue, channelEvent_onlyChannel c _ s, channelEvent_reported c _ s s rfl rfl rfl,
      channelEvent_linkPart c _ s, channelEvent_batteryPart c _ s, channelEvent_memberPart c _ s,
      channelEvent_speechPart c _ s, channelEvent_idlePart_silent c _ s, channelEvent_idlePart_open c _ s⟩
  · rw [exec_chairRequest h, takeChair]
    refine ⟨fun hout => ?_, fun henrolled => ?_⟩
    · rw [hout]
      rfl
    · obtain ⟨honly, hreported, hjudged⟩ := channelEvent_of_taken c (g := fun r => { r with chairCause := set }) (s := s)
        (u := { s with mail := { s.mail with toEvaluator := rest } }) rfl rfl rfl rfl
      exact ⟨_, congrArg _ (if_pos henrolled), honly, hreported, hjudged, channelEvent_memberPart c _ _,
        channelEvent_linkPart c _ _, channelEvent_batteryPart c _ _, channelEvent_speechPart c _ _⟩
  · refine ⟨floorChangesAfter f rest, floorChangesAfter_goesOn f rest, ?_⟩
    rw [exec_takenFloorChange h]
    refine ⟨fun hout => if_neg ?_, fun henrolled hrole => ?_⟩
    · rintro ⟨henrolled, hrole⟩
      obtain hout | hout := hout
      · exact Bool.false_ne_true (hout.symm.trans henrolled)
      · rw [hrole] at hout
        cases hout
    · obtain ⟨honly, hreported, hjudged⟩ := channelEvent_of_taken f.next (g := fun r => { r with floorCause := f.asserted })
        (s := s) (u := { s with mail := { s.mail with floor := floorChangesAfter f rest } }) rfl rfl rfl rfl
      exact ⟨_, if_pos ⟨henrolled, hrole⟩, honly, hreported, hjudged, channelEvent_memberPart f.next _ _,
        channelEvent_linkPart f.next _ _, channelEvent_batteryPart f.next _ _, channelEvent_speechPart f.next _ _⟩
  · intro u
    rw [exec_silenceChange h]
    refine ⟨fun hout => if_neg (Bool.eq_false_iff.1 hout), fun henrolled => ?_⟩
    obtain ⟨honly, hreported, hjudged⟩ := channelEvent_of_taken c (g := id) (s := s) (u := u) rfl rfl rfl rfl
    exact ⟨_, if_pos henrolled, honly, hreported, hjudged, channelEvent_memberPart c _ _, channelEvent_linkPart c _ _,
      channelEvent_batteryPart c _ _, channelEvent_speechPart c _ _⟩

/-! ## Membership changes and the reset of the table (R10, R11, R12) -/

section
variable {w : SetupWords} {c : Chan} {s : State}

theorem exec_membershipChange {rest : List ToEvaluator} (h : s.mail.toEvaluator = .membership w c :: rest) :
    exec .membershipChange s =
      .next (membershipEvent w c { s with mail := { s.mail with toEvaluator := membershipAfter w c rest } }) := by
  show execMembershipChange s = _
  simp only [execMembershipChange, h]
  rfl

theorem startRecord_enrolled (debounced : Bool) (h : w.enrols c = true) : startRecord w debounced c =
    { ChannelRecord.powerReset with
      enrolled := true
      role := if w.isChair c then .chair else .delegate
      squelchEnabled := w.squelches c
      floorCause := debounced && !w.isChair c } := if_pos h

theorem membershipEvent_deEnrols (hbefore : s.channels[c].enrolled = true) (hafter : w.enrols c = false) :
    membershipEvent w c s = { s with
      channels := s.channels.set c .powerReset
      mail := { s.mail with
        conditions := s.mail.conditions.filter fun m => decide (m.channel ≠ c)
        notices := s.mail.notices ++ [.enrolment c] } } := by
  simp only [membershipEvent, hbefore, hafter]
  rfl

theorem membershipEvent_enrols (hbefore : s.channels[c].enrolled = false) (hafter : w.enrols c = true) :
    membershipEvent w c s = { s with
      channels := s.channels.set c (startRecord w s.lamps.debounced c)
      mail := { s.mail with notices := s.mail.notices ++ [.enrolment c] } } := by
  simp only [membershipEvent, hbefore, hafter]
  rfl

theorem membershipEvent_stays (hbefore : s.channels[c].enrolled = false) (hafter : w.enrols c = false) :
    membershipEvent w c s = s := by
  simp only [membershipEvent, hbefore, hafter]

theorem membershipEvent_rewrites (hbefore : s.channels[c].enrolled = true) (hafter : w.enrols c = true) :
    membershipEvent w c s =
      if s.channels[c].role = w.roleOf c ∧ s.channels[c].squelchEnabled = w.squelches c then s
      else channelEvent c (ChannelRecord.rewriteMembership w s.lamps.debounced c) s := by
  simp only [membershipEvent, hbefore, hafter]

theorem exec_channelTableReset {rest : List ToEvaluator} (h : s.mail.toEvaluator = .tableReset c :: rest) :
    exec .channelTableReset s = .next { s with
      mail := { s.mail with toEvaluator := tableResetAfter c rest }
      channels := s.channels.set c (startRecord s.settings s.lamps.debounced c) } := by
  show execChannelTableReset s = _
  simp only [execChannelTableReset, h]
  rfl

end

/-- Settles O33: the four cases of a membership change, and the record of START. -/
theorem membershipAndTableReset : Obligations.MembershipAndTableReset := by
  refine ⟨fun w c rest s h => ?_, fun c rest s h => ?_⟩
  · refine ⟨membershipAfter w c rest, _, membershipAfter_goesOn w c rest, exec_membershipChange h, ?_⟩
    intro u
    refine ⟨fun hbefore hafter => membershipEvent_deEnrols (s := u) hbefore hafter, fun hbefore hafter => ?_,
      fun hbefore hafter => ⟨fun hrole hsquelch => ?_, fun hchanged => ?_⟩,
      fun hbefore hafter => membershipEvent_stays (s := u) hbefore hafter⟩
    · rw [← startRecord_enrolled s.lamps.debounced hafter]
      exact membershipEvent_enrols (s := u) hbefore hafter
    · exact (membershipEvent_rewrites (s := u) hbefore hafter).trans (if_pos ⟨hrole, hsquelch⟩)
    · have hsame : ¬(s.channels[c].role = w.roleOf c ∧ s.channels[c].squelchEnabled = w.squelches c) :=
        fun ⟨hrole, hsquelch⟩ => hchanged.elim (absurd hrole) (absurd hsquelch)
      rw [show membershipEvent w c u = _ from (membershipEvent_rewrites (s := u) hbefore hafter).trans (if_neg hsame)]
      obtain ⟨honly, hreported, hjudged⟩ := channelEvent_of_taken c
        (g := ChannelRecord.rewriteMembership w s.lamps.debounced c) (s := s) (u := u) rfl rfl rfl rfl
      exact ⟨honly, hreported, hjudged, channelEvent_memberPart c _ _, channelEvent_linkPart c _ _,
        channelEvent_batteryPart c _ _, channelEvent_speechPart c _ _⟩
  · exact ⟨_, tableResetAfter_goesOn c rest, exec_channelTableReset h⟩

end Sys2Proof.Machine
end

section
/-! PROOFS. Raises (R85, R86, R92, R93): a pair that enters the list, joins the unlisted set, or becomes NEW again. -/

namespace Sys2Proof.Machine

section
variable {u : AlertUnit} {stamp : Word} {c : Chan} {f : Family} {k : Kind}

/-! ## A pair with neither entry nor place in the unlisted set -/

theorem not_mem_of_not_isUnlisted (h : isUnlisted c f u.unlisted = false) {q : UnlistedPair} (hq : q ∈ u.unlisted) :
    ¬(q.channel = c ∧ q.family = f) := by
  rintro ⟨rfl, rfl⟩
  exact not_isUnlisted h q hq rfl

theorem AlertUnit.Lawful.event_raise_room (h : u.Lawful) (hn : ∀ e ∈ u.list, e.isPair (.mic c) f = false)
    (hu : isUnlisted c f u.unlisted = false) (hl : u.list.length < Config.listCapacity) :
    MadeNew stamp (.mic c) f k u.list u (u.event stamp (AlertUnit.raise stamp c f k)) ∧
      (u.event stamp (AlertUnit.raise stamp c f k)).unlisted = u.unlisted := by
  have hempty : u.unlisted = [] := h.unlisted_nil hl
  have ho : (u.makeNew stamp (.mic c) f k).Orderly :=
    AlertUnit.makeNew_orderly h.toOrderly stamp _ f k (.inr hl) (by simp [hempty])
  have hlaw := h.makeNew_lawful stamp (.mic c) f k ho (fun hne => absurd hempty hne) (by simp [hempty])
  exact h.event_new stamp (AlertUnit.raise_room stamp k hn hu hl) hlaw (dropPair_of_none hn)

theorem AlertUnit.Lawful.event_raise_joins (h : u.Lawful) (hn : ∀ e ∈ u.list, e.isPair (.mic c) f = false)
    (hu : isUnlisted c f u.unlisted = false) (hl : u.list.length = Config.listCapacity)
    (hbelow : ∀ e ∈ u.list, k.severity ≤ e.severity) :
    u.event stamp (AlertUnit.raise stamp c f k) =
      { u with unlisted := joinUnlisted { channel := c, family := f, kind := k } u.unlisted } :=
  h.event_joined stamp (AlertUnit.raise_full stamp k hn hu hl) hn hl hbelow

theorem AlertUnit.Lawful.event_raise_displaces (h : u.Lawful) (hn : ∀ e ∈ u.list, e.isPair (.mic c) f = false)
    (hu : isUnlisted c f u.unlisted = false) (hl : u.list.length = Config.listCapacity) {front : List AlertEntry}
    {last : AlertEntry} (hlist : u.list = front ++ [last]) (habove : last.severity < k.severity) :
    MadeNew stamp (.mic c) f k front { u with list := front } (u.event stamp (AlertUnit.raise stamp c f k)) ∧
      EvictedInto last none u (u.event stamp (AlertUnit.raise stamp c f k)) := by
  obtain ⟨hmade, hevicted⟩ := h.event_displaced stamp (p := { channel := c, family := f, kind := k })
    (AlertUnit.raise_full stamp k hn hu hl) hn hl hlist habove
  refine ⟨hmade, fun q => (hevicted q).trans (or_congr_left (and_congr_right fun hq => ?_))⟩
  refine iff_of_true (fun hpair => not_mem_of_not_isUnlisted hu hq ?_) (Option.some_ne_none _).symm
  obtain ⟨hc, hf⟩ := Prod.mk.inj (Option.some.inj hpair)
  exact ⟨hc.symm, hf.symm⟩

/-! ## A CLEARED entry becomes NEW again (R86) -/

section
variable {e : AlertEntry} (he : e ∈ u.list) (hp : e.isPair (.mic c) f = true)
include he hp

theorem AlertUnit.Lawful.event_raise_renews (h : u.Lawful) (hs : e.state = .cleared)
    (hk : ∀ q ∈ u.unlisted, q.severity ≤ k.severity) :
    MadeNew stamp (.mic c) f k (u.list.filter fun x => decide (x ≠ e)) u (u.event stamp (AlertUnit.raise stamp c f k)) ∧
      (u.event stamp (AlertUnit.raise stamp c f k)).unlisted = u.unlisted :=
  h.event_new stamp (h.toOrderly.raise_renews stamp k he hp hs) (h.renew_lawful stamp he hp hk)
    (h.toOrderly.dropPair he hp)

/-- The renewed entry stands below an unlisted pair and is evicted at once (R86, R93). -/
theorem AlertUnit.Lawful.event_raise_evicted (h : u.Lawful) (hs : e.state = .cleared)
    (hlow : ∃ q ∈ u.unlisted, k.severity < q.severity) :
    ∃ v x, BecameNew stamp (.mic c) f k (u.list.filter fun x => decide (x ≠ e)) u v ∧ x ∈ v.list ∧
      x.isPair (.mic c) f = true ∧
      Displaced stamp c f k x { u with list := v.list, nextSeq := v.nextSeq }
        (u.event stamp (AlertUnit.raise stamp c f k)) := by
  let x : AlertEntry := { channel := .mic c, family := f, kind := k, state := .new, seq := u.freshSeq, stamp := stamp }
  let v := u.makeNew stamp (.mic c) f k
  obtain ⟨q, hq, hlt⟩ := hlow
  have hbelow : ∀ y ∈ dropPair (.mic c) f u.list, x.severity ≤ y.severity := fun y hy =>
    hlt.le.trans (h.outranked q hq y ((mem_dropPair _ _ _ _).1 hy).1)
  have hlist : v.list = dropPair (.mic c) f u.list ++ [x] := placeEntry_last x _ hbelow
  have hlength : v.list.length = Config.listCapacity := by
    rw [hlist, List.length_append, List.length_singleton, h.toOrderly.length_dropPair he hp]
    exact h.full (List.ne_nil_of_mem hq)
  have ho : v.Orderly := AlertUnit.makeNew_orderly h.toOrderly stamp _ f k (.inl ⟨e, he, hp⟩)
    (AlertUnit.pair_not_unlisted h.toOrderly he hp)
  have hx : x.isPair (.mic c) f = true := (AlertEntry.isPair_iff _ _ _).2 rfl
  have hnew := h.toOrderly.becameNew stamp (.mic c) f k
  rw [h.toOrderly.dropPair he hp] at hnew
  refine ⟨v, x, hnew, ?_, hx, ?_⟩
  · rw [hlist]
    exact List.mem_append_right _ (List.mem_singleton_self x)
  · exact h.event_lowered stamp (h.toOrderly.raise_renews stamp k he hp hs) ho rfl rfl hlist hlength
      (fun y hy => ((mem_dropPair _ _ _ _).1 hy).1) hx (show EntryState.new ≠ .cleared by decide) ⟨q, hq, hlt⟩

end

end

/-- Settles O34: the raise of each kind of pair, as an event of the lawful unit. -/
theorem conditionRaise : Obligations.ConditionRaise := by
  intro c f k rest s hwaits hlistening
  have hlawful := hlistening.lawful
  obtain ⟨t, hexec, honly, halert⟩ := hlistening.takes (exec_conditionRaise hwaits)
  refine ⟨t, hexec, honly, fun hnone hunlisted => ⟨fun hroom => ?_, fun hfull hbelow => ?_, fun front last hfull hlist habove => ?_⟩,
    fun e he hpair hcleared => ⟨fun habove => ?_, fun hlow => ?_⟩, fun hactive => ?_⟩
  all_goals rw [halert]
  · exact hlawful.event_raise_room hnone hunlisted hroom
  · rw [hlawful.event_raise_joins hnone hunlisted hfull hbelow]
    refine ⟨rfl, fun q => (mem_joinUnlisted_iff _ _ hlawful.keys q).trans (or_congr_right ?_)⟩
    exact and_iff_left_of_imp fun hq => not_mem_of_not_isUnlisted hunlisted hq
  · exact hlawful.event_raise_displaces hnone hunlisted hfull hlist habove
  · exact hlawful.event_raise_renews he hpair hcleared habove
  · exact hlawful.event_raise_evicted he hpair hcleared hlow
  · exact hlawful.event_id _ (hlawful.toOrderly.raise_active _ k hactive.symm)

end Sys2Proof.Machine
end

section
/-! PROOFS. Kind changes and clearings of listed pairs (R87 to R89, R91), and the part entry (R96). -/

namespace Sys2Proof.Machine

/-! ## A kind change of a listed active pair (R87 to R89) -/

section
variable {u : AlertUnit} {stamp : Word} {c : Chan} {f : Family} {k : Kind} {e : AlertEntry}

/-- An event whose own change leaves a lawful unit with another list (R93, R102). -/
theorem AlertUnit.event_of_lawful {g : AlertUnit → AlertUnit} {w : AlertUnit} (hg : g u = w) (hw : w.Lawful)
    (hl : w.list ≠ u.list) : u.event stamp g = { w with gen := w.gen + 1 } :=
  AlertUnit.event_changed (by rw [hg]; exact hw.rank stamp) hl

variable (he : e ∈ u.list) (hp : e.isPair (.mic c) f = true)
include he hp

/-- The entry with another kind is none of the list's. -/
theorem AlertUnit.Orderly.changed_not_mem (h : u.Orderly) (hk : k ≠ e.kind) : { e with kind := k } ∉ u.list := fun hmem =>
  hk (congrArg AlertEntry.kind (h.pair_unique hmem he hp hp))

theorem AlertUnit.Orderly.length_without (h : u.Orderly) :
    (u.list.filter fun x => decide (x ≠ e)).length + 1 = u.list.length := by
  rw [← h.dropPair he hp]
  exact h.length_dropPair he hp

variable (hs : e.state ≠ .cleared)
include hs

/-- R87: an upgrade makes the entry NEW; no unlisted pair is above the old kind, and so none above the new. -/
theorem AlertUnit.Lawful.event_upgrade (h : u.Lawful) (hup : e.severity < k.severity) :
    MadeNew stamp (.mic c) f k (u.list.filter fun x => decide (x ≠ e)) u
        (u.event stamp (AlertUnit.changeKind stamp c f k)) ∧
      (u.event stamp (AlertUnit.changeKind stamp c f k)).unlisted = u.unlisted := by
  have hnew : u.changeKind stamp c f k = u.makeNew stamp (.mic c) f k :=
    (h.toOrderly.changeKind_listed stamp k he hp hs).trans (if_pos hup)
  exact h.event_new stamp hnew (h.renew_lawful stamp he hp fun q hq => (h.outranked q hq e he).trans hup.le)
    (h.toOrderly.dropPair he hp)

theorem AlertUnit.Orderly.changeKind_downgrade (h : u.Orderly) (hdown : k.severity < e.severity) :
    u.changeKind stamp c f k =
      { u with list := placeEntry { e with kind := k } (u.list.filter fun x => decide (x ≠ e)) } := by
  rw [h.changeKind_listed stamp k he hp hs, AlertUnit.changeListed, if_neg (Nat.lt_asymm hdown), if_pos hdown,
    h.dropPair he hp]

theorem AlertUnit.Orderly.changeKind_sameSeverity (h : u.Orderly) (hsame : k.severity = e.severity) :
    u.changeKind stamp c f k = { u with list := u.list.map fun x => if x = e then { e with kind := k } else x } := by
  rw [h.changeKind_listed stamp k he hp hs, AlertUnit.changeListed, if_neg hsame.ge.not_gt, if_neg hsame.le.not_gt,
    h.mapPair he hp]

/-- R88: the entry, its kind lowered, stands at the end of its new group. -/
theorem AlertUnit.Lawful.event_downgrade (h : u.Lawful) (hdown : k.severity < e.severity)
    (hk : ∀ q ∈ u.unlisted, q.severity ≤ k.severity) :
    PlacedIn { e with kind := k } (u.list.filter fun x => decide (x ≠ e))
        (u.event stamp (AlertUnit.changeKind stamp c f k)).list ∧
      u.event stamp (AlertUnit.changeKind stamp c f k) = { u with
        list := (u.event stamp (AlertUnit.changeKind stamp c f k)).list, gen := u.gen + 1 } := by
  have hchange := h.toOrderly.changeKind_downgrade (stamp := stamp) he hp hs hdown
  have ho := AlertUnit.changeKind_orderly h.toOrderly stamp c f k
  rw [hchange] at ho
  have hlaw : AlertUnit.Lawful
      { u with list := placeEntry { e with kind := k } (u.list.filter fun x => decide (x ≠ e)) } :=
    { ho with
      full := fun hne => by
        rw [length_placeEntry, h.toOrderly.length_without he hp]
        exact h.full hne
      outranked := fun q hq x hx => by
        obtain rfl | hx := (mem_placeEntry _ _ _).1 hx
        · exact hk q hq
        · exact h.outranked q hq x (List.mem_filter.1 hx).1 }
  have hmoved : placeEntry { e with kind := k } (u.list.filter fun x => decide (x ≠ e)) ≠ u.list := fun hsame =>
    h.toOrderly.changed_not_mem he hp (fun hkind => hdown.ne (by rw [hkind]; rfl))
      (hsame ▸ (mem_placeEntry _ _ _).2 (.inl rfl))
  rw [AlertUnit.event_of_lawful hchange hlaw hmoved]
  exact ⟨placeEntry_placedIn _ _ (h.ranked.filter _), rfl⟩

/-- R88, R93: the entry, its kind lowered below an unlisted pair, is evicted at once. -/
theorem AlertUnit.Lawful.event_downgrade_evicted (h : u.Lawful) (hdown : k.severity < e.severity)
    (hlow : ∃ q ∈ u.unlisted, k.severity < q.severity) :
    Displaced stamp c f k e u (u.event stamp (AlertUnit.changeKind stamp c f k)) := by
  have hchange := h.toOrderly.changeKind_downgrade (stamp := stamp) he hp hs hdown
  have ho := AlertUnit.changeKind_orderly h.toOrderly stamp c f k
  rw [hchange] at ho
  obtain ⟨q, hq, hlt⟩ := hlow
  have hlist : placeEntry { e with kind := k } (u.list.filter fun x => decide (x ≠ e)) =
      (u.list.filter fun x => decide (x ≠ e)) ++ [{ e with kind := k }] :=
    placeEntry_last _ _ fun x hx => hlt.le.trans (h.outranked q hq x (List.mem_filter.1 hx).1)
  rw [hlist] at hchange ho
  have hlength : ((u.list.filter fun x => decide (x ≠ e)) ++ [{ e with kind := k }]).length = Config.listCapacity := by
    rw [List.length_append, List.length_singleton, h.toOrderly.length_without he hp]
    exact h.full (List.ne_nil_of_mem hq)
  have hwithout : ((u.list.filter fun x => decide (x ≠ e)) ++ [{ e with kind := k }]).filter
      (fun x => decide (x ≠ { e with kind := k })) = u.list.filter fun x => decide (x ≠ e) := by
    have hother : ∀ x ∈ u.list.filter (fun x => decide (x ≠ e)), decide (x ≠ { e with kind := k }) = true := by
      intro x hx
      refine decide_eq_true fun hsame => ?_
      rw [hsame] at hx
      exact h.toOrderly.changed_not_mem he hp (fun hkind => hdown.ne (by rw [hkind]; rfl)) (List.mem_filter.1 hx).1
    rw [List.filter_append, List.filter_eq_self.2 hother]
    simp
  have hdisplaced := h.event_lowered stamp hchange ho rfl rfl rfl hlength (fun x hx => (List.mem_filter.1 hx).1) hp hs
    ⟨q, hq, hlt⟩
  intro p hmost
  have hp' := hdisplaced p hmost
  rw [hwithout] at hp'
  exact hp'

/-- R89: a change within one severity changes the kind in its place. -/
theorem AlertUnit.Lawful.event_sameSeverity (h : u.Lawful) (hsame : k.severity = e.severity) :
    u.event stamp (AlertUnit.changeKind stamp c f k) = { u with
      list := u.list.map fun x => if x = e then { e with kind := k } else x
      gen := if k = e.kind then u.gen else u.gen + 1 } := by
  have hchange := h.toOrderly.changeKind_sameSeverity (stamp := stamp) he hp hs hsame
  by_cases hkind : k = e.kind
  · have hlist : (u.list.map fun x => if x = e then { e with kind := k } else x) = u.list := by
      rw [hkind]
      exact map_one_same
    rw [hlist] at hchange
    rw [h.event_id stamp hchange, hlist, if_pos hkind]
  · have ho := AlertUnit.changeKind_orderly h.toOrderly stamp c f k
    rw [hchange] at ho
    have hlaw : AlertUnit.Lawful
        { u with list := u.list.map fun x => if x = e then { e with kind := k } else x } :=
      { ho with
        full := fun hne => by
          rw [List.length_map]
          exact h.full hne
        outranked := fun q hq x hx => by
          obtain ⟨y, hy, rfl⟩ := List.mem_map.1 hx
          split
          · exact (h.outranked q hq e he).trans hsame.ge
          · exact h.outranked q hq y hy }
    have hchanged : (u.list.map fun x => if x = e then { e with kind := k } else x) ≠ u.list :=
      map_one_ne he fun hx => hkind (congrArg AlertEntry.kind hx)
    rw [AlertUnit.event_of_lawful hchange hlaw hchanged, if_neg hkind]

end

/-- Settles O35: the three kind changes and the clearing, each as an event of the lawful unit. -/
theorem listedKindChangesAndClearings : Obligations.ListedKindChangesAndClearings := by
  refine ⟨fun c f k e rest s hwaits hlistening he hpair hstate => ?_, fun c f e rest s hwaits hlistening he hpair => ?_⟩
  · have hlawful := hlistening.lawful
    obtain ⟨t, hexec, honly, halert⟩ := hlistening.takes (exec_conditionKindChange hwaits)
    refine ⟨t, hexec, honly, ?_⟩
    rw [halert]
    exact ⟨hlawful.event_upgrade he hpair hstate, hlawful.event_downgrade he hpair hstate,
      hlawful.event_downgrade_evicted he hpair hstate, hlawful.event_sameSeverity he hpair hstate⟩
  · have hlawful := hlistening.lawful
    obtain ⟨t, hexec, honly, halert⟩ := hlistening.takes (exec_conditionClear hwaits)
    refine ⟨t, hexec, honly, ?_⟩
    rw [halert]
    exact hlawful.clearListed _ he hpair (hlawful.toOrderly.clearPair_listed he hpair)

/-! ## The part entry (R96) -/

section
variable {u : AlertUnit} {stamp : Word}

theorem AlertUnit.stallActive_room (hn : ∀ e ∈ u.list, e.isPair .part .part = false)
    (hl : u.list.length < Config.listCapacity) : u.stallActive stamp = u.makeNew stamp .part .part .claimStalled := by
  rw [AlertUnit.stallActive, AlertUnit.entryOf_eq_none hn]
  exact if_pos hl

theorem AlertUnit.stallActive_full (hn : ∀ e ∈ u.list, e.isPair .part .part = false)
    (hl : u.list.length = Config.listCapacity) :
    u.stallActive stamp = u.evictLast.makeNew stamp .part .part .claimStalled := by
  rw [AlertUnit.stallActive, AlertUnit.entryOf_eq_none hn]
  exact if_neg hl.not_lt

theorem AlertUnit.Orderly.stallActive_renews (h : u.Orderly) {e : AlertEntry} (he : e ∈ u.list)
    (hp : e.isPair .part .part = true) (hs : e.state = .cleared) :
    u.stallActive stamp = u.makeNew stamp .part .part .claimStalled := by
  rw [AlertUnit.stallActive, h.entryOf he hp]
  simp only [hs]

theorem AlertUnit.Orderly.stallInactive_listed (h : u.Orderly) {e : AlertEntry} (he : e ∈ u.list)
    (hp : e.isPair .part .part = true) : u.stallInactive = u.clearListed .part .part e := by
  rw [AlertUnit.stallInactive, h.entryOf he hp]

theorem UnlistedPair.severity_le_claimStalled (q : UnlistedPair) : q.severity ≤ Kind.claimStalled.severity :=
  Kind.severity_le q.kind

theorem unlisted_ne_part (l : List UnlistedPair) : ∀ p ∈ l, (AlertChannel.mic p.channel, p.family) ≠ (.part, .part) :=
  fun _ _ h => nomatch congrArg Prod.fst h

theorem AlertUnit.Lawful.event_stallActive_room (h : u.Lawful) (hn : ∀ e ∈ u.list, e.isPair .part .part = false)
    (hl : u.list.length < Config.listCapacity) :
    MadeNew stamp .part .part .claimStalled u.list u (u.event stamp (AlertUnit.stallActive stamp)) ∧
      (u.event stamp (AlertUnit.stallActive stamp)).unlisted = u.unlisted := by
  have hempty : u.unlisted = [] := h.unlisted_nil hl
  have ho := AlertUnit.makeNew_orderly h.toOrderly stamp .part .part .claimStalled (.inr hl) (unlisted_ne_part _)
  have hlaw := h.makeNew_lawful stamp .part .part .claimStalled ho (fun hne => absurd hempty hne)
    fun q _ => q.severity_le_claimStalled
  exact h.event_new stamp (AlertUnit.stallActive_room hn hl) hlaw (dropPair_of_none hn)

theorem AlertUnit.Lawful.event_stallActive_renews (h : u.Lawful) {e : AlertEntry} (he : e ∈ u.list)
    (hp : e.isPair .part .part = true) (hs : e.state = .cleared) :
    MadeNew stamp .part .part .claimStalled (u.list.filter fun x => decide (x ≠ e)) u
        (u.event stamp (AlertUnit.stallActive stamp)) ∧
      (u.event stamp (AlertUnit.stallActive stamp)).unlisted = u.unlisted :=
  h.event_new stamp (h.toOrderly.stallActive_renews he hp hs)
    (h.renew_lawful stamp he hp fun q _ => q.severity_le_claimStalled) (h.toOrderly.dropPair he hp)

/-- What the eviction of the last entry leaves (R94): its pair, now unlisted, is above no entry left. -/
theorem AlertUnit.Lawful.evictLast_outranked (h : u.Lawful) {front : List AlertEntry} {last : AlertEntry}
    (hlist : u.list = front ++ [last]) : ∀ q ∈ u.evictLast.unlisted, ∀ x ∈ front, q.severity ≤ x.severity := by
  intro q hq x hx
  obtain hq | ⟨-, -, -, hkind⟩ := (h.toOrderly.mem_evictLast hlist q).1 hq
  · exact h.outranked q hq x (by rw [hlist]; exact List.mem_append_left _ hx)
  · have hranked := h.ranked
    rw [hlist] at hranked
    have hbelow : last.severity ≤ x.severity :=
      (List.pairwise_append.1 hranked).2.2 x hx last (List.mem_singleton_self last)
    rw [UnlistedPair.severity, ← hkind]
    exact hbelow

/-- R96: into a full list the part entry goes over the evicted last entry, whatever its severity. -/
theorem AlertUnit.Lawful.event_stallActive_evicts (h : u.Lawful) (hn : ∀ e ∈ u.list, e.isPair .part .part = false)
    (hl : u.list.length = Config.listCapacity) {front : List AlertEntry} {last : AlertEntry}
    (hlist : u.list = front ++ [last]) :
    MadeNew stamp .part .part .claimStalled front { u with list := front }
        (u.event stamp (AlertUnit.stallActive stamp)) ∧
      EvictedInto last none u (u.event stamp (AlertUnit.stallActive stamp)) := by
  let v := u.evictLast.makeNew stamp .part .part .claimStalled
  have hev := AlertUnit.evictLast_orderly h.toOrderly
  have hfront : u.evictLast.list = front := by
    rw [AlertUnit.evictLast_list, hlist, List.dropLast_concat]
  have hlength : front.length + 1 = Config.listCapacity := by
    rw [← hl, hlist, List.length_append, List.length_singleton]
  have hothers : dropPair .part .part u.evictLast.list = front := by
    rw [hfront]
    exact dropPair_of_none fun x hx => hn x (by rw [hlist]; exact List.mem_append_left _ hx)
  have ho : v.Orderly :=
    AlertUnit.makeNew_orderly hev stamp .part .part .claimStalled (.inr (by rw [hfront]; omega)) (unlisted_ne_part _)
  have hplaced := hev.makeNew stamp .part .part .claimStalled
  rw [hothers] at hplaced
  have hlaw : v.Lawful :=
    { ho with
      full := fun _ => by
        show (placeEntry _ (dropPair .part .part u.evictLast.list)).length = _
        rw [length_placeEntry, hothers, hlength]
      outranked := fun q hq x hx => by
        obtain rfl | hx := (mem_placeEntry _ _ _).1 hx
        · exact q.severity_le_claimStalled
        · rw [hothers] at hx
          exact h.evictLast_outranked hlist q hq x hx }
  have hchanged : v.list ≠ u.list := by
    obtain ⟨x, hx, hpair⟩ := hplaced.listed
    intro hsame
    exact Bool.false_ne_true ((hn x (hsame ▸ hx)).symm.trans hpair)
  have hevent : u.event stamp (AlertUnit.stallActive stamp) = { v with gen := u.evictLast.gen + 1 } :=
    AlertUnit.event_of_lawful (AlertUnit.stallActive_full hn hl) hlaw hchanged
  rw [hevent]
  refine ⟨hplaced.of_evictLast hlist, fun q => (h.toOrderly.mem_evictLast hlist q).trans (or_congr_left ?_)⟩
  exact (and_iff_left (Option.some_ne_none _).symm).symm

end

/-- In ACTIVE the unit takes a CLAIM_STALLED event as one event of its list (R84, R96). -/
theorem stall_takes {s : State} {i : Instr} {g : AlertUnit → AlertUnit} {rest : List Bool} (hpart : s.setup.part = .active)
    (hexec : exec i s = .next (listEventIfActive g { s with mail := { s.mail with stalls := rest } })) :
    ∃ t, exec i s = .next t ∧ OnlyAlerts { s with mail := { s.mail with stalls := rest } } t ∧
      t.alert = s.alert.event s.time.seconds g :=
  ⟨_, hexec, listEventIfActive_onlyAlerts _ _,
    listEventIfActive_alert (s := { s with mail := { s.mail with stalls := rest } }) hpart⟩

/-- Settles O38: the part entry entered, renewed and cleared, each as an event of the lawful unit. -/
theorem partEntry : Obligations.PartEntry := by
  refine fun rest s hpart hlawful => ⟨fun hwaits => ?_, fun hwaits e he hpair => ?_⟩
  · obtain ⟨t, hexec, honly, halert⟩ := stall_takes hpart (exec_claimStalledActive hwaits)
    refine ⟨t, hexec, honly, ?_⟩
    rw [halert]
    exact ⟨fun hnone => ⟨hlawful.event_stallActive_room hnone,
        fun front last hfull hlist => hlawful.event_stallActive_evicts hnone hfull hlist⟩,
      fun e he hpair hcleared => hlawful.event_stallActive_renews he hpair hcleared⟩
  · obtain ⟨t, hexec, honly, halert⟩ := stall_takes hpart (exec_claimStalledInactive hwaits)
    refine ⟨t, hexec, honly, ?_⟩
    rw [halert]
    exact hlawful.clearListed _ he hpair (hlawful.toOrderly.stallInactive_listed he hpair)

end Sys2Proof.Machine
end
